-- ==== Sys2Proof/Word.lean ====
section
/-! DEFINITION. The word types of the Fenael KX3: bytes, 32-bit words and 64-bit words (spec/00_scope.md R4, R5). -/

namespace Sys2Proof

/-- One byte of memory (R4). -/
abbrev Byte := BitVec 8

/-- A g or k register, or one instruction word (R5, R37). -/
abbrev Word := BitVec 32

/-- An f register image, an e register, a g pair or an address (R5). -/
abbrev Dword := BitVec 64

end Sys2Proof
end

