-- ==== Sys2Proof/Syntax.lean ====
section
/-! DEFINITION. The whole syntax of the Fenael KX3: the decoded fields of a Kwexis instruction word (spec/03_encodings.md R39,
R42, R43, R45), the Xkw fields of a firmware core (R427), a management command (R440), and Instr, one constructor for each row
of spec/opcode_table.json (the row QSET has two: the predicate instruction of R107 and the command of R442). -/

namespace Sys2Proof

/-- The fields of one Kwexis instruction (R39, R42, R43, R45). In the 32-bit form the extended fields hold the
defaults of R48; `lit` is the placement that R45 implies. XOP is not a field: the constructor of Instr says it. -/
structure Fld where
  len   : BitVec 2   -- R37: 0 32-bit, 1 with literal, 2 extended, 3 extended with literal
  stl   : BitVec 3   -- R59
  d     : BitVec 7   -- R39 [17:11]
  a     : BitVec 7   -- R39 [24:18]
  b     : BitVec 7   -- R39 [31:25]; zero in a group's 32-bit form, where it holds the sub-operation (R49)
  lit   : BitVec 3   -- R45
  rnd   : BitVec 3   -- R52
  fmt   : BitVec 4   -- R51
  scope : BitVec 3   -- R53
  ord   : Bool       -- R42 [18]
  u     : Bool       -- R17
  c     : BitVec 7   -- R42 [16:10]
  cache : BitVec 3   -- R56
  spc   : BitVec 3   -- R54
  atm   : BitVec 2   -- R43 [25:24]
  w     : BitVec 3   -- R55
  e     : BitVec 4   -- R43 [20:17]
  rsvA  : BitVec 2   -- word 2 [16:15], reserved (R44)
  gq    : BitVec 3   -- R58
  gs    : BitVec 2   -- R58
  ge    : Bool       -- R58
  rsvB  : Bool       -- word 2 [8], reserved (R44)
  md    : BitVec 8   -- R57
  imm   : Dword      -- the literal, low word first (R37)
  deriving DecidableEq, Repr

/-- The R-type fields of a firmware-core instruction (R427). -/
structure XFld where
  rd  : BitVec 5
  rs1 : BitVec 5
  rs2 : BitVec 5
  deriving DecidableEq, Repr

/-- A request of the command channel (R440): who sends it (a master identity, R442), over which link, its header and payload. -/
structure Cmd where
  src     : Word        -- master identity: [31:24] kind, [23:16] host, [15:0] function (R442)
  mctp    : Bool        -- carried by MCTP (R438); otherwise through the function's command page
  ver     : Nat
  len     : Nat
  rfl     : Nat         -- bit 0 indirect (R440)
  tag     : Word
  rsv     : Word        -- header bytes 0x0C to 0x0F, zero (R440)
  seq     : Word        -- sequence number written to DBELL (R439)
  payload : List Byte
  deriving DecidableEq, Repr

/-- What a request of this package can meet at its home in another (R397, R398). -/
inductive RemoteFail where
  | denied                            -- the destination's translation or protection: cause 3 of R392
  | check (info : List (BitVec 8))    -- a machine check there
  | race (info : List (BitVec 8))     -- a race at its home there (R398)
  deriving DecidableEq, Repr

/-- What a packet of another package asks for, or brings. -/
inductive RemoteKind where
  | read (n : Nat)
  | write (bytes : List (BitVec 8))                       -- rst, or a member's part of an rmcast (R399, R401)
  | fop (op : Nat) (fl : Bool) (fmt : BitVec 4) (n : Nat) (val cmp : BitVec 128) (idx : Option Word)
  | red (op : Nat) (fl : Bool) (fmt : BitVec 4) (n : Nat) (val : BitVec 64) (idx : Option Word)
  | flag (bytes : List (BitVec 8)) (ordered : Bool) (counts : List (Nat × Nat))
  | message (box : Nat) (bytes : List (BitVec 8))         -- mbsend to a mailbox of this package (R217, R218)
  | aperture (part idx : Nat) (entry : List (BitVec 8))   -- an entry that the sender's firmware mirrors here (R391)
  | closed (part idx : Nat)                               -- its mirror is removed
  | there (node : Nat) (k : RemoteKind)                   -- what an agent of another package does at another package's home (R393)
  | failed (key : Nat) (why : RemoteFail)                 -- what a request of this package met at its home there (R397, R398)
  | sqopen (size : Nat) (first : Word)                    -- a window that the sender opens over its own memory (R209, R400)
  | sqclose                                               -- the window is closed
  deriving DecidableEq, Repr

/-- A packet that arrives from another package, with what R177, R222, R223 and R403 have it carry. `launch` is the key of this
package's launch of the same domain group, 0 for none. -/
structure RemoteIn where
  agent  : BitVec 21      -- issuing agent; CHIP is the sending node
  launch : Nat
  tid    : Word           -- issuing thread
  plane  : Nat            -- plane, and so port, of arrival (R388)
  cid    : Word           -- issuing context
  dcid   : Word           -- destination context (R391)
  addr   : Nat
  clk    : Nat            -- the agent's C at issue (R223)
  floor  : Nat            -- its floor F, for R225's test
  tag    : Nat
  scope  : BitVec 3
  mode   : Nat            -- race mode of its launch
  rel    : Option Nat     -- stamp of a release-ordered write
  kind   : RemoteKind
  deriving DecidableEq, Repr

/-- What arrives at a home: a request of this package, by its key, or a packet of another package. -/
inductive Arrival where
  | own (key : Nat)
  | foreign (x : RemoteIn)
  deriving DecidableEq, Repr

/-- A queue's page in the BAR0 of a function (R407, R438). -/
structure QueuePage where
  fn  : Nat
  num : Nat
  deriving DecidableEq, Repr

/-- One constructor for each row of spec/opcode_table.json. The rows with an encoding carry the decoded fields; the rows
that are events of the device carry what names the event; the rows that are management commands carry the request. -/
inductive Instr where
  | nop (f : Fld)  -- NOP (R61)
  | norace (f : Fld)  -- NORACE (R238)
  | atom (f : Fld)  -- ATOM (R61)
  | peer (f : Fld)  -- PEER (R61)
  | ord (f : Fld)  -- ORD (R61)
  | scope (f : Fld)  -- SCOPE (R61)
  | iadd (f : Fld)  -- IADD (R95)
  | isub (f : Fld)  -- ISUB (R95)
  | imul (f : Fld)  -- IMUL (R95)
  | iand (f : Fld)  -- IAND (R95)
  | ior (f : Fld)  -- IOR (R95)
  | ixor (f : Fld)  -- IXOR (R95)
  | shl (f : Fld)  -- SHL (R95)
  | shr (f : Fld)  -- SHR (R95)
  | sar (f : Fld)  -- SAR (R95)
  | mov (f : Fld)  -- MOV (R95)
  | icmp (f : Fld)  -- ICMP (R96)
  | lea (f : Fld)  -- LEA (R97)
  | imad (f : Fld)  -- IMAD (R98)
  | imulhi (f : Fld)  -- IMULHI (R98)
  | idiv (f : Fld)  -- IDIV (R99)
  | irem (f : Fld)  -- IREM (R99)
  | imin (f : Fld)  -- IMIN (R98)
  | imax (f : Fld)  -- IMAX (R98)
  | iabs (f : Fld)  -- IABS (R98)
  | ineg (f : Fld)  -- INEG (R98)
  | inot (f : Fld)  -- INOT (R98)
  | popc (f : Fld)  -- POPC (R98)
  | clz (f : Fld)  -- CLZ (R98)
  | ctz (f : Fld)  -- CTZ (R98)
  | brev (f : Fld)  -- BREV (R98)
  | bfe (f : Fld)  -- BFE (R100)
  | bfi (f : Fld)  -- BFI (R100)
  | rotl (f : Fld)  -- ROTL (R98)
  | rotr (f : Fld)  -- ROTR (R98)
  | isel (f : Fld)  -- ISEL (R98)
  | iadd3 (f : Fld)  -- IADD3 (R98)
  | sext (f : Fld)  -- SEXT (R98)
  | mvk (f : Fld)  -- MVK (R101)
  | mkg (f : Fld)  -- MKG (R101)
  | mvf (f : Fld)  -- MVF (R101)
  | mfg (f : Fld)  -- MFG (R101)
  | srd (f : Fld)  -- SRD (R102)
  | swr (f : Fld)  -- SWR (R102)
  | fadd (f : Fld)  -- FADD (R135)
  | fmul (f : Fld)  -- FMUL (R135)
  | fma (f : Fld)  -- FMA (R135)
  | fcmp (f : Fld)  -- FCMP (R136)
  | fmin (f : Fld)  -- FMIN (R138)
  | fmax (f : Fld)  -- FMAX (R138)
  | fabs (f : Fld)  -- FABS (R137)
  | fneg (f : Fld)  -- FNEG (R137)
  | fcsgn (f : Fld)  -- FCSGN (R137)
  | fdiv (f : Fld)  -- FDIV (R137)
  | fsqrt (f : Fld)  -- FSQRT (R137)
  | frcp (f : Fld)  -- FRCP (R140)
  | frsq (f : Fld)  -- FRSQ (R140)
  | fex2 (f : Fld)  -- FEX2 (R140)
  | flg2 (f : Fld)  -- FLG2 (R140)
  | fsin (f : Fld)  -- FSIN (R140)
  | fcos (f : Fld)  -- FCOS (R140)
  | frnd (f : Fld)  -- FRND (R137)
  | fclass (f : Fld)  -- FCLASS (R141)
  | fsel (f : Fld)  -- FSEL (R141)
  | fldexp (f : Fld)  -- FLDEXP (R137)
  | cvt (f : Fld)  -- CVT (R143)
  | cvti (f : Fld)  -- CVTI (R144)
  | cvtf (f : Fld)  -- CVTF (R145)
  | pack2 (f : Fld)  -- PACK2 (R145)
  | unpk2 (f : Fld)  -- UNPK2 (R145)
  | imake (f : Fld)  -- IMAKE (R150)
  | ilo (f : Fld)  -- ILO (R150)
  | ihi (f : Fld)  -- IHI (R150)
  | iaddInterval (f : Fld)  -- IADD_INTERVAL (R150)
  | isubInterval (f : Fld)  -- ISUB_INTERVAL (R150)
  | imulInterval (f : Fld)  -- IMUL_INTERVAL (R150)
  | idivInterval (f : Fld)  -- IDIV_INTERVAL (R151)
  | isqr (f : Fld)  -- ISQR (R150)
  | isqrt (f : Fld)  -- ISQRT (R150)
  | ihull (f : Fld)  -- IHULL (R150)
  | iinter (f : Fld)  -- IINTER (R150)
  | imid (f : Fld)  -- IMID (R152)
  | iwid (f : Fld)  -- IWID (R150)
  | iin (f : Fld)  -- IIN (R150)
  | icmpInterval (f : Fld)  -- ICMP_INTERVAL (R153)
  | ibis (f : Fld)  -- IBIS (R154)
  | qand (f : Fld)  -- QAND (R106)
  | qor (f : Fld)  -- QOR (R106)
  | qnot (f : Fld)  -- QNOT (R106)
  | qxor (f : Fld)  -- QXOR (R106)
  | qmov (f : Fld)  -- QMOV (R107)
  | qset (f : Fld)  -- QSET (R107)
  | qdef (f : Fld)  -- QDEF (R107)
  | mfromq (f : Fld)  -- MFROMQ (R108)
  | mset (f : Fld)  -- MSET (R108)
  | mget (f : Fld)  -- MGET (R108)
  | mand (f : Fld)  -- MAND (R108)
  | mor (f : Fld)  -- MOR (R108)
  | mnot (f : Fld)  -- MNOT (R108)
  | mpop (f : Fld)  -- MPOP (R108)
  | mfirst (f : Fld)  -- MFIRST (R108)
  | vote (f : Fld)  -- VOTE (R109)
  | bra (f : Fld)  -- BRA (R113)
  | brc (f : Fld)  -- BRC (R114)
  | bri (f : Fld)  -- BRI (R113)
  | call (f : Fld)  -- CALL (R118)
  | calli (f : Fld)  -- CALLI (R118)
  | ret (f : Fld)  -- RET (R118)
  | brq (f : Fld)  -- BRQ (R115)
  | exit (f : Fld)  -- EXIT (R119)
  | yield (f : Fld)  -- YIELD (R120)
  | spawn (f : Fld)  -- SPAWN (R121)
  | brk (f : Fld)  -- BRK (R122)
  | trap (f : Fld)  -- TRAP (R122)
  | swi (f : Fld)  -- SWI (R123)
  | tret (f : Fld)  -- TRET (R124)
  | ccreate (f : Fld)  -- CCREATE (R247)
  | cfree (f : Fld)  -- CFREE (R247)
  | cjoin (f : Fld)  -- CJOIN (R247)
  | cleave (f : Fld)  -- CLEAVE (R247)
  | cpin (f : Fld)  -- CPIN (R248)
  | cunpin (f : Fld)  -- CUNPIN (R248)
  | cid (f : Fld)  -- CID (R247)
  | cbar (f : Fld)  -- CBAR (R253)
  | carrive (f : Fld)  -- CARRIVE (R253)
  | cwait (f : Fld)  -- CWAIT (R253)
  | shfl (f : Fld)  -- SHFL (R255)
  | shup (f : Fld)  -- SHUP (R255)
  | shdn (f : Fld)  -- SHDN (R255)
  | shxor (f : Fld)  -- SHXOR (R255)
  | bcast (f : Fld)  -- BCAST (R255)
  | redux (f : Fld)  -- REDUX (R256)
  | scan (f : Fld)  -- SCAN (R256)
  | matchLanes (f : Fld)  -- MATCH (R258)
  | elect (f : Fld)  -- ELECT (R258)
  | ld (f : Fld)  -- LD (R199)
  | ldp (f : Fld)  -- LDP (R200)
  | st (f : Fld)  -- ST (R199)
  | ldf (f : Fld)  -- LDF (R201)
  | ldk (f : Fld)  -- LDK (R202)
  | stf (f : Fld)  -- STF (R201)
  | aadd (f : Fld)  -- AADD (R206)
  | asub (f : Fld)  -- ASUB (R206)
  | amin (f : Fld)  -- AMIN (R206)
  | amax (f : Fld)  -- AMAX (R206)
  | aand (f : Fld)  -- AAND (R206)
  | aor (f : Fld)  -- AOR (R206)
  | axor (f : Fld)  -- AXOR (R206)
  | aexch (f : Fld)  -- AEXCH (R206)
  | acas (f : Fld)  -- ACAS (R205)
  | ainc (f : Fld)  -- AINC (R206)
  | adec (f : Fld)  -- ADEC (R206)
  | redadd (f : Fld)  -- REDADD (R208)
  | redmin (f : Fld)  -- REDMIN (R208)
  | redmax (f : Fld)  -- REDMAX (R208)
  | redand (f : Fld)  -- REDAND (R208)
  | redor (f : Fld)  -- REDOR (R208)
  | redxor (f : Fld)  -- REDXOR (R208)
  | sqopen (f : Fld)  -- SQOPEN (R209)
  | sqclose (f : Fld)  -- SQCLOSE (R209)
  | rel (f : Fld)  -- REL (R213)
  | acq (f : Fld)  -- ACQ (R213)
  | fopr (f : Fld)  -- FOPR (R188)
  | feng (f : Fld)  -- FENG (R189)
  | monitor (f : Fld)  -- MONITOR (R214)
  | mwait (f : Fld)  -- MWAIT (R215)
  | drain (f : Fld)  -- DRAIN (R193)
  | mbsend (f : Fld)  -- MBSEND (R218)
  | mbrecv (f : Fld)  -- MBRECV (R219)
  | mbpoll (f : Fld)  -- MBPOLL (R220)
  | cpy (f : Fld)  -- CPY (R264)
  | cpyw (f : Fld)  -- CPYW (R269)
  | cpyg (f : Fld)  -- CPYG (R263)
  | cpys (f : Fld)  -- CPYS (R263)
  | fwait (f : Fld)  -- FWAIT (R275)
  | ftest (f : Fld)  -- FTEST (R275)
  | fcancel (f : Fld)  -- FCANCEL (R276)
  | xinit (f : Fld)  -- XINIT (R279)
  | xexpect (f : Fld)  -- XEXPECT (R279)
  | xarrive (f : Fld)  -- XARRIVE (R279)
  | xwait (f : Fld)  -- XWAIT (R279)
  | hod (f : Fld)  -- HOD (R422)
  | launch (f : Fld)  -- LAUNCH (R423)
  | mma (f : Fld)  -- MMA (R312)
  | tzero (f : Fld)  -- TZERO (R322)
  | tld (f : Fld)  -- TLD (R322)
  | tst (f : Fld)  -- TST (R322)
  | trow (f : Fld)  -- TROW (R322)
  | tcvt (f : Fld)  -- TCVT (R323)
  | tscale (f : Fld)  -- TSCALE (R324)
  | mbatch (f : Fld)  -- MBATCH (R318)
  | dxpack (f : Fld)  -- DXPACK (R296)
  | dxunpk (f : Fld)  -- DXUNPK (R299)
  | resclr (f : Fld)  -- RESCLR (R302)
  | resclrAll (f : Fld)  -- RESCLR_ALL (R302)
  | resget (f : Fld)  -- RESGET (R302)
  | resset (f : Fld)  -- RESSET (R302)
  | resclrTile (f : Fld)  -- RESCLR_TILE (R302)
  | resgetTile (f : Fld)  -- RESGET_TILE (R302)
  | ressetTile (f : Fld)  -- RESSET_TILE (R302)
  | pget (f : Fld)  -- PGET (R351)
  | pret (f : Fld)  -- PRET (R352)
  | plaunch (f : Fld)  -- PLAUNCH (R353)
  | prelaunch (f : Fld)  -- PRELAUNCH (R354)
  | rld (f : Fld)  -- RLD (R399)
  | rst (f : Fld)  -- RST (R399)
  | rfop (f : Fld)  -- RFOP (R400)
  | rred (f : Fld)  -- RRED (R400)
  | rmcast (f : Fld)  -- RMCAST (R401)
  | rfence (f : Fld)  -- RFENCE (R402)
  | rflag (f : Fld)  -- RFLAG (R403)
  | rpath (f : Fld)  -- RPATH (R404)
  | csrr (f : Fld)  -- CSRR (R445)
  | csrw (f : Fld)  -- CSRW (R445)
  | tlbinv (f : Fld)  -- TLBINV (R447)
  | cinv (f : Fld)  -- CINV (R448)
  | cwb (f : Fld)  -- CWB (R448)
  | halt (f : Fld)  -- HALT (R449)
  | racectlClean (f : Fld)  -- RACECTL_CLEAN (R236)
  | racectlQuiet (f : Fld)  -- RACECTL_QUIET (R236)
  | racectlCount (f : Fld)  -- RACECTL_COUNT (R237)
  | rclk (f : Fld)  -- RCLK (R235)
  | dbgld (f : Fld)  -- DBGLD (R453)
  | dbgst (f : Fld)  -- DBGST (R453)
  | expo (f : Fld)  -- EXPO (R456)
  | qfetch (x : XFld)  -- QFETCH (R427)
  | bfx (x : XFld)  -- BFX (R427)
  | swait (x : XFld)  -- SWAIT (R427)
  | disp (x : XFld)  -- DISP (R427)
  | sheetFormation (pal : Nat) (pc : Dword)  -- SHEET_FORMATION (R21)
  | spawnWaitLimit (pal : Nat)  -- SPAWN_WAIT_LIMIT (R21)
  | spawnStoreSpaceFreed (pal : Nat)  -- SPAWN_STORE_SPACE_FREED (R23)
  | palletSwap (out inn : Nat)  -- PALLET_SWAP (R31)
  | palletQuantumExpiry (pal : Nat)  -- PALLET_QUANTUM_EXPIRY (R420)
  | launchAdmission (sub : Nat)  -- LAUNCH_ADMISSION (R417)
  | evictedSheetRestore (pal : Nat)  -- EVICTED_SHEET_RESTORE (R379)
  | launchEnd (launch : Nat)  -- LAUNCH_END (R179)
  | contextSwitch (core : Nat) (cid : Word)  -- CONTEXT_SWITCH (R380)
  | contextRestore (core : Nat) (cid : Word)  -- CONTEXT_RESTORE (R380)
  | l1Eviction (core sector : Nat)  -- L1_EVICTION (R172)
  | storePerformedAtHome (k : Nat)  -- STORE_PERFORMED_AT_HOME (R184)
  | mwaitLimitExpiry (uid : Nat)  -- MWAIT_LIMIT_EXPIRY (R215)
  | mwaitUnexplainedWake (uid : Nat)  -- MWAIT_UNEXPLAINED_WAKE (R36)
  | swiWakeOr (k : Nat)  -- SWI_WAKE_OR (R123)
  | copyLanding (copy lo n : Nat)  -- COPY_LANDING (R281)
  | copyEngineFault (copy : Nat) (code : Byte)  -- COPY_ENGINE_FAULT (R266)
  | mmaAccumulationStep (mma : Nat)  -- MMA_ACCUMULATION_STEP (R312)
  | pairMatcherWalk (pal : Nat)  -- PAIR_MATCHER_WALK (R338)
  | sequencerPartialArrival (k : Nat)  -- SEQUENCER_PARTIAL_ARRIVAL (R346)
  | remoteRequestArrival (x : Arrival)  -- REMOTE_REQUEST_ARRIVAL (R393)
  | remoteAckArrival (k : Nat)  -- REMOTE_ACK_ARRIVAL (R216)
  | remoteFlagArrival (x : Arrival)  -- REMOTE_FLAG_ARRIVAL (R403)
  | fenceMarkerArrival (k : Nat)  -- FENCE_MARKER_ARRIVAL (R194)
  | hostMemoryAccess (fn : Nat) (cid : Word) (va : Dword) (wr : Bool) (bytes : List Byte)  -- HOST_MEMORY_ACCESS (R168)
  | mortarPlaneFailure (plane : Nat)  -- MORTAR_PLANE_FAILURE (R403)
  | linkTraining (port : Nat) (versions : List Nat)  -- LINK_TRAINING (R405)
  | hostLinkRetraining  -- HOST_LINK_RETRAINING (R414)
  | trapQueueResume (cid : Word) (base : Dword) (value : Word)  -- TRAP_QUEUE_RESUME (R375)
  | trapQueueSpaceFreed (cid : Word) (base ridx : Dword)  -- TRAP_QUEUE_SPACE_FREED (R374)
  | watchdogExpiry (cid : Word)  -- WATCHDOG_EXPIRY (R381)
  | queueDoorbell (q : QueuePage) (value : Nat)  -- QUEUE_DOORBELL (R407)
  | queueRestart (q : QueuePage) (value : Word)  -- QUEUE_RESTART (R426)
  | queueWakeClear (q : QueuePage) (bits : Word)  -- QUEUE_WAKE_CLEAR (R407)
  | packetFetch (q : Nat)  -- PACKET_FETCH (R411)
  | packetRefetchTimer (q : Nat)  -- PACKET_REFETCH_TIMER (R411)
  | launchPacket (q x : Nat)  -- LAUNCH_PACKET (R409)
  | pairLaunchPacket (q x : Nat)  -- PAIR_LAUNCH_PACKET (R409)
  | copyPacket (q x : Nat)  -- COPY_PACKET (R409)
  | signalPacket (q x : Nat)  -- SIGNAL_PACKET (R409)
  | waitPacket (q x : Nat)  -- WAIT_PACKET (R412)
  | waitPacketConditionMet (q x : Nat)  -- WAIT_PACKET_CONDITION_MET (R412)
  | dependencyPacket (q x : Nat)  -- DEPENDENCY_PACKET (R412)
  | timestampPacket (q x : Nat)  -- TIMESTAMP_PACKET (R409)
  | markerPacket (q x : Nat)  -- MARKER_PACKET (R409)
  | packetEnd (q x : Nat)  -- PACKET_END (R413)
  | eventRingSpaceFreed (part ridx : Nat)  -- EVENT_RING_SPACE_FREED (R425)
  | firmwareComplexReset  -- FIRMWARE_COMPLEX_RESET (R414)
  | coreRetirement (core : Nat)  -- CORE_RETIREMENT (R436)
  | getverCmd (c : Cmd)  -- GETVER (R442)
  | nonceCmd (c : Cmd)  -- NONCE (R442)
  | claimCmd (c : Cmd)  -- CLAIM (R431)
  | releaseCmd (c : Cmd)  -- RELEASE (R431)
  | beatCmd (c : Cmd)  -- BEAT (R443)
  | partsetCmd (c : Cmd)  -- PARTSET (R428)
  | partdelCmd (c : Cmd)  -- PARTDEL (R428)
  | partgetCmd (c : Cmd)  -- PARTGET (R442)
  | ctxnewCmd (c : Cmd)  -- CTXNEW (R442)
  | ctxdelCmd (c : Cmd)  -- CTXDEL (R442)
  | queueSetCmd (c : Cmd)  -- QSET (R442)
  | qresetCmd (c : Cmd)  -- QRESET (R442)
  | evsetCmd (c : Cmd)  -- EVSET (R442)
  | apopenCmd (c : Cmd)  -- APOPEN (R442)
  | apcloseCmd (c : Cmd)  -- APCLOSE (R442)
  | mcsetCmd (c : Cmd)  -- MCSET (R442)
  | mcdelCmd (c : Cmd)  -- MCDEL (R442)
  | healthCmd (c : Cmd)  -- HEALTH (R442)
  | retgetCmd (c : Cmd)  -- RETGET (R442)
  | retclrCmd (c : Cmd)  -- RETCLR (R442)
  | calgetCmd (c : Cmd)  -- CALGET (R442)
  | portgetCmd (c : Cmd)  -- PORTGET (R442)
  | readyCmd (c : Cmd)  -- READY (R442)
  | fwloadCmd (c : Cmd)  -- FWLOAD (R442)
  | ownerHeartbeatLapse  -- OWNER_HEARTBEAT_LAPSE (R431)
  | spdmRequest (c : Cmd)  -- SPDM_REQUEST (R432)
  | deviceReset  -- DEVICE_RESET (R437)
  | thermalThrottleStep (part : Option Nat)  -- THERMAL_THROTTLE_STEP (R434)
  | clockRaiseStep (part : Option Nat)  -- CLOCK_RAISE_STEP (R434)
  | overtempShutdown  -- OVERTEMP_SHUTDOWN (R434)
  | eccError (unit addr : Nat) (correctable : Bool)  -- ECC_ERROR (R435)
  | backgroundScrub (line : Nat)  -- BACKGROUND_SCRUB (R435)
  | debugHalt (pal : Nat)  -- DEBUG_HALT (R454)
  | debugResume (pal : Nat)  -- DEBUG_RESUME (R454)
  | debugRollback (pal : Nat)  -- DEBUG_ROLLBACK (R458)
  | rollbackTargetReached (pal : Nat)  -- ROLLBACK_TARGET_REACHED (R458)
  | exposureEnd (pal : Nat)  -- EXPOSURE_END (R456)
  | traceSample (pal : Nat)  -- TRACE_SAMPLE (R460)
  | registerWrite (pal word : Nat) (value : Word)  -- REGISTER_WRITE (R452)
  | illegalInstruction (bad : Word) (off : Nat) (w1 w2 : Word)  -- ILLEGAL_INSTRUCTION (R67)
  | undefinedCommand (opc : Nat) (c : Cmd)  -- UNDEFINED_COMMAND (R441)
  deriving DecidableEq, Repr

end Sys2Proof
end

