-- ==== Sys2Proof/Machine/Forms.lean ====
section
/-! DEFINITION. What the entry of each operation says about its encoding: forms and literal placements (R37, R45, R46, R67),
the values its fields accept (R41, R44), the registers its operand fields name (R40), whether it is privileged (R68) or kept for
pinned courses (R28), its fixed latency (R59) and its datapath occupancy (R134). One record per operation. -/

namespace Sys2Proof.Machine

/-- Register classes of R40. -/
inductive RC where
  | g | f | k | q | m | e | a
  deriving DecidableEq, Repr

/-- One operand field read as registers: the field (0 D, 1 A, 2 B, 3 C: R371), the class, the first number, how many
registers, the alignment, and whether the instruction reads them. -/
structure RegUse where
  fld : Nat
  cls : RC
  num : Nat
  cnt : Nat
  al  : Nat
  src : Bool
  deriving DecidableEq, Repr

/-- What one operation's entry lists. An unused field accepts only 0 (R41). -/
structure OpForm where
  maj    : Nat
  xop    : Nat := 0
  single : Bool := false
  s0     : Bool := false              -- LEN 0
  s1     : Nat := 0                   -- LEN 1: the implied placement, 0 when the form does not exist
  x2     : Bool := true               -- LEN 2
  lits   : List Nat := []             -- LEN 3: the placements listed
  litRsv : Bool := false              -- an unlisted placement is a reserved field (R453), not an illegal form (R46)
  uD     : Bool := true
  uA     : Bool := true
  uB     : Bool := true
  uC     : Bool := false
  tgt    : Bool := false              -- [24:11] hold a target or a code, zero when a literal stands for it (R110)
  rnd    : List Nat := [0]
  fmt    : List Nat := [0]
  scope  : List Nat := [0]
  ord    : Bool := false
  u      : Bool := false
  guard  : Bool := true
  cache  : List Nat := [0]
  spc    : List Nat := [0]
  atm    : List Nat := [0]
  w      : List Nat := [0]
  e      : List Nat := [0]
  md     : Nat → Bool := fun m => m == 0
  sel    : Fld → Bool := fun _ => true    -- which words of the number are this row's (RACECTL, RESCLR and so on)
  also   : Fld → Bool := fun _ => true    -- conditions over several fields; checked in every form, on the fields in effect
  regs   : Fld → List RegUse := fun _ => []
  priv   : Bool := false
  member : Bool := false
  lat    : Option Nat := none             -- fixed latency (R59)
  occ    : Fld → Nat := fun _ => 1        -- occupancy factor (R134)

/-! Registers an operand field names. `cnt` registers, aligned to `cnt`. -/

def useR (fld : Nat) (cls : RC) (num : BitVec 7) (cnt : Nat) : RegUse := ⟨fld, cls, num.toNat, cnt, cnt, true⟩
def useW (fld : Nat) (cls : RC) (num : BitVec 7) (cnt : Nat) : RegUse := ⟨fld, cls, num.toNat, cnt, cnt, false⟩

/-- Registers of an integer operand: a pair under s64 and u64 (R94). -/
def intCnt (f : Fld) : Nat := if f.fmt = 2 ∨ f.fmt = 3 then 2 else 1

/-- Bytes of an access of width W (R55). -/
def wBytes (w : BitVec 3) : Nat := 2 ^ w.toNat

/-- Registers that an access of width W fills (R55, R197). -/
def wCnt (w : BitVec 3) : Nat := max 1 (wBytes w / 4)

/-- Bytes of an ATM width (R43). -/
def atmBytes (a : BitVec 2) : Nat := if a = 0 then 4 else if a = 1 then 8 else 16

/-- True when the base of a memory operand is a pair (R198). -/
def basePair (spc : BitVec 3) : Bool := spc == 0 || spc == 4 || spc == 5

/-- The registers of a memory operand (R75, R198): the base in A and, when C is not 0, the index in C. -/
def memUse (f : Fld) : List RegUse :=
  useR 1 .g f.a (if basePair f.spc then 2 else 1) :: (if f.c = 0 then [] else [useR 3 .g f.c 1])

/-- The base of a memory operand whose C field holds something else. -/
def baseUse (f : Fld) : RegUse := useR 1 .g f.a (if basePair f.spc then 2 else 1)

/-- R111: in the extended form, with LV 0 the LIVE fields are zero. -/
def liveOk (f : Fld) : Bool := !f.len.getLsbD 1 || f.md.getLsbD 7 || (f.c == 0 && f.w == 0 && f.e == 0)

def all8 : List Nat := [0, 1, 2, 3, 4, 5, 6, 7]
def all16 : List Nat := [0, 1, 2, 3, 4, 5, 6, 7, 8, 9, 10, 11, 12, 13, 14, 15]
def scopes : List Nat := [0, 1, 2, 3, 4, 5, 6]
def int4 : List Nat := [0, 1, 2, 3]
def rnd5 : List Nat := [0, 1, 2, 3, 4]
def fmtS : List Nat := [0, 1, 2, 3]
def fmtP : List Nat := [0, 1, 2, 3, 4, 5, 6]

/-! ## Prefixes (R61) -/

def formPrefix (xop : Nat) : OpForm := { maj := 1, xop := xop, s0 := true, x2 := false }

/-! ## Integer (R95 to R103) -/

def formIntSingle (maj : Nat) (fmt : List Nat) (sat : Bool) : OpForm :=
  { maj := maj, single := true, s0 := true, s1 := 2, lits := [1, 2], fmt := fmt, u := true
    md := fun m => m == 0 || (sat && m == 1), lat := some 2
    regs := fun f => [useW 0 .g f.d (intCnt f), useR 1 .g f.a (intCnt f), useR 2 .g f.b (intCnt f)] }

def formIadd := formIntSingle 0x02 all8 true
def formIsub := formIntSingle 0x03 all8 true
def formImul := formIntSingle 0x04 all8 true
def formIand := formIntSingle 0x05 int4 false
def formIor := formIntSingle 0x06 int4 false
def formIxor := formIntSingle 0x07 int4 false
def formShl := formIntSingle 0x08 all8 false
def formShr := formIntSingle 0x09 all8 false
def formSar := formIntSingle 0x0A all8 false
def formMov : OpForm :=
  { maj := 0x0B, single := true, s0 := true, s1 := 1, lits := [1], uB := false, fmt := int4, u := true, lat := some 2
    regs := fun f => [useW 0 .g f.d (intCnt f), useR 1 .g f.a (intCnt f)] }
def formIcmp : OpForm :=
  { maj := 0x0C, single := true, s0 := true, s1 := 2, lits := [1, 2], fmt := int4, u := true, md := fun m => m < 6
    lat := some 2
    regs := fun f => [useW 0 .q f.d 1, useR 1 .g f.a (intCnt f), useR 2 .g f.b (intCnt f)] }
def formLea : OpForm :=
  { maj := 0x0D, single := true, s0 := true, s1 := 4, lits := [4], uB := false, uC := true, fmt := [0, 1], u := true
    md := fun m => m < 4, lat := some 2
    regs := fun f => [useW 0 .g f.d 2, useR 1 .g f.a 2] ++ (if f.c = 0 then [] else [useR 3 .g f.c 1]) }

/-- An operation of the integer group (R98) with sources A; A, B; or A, B, C. Which placements each takes: log 29. -/
def formIntGroup (xop n : Nat) (fmt : List Nat) (sat : Bool) : OpForm :=
  { maj := 0x0E, xop := xop, s0 := n == 1, s1 := if n == 1 then 1 else 0
    lits := if n == 1 then [1] else if n == 2 then [1, 2] else [1, 2, 3]
    uB := n ≥ 2, uC := n ≥ 3, fmt := fmt, u := true, md := fun m => m == 0 || (sat && m == 1)
    lat := some 2
    regs := fun f => [useW 0 .g f.d (intCnt f), useR 1 .g f.a (intCnt f)] ++
      (if n ≥ 2 then [useR 2 .g f.b (intCnt f)] else []) ++ (if n ≥ 3 then [useR 3 .g f.c (intCnt f)] else []) }

def formImad := formIntGroup 0 3 all8 true
def formImulhi := formIntGroup 1 2 int4 false
def formIdiv := { formIntGroup 2 2 int4 true with lat := none }
def formIrem := { formIntGroup 3 2 int4 false with lat := none }
def formImin := formIntGroup 4 2 all8 false
def formImax := formIntGroup 5 2 all8 false
def formIabs := formIntGroup 6 1 [0, 2, 4, 6] true
def formIneg := formIntGroup 7 1 all8 true
def formInot := formIntGroup 8 1 int4 false
def formPopc := formIntGroup 9 1 int4 false
def formClz := formIntGroup 10 1 int4 false
def formCtz := formIntGroup 11 1 int4 false
def formBrev := formIntGroup 12 1 int4 false
def formBfe := formIntGroup 13 2 int4 false
def formBfi := formIntGroup 14 3 int4 false
def formRotl := formIntGroup 15 2 int4 false
def formRotr := formIntGroup 16 2 int4 false
/-- A literal may stand for the predicate too (R98's placement c); its value is the low two bits (R47). -/
def formIsel : OpForm :=
  { formIntGroup 17 3 [0, 2] false with
    regs := fun f => [useW 0 .g f.d (intCnt f), useR 1 .g f.a (intCnt f), useR 2 .g f.b (intCnt f), useR 3 .q f.c 1] }
def formIadd3 := formIntGroup 18 3 all8 true
def formSext := formIntGroup 19 2 [0, 2] false
def formMvk : OpForm :=
  { formIntGroup 20 1 [0, 2] false with regs := fun f => [useW 0 .k f.d (intCnt f), useR 1 .g f.a (intCnt f)] }
def formMkg : OpForm :=
  { formIntGroup 21 1 [0, 2] false with regs := fun f => [useW 0 .g f.d (intCnt f), useR 1 .k f.a (intCnt f)] }
def formMvf : OpForm :=
  { formIntGroup 22 1 [0, 2] false with regs := fun f => [useW 0 .f f.d 1, useR 1 .g f.a (intCnt f)] }
def formMfg : OpForm :=
  { formIntGroup 23 1 [0, 2] false with regs := fun f => [useW 0 .g f.d (intCnt f), useR 1 .f f.a 1] }

/-- Numbers of R103. -/
def srListed (n : Nat) : Bool := n ≤ 0x14 || (0x40 ≤ n && n ≤ 0x4F)
def srWritable (n : Nat) : Bool := n == 0x0F || n == 0x13

def formSrd : OpForm :=
  { maj := 0x0F, xop := 0, s0 := true, uB := false, u := true, w := [2, 3], also := fun f => srListed f.a.toNat
    regs := fun f => [useW 0 .g f.d (if f.w = 3 then 2 else 1)] }
def formSwr : OpForm :=
  { maj := 0x0F, xop := 1, s0 := true, uB := false, u := true, w := [2, 3], also := fun f => srWritable f.d.toNat
    regs := fun f => [useR 1 .g f.a (if f.w = 3 then 2 else 1)] }

/-! ## Floating (R135 to R146) -/

/-- Registers of an f operand of an interval operation: a pair under f64 (R147). -/
def ivCnt (f : Fld) : Nat := if f.fmt = 1 then 2 else 1

def occF64 (f : Fld) : Nat := if f.fmt = 1 then 2 else 1

/-- fadd, fmul and, over it, fma. R135 lists the placements a, b and c for the three; a literal in place of an operand C that fadd and
fmul do not have is no listed form here: DESIGN CHOICE, log 29. -/
def formFloatSingle (maj : Nat) : OpForm :=
  { maj := maj, single := true, s0 := true, s1 := 2, lits := [1, 2], fmt := fmtP, rnd := rnd5, u := true, lat := some 4
    occ := occF64
    regs := fun f => [useW 0 .f f.d 1, useR 1 .f f.a 1, useR 2 .f f.b 1] }

def formFadd := formFloatSingle 0x10
def formFmul := formFloatSingle 0x11
def formFma : OpForm :=
  { formFloatSingle 0x12 with
    lits := [1, 2, 3], uC := true
    regs := fun f => [useW 0 .f f.d 1, useR 1 .f f.a 1, useR 2 .f f.b 1] ++
      (if f.len.getLsbD 1 then [useR 3 .f f.c 1] else [useR 0 .f f.d 1]) }
/-- R136 lists no literal placement; a and b are accepted: DESIGN CHOICE, log 29. -/
def formFcmp : OpForm :=
  { formFloatSingle 0x13 with
    fmt := fmtS, rnd := [0], md := fun m => m < 6
    regs := fun f => [useW 0 .q f.d 1, useR 1 .f f.a 1, useR 2 .f f.b 1] }

/-- An operation of the floating group (R137) with sources A or A, B. R137 lists no literal placement; those of the sources are
accepted: DESIGN CHOICE, log 29. -/
def formFloatGroup (xop n : Nat) (fmt rnd : List Nat) (lat : Option Nat) : OpForm :=
  { maj := 0x14, xop := xop, s0 := n == 1, s1 := if n == 1 then 1 else 0, lits := if n == 1 then [1] else [1, 2]
    uB := n ≥ 2, fmt := fmt, rnd := rnd, u := true, lat := lat
    regs := fun f => [useW 0 .f f.d 1, useR 1 .f f.a 1] ++ (if n ≥ 2 then [useR 2 .f f.b 1] else []) }

def formFmin := formFloatGroup 0 2 fmtP [0] (some 4)
def formFmax := formFloatGroup 1 2 fmtP [0] (some 4)
def formFabs := formFloatGroup 2 1 fmtP [0] (some 4)
def formFneg := formFloatGroup 3 1 fmtP [0] (some 4)
def formFcsgn := formFloatGroup 4 2 fmtP [0] (some 4)
def formFdiv := formFloatGroup 5 2 fmtS rnd5 none
def formFsqrt := formFloatGroup 6 1 fmtS rnd5 none
def formFrcp := formFloatGroup 7 1 fmtS [0] none
def formFrsq := formFloatGroup 8 1 fmtS [0] none
def formFex2 := formFloatGroup 9 1 fmtS [0] none
def formFlg2 := formFloatGroup 10 1 fmtS [0] none
def formFsin := formFloatGroup 11 1 fmtS [0] none
def formFcos := formFloatGroup 12 1 fmtS [0] none
def formFrnd : OpForm := { formFloatGroup 13 1 fmtS rnd5 (some 4) with md := fun m => m < 2 }
def formFclass : OpForm :=
  { formFloatGroup 14 1 fmtS [0] (some 4) with regs := fun f => [useW 0 .g f.d 1, useR 1 .f f.a 1] }
def formFsel : OpForm :=
  { formFloatGroup 15 2 [0] [0] (some 4) with
    uC := true
    regs := fun f => [useW 0 .f f.d 1, useR 1 .f f.a 1, useR 2 .f f.b 1, useR 3 .q f.c 1] }
def formFldexp : OpForm :=
  { formFloatGroup 16 2 fmtS rnd5 (some 4) with
    regs := fun f => [useW 0 .f f.d 1, useR 1 .f f.a 1, useR 2 .g f.b 1] }

def evenMask (n : Nat) (mask : Nat) : Bool := (n &&& mask) == n

/-- The residue register that error feedback reads, in field E (R143). -/
def useResidue (f : Fld) : List RegUse := if f.rnd = 5 then [⟨4, .e, f.e.toNat, 1, 1, true⟩] else []

def formCvt : OpForm :=
  { maj := 0x15, xop := 0, s0 := true, s1 := 1, lits := [1], uB := false, u := true, lat := some 4
    fmt := [0, 1, 2, 3, 7, 8, 9, 10, 14], rnd := [0, 1, 2, 3, 4, 5], e := all16, md := fun m => m < 0x40
    also := fun f =>
      let sat := f.md.getLsbD 4
      let eh := f.md.getLsbD 5
      let tg := f.md.toNat % 16
      (if f.fmt = 14 then 1 ≤ tg && tg ≤ 14 && f.rnd == 0 && f.e == 0 && !sat && !eh else tg == 0) &&
      (!sat || f.fmt == 7 || f.fmt == 8) &&
      (if f.rnd = 5 then f.fmt == 0 || f.fmt == 2 || f.fmt == 3 || f.fmt == 7 || f.fmt == 8 else !eh && f.e == 0)
    regs := fun f => [useW 0 .f f.d 1, useR 1 .f f.a 1] ++ useResidue f }

/-- Registers of an integer kind of cvti and cvtf (R142). -/
def kindCnt (f : Fld) : Nat := if f.md.getLsbD 1 then 2 else 1

/-- R144 and R145 list no literal placement for cvti and cvtf; a is accepted: DESIGN CHOICE, log 29. -/
def formCvti : OpForm :=
  { maj := 0x15, xop := 1, s0 := true, s1 := 1, lits := [1], uB := false, u := true, lat := some 4, fmt := fmtS, rnd := rnd5
    md := fun m => m < 4, regs := fun f => [useW 0 .g f.d (kindCnt f), useR 1 .f f.a 1] }
/-- A literal may stand for A, as for cvti: DESIGN CHOICE, log 29. -/
def formCvtf : OpForm :=
  { maj := 0x15, xop := 2, s0 := true, s1 := 1, lits := [1], uB := false, u := true, lat := some 4, fmt := fmtS, rnd := rnd5
    md := fun m => m < 4, regs := fun f => [useW 0 .f f.d 1, useR 1 .g f.a (kindCnt f)] }
def formPack2 : OpForm :=
  { maj := 0x15, xop := 3, u := true, lat := some 4, fmt := [4, 5, 6], rnd := [0, 1, 2, 3, 4, 5], e := all16
    also := fun f => f.rnd == 5 || f.e == 0
    regs := fun f => [useW 0 .f f.d 1, useR 1 .f f.a 1, useR 2 .f f.b 1] ++ useResidue f }
def formUnpk2 : OpForm :=
  { maj := 0x15, xop := 4, uB := false, u := true, lat := some 4, fmt := [4, 5, 6], md := fun m => m < 2
    regs := fun f => [useW 0 .f f.d 1, useR 1 .f f.a 1] }

/-! ## Intervals (R148 to R154). `kinds` gives, for D, A and B, 0 interval, 1 scalar f, 2 g, 3 q. -/

def ivUse (fld : Nat) (num : BitVec 7) (kind : Nat) (f : Fld) (src : Bool) : RegUse :=
  match kind with
  | 0 => ⟨fld, .f, num.toNat, ivCnt f, ivCnt f, src⟩
  | 1 => ⟨fld, .f, num.toNat, 1, 1, src⟩
  | 2 => ⟨fld, .g, num.toNat, 1, 1, src⟩
  | _ => ⟨fld, .q, num.toNat, 1, 1, src⟩

/-- An operation of the interval group (R148). A literal stands for the sources that the operation has; placement c is refused:
DESIGN CHOICE, log 29. -/
def formIv (xop kd ka : Nat) (kb : Option Nat) (lat : Option Nat) (occ : Fld → Nat) : OpForm :=
  { maj := 0x16, xop := xop, s0 := kb.isNone, s1 := if kb.isNone then 1 else 0
    lits := if kb.isNone then [1] else [1, 2], uB := kb.isSome, fmt := [0, 1], rnd := [0, 6], u := true, lat := lat, occ := occ
    regs := fun f => [ivUse 0 f.d kd f false, ivUse 1 f.a ka f true] ++
      (match kb with | some k => [ivUse 2 f.b k f true] | none => []) }

def occMul (f : Fld) : Nat := if f.fmt = 1 then 8 else 4

def formImake := formIv 0 0 1 (some 1) (some 4) occF64
def formIlo := formIv 1 1 0 none (some 4) occF64
def formIhi := formIv 2 1 0 none (some 4) occF64
def formIaddInterval := formIv 3 0 0 (some 0) (some 4) occF64
def formIsubInterval := formIv 4 0 0 (some 0) (some 4) occF64
def formImulInterval := formIv 5 0 0 (some 0) (some 6) occMul
def formIdivInterval := formIv 6 0 0 (some 0) none occF64
def formIsqr := formIv 7 0 0 none (some 6) occMul
def formIsqrt := formIv 8 0 0 none none occF64
def formIhull := formIv 9 0 0 (some 0) (some 4) occF64
def formIinter := formIv 10 0 0 (some 0) (some 4) occF64
def formImid := formIv 11 1 0 none (some 4) occF64
def formIwid := formIv 12 1 0 none (some 4) occF64
def formIin := formIv 13 3 0 (some 1) (some 4) occF64
def formIcmpInterval := { formIv 14 3 0 (some 0) (some 4) occF64 with md := fun m => m < 8 }
/-- ibis takes no literal: R154 writes A back, and lists no placement where R148 gives a, b and c to the group: DESIGN CHOICE, log 29. -/
def formIbis : OpForm :=
  { maj := 0x16, xop := 15, s0 := true, uB := false, uC := true, fmt := [0, 1], rnd := [0, 6], ord := true
    w := all8, e := all16, md := fun m => m == 0 || m == 0x80, also := liveOk, occ := occF64
    regs := fun f => [useW 0 .g f.d 1, useR 1 .f f.a (ivCnt f)] }

/-! ## Predicates and masks (R105 to R109) -/

def formQ2 (xop : Nat) : OpForm :=
  { maj := 0x17, xop := xop, u := true, lat := some 1, regs := fun f => [useW 0 .q f.d 1, useR 1 .q f.a 1, useR 2 .q f.b 1] }
def formQ1 (xop : Nat) : OpForm :=
  { maj := 0x17, xop := xop, s0 := true, uB := false, u := true, lat := some 1
    regs := fun f => [useW 0 .q f.d 1, useR 1 .q f.a 1] }

def formQand := formQ2 0
def formQor := formQ2 1
def formQnot := formQ1 2
def formQxor := formQ2 3
def formQmov := formQ1 4
def formQset : OpForm := { formQ1 5 with also := fun f => f.a.toNat < 3, regs := fun f => [useW 0 .q f.d 1] }
def formQdef : OpForm := { formQ1 6 with md := fun m => m < 2 }

/-- A mask instruction (R108): registers given, executed once for the course. -/
def formMask (xop : Nat) (regs : Fld → List RegUse) (uD uA uB : Bool) (md : Nat → Bool) : OpForm :=
  { maj := 0x17, xop := xop, s0 := !uB, uD := uD, uA := uA, uB := uB, guard := false, member := true, lat := some 1
    md := md, regs := regs }

def formMfromq := formMask 7 (fun f => [useW 0 .m f.d 1, useR 1 .q f.a 1]) true true false (fun m => m < 4)
def formMset := formMask 8 (fun f => [useR 1 .m f.a 1]) false true false (fun m => m == 0)
def formMget := formMask 9 (fun f => [useW 0 .m f.d 1]) true false false (fun m => m == 0)
def formMand := formMask 10 (fun f => [useW 0 .m f.d 1, useR 1 .m f.a 1, useR 2 .m f.b 1]) true true true (fun m => m == 0)
def formMor := formMask 11 (fun f => [useW 0 .m f.d 1, useR 1 .m f.a 1, useR 2 .m f.b 1]) true true true (fun m => m == 0)
def formMnot := formMask 12 (fun f => [useW 0 .m f.d 1, useR 1 .m f.a 1]) true true false (fun m => m == 0)
def formMpop := formMask 13 (fun f => [useW 0 .g f.d 1, useR 1 .m f.a 1]) true true false (fun m => m == 0)
def formMfirst := formMask 14 (fun f => [useW 0 .g f.d 1, useR 1 .m f.a 1]) true true false (fun m => m == 0)
def formVote : OpForm :=
  { maj := 0x17, xop := 15, member := true, lat := some 1, md := fun m => m < 3
    regs := fun f => [useW 0 .q f.d 1, useR 1 .q f.a 1, useR 2 .m f.b 1] }

/-! ## Branches (R110 to R118), ending and spawning, breakpoints and traps -/

/-- A branch: LIVE fields (R111), no guard (R112). -/
def formBranch (xop : Nat) : OpForm :=
  { maj := 0x18, xop := xop, uD := false, uA := false, uB := false, uC := true, guard := false, u := true, w := all8
    e := all16, md := fun m => m == 0 || m == 0x80, also := liveOk }

def formBra : OpForm :=
  { formBranch 0 with s0 := true, s1 := 4, lits := [4], tgt := true, uD := true, uA := true }
def formBrc : OpForm :=
  { formBranch 1 with
    lits := [4], tgt := true, uD := true, uA := true, uB := true
    md := fun m => m % 128 < 8 && m % 4 < 3, regs := fun f => [useR 2 .q f.b 1] }
def formBri : OpForm := { formBranch 2 with uB := true, regs := fun f => [useR 2 .g f.b 2] }
def formCall : OpForm := { formBra with xop := 3 }
def formCalli : OpForm := { formBri with xop := 4 }
def formRet : OpForm := { formBranch 5 with s0 := true }
def formBrq : OpForm :=
  { formBranch 0 with
    maj := 0x19, single := true, s1 := 4, x2 := false, lits := [4], uD := true, uA := true, uB := true
    regs := fun f => [useR 2 .q f.b 1] }

def formExit : OpForm := { maj := 0x1A, xop := 0, s0 := true, uD := false, uA := false, uB := false }
def formYield : OpForm :=
  { maj := 0x1A, xop := 1, s0 := true, x2 := false, uD := false, uA := false, uB := false, guard := false }
def formSpawn : OpForm :=
  { maj := 0x1A, xop := 2, s1 := 1, x2 := false, lits := [1], uB := false, uC := true, ord := true, w := all8, e := all16
    md := fun m => m == 0 || m == 0x80, also := liveOk, regs := fun f => [useW 0 .g f.d 1] }
def formBrk : OpForm := { maj := 0x1B, xop := 0, s0 := true, uB := false, u := true, tgt := true }
def formTrap : OpForm := { formBrk with xop := 1 }
def formSwi : OpForm :=
  { maj := 0x1B, xop := 2, lits := [1, 2], uD := false, u := true, regs := fun f => [useR 1 .g f.a 1, useR 2 .g f.b 1] }
def formTret : OpForm :=
  { maj := 0x1B, xop := 3, s0 := true, uD := false, uA := false, uB := false, guard := false, md := fun m => m < 2 }

/-! ## Courses, barriers, collectives (R246 to R258) -/

def formCcreate : OpForm :=
  { maj := 0x1C, xop := 0, s0 := true, uA := false, uB := false, u := true, md := fun m => m < 2
    regs := fun f => [useW 0 .g f.d 1] }
def formHandle (xop : Nat) : OpForm :=
  { maj := 0x1C, xop := xop, s0 := true, uD := false, uB := false, regs := fun f => [useR 1 .g f.a 1] }
def formCfree := formHandle 1
def formCjoin := formHandle 2
def formCleave := formHandle 3
def formCpin : OpForm := { formHandle 4 with md := fun m => m ≤ 16 }
def formCunpin : OpForm := { formHandle 5 with guard := false }
def formCid : OpForm :=
  { maj := 0x1C, xop := 6, s0 := true, uB := false, u := true, regs := fun f => [useW 0 .g f.d 2, useR 1 .g f.a 1] }

def formCbar : OpForm :=
  { maj := 0x1D, xop := 0, s0 := true, uD := false, uB := false, uC := true, scope := [1, 2, 3, 4, 5, 6]
    regs := fun f => [useR 1 .g f.a 1, useR 3 .m f.c 1] }
def formCarrive : OpForm :=
  { maj := 0x1D, xop := 1, s0 := true, uB := false, uC := true, scope := [1, 2, 3, 4, 5, 6]
    regs := fun f => [useW 0 .g f.d 1, useR 1 .g f.a 1, useR 3 .m f.c 1] }
def formCwait : OpForm :=
  { maj := 0x1D, xop := 2, uD := false, uC := true, scope := [1, 2, 3, 4, 5, 6]
    regs := fun f => [useR 1 .g f.a 1, useR 2 .g f.b 1, useR 3 .m f.c 1] }

def formExch (xop : Nat) : OpForm :=
  { maj := 0x1E, xop := xop, uC := true, member := true, md := fun m => m < 64 && m % 4 < 3
    regs := fun f =>
      let cls := f.md.toNat % 4
      (if cls = 2 then [useW 0 .f f.d 1, useR 1 .f f.a 1] else [useW 0 .g f.d (cls + 1), useR 1 .g f.a (cls + 1)]) ++
      [useR 2 .g f.b (if cls = 1 then 2 else 1), useR 3 .m f.c 1] }
def formShfl := formExch 0
def formShup := formExch 1
def formShdn := formExch 2
def formShxor := formExch 3
def formBcast := formExch 4

/-- redux and scan (R256): MOD[4] is FL. -/
def formRedScan (xop : Nat) (excl : Bool) : OpForm :=
  { maj := 0x1F, xop := xop, uB := false, uC := true, member := true, fmt := int4
    md := fun m => m < 32 && m % 8 < 6 && (excl || m / 8 % 2 == 0)
    also := fun f => !f.md.getLsbD 4 || ((f.fmt == 0 || f.fmt == 1) && f.md.toNat % 8 < 3)
    regs := fun f => (if f.md.getLsbD 4 then [useW 0 .f f.d 1, useR 1 .f f.a 1]
      else [useW 0 .g f.d (intCnt f), useR 1 .g f.a (intCnt f)]) ++ [useR 3 .m f.c 1] }
def formRedux := formRedScan 0 false
def formScan := formRedScan 1 true
def formMatch : OpForm :=
  { maj := 0x1F, xop := 2, uB := false, uC := true, member := true, md := fun m => m < 2
    regs := fun f => [useW 0 .g f.d 4, useR 1 .g f.a (if f.md = 1 then 2 else 1), useR 3 .m f.c 1] }
def formElect : OpForm :=
  { maj := 0x1F, xop := 3, uA := false, uC := true, member := true
    regs := fun f => [useW 0 .q f.d 1, useR 2 .g f.b 1, useR 3 .m f.c 1] }

/-! ## Loads and stores (R196 to R202) -/

/-- R190, R191, R197: ATM no wider than the access, mis only relaxed with a4, SX only under b8 and b16. -/
def accOk (bytes : Nat) (f : Fld) (sx : Bool) : Bool :=
  (f.atm == 0 || atmBytes f.atm ≤ bytes) &&
  (!f.md.getLsbD 2 || (f.md.toNat % 4 == 0 && f.atm == 0)) &&
  (!f.md.getLsbD 3 || (sx && (f.w == 0 || f.w == 1)))

def formLdBase (xop : Nat) (spc : List Nat) : OpForm :=
  { maj := 0x20, xop := xop, s0 := true, s1 := 4, lits := [4], uB := false, uC := true, u := true, scope := scopes
    cache := [0, 1, 2, 3], spc := spc, atm := [0, 1, 2], w := [0, 1, 2, 3, 4, 5], md := fun m => m < 16 && m % 4 < 2
    also := fun f => accOk (wBytes f.w) f true
    regs := fun f => useW 0 .g f.d (wCnt f.w) :: memUse f }
def formLd := formLdBase 0 [0, 1, 2, 3, 5]
def formLdp := formLdBase 1 [0, 1, 2]
def formSt : OpForm :=
  { maj := 0x21, single := true, s0 := true, s1 := 4, lits := [4], uD := false, uC := true, u := true, scope := scopes
    cache := [0, 1, 2, 3], spc := [0, 1, 2, 5], atm := [0, 1, 2], w := [0, 1, 2, 3, 4, 5]
    md := fun m => m < 8 && (m % 4 == 0 || m % 4 == 2)
    also := fun f => accOk (wBytes f.w) f false
    regs := fun f => useR 2 .g f.b (wCnt f.w) :: memUse f }

/-- Bytes that ldf and stf move under FMT (R201). -/
def ldfBytes (fmt : BitVec 4) : Nat :=
  match fmt.toNat with
  | 0 => 4 | 1 => 8 | 2 => 2 | 3 => 2 | 4 => 8 | 5 => 4 | 6 => 4 | 7 => 1 | 8 => 1 | 9 => 8 | 10 => 16 | _ => 8

def ldfFmts : List Nat := [0, 1, 2, 3, 4, 5, 6, 7, 8, 9, 10, 14]
def ldfCnt (f : Fld) : Nat := if f.fmt = 10 then 2 else 1

def formLdf : OpForm :=
  { maj := 0x22, xop := 0, s0 := true, s1 := 4, lits := [4], uB := false, uC := true, u := true, scope := scopes
    fmt := ldfFmts, cache := [0, 1, 2, 3], spc := [0, 1, 2, 3], atm := [0, 1, 2], md := fun m => m < 8 && m % 4 < 2
    also := fun f => accOk (ldfBytes f.fmt) f false
    regs := fun f => useW 0 .f f.d (ldfCnt f) :: memUse f }
def formLdk : OpForm :=
  { maj := 0x22, xop := 1, s0 := true, s1 := 4, lits := [4], uB := false, uC := true, u := true, scope := scopes
    cache := [0, 1, 2, 3], spc := [0, 1, 2, 3], atm := [0, 1, 2], w := [2, 3, 4, 5], md := fun m => m < 2
    also := fun f => accOk (wBytes f.w) f false
    regs := fun f => useW 0 .k f.d (wCnt f.w) :: memUse f }
def formStf : OpForm :=
  { maj := 0x23, single := true, s0 := true, s1 := 4, lits := [4], uD := false, uC := true, u := true, scope := scopes
    fmt := ldfFmts, cache := [0, 1, 2, 3], spc := [0, 1, 2], atm := [0, 1, 2]
    md := fun m => m < 8 && (m % 4 == 0 || m % 4 == 2)
    also := fun f => accOk (ldfBytes f.fmt) f false
    regs := fun f => useR 2 .f f.b (ldfCnt f) :: memUse f }

/-! ## Fetch-operations and reductions (R204, R208, R209) -/

/-- Registers of a fetch-operation's operands: 1, 2 or 4 for a4, a8, a16. -/
def atmCnt (f : Fld) : Nat := if f.atm = 0 then 1 else if f.atm = 1 then 2 else 4

/-- The FMT and ATM pairs of R204; `fl` when the operation takes floating formats, `wide` when it takes a16. -/
def fopOk (f : Fld) (fl wide : Bool) : Bool :=
  if f.md.getLsbD 4 then
    fl && (((f.fmt == 0 || f.fmt == 5 || f.fmt == 6) && f.atm == 0) || (f.fmt == 1 && f.atm == 1))
  else
    ((f.fmt == 0 || f.fmt == 1) && f.atm == 0) || ((f.fmt == 2 || f.fmt == 3) && f.atm == 1) ||
    (wide && f.fmt == 3 && f.atm == 2)

def formFop (xop : Nat) (fl wide b : Bool) : OpForm :=
  { maj := 0x24, xop := xop, s0 := !b, s1 := if b then 0 else 4, lits := [4], uB := b, uC := true, ord := true, u := true
    scope := scopes, fmt := [0, 1, 2, 3, 5, 6], cache := [0, 1, 2, 3], spc := [0, 1, 2], atm := [0, 1, 2]
    md := fun m => m < 32 && m / 4 % 4 == 0, also := fun f => fopOk f fl wide
    regs := fun f => useW 0 .g f.d (atmCnt f) :: baseUse f ::
      ((if b then [useR 2 .g f.b (atmCnt f)] else []) ++
       (if f.ord ∨ f.c ≠ 0 then [useR 3 .g f.c 1] else [])) }
def formAadd := formFop 0 true false true
def formAsub := formFop 1 true false true
def formAmin := formFop 2 true false true
def formAmax := formFop 3 true false true
def formAand := formFop 4 false false true
def formAor := formFop 5 false false true
def formAxor := formFop 6 false false true
def formAexch := formFop 7 false true true
/-- D is read first, as the comparison value. -/
def formAcas : OpForm :=
  { formFop 8 false true true with regs := fun f => useR 0 .g f.d (atmCnt f) :: (formFop 8 false true true).regs f }
def formAinc := formFop 9 false false false
def formAdec := formFop 10 false false false

def formRed (xop : Nat) (fl : Bool) : OpForm :=
  { maj := 0x25, xop := xop, lits := [4], uD := false, uC := true, ord := true, u := true
    scope := scopes, fmt := [0, 1, 2, 3, 5, 6], cache := [0, 1, 2, 3], spc := [0, 1, 2], atm := [0, 1, 2]
    md := fun m => m < 32 && (m % 16 == 0 || m % 16 == 2), also := fun f => fopOk f fl false
    regs := fun f => baseUse f :: useR 2 .g f.b (atmCnt f) :: (if f.ord ∨ f.c ≠ 0 then [useR 3 .g f.c 1] else []) }
def formRedadd := formRed 0 true
def formRedmin := formRed 1 true
def formRedmax := formRed 2 true
def formRedand := formRed 3 false
def formRedor := formRed 4 false
def formRedxor := formRed 5 false
def formSqopen : OpForm :=
  { maj := 0x25, xop := 6, lits := [4], uD := false, uC := true, u := true, scope := scopes, spc := [0, 1, 2]
    md := fun m => m == 0 || m == 2
    regs := fun f => [baseUse f, useR 2 .g f.b 1, useR 3 .g f.c 1] }
def formSqclose : OpForm :=
  { maj := 0x25, xop := 7, s0 := true, s1 := 4, lits := [4], uD := false, uB := false, uC := true, u := true, scope := scopes
    spc := [0, 1, 2], md := fun m => m == 0 || m == 2 || m == 3, regs := fun f => memUse f }

/-! ## Ordering, mailboxes (R213 to R220) -/

def formFence (xop : Nat) (scope : List Nat) : OpForm :=
  { maj := 0x26, xop := xop, s0 := true, uD := false, uA := false, uB := false, u := true, scope := scope }
def formRel := formFence 0 scopes
def formAcq := formFence 1 scopes
def formFopr := formFence 2 [0]
def formFeng := formFence 3 [0]
def formMonitor : OpForm :=
  { maj := 0x26, xop := 4, s0 := true, s1 := 4, lits := [4], uD := false, uB := false, uC := true, u := true, spc := [0, 1]
    regs := memUse }
def formMwait : OpForm :=
  { maj := 0x26, xop := 5, s0 := true, uB := false, u := true, scope := scopes
    regs := fun f => [useW 0 .g f.d 1, useR 1 .g f.a 1] }
def formDrain := formFence 6 [0]
def formMbsend : OpForm :=
  { maj := 0x27, xop := 0, u := true, scope := scopes, md := fun m => m == 0 || m == 2
    regs := fun f => [useW 0 .q f.d 1, useR 1 .g f.a 8, useR 2 .g f.b 1] }
def formMbrecv : OpForm :=
  { maj := 0x27, xop := 1, s0 := true, uB := false, u := true, scope := scopes, md := fun m => m < 2
    regs := fun f => [useW 0 .g f.d 8, useR 1 .g f.a 1] }
def formMbpoll : OpForm :=
  { maj := 0x27, xop := 2, s0 := true, uB := false, u := true, regs := fun f => [useW 0 .g f.d 1, useR 1 .g f.a 1] }

/-! ## Matrix and tile instructions (R307, R318, R320) -/

/-- The format of mma's B operand, in the SCOPE and ORD positions (R307). -/
def mmaFb (f : Fld) : BitVec 4 := f.scope ++ BitVec.ofBool f.ord

def isDx (fmt : BitVec 4) : Bool := fmt == 11 || fmt == 12 || fmt == 13

/-- The format pairs of R309. A block format goes with every format listed there: its K-step and accumulator are the block row's, and
R308 lays out the record of a pair with one block operand (log 99). -/
def mmaPairOk (fa fb : BitVec 4) : Bool :=
  let named := fun (x : BitVec 4) => x ≤ 3 || x == 7 || x == 8 || isDx x
  let h := fun (x : BitVec 4) => x == 2 || x == 3
  let n := fun (x : BitVec 4) => x == 7 || x == 8
  (fa == 1 && fb == 1) || (fa == 0 && fb == 0) || (h fa && h fb) || (n fa && n fb) ||
  (isDx fa && named fb) || (named fa && isDx fb)

def mmaBspc (f : Fld) : BitVec 3 := if (f.md >>> 3) % 4 = 0 then f.spc else (((f.md >>> 3) % 4).setWidth 3) - 1

def formMma : OpForm :=
  { maj := 0x2C, single := true, lits := [3, 5], uC := true, member := true
    fmt := [0, 1, 2, 3, 7, 8, 11, 12, 13], scope := all8, ord := true, cache := [0, 1, 2, 3], spc := [0, 1, 2]
    md := fun m => m < 32
    also := fun f => mmaPairOk f.fmt (mmaFb f) && (!(isDx f.fmt || isDx (mmaFb f)) || f.lit == 5) &&
      (f.lit != 5 || (f.a == 0 && f.b == 0))
    regs := fun f =>
      let s := fun (sp : BitVec 3) => if sp = 0 then (3, 2) else (2, 1)
      (if f.lit = 5 then [] else
        [⟨1, .g, f.a.toNat, (s f.spc).1, (s f.spc).2, true⟩, ⟨2, .g, f.b.toNat, (s (mmaBspc f)).1, (s (mmaBspc f)).2, true⟩]) ++
      [useW 0 .a f.d 1, useR 3 .g f.c 1, ⟨4, .m, (f.md % 8).toNat, 1, 1, true⟩] }
def formMbatch : OpForm :=
  { maj := 0x2E, single := true, s0 := true, uB := false, member := true
    regs := fun f => [useW 0 .g f.d 1, useR 1 .m f.a 1] }

def formTile (xop : Nat) (fmt : List Nat) (regs : Fld → List RegUse) : OpForm :=
  { maj := 0x2D, xop := xop, uC := true, member := true, fmt := fmt, regs := regs }

def formTzero : OpForm :=
  { formTile 0 [0, 1] (fun f => [useW 0 .a f.d 1, useR 3 .m f.c 1]) with uA := false, uB := false }
def formTld : OpForm :=
  { formTile 1 [0, 1] (fun f => [useW 0 .a f.d 1, baseUse f, useR 2 .g f.b 1, useR 3 .m f.c 1]) with spc := [0, 1, 2] }
def formTst : OpForm :=
  { formTile 2 [0] (fun f => [useR 0 .a f.d 1, baseUse f, useR 2 .g f.b 1, useR 3 .m f.c 1]) with spc := [0, 1, 2] }
def formTrow : OpForm :=
  { formTile 3 [0] (fun f => [⟨0, .f, f.d.toNat, f.md.toNat % 32 + 1, 1, false⟩, useR 1 .a f.a 1, useR 2 .g f.b 1,
      useR 3 .m f.c 1]) with md := fun m => m < 32 }
def formTcvt : OpForm :=
  { formTile 4 [2, 3, 7, 8, 11, 12, 13] (fun f =>
      if f.md.getLsbD 4 then [useR 0 .a f.d 1, baseUse f, useR 2 .g f.b 1, useR 3 .m f.c 1]
      else [useW 0 .a f.d 1, useR 1 .a f.a 1, useR 2 .m f.b 1]) with
    spc := [0, 1, 2], rnd := [0, 1, 2, 3, 4, 5], md := fun m => m < 32
    also := fun f => (f.md.getLsbD 4 || (f.spc == 0 && f.c == 0)) && (isDx f.fmt || f.md.toNat % 16 == 0) }
def formTscale : OpForm :=
  { formTile 5 [0] (fun f =>
      if f.md = 1 then [useW 0 .a f.d 1, baseUse f, useR 3 .m f.c 1]
      else [useW 0 .a f.d 1, useR 2 .f f.b 1, useR 3 .m f.c 1]) with
    spc := [0, 1, 2], md := fun m => m < 2
    also := fun f => if f.md = 1 then f.b == 0 else f.a == 0 && f.spc == 0 }

/-! ## Block formats and residues (R295, R299, R302) -/

/-- Registers of a packed block: L/8 (R294). -/
def dxRegs (fmt : BitVec 4) : Nat := if fmt = 11 then 4 else if fmt = 12 then 3 else 2

def formDxpack : OpForm :=
  { maj := 0x2F, xop := 0, u := true, fmt := [11, 12, 13], rnd := [0, 1, 2, 3, 4, 5], md := fun m => m < 16
    occ := fun _ => 8
    regs := fun f => [⟨0, .f, f.d.toNat, dxRegs f.fmt, 4, false⟩, ⟨1, .f, f.a.toNat, 16, 16, true⟩, useW 2 .g f.b 1] ++
      if f.rnd = 5 then [⟨4, .e, 0, 16, 16, true⟩] else [] }
def formDxunpk : OpForm :=
  { maj := 0x2F, xop := 1, u := true, fmt := [11, 12, 13], rnd := rnd5, occ := fun _ => 4
    regs := fun f => [⟨0, .f, f.d.toNat, 16, 16, false⟩, ⟨1, .f, f.a.toNat, dxRegs f.fmt, 4, true⟩, useR 2 .g f.b 1] }

def mdLow (n : Nat) (f : Fld) : Bool := f.md.toNat % 4 == n

def formResclr : OpForm :=
  { maj := 0x2F, xop := 2, s0 := true, uA := false, uB := false, u := true, lat := some 1, sel := mdLow 0
    regs := fun f => [useW 0 .e f.d 1] }
def formResclrAll : OpForm :=
  { maj := 0x2F, xop := 2, uD := false, uA := false, uB := false, u := true, lat := some 1, sel := mdLow 1
    md := fun m => m == 1 }
def formResclrTile : OpForm :=
  { maj := 0x2F, xop := 2, uA := false, uB := false, uC := true, member := true, lat := some 1, sel := mdLow 2
    md := fun m => m == 2, regs := fun f => [useW 0 .a f.d 1, useR 3 .m f.c 1] }
def formResget : OpForm :=
  { maj := 0x2F, xop := 3, s0 := true, uB := false, u := true, lat := some 1, sel := mdLow 0
    regs := fun f => [useW 0 .g f.d 2, useR 1 .e f.a 1] }
def formResgetTile : OpForm :=
  { maj := 0x2F, xop := 3, uC := true, member := true, lat := some 1, sel := mdLow 2, md := fun m => m == 2
    regs := fun f => [useW 0 .f f.d 1, useR 1 .a f.a 1, useR 2 .g f.b 1, useR 3 .m f.c 1] }
def formResset : OpForm :=
  { maj := 0x2F, xop := 4, s0 := true, uB := false, u := true, lat := some 1, sel := mdLow 0
    regs := fun f => [useW 0 .e f.d 1, useR 1 .g f.a 2] }
def formRessetTile : OpForm :=
  { maj := 0x2F, xop := 4, uC := true, member := true, lat := some 1, sel := mdLow 2, md := fun m => m == 2
    regs := fun f => [useW 0 .a f.d 1, useR 1 .f f.a 1, useR 2 .g f.b 1, useR 3 .m f.c 1] }

/-! ## Copies, futures, barrier objects (R262, R275, R278) -/

/-- The source space of a copy, MOD[2:0] (R262). -/
def copySrc (f : Fld) : BitVec 3 := f.md.setWidth 3

def copyBar (f : Fld) : Bool := f.md.getLsbD 3

def formCopy (xop : Nat) (lits : List Nat) (regs : Fld → List RegUse) : OpForm :=
  { maj := 0x28, xop := xop, lits := lits, uC := true, u := true, scope := [1], cache := [0, 1, 2, 3], spc := [0, 1, 2, 4]
    e := all16, md := fun m => m < 16 && m % 8 < 5
    also := fun f => !(f.spc == 4 && copySrc f == 4) && (f.spc == 4 || copySrc f == 4 || f.e == 0)
    regs := fun f => useW 0 .g f.d 1 :: useR 1 .g f.a (if basePair f.spc then 2 else 1) :: regs f }

def copySrcUse (f : Fld) : RegUse := useR 2 .g f.b (if basePair (copySrc f) then 2 else 1)

def formCpy : OpForm :=
  formCopy 0 [] (fun f => [copySrcUse f, ⟨3, .g, f.c.toNat, if copyBar f then 2 else 1, 2, true⟩])
def formCpyw : OpForm :=
  let o := formCopy 1 [5] (fun f => (if f.lit = 5 then [] else [⟨2, .g, f.b.toNat, 24, 8, true⟩]) ++
    (if copyBar f then [useR 3 .g f.c 1] else []))
  { o with also := fun f => o.also f && (copyBar f || f.c == 0) && (f.lit != 5 || f.b == 0) }
def formCpyg : OpForm :=
  formCopy 2 [] (fun f => [copySrcUse f, ⟨3, .g, f.c.toNat, if copyBar f then 5 else 4, 2, true⟩])
def formCpys : OpForm := { formCpyg with xop := 3 }

def formFuture (xop : Nat) : OpForm :=
  { maj := 0x29, xop := xop, s0 := true, uB := false, u := true, regs := fun f => [useW 0 .q f.d 1, useR 1 .g f.a 1] }
def formFwait := formFuture 0
def formFtest := formFuture 1
def formFcancel := formFuture 2

def formXbar (xop : Nat) (spc : List Nat) (scope : List Nat) (regs : Fld → List RegUse) : OpForm :=
  { maj := 0x2A, xop := xop, lits := [4], uD := false, uC := true, u := true, scope := scope, spc := spc
    also := fun f => spc.contains f.spc.toNat, regs := fun f => memUse f ++ regs f }
def formXinit := formXbar 0 [1] [1] (fun f => [useR 2 .g f.b 1])
def formXexpect := formXbar 1 [1, 2] [1] (fun f => [useR 2 .g f.b 1])
def formXarrive : OpForm :=
  { formXbar 2 [1, 2] [1, 2, 3, 4, 5, 6] (fun _ => []) with s0 := true, s1 := 4, uB := false, md := fun m => m < 2 }
def formXwait : OpForm :=
  { formXbar 3 [1] [1, 2, 3, 4, 5, 6] (fun f => [useW 0 .q f.d 1, useR 2 .g f.b 1]) with uD := true }

/-! ## hod and launch, pairs (R350, R422, R423) -/

def formHod : OpForm :=
  { maj := 0x2B, xop := 0, s0 := true, uB := false, u := true, ord := true
    regs := fun f => [⟨0, .g, f.d.toNat, 3, 1, false⟩, useW 1 .q f.a 1] }
def formLaunch : OpForm :=
  { maj := 0x2B, xop := 1, lits := [1], u := true
    regs := fun f => [useW 0 .g f.d 1, useR 1 .g f.a 2, useR 2 .g f.b 1] }
def formPget : OpForm :=
  { maj := 0x30, xop := 0, s0 := true, uA := false, uB := false, md := fun m => m < 2
    regs := fun f => if f.md = 1 then [⟨0, .f, f.d.toNat, 5, 1, false⟩] else [useW 0 .g f.d 8] }
def formPret : OpForm :=
  { maj := 0x30, xop := 1, s0 := true, uD := false, uB := false, uC := true, ord := true, md := fun m => m < 32
    also := fun f => f.ord || f.c == 0
    regs := fun f => useR 1 .f f.a 1 :: (if f.ord then [useR 3 .g f.c 1] else []) }
def formPlaunch : OpForm :=
  { maj := 0x30, xop := 2, s0 := true, lits := [1], uB := false, regs := fun f => [useW 0 .g f.d 1, useR 1 .g f.a 2] }
def formPrelaunch : OpForm :=
  { maj := 0x30, xop := 3, lits := [3], regs := fun f => [useW 0 .g f.d 1, useR 1 .g f.a 1, useR 2 .g f.b 1] }

/-! ## Remote instructions (R395, R399, R400, R402, R404) -/

/-- acq, rel and ar need SCOPE dom or sys (R399). -/
def remoteOrdOk (f : Fld) : Bool := f.md.toNat % 4 == 0 || f.scope == 5 || f.scope == 6

def remoteBase (f : Fld) : List RegUse :=
  useR 1 .g f.a 2 :: (if f.ord ∨ f.c ≠ 0 then [useR 3 .g f.c 1] else [])

def formRemote (maj xop : Nat) (also : Fld → Bool) (regs : Fld → List RegUse) : OpForm :=
  { maj := maj, xop := xop, lits := [4], uC := true, u := true, scope := [1, 5, 6], cache := [0, 1, 2, 3], atm := [0, 1, 2]
    e := all16, w := [0, 1, 2, 3, 4, 5], also := fun f => remoteOrdOk f && also f, regs := fun f => remoteBase f ++ regs f }

/-- a16 passes decode whatever the width; it raises the atomicity fault at issue (R395). -/
def remoteAtmOk (f : Fld) : Bool := f.atm == 0 || f.atm == 2 || atmBytes f.atm ≤ wBytes f.w

def formRld : OpForm :=
  { formRemote 0x32 0 remoteAtmOk (fun f => [useW 0 .g f.d (wCnt f.w)]) with
    s0 := true, s1 := 4, uB := false, md := fun m => m < 2 }
def formRst : OpForm :=
  { formRemote 0x32 1 remoteAtmOk (fun f => [useR 2 .g f.b (wCnt f.w)]) with uD := false, md := fun m => m == 0 || m == 2 }
/-- The operation of rfop, MOD[7:3] (R400). -/
def rfopOp (f : Fld) : Nat := f.md.toNat / 8
def formRfop : OpForm :=
  { formRemote 0x32 2 (fun f =>
      let g := { f with md := if f.md.getLsbD 2 then 16 else 0 }
      (f.atm == 2 || fopOk g (rfopOp f < 4) false) && (rfopOp f < 9 || f.b == 0))
    (fun f => useW 0 .g f.d (atmCnt f) :: ((if rfopOp f = 8 then [useR 0 .g f.d (atmCnt f)] else []) ++ (if rfopOp f < 9 then [useR 2 .g f.b (atmCnt f)] else []))) with
    fmt := [0, 1, 2, 3, 5, 6], ord := true, w := [0], md := fun m => m / 8 < 11 }
def rredOp (f : Fld) : Nat := f.md.toNat / 8
def formRred : OpForm :=
  { formRemote 0x32 3 (fun f =>
      let g := { f with md := if f.md.getLsbD 2 then 16 else 0 }
      f.atm == 2 || fopOk g (rredOp f < 3) false)
    (fun f => [useR 2 .g f.b (atmCnt f)]) with
    fmt := [0, 1, 2, 3, 5, 6], ord := true, uD := false, w := [0]
    md := fun m => m / 8 < 6 && (m % 4 == 0 || m % 4 == 2) }
def formRmcast : OpForm :=
  { formRemote 0x32 4 remoteAtmOk (fun f => [useR 2 .g f.b (wCnt f.w)]) with uD := false, md := fun m => m == 0 || m == 2 }
def formRfence : OpForm := { formFence 0 [1, 5] with maj := 0x33 }
def formRflag : OpForm :=
  { formRemote 0x33 1 remoteAtmOk (fun f => [useR 2 .g f.b (wCnt f.w)]) with
    uD := false, w := [2, 3], md := fun m => m == 0 || m == 4 }
def formRpath : OpForm :=
  { maj := 0x33, xop := 2, s0 := true, uB := false, u := true, regs := fun f => [useR 0 .k f.d 1, useR 1 .g f.a 1] }

/-! ## System and debug instructions (R235, R236, R445, R453) -/

def csrListed (n : Nat) : Bool := n ≤ 5 || n == 0x10
def csrWritable (n : Nat) : Bool := n == 5 || n == 0x10

def formCsrr : OpForm :=
  { maj := 0x34, xop := 0, s0 := true, uB := false, w := [2, 3], priv := true, also := fun f => csrListed f.a.toNat
    regs := fun f => [useW 0 .g f.d (if f.w = 3 then 2 else 1)] }
def formCsrw : OpForm :=
  { maj := 0x34, xop := 1, s0 := true, uB := false, priv := true, also := fun f => csrWritable f.d.toNat
    regs := fun f => [useR 1 .g f.a 1] }
def formRange (xop : Nat) : OpForm :=
  { maj := 0x34, xop := xop, uD := false, priv := true, regs := fun f => [useR 1 .g f.a 2, useR 2 .g f.b 1] }
def formTlbinv : OpForm :=
  { formRange 2 with
    md := fun m => m < 2, also := fun f => f.md == 0 || (f.a == 0 && f.b == 0)
    regs := fun f => if f.md = 1 then [] else [useR 1 .g f.a 2, useR 2 .g f.b 1] }
def formCinv := formRange 3
def formCwb := formRange 4
def formHalt : OpForm :=
  { maj := 0x34, xop := 5, s0 := true, uD := false, uB := false, priv := true, regs := fun f => [useR 1 .g f.a 1] }
def formRacectlClean : OpForm := { formRange 6 with u := true, sel := fun f => f.md.toNat % 8 == 0 }
def formRacectlQuiet : OpForm :=
  { formRange 6 with u := true, sel := fun f => f.md.toNat % 8 == 1, md := fun m => m == 1 }
def formRacectlCount : OpForm :=
  { formRange 6 with
    u := true, uD := true, uA := false, sel := fun f => f.md.toNat % 8 == 2, md := fun m => m < 64 && m % 8 == 2 && m / 8 < 5
    regs := fun f => [useW 0 .g f.d 2, useR 2 .g f.b 1] }
def formRclk : OpForm :=
  { maj := 0x34, xop := 7, s0 := true, s1 := 4, lits := [4], uB := false, uC := true, u := true
    regs := fun f => useW 0 .g f.d 4 :: memUse f }
def formDbgld : OpForm :=
  { maj := 0x35, xop := 0, s0 := true, s1 := 4, lits := [4], litRsv := true, uB := false, w := [2, 3], priv := true
    regs := fun f => [useW 0 .g f.d (if f.w = 3 then 2 else 1), useR 1 .g f.a 2] }
def formDbgst : OpForm :=
  { maj := 0x35, xop := 1, lits := [4], litRsv := true, uD := false, w := [2, 3], priv := true
    regs := fun f => [useR 1 .g f.a 2, useR 2 .g f.b (if f.w = 3 then 2 else 1)] }
def formExpo : OpForm := { maj := 0x35, xop := 2, s0 := true, litRsv := true, uD := false, uA := false, uB := false, priv := true }

end Sys2Proof.Machine
end

