-- ==== Sys2Proof/WellFormed.lean ====
section
/-! DEFINITION. Which terms of Instr are instructions: the checks that the entry's record (Machine/Forms.lean) makes on the decoded
fields, each under its own name, and the checks on a command's header (R440). -/

namespace Sys2Proof

open Sys2Proof.Machine

/-- The entry's record and the fields, for the constructors that are Kwexis words. -/
def opFormOf : Instr → Option (OpForm × Fld)
  | .nop f => some (formPrefix 0, f)
  | .norace f => some (formPrefix 1, f)
  | .atom f => some (formPrefix 2, f)
  | .peer f => some (formPrefix 3, f)
  | .ord f => some (formPrefix 4, f)
  | .scope f => some (formPrefix 5, f)
  | .iadd f => some (formIadd, f)
  | .isub f => some (formIsub, f)
  | .imul f => some (formImul, f)
  | .iand f => some (formIand, f)
  | .ior f => some (formIor, f)
  | .ixor f => some (formIxor, f)
  | .shl f => some (formShl, f)
  | .shr f => some (formShr, f)
  | .sar f => some (formSar, f)
  | .mov f => some (formMov, f)
  | .icmp f => some (formIcmp, f)
  | .lea f => some (formLea, f)
  | .imad f => some (formImad, f)
  | .imulhi f => some (formImulhi, f)
  | .idiv f => some (formIdiv, f)
  | .irem f => some (formIrem, f)
  | .imin f => some (formImin, f)
  | .imax f => some (formImax, f)
  | .iabs f => some (formIabs, f)
  | .ineg f => some (formIneg, f)
  | .inot f => some (formInot, f)
  | .popc f => some (formPopc, f)
  | .clz f => some (formClz, f)
  | .ctz f => some (formCtz, f)
  | .brev f => some (formBrev, f)
  | .bfe f => some (formBfe, f)
  | .bfi f => some (formBfi, f)
  | .rotl f => some (formRotl, f)
  | .rotr f => some (formRotr, f)
  | .isel f => some (formIsel, f)
  | .iadd3 f => some (formIadd3, f)
  | .sext f => some (formSext, f)
  | .mvk f => some (formMvk, f)
  | .mkg f => some (formMkg, f)
  | .mvf f => some (formMvf, f)
  | .mfg f => some (formMfg, f)
  | .srd f => some (formSrd, f)
  | .swr f => some (formSwr, f)
  | .fadd f => some (formFadd, f)
  | .fmul f => some (formFmul, f)
  | .fma f => some (formFma, f)
  | .fcmp f => some (formFcmp, f)
  | .fmin f => some (formFmin, f)
  | .fmax f => some (formFmax, f)
  | .fabs f => some (formFabs, f)
  | .fneg f => some (formFneg, f)
  | .fcsgn f => some (formFcsgn, f)
  | .fdiv f => some (formFdiv, f)
  | .fsqrt f => some (formFsqrt, f)
  | .frcp f => some (formFrcp, f)
  | .frsq f => some (formFrsq, f)
  | .fex2 f => some (formFex2, f)
  | .flg2 f => some (formFlg2, f)
  | .fsin f => some (formFsin, f)
  | .fcos f => some (formFcos, f)
  | .frnd f => some (formFrnd, f)
  | .fclass f => some (formFclass, f)
  | .fsel f => some (formFsel, f)
  | .fldexp f => some (formFldexp, f)
  | .cvt f => some (formCvt, f)
  | .cvti f => some (formCvti, f)
  | .cvtf f => some (formCvtf, f)
  | .pack2 f => some (formPack2, f)
  | .unpk2 f => some (formUnpk2, f)
  | .imake f => some (formImake, f)
  | .ilo f => some (formIlo, f)
  | .ihi f => some (formIhi, f)
  | .iaddInterval f => some (formIaddInterval, f)
  | .isubInterval f => some (formIsubInterval, f)
  | .imulInterval f => some (formImulInterval, f)
  | .idivInterval f => some (formIdivInterval, f)
  | .isqr f => some (formIsqr, f)
  | .isqrt f => some (formIsqrt, f)
  | .ihull f => some (formIhull, f)
  | .iinter f => some (formIinter, f)
  | .imid f => some (formImid, f)
  | .iwid f => some (formIwid, f)
  | .iin f => some (formIin, f)
  | .icmpInterval f => some (formIcmpInterval, f)
  | .ibis f => some (formIbis, f)
  | .qand f => some (formQand, f)
  | .qor f => some (formQor, f)
  | .qnot f => some (formQnot, f)
  | .qxor f => some (formQxor, f)
  | .qmov f => some (formQmov, f)
  | .qset f => some (formQset, f)
  | .qdef f => some (formQdef, f)
  | .mfromq f => some (formMfromq, f)
  | .mset f => some (formMset, f)
  | .mget f => some (formMget, f)
  | .mand f => some (formMand, f)
  | .mor f => some (formMor, f)
  | .mnot f => some (formMnot, f)
  | .mpop f => some (formMpop, f)
  | .mfirst f => some (formMfirst, f)
  | .vote f => some (formVote, f)
  | .bra f => some (formBra, f)
  | .brc f => some (formBrc, f)
  | .bri f => some (formBri, f)
  | .call f => some (formCall, f)
  | .calli f => some (formCalli, f)
  | .ret f => some (formRet, f)
  | .brq f => some (formBrq, f)
  | .exit f => some (formExit, f)
  | .yield f => some (formYield, f)
  | .spawn f => some (formSpawn, f)
  | .brk f => some (formBrk, f)
  | .trap f => some (formTrap, f)
  | .swi f => some (formSwi, f)
  | .tret f => some (formTret, f)
  | .ccreate f => some (formCcreate, f)
  | .cfree f => some (formCfree, f)
  | .cjoin f => some (formCjoin, f)
  | .cleave f => some (formCleave, f)
  | .cpin f => some (formCpin, f)
  | .cunpin f => some (formCunpin, f)
  | .cid f => some (formCid, f)
  | .cbar f => some (formCbar, f)
  | .carrive f => some (formCarrive, f)
  | .cwait f => some (formCwait, f)
  | .shfl f => some (formShfl, f)
  | .shup f => some (formShup, f)
  | .shdn f => some (formShdn, f)
  | .shxor f => some (formShxor, f)
  | .bcast f => some (formBcast, f)
  | .redux f => some (formRedux, f)
  | .scan f => some (formScan, f)
  | .matchLanes f => some (formMatch, f)
  | .elect f => some (formElect, f)
  | .ld f => some (formLd, f)
  | .ldp f => some (formLdp, f)
  | .st f => some (formSt, f)
  | .ldf f => some (formLdf, f)
  | .ldk f => some (formLdk, f)
  | .stf f => some (formStf, f)
  | .aadd f => some (formAadd, f)
  | .asub f => some (formAsub, f)
  | .amin f => some (formAmin, f)
  | .amax f => some (formAmax, f)
  | .aand f => some (formAand, f)
  | .aor f => some (formAor, f)
  | .axor f => some (formAxor, f)
  | .aexch f => some (formAexch, f)
  | .acas f => some (formAcas, f)
  | .ainc f => some (formAinc, f)
  | .adec f => some (formAdec, f)
  | .redadd f => some (formRedadd, f)
  | .redmin f => some (formRedmin, f)
  | .redmax f => some (formRedmax, f)
  | .redand f => some (formRedand, f)
  | .redor f => some (formRedor, f)
  | .redxor f => some (formRedxor, f)
  | .sqopen f => some (formSqopen, f)
  | .sqclose f => some (formSqclose, f)
  | .rel f => some (formRel, f)
  | .acq f => some (formAcq, f)
  | .fopr f => some (formFopr, f)
  | .feng f => some (formFeng, f)
  | .monitor f => some (formMonitor, f)
  | .mwait f => some (formMwait, f)
  | .drain f => some (formDrain, f)
  | .mbsend f => some (formMbsend, f)
  | .mbrecv f => some (formMbrecv, f)
  | .mbpoll f => some (formMbpoll, f)
  | .cpy f => some (formCpy, f)
  | .cpyw f => some (formCpyw, f)
  | .cpyg f => some (formCpyg, f)
  | .cpys f => some (formCpys, f)
  | .fwait f => some (formFwait, f)
  | .ftest f => some (formFtest, f)
  | .fcancel f => some (formFcancel, f)
  | .xinit f => some (formXinit, f)
  | .xexpect f => some (formXexpect, f)
  | .xarrive f => some (formXarrive, f)
  | .xwait f => some (formXwait, f)
  | .hod f => some (formHod, f)
  | .launch f => some (formLaunch, f)
  | .mma f => some (formMma, f)
  | .tzero f => some (formTzero, f)
  | .tld f => some (formTld, f)
  | .tst f => some (formTst, f)
  | .trow f => some (formTrow, f)
  | .tcvt f => some (formTcvt, f)
  | .tscale f => some (formTscale, f)
  | .mbatch f => some (formMbatch, f)
  | .dxpack f => some (formDxpack, f)
  | .dxunpk f => some (formDxunpk, f)
  | .resclr f => some (formResclr, f)
  | .resclrAll f => some (formResclrAll, f)
  | .resget f => some (formResget, f)
  | .resset f => some (formResset, f)
  | .resclrTile f => some (formResclrTile, f)
  | .resgetTile f => some (formResgetTile, f)
  | .ressetTile f => some (formRessetTile, f)
  | .pget f => some (formPget, f)
  | .pret f => some (formPret, f)
  | .plaunch f => some (formPlaunch, f)
  | .prelaunch f => some (formPrelaunch, f)
  | .rld f => some (formRld, f)
  | .rst f => some (formRst, f)
  | .rfop f => some (formRfop, f)
  | .rred f => some (formRred, f)
  | .rmcast f => some (formRmcast, f)
  | .rfence f => some (formRfence, f)
  | .rflag f => some (formRflag, f)
  | .rpath f => some (formRpath, f)
  | .csrr f => some (formCsrr, f)
  | .csrw f => some (formCsrw, f)
  | .tlbinv f => some (formTlbinv, f)
  | .cinv f => some (formCinv, f)
  | .cwb f => some (formCwb, f)
  | .halt f => some (formHalt, f)
  | .racectlClean f => some (formRacectlClean, f)
  | .racectlQuiet f => some (formRacectlQuiet, f)
  | .racectlCount f => some (formRacectlCount, f)
  | .rclk f => some (formRclk, f)
  | .dbgld f => some (formDbgld, f)
  | .dbgst f => some (formDbgst, f)
  | .expo f => some (formExpo, f)
  | .qfetch _ => none
  | .bfx _ => none
  | .swait _ => none
  | .disp _ => none
  | .sheetFormation _ _ => none
  | .spawnWaitLimit _ => none
  | .spawnStoreSpaceFreed _ => none
  | .palletSwap _ _ => none
  | .palletQuantumExpiry _ => none
  | .launchAdmission _ => none
  | .evictedSheetRestore _ => none
  | .launchEnd _ => none
  | .contextSwitch _ _ => none
  | .contextRestore _ _ => none
  | .l1Eviction _ _ => none
  | .storePerformedAtHome _ => none
  | .mwaitLimitExpiry _ => none
  | .mwaitUnexplainedWake _ => none
  | .swiWakeOr _ => none
  | .copyLanding _ _ _ => none
  | .copyEngineFault _ _ => none
  | .mmaAccumulationStep _ => none
  | .pairMatcherWalk _ => none
  | .sequencerPartialArrival _ => none
  | .remoteRequestArrival _ => none
  | .remoteAckArrival _ => none
  | .remoteFlagArrival _ => none
  | .fenceMarkerArrival _ => none
  | .hostMemoryAccess _ _ _ _ _ => none
  | .mortarPlaneFailure _ => none
  | .linkTraining _ _ => none
  | .hostLinkRetraining => none
  | .trapQueueResume _ _ _ => none
  | .trapQueueSpaceFreed _ _ _ => none
  | .watchdogExpiry _ => none
  | .queueDoorbell _ _ => none
  | .queueRestart _ _ => none
  | .queueWakeClear _ _ => none
  | .packetFetch _ => none
  | .packetRefetchTimer _ => none
  | .launchPacket _ _ => none
  | .pairLaunchPacket _ _ => none
  | .copyPacket _ _ => none
  | .signalPacket _ _ => none
  | .waitPacket _ _ => none
  | .waitPacketConditionMet _ _ => none
  | .dependencyPacket _ _ => none
  | .timestampPacket _ _ => none
  | .markerPacket _ _ => none
  | .packetEnd _ _ => none
  | .eventRingSpaceFreed _ _ => none
  | .firmwareComplexReset => none
  | .coreRetirement _ => none
  | .getverCmd _ => none
  | .nonceCmd _ => none
  | .claimCmd _ => none
  | .releaseCmd _ => none
  | .beatCmd _ => none
  | .partsetCmd _ => none
  | .partdelCmd _ => none
  | .partgetCmd _ => none
  | .ctxnewCmd _ => none
  | .ctxdelCmd _ => none
  | .queueSetCmd _ => none
  | .qresetCmd _ => none
  | .evsetCmd _ => none
  | .apopenCmd _ => none
  | .apcloseCmd _ => none
  | .mcsetCmd _ => none
  | .mcdelCmd _ => none
  | .healthCmd _ => none
  | .retgetCmd _ => none
  | .retclrCmd _ => none
  | .calgetCmd _ => none
  | .portgetCmd _ => none
  | .readyCmd _ => none
  | .fwloadCmd _ => none
  | .ownerHeartbeatLapse => none
  | .spdmRequest _ => none
  | .deviceReset => none
  | .thermalThrottleStep _ => none
  | .clockRaiseStep _ => none
  | .overtempShutdown => none
  | .eccError _ _ _ => none
  | .backgroundScrub _ => none
  | .debugHalt _ => none
  | .debugResume _ => none
  | .debugRollback _ => none
  | .rollbackTargetReached _ => none
  | .exposureEnd _ => none
  | .traceSample _ => none
  | .registerWrite _ _ _ => none
  | .illegalInstruction _ _ _ _ => none
  | .undefinedCommand _ _ => none

/-- R37, R45, R46: the form and the placement are listed. -/
def wfForm (o : OpForm) (f : Fld) : Bool :=
  match f.len.toNat with
  | 0 => o.s0 && f.lit == 0
  | 1 => o.s1 != 0 && f.lit.toNat == o.s1
  | 2 => o.x2 && f.lit == 0
  | _ => o.lits.contains f.lit.toNat

/-- The illegal-form test of R46 and R67; R453 makes an unlisted placement of the debug group a reserved field. -/
def formListed (o : OpForm) (f : Fld) : Bool :=
  wfForm o f || (o.litRsv && f.len == 3 && (f.lit == 1 || f.lit == 2 || f.lit == 3 || f.lit == 5))

/-- R41: an operand field that the operation does not use, or that a literal replaces, is zero. -/
def wfOperands (o : OpForm) (f : Fld) : Bool :=
  (o.uD && !(o.tgt && f.lit == 4) || f.d == 0) && (o.uA && !(o.tgt && f.lit == 4) && f.lit != 1 || f.a == 0) &&
  (o.uB && f.lit != 2 || f.b == 0) && (o.uC && f.lit != 3 || f.c == 0)

/-- R37: the literal is zero where the form carries none. -/
def wfLiteral (f : Fld) : Bool := f.len.getLsbD 0 || f.imm == 0

/-- R41, R44: every field of the extended words holds a value that the entry accepts. -/
def wfFields (o : OpForm) (f : Fld) : Bool :=
  o.rnd.contains f.rnd.toNat && o.fmt.contains f.fmt.toNat && o.scope.contains f.scope.toNat && (o.ord || !f.ord) &&
  (o.u || !f.u) && o.cache.contains f.cache.toNat && o.spc.contains f.spc.toNat && o.atm.contains f.atm.toNat &&
  o.w.contains f.w.toNat && o.e.contains f.e.toNat && o.md f.md.toNat

/-- R43, R44: the reserved bits are zero. -/
def wfReserved (f : Fld) : Bool := f.rsvA == 0 && !f.rsvB

/-- R58: the guard is accepted, and with GE 0 its other fields are zero. -/
def wfGuard (o : OpForm) (f : Fld) : Bool := if f.ge then o.guard else f.gq == 0 && f.gs == 0

/-- R48: in the 32-bit form the extended fields hold their defaults. -/
def wfDefaults (f : Fld) : Bool :=
  f.rnd == 0 && f.fmt == 0 && f.scope == 1 && !f.ord && !f.u && f.c == 0 && f.cache == 0 && f.spc == 0 && f.atm == 0 &&
  f.w == 2 && f.e == 0 && f.rsvA == 0 && f.gq == 0 && f.gs == 0 && !f.ge && !f.rsvB && f.md == 0

/-- R61: the operand of a prefix. -/
def wfPrefix (xop : Nat) (f : Fld) : Bool :=
  f.len == 0 && f.lit == 0 && f.stl == 0 && f.b == 0 && f.d.toNat == xop && f.imm == 0 && wfDefaults f &&
  match xop with
  | 0 => f.a == 0
  | 1 => f.a == 0
  | 2 => f.a == 1 || f.a == 2
  | 3 => f.a.toNat < 64
  | 4 => true
  | _ => f.a.toNat < 7

/-- The reserved-field checks of a word whose form is listed (R41, R44). -/
def wfReservedFields (o : OpForm) (f : Fld) : Bool :=
  wfOperands o f && wfLiteral f && (if f.len.getLsbD 1 then wfFields o f && wfReserved f && wfGuard o f else wfDefaults f) &&
  o.also f

/-- Every check on a Kwexis word. -/
def wfWord (o : OpForm) (f : Fld) : Bool :=
  if o.maj = 1 then wfPrefix o.xop f else wfForm o f && o.sel f && wfReservedFields o f

/-- R440: the header fields of a request fit their places. -/
def wfCmd (c : Cmd) : Bool :=
  c.ver < 0x10000 && c.len < 0x10000 && c.rfl < 0x10000 && c.payload.length ≤ 0x10000

/-- The request that a command constructor carries. -/
def cmdOf : Instr → Option Cmd
  | .getverCmd c => some c
  | .nonceCmd c => some c
  | .claimCmd c => some c
  | .releaseCmd c => some c
  | .beatCmd c => some c
  | .partsetCmd c => some c
  | .partdelCmd c => some c
  | .partgetCmd c => some c
  | .ctxnewCmd c => some c
  | .ctxdelCmd c => some c
  | .queueSetCmd c => some c
  | .qresetCmd c => some c
  | .evsetCmd c => some c
  | .apopenCmd c => some c
  | .apcloseCmd c => some c
  | .mcsetCmd c => some c
  | .mcdelCmd c => some c
  | .healthCmd c => some c
  | .retgetCmd c => some c
  | .retclrCmd c => some c
  | .calgetCmd c => some c
  | .portgetCmd c => some c
  | .readyCmd c => some c
  | .fwloadCmd c => some c
  | .spdmRequest c => some c
  | .undefinedCommand _ c => some c
  | _ => none

/-- The event of a device reset. -/
def Instr.isReset : Instr → Bool
  | .deviceReset => true
  | _ => false

/-- Well-formed: the fields are ones the spec lists. Events of the device carry numbers that their meanings look up. -/
def Instr.wf (i : Instr) : Bool :=
  match opFormOf i with
  | some (o, f) => wfWord o f
  | none =>
    match cmdOf i with
    | some c => wfCmd c
    | none => true

end Sys2Proof
end

