-- ==== Sys2Proof/Decode.lean ====
section
/-! DEFINITION. Decoding (R37 to R67, R427) and encoding. `decodeWords` is total: it answers the instruction, the instruction with
a reserved field set, an illegal word, or that more words are needed. `encode` writes the words of an instruction from R39, R42
and R43. -/

namespace Sys2Proof

open Sys2Proof.Machine

/-- An operation's record and its constructor. -/
structure Row where
  form : OpForm
  con  : Fld → Instr

def rows0 : List Row :=
  [⟨formIadd, .iadd⟩, ⟨formIsub, .isub⟩, ⟨formImul, .imul⟩, ⟨formIand, .iand⟩,
   ⟨formIor, .ior⟩, ⟨formIxor, .ixor⟩, ⟨formShl, .shl⟩, ⟨formShr, .shr⟩,
   ⟨formSar, .sar⟩, ⟨formMov, .mov⟩, ⟨formIcmp, .icmp⟩, ⟨formLea, .lea⟩,
   ⟨formImad, .imad⟩, ⟨formImulhi, .imulhi⟩, ⟨formIdiv, .idiv⟩, ⟨formIrem, .irem⟩,
   ⟨formImin, .imin⟩, ⟨formImax, .imax⟩, ⟨formIabs, .iabs⟩, ⟨formIneg, .ineg⟩,
   ⟨formInot, .inot⟩, ⟨formPopc, .popc⟩, ⟨formClz, .clz⟩, ⟨formCtz, .ctz⟩,
   ⟨formBrev, .brev⟩, ⟨formBfe, .bfe⟩, ⟨formBfi, .bfi⟩, ⟨formRotl, .rotl⟩,
   ⟨formRotr, .rotr⟩, ⟨formIsel, .isel⟩, ⟨formIadd3, .iadd3⟩, ⟨formSext, .sext⟩,
   ⟨formMvk, .mvk⟩, ⟨formMkg, .mkg⟩, ⟨formMvf, .mvf⟩, ⟨formMfg, .mfg⟩,
   ⟨formSrd, .srd⟩, ⟨formSwr, .swr⟩, ⟨formFadd, .fadd⟩, ⟨formFmul, .fmul⟩]

def rows1 : List Row :=
  [⟨formFma, .fma⟩, ⟨formFcmp, .fcmp⟩, ⟨formFmin, .fmin⟩, ⟨formFmax, .fmax⟩,
   ⟨formFabs, .fabs⟩, ⟨formFneg, .fneg⟩, ⟨formFcsgn, .fcsgn⟩, ⟨formFdiv, .fdiv⟩,
   ⟨formFsqrt, .fsqrt⟩, ⟨formFrcp, .frcp⟩, ⟨formFrsq, .frsq⟩, ⟨formFex2, .fex2⟩,
   ⟨formFlg2, .flg2⟩, ⟨formFsin, .fsin⟩, ⟨formFcos, .fcos⟩, ⟨formFrnd, .frnd⟩,
   ⟨formFclass, .fclass⟩, ⟨formFsel, .fsel⟩, ⟨formFldexp, .fldexp⟩, ⟨formCvt, .cvt⟩,
   ⟨formCvti, .cvti⟩, ⟨formCvtf, .cvtf⟩, ⟨formPack2, .pack2⟩, ⟨formUnpk2, .unpk2⟩,
   ⟨formImake, .imake⟩, ⟨formIlo, .ilo⟩, ⟨formIhi, .ihi⟩, ⟨formIaddInterval, .iaddInterval⟩,
   ⟨formIsubInterval, .isubInterval⟩, ⟨formImulInterval, .imulInterval⟩, ⟨formIdivInterval, .idivInterval⟩, ⟨formIsqr, .isqr⟩,
   ⟨formIsqrt, .isqrt⟩, ⟨formIhull, .ihull⟩, ⟨formIinter, .iinter⟩, ⟨formImid, .imid⟩,
   ⟨formIwid, .iwid⟩, ⟨formIin, .iin⟩, ⟨formIcmpInterval, .icmpInterval⟩, ⟨formIbis, .ibis⟩]

def rows2 : List Row :=
  [⟨formQand, .qand⟩, ⟨formQor, .qor⟩, ⟨formQnot, .qnot⟩, ⟨formQxor, .qxor⟩,
   ⟨formQmov, .qmov⟩, ⟨formQset, .qset⟩, ⟨formQdef, .qdef⟩, ⟨formMfromq, .mfromq⟩,
   ⟨formMset, .mset⟩, ⟨formMget, .mget⟩, ⟨formMand, .mand⟩, ⟨formMor, .mor⟩,
   ⟨formMnot, .mnot⟩, ⟨formMpop, .mpop⟩, ⟨formMfirst, .mfirst⟩, ⟨formVote, .vote⟩,
   ⟨formBra, .bra⟩, ⟨formBrc, .brc⟩, ⟨formBri, .bri⟩, ⟨formCall, .call⟩,
   ⟨formCalli, .calli⟩, ⟨formRet, .ret⟩, ⟨formBrq, .brq⟩, ⟨formExit, .exit⟩,
   ⟨formYield, .yield⟩, ⟨formSpawn, .spawn⟩, ⟨formBrk, .brk⟩, ⟨formTrap, .trap⟩,
   ⟨formSwi, .swi⟩, ⟨formTret, .tret⟩, ⟨formCcreate, .ccreate⟩, ⟨formCfree, .cfree⟩,
   ⟨formCjoin, .cjoin⟩, ⟨formCleave, .cleave⟩, ⟨formCpin, .cpin⟩, ⟨formCunpin, .cunpin⟩,
   ⟨formCid, .cid⟩, ⟨formCbar, .cbar⟩, ⟨formCarrive, .carrive⟩, ⟨formCwait, .cwait⟩]

def rows3 : List Row :=
  [⟨formShfl, .shfl⟩, ⟨formShup, .shup⟩, ⟨formShdn, .shdn⟩, ⟨formShxor, .shxor⟩,
   ⟨formBcast, .bcast⟩, ⟨formRedux, .redux⟩, ⟨formScan, .scan⟩, ⟨formMatch, .matchLanes⟩,
   ⟨formElect, .elect⟩, ⟨formLd, .ld⟩, ⟨formLdp, .ldp⟩, ⟨formSt, .st⟩,
   ⟨formLdf, .ldf⟩, ⟨formLdk, .ldk⟩, ⟨formStf, .stf⟩, ⟨formAadd, .aadd⟩,
   ⟨formAsub, .asub⟩, ⟨formAmin, .amin⟩, ⟨formAmax, .amax⟩, ⟨formAand, .aand⟩,
   ⟨formAor, .aor⟩, ⟨formAxor, .axor⟩, ⟨formAexch, .aexch⟩, ⟨formAcas, .acas⟩,
   ⟨formAinc, .ainc⟩, ⟨formAdec, .adec⟩, ⟨formRedadd, .redadd⟩, ⟨formRedmin, .redmin⟩,
   ⟨formRedmax, .redmax⟩, ⟨formRedand, .redand⟩, ⟨formRedor, .redor⟩, ⟨formRedxor, .redxor⟩,
   ⟨formSqopen, .sqopen⟩, ⟨formSqclose, .sqclose⟩, ⟨formRel, .rel⟩, ⟨formAcq, .acq⟩,
   ⟨formFopr, .fopr⟩, ⟨formFeng, .feng⟩, ⟨formMonitor, .monitor⟩, ⟨formMwait, .mwait⟩]

def rows4 : List Row :=
  [⟨formDrain, .drain⟩, ⟨formMbsend, .mbsend⟩, ⟨formMbrecv, .mbrecv⟩, ⟨formMbpoll, .mbpoll⟩,
   ⟨formCpy, .cpy⟩, ⟨formCpyw, .cpyw⟩, ⟨formCpyg, .cpyg⟩, ⟨formCpys, .cpys⟩,
   ⟨formFwait, .fwait⟩, ⟨formFtest, .ftest⟩, ⟨formFcancel, .fcancel⟩, ⟨formXinit, .xinit⟩,
   ⟨formXexpect, .xexpect⟩, ⟨formXarrive, .xarrive⟩, ⟨formXwait, .xwait⟩, ⟨formHod, .hod⟩,
   ⟨formLaunch, .launch⟩, ⟨formMma, .mma⟩, ⟨formTzero, .tzero⟩, ⟨formTld, .tld⟩,
   ⟨formTst, .tst⟩, ⟨formTrow, .trow⟩, ⟨formTcvt, .tcvt⟩, ⟨formTscale, .tscale⟩,
   ⟨formMbatch, .mbatch⟩, ⟨formDxpack, .dxpack⟩, ⟨formDxunpk, .dxunpk⟩, ⟨formResclr, .resclr⟩,
   ⟨formResclrAll, .resclrAll⟩, ⟨formResget, .resget⟩, ⟨formResset, .resset⟩, ⟨formResclrTile, .resclrTile⟩,
   ⟨formResgetTile, .resgetTile⟩, ⟨formRessetTile, .ressetTile⟩, ⟨formPget, .pget⟩, ⟨formPret, .pret⟩,
   ⟨formPlaunch, .plaunch⟩, ⟨formPrelaunch, .prelaunch⟩, ⟨formRld, .rld⟩, ⟨formRst, .rst⟩]

def rows5 : List Row :=
  [⟨formRfop, .rfop⟩, ⟨formRred, .rred⟩, ⟨formRmcast, .rmcast⟩, ⟨formRfence, .rfence⟩,
   ⟨formRflag, .rflag⟩, ⟨formRpath, .rpath⟩, ⟨formCsrr, .csrr⟩, ⟨formCsrw, .csrw⟩,
   ⟨formTlbinv, .tlbinv⟩, ⟨formCinv, .cinv⟩, ⟨formCwb, .cwb⟩, ⟨formHalt, .halt⟩,
   ⟨formRacectlClean, .racectlClean⟩, ⟨formRacectlQuiet, .racectlQuiet⟩, ⟨formRacectlCount, .racectlCount⟩, ⟨formRclk, .rclk⟩,
   ⟨formDbgld, .dbgld⟩, ⟨formDbgst, .dbgst⟩, ⟨formExpo, .expo⟩]

/-- One row for each operation of majors 0x02 to 0x35 (R66). -/
def rows : List Row := rows0 ++ rows1 ++ rows2 ++ rows3 ++ rows4 ++ rows5

/-- What the bits decode to. -/
inductive Decoded where
  | ok (i : Instr) (words : Nat)         -- a well-formed instruction and its length in words
  | reserved (i : Instr) (words : Nat)   -- an operation whose fields hold what its entry does not accept: fault 0x02 (R41, R44)
  | illegal                              -- fault 0x01 (R46, R49, R67)
  | short                                -- more words are needed than were given
  deriving DecidableEq, Repr

/-- R37. -/
def wordCount (len : BitVec 2) : Nat :=
  match len.toNat with | 0 => 1 | 1 => 3 | 2 => 3 | _ => 5

/-- R39, R48: the first word, with the defaults of the 32-bit form. -/
def fldShort (w0 : Word) (lit : BitVec 3) (b : BitVec 7) (imm : Dword) : Fld where
  len := w0.extractLsb' 0 2
  stl := w0.extractLsb' 8 3
  d := w0.extractLsb' 11 7
  a := w0.extractLsb' 18 7
  b := b
  lit := lit
  rnd := 0
  fmt := 0
  scope := 1
  ord := false
  u := false
  c := 0
  cache := 0
  spc := 0
  atm := 0
  w := 2
  e := 0
  rsvA := 0
  gq := 0
  gs := 0
  ge := false
  rsvB := false
  md := 0
  imm := imm

/-- R39, R42, R43: the three words of the extended form. -/
def fldLong (w0 w1 w2 : Word) (imm : Dword) : Fld where
  len := w0.extractLsb' 0 2
  stl := w0.extractLsb' 8 3
  d := w0.extractLsb' 11 7
  a := w0.extractLsb' 18 7
  b := w0.extractLsb' 25 7
  lit := w1.extractLsb' 29 3
  rnd := w1.extractLsb' 26 3
  fmt := w1.extractLsb' 22 4
  scope := w1.extractLsb' 19 3
  ord := w1.getLsbD 18
  u := w1.getLsbD 17
  c := w1.extractLsb' 10 7
  cache := w2.extractLsb' 29 3
  spc := w2.extractLsb' 26 3
  atm := w2.extractLsb' 24 2
  w := w2.extractLsb' 21 3
  e := w2.extractLsb' 17 4
  rsvA := w2.extractLsb' 15 2
  gq := w2.extractLsb' 12 3
  gs := w2.extractLsb' 10 2
  ge := w2.getLsbD 9
  rsvB := w2.getLsbD 8
  md := w2.extractLsb' 0 8
  imm := imm

/-- The row of a major and sub-operation whose selector accepts the fields, or the first row of that number. -/
def rowOf (maj xop : Nat) (f : Fld) : Option Row :=
  (rows.find? fun r => r.form.maj == maj && r.form.xop == xop && r.form.sel f) <|>
  (rows.find? fun r => r.form.maj == maj && r.form.xop == xop)

/-- True when a major is a single (R66). -/
def majSingle (maj : Nat) : Bool := (rows.find? fun r => r.form.maj == maj).elim false fun r => r.form.single

/-- The verdict on an operation's fields (R69 steps 2 and 3). -/
def verdict (r : Row) (f : Fld) (n : Nat) : Decoded :=
  if !formListed r.form f then .illegal
  else if wfForm r.form f && r.form.sel f && wfReservedFields r.form f then .ok (r.con f) n
  else .reserved (r.con f) n

/-- R61: a word of the prefix family. -/
def decodePrefix (w0 : Word) : Decoded :=
  let f := fldShort w0 0 (w0.extractLsb' 25 7) 0
  let mk := fun (i : Instr) (k : Nat) => if wfPrefix k f then Decoded.ok i 1 else Decoded.reserved i 1
  if f.len ≠ 0 then .illegal
  else match f.d.toNat with
    | 0 => mk (.nop f) 0
    | 1 => mk (.norace f) 1
    | 2 => mk (.atom f) 2
    | 3 => mk (.peer f) 3
    | 4 => mk (.ord f) 4
    | 5 => mk (.scope f) 5
    | _ => .illegal

/-- A 32-bit form with its literal, if any (R37, R45, R49). -/
def decodeShort (w0 : Word) (imm : Dword) : Decoded :=
  let maj := (w0.extractLsb' 2 6).toNat
  let b := w0.extractLsb' 25 7
  let single := majSingle maj
  let xop := if single then 0 else b.toNat
  match rowOf maj xop (fldShort w0 0 0 imm) with
  | none => .illegal
  | some r =>
    let lit : BitVec 3 := if w0.getLsbD 0 then BitVec.ofNat 3 r.form.s1 else 0
    verdict r (fldShort w0 lit (if single then b else 0) imm) (wordCount (w0.extractLsb' 0 2))

/-- An extended form (R42, R43). -/
def decodeLong (w0 w1 w2 : Word) (imm : Dword) : Decoded :=
  let f := fldLong w0 w1 w2 imm
  match rowOf (w0.extractLsb' 2 6).toNat (w1.extractLsb' 0 10).toNat f with
  | none => .illegal
  | some r => verdict r f (wordCount f.len)

/-- Decodes the instruction that begins at the first word. -/
def decodeWords : List Word → Decoded
  | [] => .short
  | w0 :: rest =>
    if w0.extractLsb' 2 6 = 1 then decodePrefix w0
    else match (w0.extractLsb' 0 2).toNat, rest with
      | 0, _ => decodeShort w0 0
      | 1, lo :: hi :: _ => decodeShort w0 (hi ++ lo)
      | 2, w1 :: w2 :: _ => decodeLong w0 w1 w2 0
      | 3, w1 :: w2 :: lo :: hi :: _ => decodeLong w0 w1 w2 (hi ++ lo)
      | _, _ => .short

/-! ## Xkw (R427) -/

/-- An instruction of a command core: the custom-0 opcode, funct7 zero, funct3 0 to 3. -/
def decodeXkw (w : Word) : Option Instr :=
  let x : XFld := ⟨w.extractLsb' 7 5, w.extractLsb' 15 5, w.extractLsb' 20 5⟩
  if w.extractLsb' 0 7 = 0x0B#7 ∧ w.extractLsb' 25 7 = 0#7 then
    match (w.extractLsb' 12 3).toNat with
    | 0 => some (.qfetch x)
    | 1 => some (.bfx x)
    | 2 => some (.swait x)
    | 3 => some (.disp x)
    | _ => none
  else none

/-! ## Encoding -/

/-- R39. -/
def encWord0 (maj : Nat) (b : BitVec 7) (f : Fld) : Word :=
  b ++ f.a ++ f.d ++ f.stl ++ BitVec.ofNat 6 maj ++ f.len

/-- R42. -/
def encWord1 (xop : Nat) (f : Fld) : Word :=
  f.lit ++ f.rnd ++ f.fmt ++ f.scope ++ BitVec.ofBool f.ord ++ BitVec.ofBool f.u ++ f.c ++ BitVec.ofNat 10 xop

/-- R43. -/
def encWord2 (f : Fld) : Word :=
  f.cache ++ f.spc ++ f.atm ++ f.w ++ f.e ++ f.rsvA ++ f.gq ++ f.gs ++ BitVec.ofBool f.ge ++ BitVec.ofBool f.rsvB ++ f.md

def litWords (f : Fld) : List Word := [f.imm.extractLsb' 0 32, f.imm.extractLsb' 32 32]

/-- The words of a Kwexis instruction. -/
def encFld (o : OpForm) (f : Fld) : List Word :=
  let b := if o.single || o.maj == 1 || f.len.getLsbD 1 then f.b else BitVec.ofNat 7 o.xop
  encWord0 o.maj b f :: ((if f.len.getLsbD 1 then [encWord1 o.xop f, encWord2 f] else []) ++
    (if f.len.getLsbD 0 then litWords f else []))

def encXkw (n : Nat) (x : XFld) : List Word :=
  [(0 : BitVec 7) ++ x.rs2 ++ x.rs1 ++ BitVec.ofNat 3 n ++ x.rd ++ (0x0B : BitVec 7)]

/-- The words of an instruction; an event or a command has none. -/
def encode (i : Instr) : List Word :=
  match opFormOf i with
  | some (o, f) => encFld o f
  | none =>
    match i with
    | .qfetch x => encXkw 0 x
    | .bfx x => encXkw 1 x
    | .swait x => encXkw 2 x
    | .disp x => encXkw 3 x
    | _ => []

/-! ## The host's probe -/

/-- The five words of a number whose bit 0 is bit 0 of the first word. -/
def tableWords (w : Nat) : List Word :=
  [BitVec.ofNat 32 w, BitVec.ofNat 32 (w >>> 32), BitVec.ofNat 32 (w >>> 64), BitVec.ofNat 32 (w >>> 96),
   BitVec.ofNat 32 (w >>> 128)]

/-- What the decoder reads from an instruction whose bits are w; bits from nbits up are zero. A word that is no valid Kwexis
instruction and is one of Xkw is read as that; an instruction with a reserved field is read, and faults when it executes. -/
def decodeTableWord (nbits w : Nat) : Option Instr :=
  let ws := tableWords (w % 2 ^ nbits)
  match decodeWords ws with
  | .ok i _ => some i
  | .reserved i _ => (decodeXkw (BitVec.ofNat 32 (w % 2 ^ nbits))).or (some i)
  | _ => decodeXkw (BitVec.ofNat 32 (w % 2 ^ nbits))

end Sys2Proof
end

