-- ==== Sys2Proof/Config.lean ====
section
/-! DEFINITION. The free values: what the spec leaves open and every implementation or run decides. Each is an opaque constant, so
no proof can see its value. `tick` is the counter that every step advances; `salt` tells apart the choices of one step. The
log entry is named after each. -/

namespace Sys2Proof.Config

/-- A choice the spec leaves open: old or new value (R60, R169, R183), a block's size (R171). Log 3. -/
opaque choice : (tick salt : Nat) → Bool

/-- An undefined 32-bit value (R20: a g register outside the live set). Log 3. -/
opaque word : (tick salt : Nat) → BitVec 32

/-- An undefined 64-bit value (R20: an f register's image outside the live set). Log 3. -/
opaque dword : (tick salt : Nat) → BitVec 64

/-- An unpredictable byte (R188, R314: a tile whose mma is not complete). Log 3. -/
opaque byte : (tick salt : Nat) → BitVec 8

/-- The slice that is the home of a line of another package, as a negative numbers its units (R362, R363, R393). Log 53. -/
opaque homeUnit : (node line : Nat) → Nat

/-- SHAKE256 with a 32-byte output (R431, R432). Log 4. -/
opaque shake256 : List (BitVec 8) → List (BitVec 8)

/-- ML-DSA-65 verification: public key, message, signature (R431, R432). Log 4. -/
opaque mldsaVerify : (key message signature : List (BitVec 8)) → Bool

/-- ML-DSA-65 signature under the device's identity key (R432). Log 4. -/
opaque mldsaSign : (message : List (BitVec 8)) → List (BitVec 8)

/-- The public key that an enrolled digest stands for, and the Ulirov key fused into the device (R431, R432). Log 4. -/
opaque keyOf : (digest : List (BitVec 8)) → List (BitVec 8)

/-- The Ulirov key fused into the device (R432). Log 4. -/
opaque fusedKey : List (BitVec 8)

/-- 32 random bytes of the security engine (R429, R431). Log 4. -/
opaque nonce : (tick : Nat) → List (BitVec 8)

/-- The measurements of the boot ROM, the firmware stages and the configuration (R432). Log 4. -/
opaque measure : (image : List (BitVec 8)) → List (BitVec 8)

/-- A sensor reading or a counter that no rule computes (R434). Log 3. -/
opaque sensor : (tick salt : Nat) → Nat

end Sys2Proof.Config
end

