-- ==== Sys2Proof/Machine/State.lean ====
section
/-! DEFINITION. The state of one Fenael KX3 package and of what it holds about its neighbours: memory and caches, cores with
their pallets, sheets and threads, the engines, the fabric, the queues and the management side. Plain data throughout; every
list keyed by a number is sparse, and an absent key reads as the value the field's comment gives. In brackets after each field:
the rule, the width, the value at reset. -/

namespace Sys2Proof.Machine

/-- Memory as (address, byte) pairs, addresses strictly rising, no entry equal to the unlisted value 0 (R437 step 2 zeroes all memory). -/
abbrev Mem := List Host.Cell

/-- A sparse table keyed by a number. -/
abbrev Sparse (α : Type) := List (Nat × α)

/-- Why a machine-level stop happens. Each is raised by `step` or by the named meaning. -/
inductive Fault where
  /-- Raised by step while the package is powered down after OVERTEMP_SHUTDOWN and no reset comes next (R434): a stuck state; safe. -/
  | poweredDown
  deriving DecidableEq, Repr

/-- Why an instruction is refused without a meaning. -/
inductive Refusal where
  /-- No meaning written yet: raised by exec's refused arms only, of which none is left; safe. -/
  | notModelled (mnemonic : String)
  /-- Raised by step when a command core fetches a word outside custom-0: base RISC-V, which the spec does not give (R427); safe. -/
  | baseRiscv
  deriving DecidableEq, Repr

/-! ## Memory -/

/-- The agent a memory record names: its 21-bit identity and the launch that tells two pallets with one identity apart (R177). -/
structure AgentKey where
  id     : BitVec 21
  launch : Nat
  deriving DecidableEq, Repr

/-- A release as an object that it stamped keeps it (R178, R186): who released at which scope, none for a stamp that every acquire
takes (a launch's, a high-water stamp), and the object's stamp. -/
structure Mark where
  rel   : Option (AgentKey × BitVec 3)
  stamp : Nat
  deriving DecidableEq, Repr

/-- The release record of a line (R186). -/
structure RelRec where
  stamp : Nat        -- 48-bit clock
  mask  : Word       -- words the record covers
  src   : List (AgentKey × BitVec 3 × Word)   -- the releases that wrote words of it, for R178's match: agent, scope, words
  deriving DecidableEq, Repr

/-- A 16-byte sector of a core's L1 (R171). -/
structure L1Sector where
  core  : Nat
  cid   : Word                          -- context whose block it is (R174, R181)
  sec   : Nat                           -- physical address / 16
  va    : Nat                           -- virtual address of its first byte
  valid : BitVec 16                     -- bytes the sector holds
  data  : BitVec 128
  dirty : List (AgentKey × BitVec 16)   -- bytes each agent has stored and not yet written home
  scope : BitVec 3                      -- recorded scope of the last store (R171)
  race  : BitVec 128                    -- the race record received at the fill (R229)
  rc    : Bool                          -- the page is race-checked
  nor   : BitVec 16                     -- bytes stored under norace (R238)
  blk   : Nat                           -- the block it belongs to: the sectors of one line that a fill brought together (R171)
  key   : Nat                           -- key slot of the page (R168)
  deriving DecidableEq, Repr

/-- A publication whose check waits for the agent's next covering release after an early eviction (R172, R230). -/
structure Unpublished where
  agent : AgentKey
  line  : Nat
  va    : Nat              -- virtual address of the line
  words : Word
  scope : BitVec 3
  deriving DecidableEq, Repr

/-- A write on its way to its home: a write-through, or a ctray store (R164, R171, R184). -/
structure Posted where
  agent  : AgentKey
  tray   : Option Nat      -- target pallet key of a ctray store
  addr   : Nat             -- physical address, or tray offset
  bytes  : List Byte
  scope  : BitVec 3
  core   : Nat
  key    : Nat             -- key slot of the page (R168); 0 for a tray
  deriving DecidableEq, Repr

/-- A word of a launch's text that has been overwritten while it runs: fetches may find the old value or the new (R38, R93). -/
structure OldText where
  launch : Nat
  addr   : Nat             -- physical address
  word   : Word
  deriving DecidableEq, Repr

/-- A buffer of translations (R169): a core's, its matrix load pipes', its copy engine's, a die's. -/
inductive TlbPlace where
  | core (n : Nat)
  | pipe (n : Nat)
  | copy (n : Nat)
  | die (n : Nat)
  deriving DecidableEq, Repr

/-- A cached leaf translation (R169). -/
structure Tlb where
  cid  : Word
  base : Nat              -- virtual address of the page
  lvl  : Nat              -- 0 64 KiB, 1 2 MiB, 2 1 GiB
  pte  : Dword
  place : TlbPlace        -- the buffer that holds it
  deriving DecidableEq, Repr

structure MemSys where
  mem       : Mem                   -- physical memory, HBM4E and second tier [R4, R170; bytes; nothing listed, reads 0 (R437)]
  hostMem   : Mem                   -- host memory reached through the host link [R406, R440; bytes; nothing listed, reads 0]
  race      : Sparse (BitVec 128)   -- race record of a physical line; unlisted reads quiescent [R224, R430; 128; quiescent (R437)]
  rel       : Sparse RelRec         -- release record of a physical line [R186; 48-bit stamp, 32-bit mask; none]
  highWater : Sparse Nat            -- high-water stamp of each L2 slice's dropped release records [R186; 48 each; 0]
  l1        : List L1Sector         -- the cores' L1 sectors [R171, R172; 16-byte sectors; empty]
  unpub     : List Unpublished      -- checks waiting after early evictions [R172, R230; list; empty]
  posted    : List Posted           -- writes on their way home [R164, R184; list; empty]
  tlb       : List Tlb              -- cached leaf translations [R169; list; empty]
  moved     : List Tlb              -- race-checked pages whose translations are removed and whose entries are not valid [R170; list; none]
  keys      : Sparse Nat            -- key slot under which 16 physical bytes were written [R168; 6 each; none]
  poison    : Sparse (BitVec 128)   -- poisoned physical lines, with their bytes not yet overwritten [R435; list; empty]
  poisonUnit : Sparse Nat           -- unit of R371 in which a poisoned line's error lay; unlisted: its memory [R371, R435; list; empty]
  marks     : List (Nat × Nat)      -- uncorrectable errors of memories whose lines have no physical address: unit of R371, core [R435; list; empty]
  fused     : List Nat              -- clusters whose eight L1s act as one [R174; set; none]
  oldText   : List OldText          -- words of running launches' text that have been overwritten [R38, R93; list; none]
  deriving DecidableEq, Repr

/-! ## Threads, sheets, courses -/

/-- An armed line watch (R36, R214). -/
structure Watch where
  tray    : Option Nat    -- the pallet whose tray holds the line; none for a global line
  line    : Nat           -- line number (physical address or tray offset, divided by 128)
  pending : Bool
  deriving DecidableEq, Repr

/-- What the matcher hands a pair thread (R341, R351). -/
structure PairInfo where
  i     : Word
  j     : Word
  flags : Word
  homeI : Byte
  homeJ : Byte
  pos   : Word            -- sequence position, or 0xFFFF_FFFF
  rankI : Word
  rankJ : Word
  vals  : List Word       -- dx, dy, dz, s and the scale: the images of f0 to f4
  done  : Nat             -- ordered prets made so far (R352)
  fut   : Option Word     -- handle of the prelaunch that created it (R354)
  deriving DecidableEq, Repr

/-- What a thread running a trap handler holds (R124, R376). -/
structure TrapCtx where
  info : List Byte            -- the 64 bytes of its trap record
  pc   : Dword                -- first word of the faulting run
  next : Dword                -- the instruction after the faulting run
  crs  : Option (Nat × Nat)   -- pinned course: sheet key and lane
  once : Bool                 -- the fault was a data race: a resumed load is done once unchecked (R229)
  deriving DecidableEq, Repr

/-- What a sleeping thread waits for. -/
inductive Sleep where
  | ready                                                    -- a divergent or new thread waiting for the sheet former (R21)
  | mwait (gd : Nat) (limit : Word) (scope : BitVec 3)       -- R215
  | cwait (pal slot : Nat) (gen : BitVec 16) (scope : BitVec 3)   -- R253: table's pallet and slot
  | xwait (addr : Nat) (gen : Byte) (qd : Nat) (scope : BitVec 3) -- R279: tray offset in its own pallet
  | pin (slot : Nat)                                         -- R26: waiting for the course to pin
  | brk                                                      -- halted breakpoint (R455)
  | handled                                                  -- a pinned course's lane whose handler runs (R376)
  | trapSlot (info : List Byte) (divert : Bool)              -- waits for trap-queue space with its record (R374)
  deriving DecidableEq, Repr

/-- A thread's own state (R11). -/
structure Thread where
  uid   : Nat                 -- names the thread inside the model; identities may repeat (R360)
  tid   : Word                -- thread identity [R13; 32]
  g     : List Word           -- g registers, as many as declared [R11, R12; 32 each; zero at launch start]
  gp    : List Nat            -- g registers that carry a pending mark [R273; set; none]
  f     : List Dword          -- f register images [R11, R12; 64 each; zero at launch start]
  ft    : List (BitVec 4)     -- f register tags [R127; 4 each; none (0) at launch start]
  q     : List (BitVec 2)     -- q0-q7: 0 F, 1 T, 2 U [R5, R12, R451; 2 each; F]
  e     : List Dword          -- e0-e15, two f32 residues each [R300; 64 each; zero]
  ret   : Dword               -- return address [R104; 64; 0]
  fpf   : BitVec 5            -- sticky flags [R103, R104; 5; 0]
  watch : Option Watch        -- armed line watch [R36; one; none]
  ordn  : Word                -- creation ordinal [R359; 32; 0]
  hods  : Nat                 -- hod.ord instructions of this thread that returned T [R358; count; 0]
  ops   : Sparse Nat          -- earlier recorded operations per kind and key (ORDN of the negative) [R362; counts; 0]
  pair  : Option PairInfo     -- pair-thread state [R341; record; none]
  trap  : Option TrapCtx      -- running a handler [R376; record; none]
  skip  : Bool                -- the next load is performed without its race check (tret.re after a race) [R229; flag; false]
  task  : List Nat            -- tasks open for this thread in a retryable launch [R415; list; empty]
  deriving DecidableEq, Repr

/-- The class of a register that a pending fixed-latency result writes (R59, R60). -/
inductive RegC where
  | g | f | k | q | e
  deriving DecidableEq, Repr

/-- A fixed-latency result that may still read as old (R59, R60). -/
structure Pend where
  cls   : RegC
  lane  : Nat                 -- lane, or column for k
  num   : Nat
  old   : BitVec 64           -- value before the write
  oldT  : BitVec 4            -- tag before the write
  ready : Nat                 -- first cycle at which the new value is certain
  deriving DecidableEq, Repr

/-- A word of an instruction run's first part (R61): kind and operand. -/
structure RunPart where
  kind : BitVec 7
  arg  : BitVec 7
  bad  : Option Word       -- the prefix word, when one of its fields holds a reserved value [R61, R65]
  deriving DecidableEq, Repr

/-- What the instruction of a stalled sheet waits for. -/
inductive Stall where
  | none
  | store      -- room in the spawn store (R23)
  | board      -- a copy in flight: an access to its range, or a scoreboard entry (R176, R261)
  | table      -- entries of the remote-operation table (R216)
  | future (h : Word)  -- an operation's completion (R273, R275)
  | remote     -- remote operations or acknowledgements (R59, R193)
  | box        -- a message (R219)
  | turn       -- its turn in an ordered or replayed sequence (R210, R364)
  | ring       -- a slot of a work queue's ring (R423)
  | mma        -- its course's mma (R319)
  | other
  deriving DecidableEq, Repr

/-- A sheet: up to 32 strips at one program counter (R15). -/
structure Sheet where
  key    : Nat                       -- names the sheet inside the model
  pal    : Nat                       -- key of its pallet
  slot   : Nat                       -- quadrant·8 + slot in the quadrant (R103)
  pc     : Dword                     -- program counter of the sheet [R11, R15; 64]
  lanes  : List (Nat × Thread)       -- occupied lanes, rising [R15]
  ks     : Sparse (List Word)        -- k0-k63 of each column; unlisted all zero [R11; 32 each; zero]
  em     : BitVec 128                -- execution mask [R5, R26; 128]
  m      : List (BitVec 128)         -- m0-m7 of a pinned course [R26, R108; 128 each; zero at pinning]
  course : Option Nat                -- slot of the pinned course in the pallet's table [R26]
  done   : BitVec 128                -- done mask [R369; 128; 0]
  run    : List RunPart              -- run of first words read so far [R63, R64]
  runPc  : Dword                     -- address of the run's first word [R64]
  pend   : List Pend                 -- fixed-latency results on their way [R59, R60]
  notBefore : Nat                    -- cycle before which the next instruction is held (STL, occupancy) [R59, R134]
  lastIssue : Nat                    -- cycle of its last issue, or of its forming [R32]
  waitAll : Bool                     -- STL 7 was given: held until every awaited result is written [R59; flag; false]
  stalled : Bool                     -- its instruction waits for a condition [R23, R176, R216, R273]
  why    : Stall                     -- which condition, while it is stalled [R23, R176, R210, R216, R273]
  heldBy : List (Nat × Word)         -- per lane, handles of the copies its stalled access waits for [R176; list; none]
  sleep  : List (Nat × Sleep)        -- sleeping lanes of a pinned course [R253, R279, R376]
  halted : Bool                      -- halted by a breakpoint of its pinned course [R455]
  qwait  : Option (List Byte)        -- waits for trap-queue space: with the replayable record to write, or [] after a dropped report [R374]
  evicted : Bool                     -- in the park area after a partial eviction [R379]
  deriving DecidableEq, Repr

/-- An entry of the spawn store or of the overflow region (R19, R20, R23). -/
structure Entry where
  pal   : Nat
  pc    : Dword
  thr   : Thread
  k     : List Word            -- k image of the strip it left (R20)
  since : Nat                  -- cycle of its arrival (R21)
  sleep : Sleep
  ovf   : Bool                 -- held in the overflow region (R23)
  deriving DecidableEq, Repr

/-- An mma that its course has not closed into a batch. -/
structure OpenMma where
  key   : Nat
  tile  : Nat
  begun : Bool                   -- it has started
  bad   : Bool                   -- it ended with error
  deriving DecidableEq, Repr

/-- A course of a pallet's table (R245). Members are (pallet key, thread uid). -/
structure Course where
  clus    : Bool                     -- cluster course (R244 CL)
  members : List (Nat × Nat)         -- in join order
  pinned  : Bool
  tiles   : List Nat                 -- physical tiles held, a0 first (R248)
  gen     : BitVec 16                -- number of the open generation
  expected : List (Nat × Nat)        -- members expected in the open generation
  arrived : List (Nat × Nat)
  openSt  : List Mark                -- stamp of the open generation
  lastSt  : List Mark                -- stamp of the last completed generation
  pinAt   : List (Nat × Dword × Nat) -- members arrived at the pin: uid, address, tile count (R248)
  openB   : List OpenMma         -- mma not yet closed into a batch (R318)
  dead    : Bool                     -- an mma of it met a fatal fault: no later one is performed [R316; flag; false]
  deriving DecidableEq, Repr

/-- The stamps of a barrier object's generations (R277). -/
structure BarSt where
  openSt : List Mark
  nextSt : List Mark
  lastSt : List Mark
  deriving DecidableEq, Repr

/-- The eleven control words of an admitted pallet (R454) but for those computed from other fields. -/
structure DbgWords where
  halt    : Bool
  allstop : Bool
  roll    : Bool
  att     : Bool
  debugger : Option Word  -- the context whose write set ATT (R454)
  texp    : Word
  trwc    : Word
  expx    : Nat
  trb     : Word
  trc     : Word
  trbh    : Word
  deriving DecidableEq, Repr

/-- Why an admitted pallet's sheets do not issue. -/
inductive PalSt where
  | active
  | parked                 -- R31
  | paused                 -- after a replayable fault, waiting for RESUME (R375)
  | eligible               -- after RESUME, waiting to be restored (R375)
  | switched               -- its context is switched out (R380)
  | stopped                -- its context stopped (R378)
  | ended                  -- R24
  deriving DecidableEq, Repr

/-- A 64 KiB page copied into the debug reserve: its number, bytes, race records, key slots (R457). -/
structure PageCopy where
  page : Nat
  mem  : Mem
  race : Sparse (BitVec 128)
  keys : Sparse Nat
  deriving DecidableEq, Repr

/-- An admitted pallet (R30, R31, R245, R356 to R360, R454, R456). -/
structure Pallet where
  key    : Nat
  launch : Nat                     -- key of its launch
  num    : Nat                     -- pallet number p (R13)
  core   : Nat
  cslot  : Nat                     -- context slot on the core (R177)
  psl    : Nat                     -- admission slot (R454)
  st     : PalSt
  spawn  : Nat                     -- spawn counter [R13; 23; 0]
  table  : Sparse Course           -- the course table's slots in use [R244, R245]
  ser    : Sparse Nat              -- serial number of each slot [R244; 16; 0]
  tray   : Mem                     -- tray allocation [R164; bytes; zero]
  bars   : Sparse BarSt            -- stamps of the tray's barrier objects [R277]
  trel   : Sparse RelRec           -- release records of tray lines [R186]
  expo   : Word                    -- exposure number PEXP [R456; 32; 0]
  rwc    : Word                    -- retired-work count PRWC [R456; 32; 0]
  dbg    : DbgWords                -- control words [R454]
  rbok   : Bool                    -- RBOK [R457]
  hodF   : Option Bool             -- form fixed by the first hod: ordered or not [R357]
  hodN   : Nat                     -- tasks with slot = p already handed out by unordered hod [R357]
  since  : Nat                     -- cycle at which it became active [R420]
  mpos   : List Nat                -- matcher: remaining set-A ranges, by rank [R338]
  mi     : Nat                     -- matcher: current record i
  mj     : Nat                     -- matcher: next candidate j
  mseq   : Nat                     -- matcher: next sequence position in the range
  mwait  : Bool                    -- matcher paused by a replayable fault [R340]
  mdone  : Bool                    -- matcher has walked all its ranges [R342]
  mcell  : Nat                     -- matcher: current cell of set A
  mops   : Nat                     -- matcher: unordered creations so far (ORDN of the negative) [R362; count; 0]
  macc   : List (Word × Word × Word)  -- matcher: pairs it has accepted, i, j and sequence position [R351; list; none]
  rpl    : List PageCopy   -- pages copied in the current exposure [R457; list; none]
  trn    : Nat                     -- trace records written [R460; count; 0]
  redone : Option (List (Nat × Nat))  -- since a rollback of its exposure: the recorded operations made again, key and USEQ [R458]
  fopr   : Nat                     -- stamp of its last fopr [R188; 48; 0]
  foprT  : Nat                     -- the model's counter at its last fopr [R188; count; 0]
  deriving DecidableEq, Repr

/-- An agent's clocks and race filter (R186, R233). -/
structure Agent where
  key    : AgentKey
  c      : Nat            -- clock C [R186; 48; 0]
  f      : Nat            -- floor F [R186; 48; 0]
  filter : List Nat       -- lines reported in this phase, at most 64 [R233]
  deriving DecidableEq, Repr

/-- A tile register of a core with its companion residue tile (R301, R305, R315). -/
structure Tile where
  core  : Nat
  num   : Nat             -- 0-127
  tag   : BitVec 4        -- [R127, R305]
  bytes : Mem             -- 8 KiB
  resid : Sparse Word     -- residue position 64·r + c [R301]
  act   : Bool            -- row-progress ACT [R315]
  steps : Nat             -- row-progress STEPS, 0-256 [R315]
  deriving DecidableEq, Repr

/-- A message of a mailbox (R217). -/
structure Msg where
  data  : List Byte
  stamp : List Mark
  deriving DecidableEq, Repr

/-! ## Engines -/

/-- The source and destination of a copy (R262, R263). -/
inductive CopyShape where
  | lin                                              -- cpy
  | window (lay : BitVec 768)                        -- cpyw
  | gather (size idx : Nat)                          -- cpyg
  | scatter (size idx : Nat)                         -- cpys
  deriving DecidableEq, Repr

inductive OpSt where
  | pending | clean | error | cancelledWhole | cancelledPart
  deriving DecidableEq, Repr

/-- A future: an operation a core has issued (R272). -/
structure Future where
  handle : Word
  pal    : Nat            -- issuing pallet; 0 for a hub engine
  st     : OpSt
  stamp  : Nat            -- stamp of its completion (R186)
  begun  : Bool           -- R276
  deriving DecidableEq, Repr

/-- A copy in flight (R260). -/
structure Copy where
  key    : Nat
  handle : Word
  core   : Nat
  cid    : Word
  launch : Nat
  pal    : Nat
  shape  : CopyShape
  dspc   : BitVec 3
  sspc   : BitVec 3
  dst    : Nat
  src    : Nat
  total  : Nat                   -- bytes to move
  left   : List (Nat × Nat)      -- image byte ranges (offset, length) still to land
  bar    : Option Nat            -- bound barrier's tray offset
  peer   : Nat
  pc     : Dword
  tid    : Word
  paused : Bool                  -- replayable engine fault (R266)
  stamp  : Nat                   -- stamp of the issuing release (R223)
  cur    : Sparse Nat            -- cpyg, cpys: the index values read (R263)
  held   : Sparse Byte           -- image bytes read with their source unit and not landed yet (R260)
  deriving DecidableEq, Repr

/-- A range-scoreboard entry (R176, R261). -/
structure Score where
  core : Nat
  pal  : Nat
  spc  : BitVec 3
  lo   : Nat
  hi   : Nat                     -- exclusive
  ops  : List Nat                -- copies sharing it, by key
  deriving DecidableEq, Repr

/-- An mma issued and not completed (R307 to R316). -/
structure Mma where
  key    : Nat
  core   : Nat
  cid    : Word
  launch : Nat
  pal    : Nat
  course : Nat                   -- slot
  tile   : Nat                   -- physical tile
  tnum   : Nat                   -- tile register number
  fa     : BitVec 4
  fb     : BitVec 4
  aspc   : BitVec 3
  bspc   : BitVec 3
  abase  : Nat
  bbase  : Nat
  astr   : Nat
  bstr   : Nat
  ascl   : Nat
  bscl   : Nat
  asst   : Nat
  bsst   : Nat
  kk     : Nat
  rows   : List Nat              -- taking-part rows
  step   : Nat                   -- accumulation steps completed
  batch  : Option Word           -- handle of the batch that closed it
  pc     : Dword
  tid    : Word
  since  : Nat                   -- the model's counter at the last fopr before its issue (R188)
  started : Bool
  paused : Bool
  trashed : Bool                 -- the tile was written while it was incomplete (R314)
  stamp  : Nat
  deriving DecidableEq, Repr

/-- A batch (R318). -/
structure Batch where
  handle : Word
  pal    : Nat
  course : Nat
  mmas   : List Nat              -- incomplete mma of the batch
  tiles  : List (Nat × Nat)      -- core and tile of every mma of the batch
  bad    : Bool                  -- one of its mma ended with error
  stamp  : Nat
  deriving DecidableEq, Repr

/-- One buffered ordered contribution of a sequence window (R211). -/
structure SqItem where
  addr  : Nat                    -- virtual address, or tray offset
  idx   : Word
  agent : BitVec 21
  seqNo : Nat
  op    : Nat                    -- XOP of the reduction
  fmt   : BitVec 4
  fl    : Bool
  val   : BitVec 64
  stamp : Option Nat             -- clock of a contribution with rel
  scope : BitVec 3
  clk   : Nat                    -- C of the agent before that release (R223)
  deriving DecidableEq, Repr

/-- A sequence window (R209). -/
structure Window where
  launch : Nat
  tray   : Option Nat            -- pallet key for a tray or ctray region
  cid    : Word
  base   : Nat                   -- virtual address, or tray offset
  size   : Nat
  next   : Word                  -- the counter of R210
  buf    : List SqItem
  waits  : List (Nat × Word × Nat)  -- waiting ordered fetch-operations: thread uid or request key, index, address (R210)
  stamp  : List Mark             -- the releases of the contributions applied so far
  phase  : Nat                   -- 0 open, 1 closing, 2 a pair launch's window, closing (R347)
  closer : Nat                   -- uid of the thread that closes it, 0 for launch end
  paused : Bool                  -- a replayable fault paused the close (R211)
  deriving DecidableEq, Repr

/-- A contribution held by a collector (R344). -/
structure Contrib where
  launch : Nat
  pal    : Nat
  addr   : Nat                   -- virtual address of the target's first word
  role   : Bool                  -- true: role j
  rank   : Nat
  partner : Word
  sub    : Word
  tid    : Word
  issue  : Nat
  vals   : List Word
  slot   : Option Nat            -- entry of the overflow area that holds it (R348)
  deriving DecidableEq, Repr

/-- A partial kept by a collector (R344, R346), or one on its way to its sequencer. -/
structure Partial where
  launch : Nat
  pal    : Nat
  addr   : Nat                   -- virtual address of the target's first word
  role   : Bool
  froms  : List Word             -- partner index of every contribution it has absorbed
  vals   : List (Nat × Word)     -- component number and value
  sent   : Bool
  paused : Bool                  -- its target's page faulted (R347)
  deriving DecidableEq, Repr

/-- A pair that prelaunch has named and whose thread is not yet created (R354). -/
structure Relaunch where
  launch : Nat
  pal    : Nat                   -- issuing pallet
  i      : Word
  j      : Word
  pc     : Dword                 -- where the thread starts
  fut    : Word                  -- handle
  tid    : Word                  -- issuing thread's identity
  ordn   : Nat                   -- its creation ordinal, or its earlier unordered creations (R360, R362)
  agent  : AgentKey
  stamp  : Nat                   -- stamp of the release at pkg
  paused : Bool
  deriving DecidableEq, Repr

/-- An engine fault's record that waits for trap-queue space (R374). -/
structure HeldRec where
  launch : Nat
  code   : Nat
  record : List Byte
  deriving DecidableEq, Repr

/-- A value that a 4-byte unit held before a store of a pallet, since its last fopr (R188). -/
structure OldUnit where
  pal  : Nat
  tray : Option Nat              -- the pallet whose tray holds the unit; none for global memory
  addr : Nat                     -- physical address or tray offset
  val  : Word
  time : Nat                     -- the model's counter at the store
  deriving DecidableEq, Repr

structure Engines where
  copies  : List Copy            -- copies in flight [R260; at most 512 per core; none]
  board   : List Score           -- range scoreboards [R176, R261; 64 entries per core; none]
  futs    : List Future          -- operations issued and their final states [R272; list; none]
  mmas    : List Mma             -- mma in flight [R312; list; none]
  batches : List Batch           -- batches not completed [R318; list; none]
  wins    : List Window          -- open sequence windows [R209; at most 64 per launch; none]
  sqNo    : Nat                  -- arrivals counted, for issue order [R211]
  contribs : List Contrib        -- collectors' ordered contributions [R344, R348; list; empty]
  parts   : List Partial         -- unordered partials [R346; list; empty]
  pclosed : List (Nat × Bool)    -- closed pair windows: launch key, true for set B [R347; list; none]
  papp    : List (Nat × Nat × Bool × Word)  -- unordered contributions applied: launch, target, role j, partner [R328; list; none]
  relq    : List Relaunch        -- prelaunched pairs not yet created [R354; list; none]
  olds    : List OldUnit         -- what mma issued without fopr may still read [R188; list; none]
  qheld   : List HeldRec         -- engine faults' records waiting for trap-queue space [R374; list; none]
  deriving DecidableEq, Repr

/-! ## The cores -/

/-- The state at the start of a pallet's exposure (R458). -/
structure Snap where
  pal    : Pallet
  sheets : List Sheet
  entries : List Entry
  tiles  : List Tile
  agents : List Agent
  l1     : List L1Sector    -- sectors that hold bytes the pallet's agent has not written home
  posted : List Posted
  negSeq : Sparse Nat       -- USEQ per key of its launch's negative [R362]
  copies : List Copy        -- its operations in flight, their futures and their scoreboard entries
  board  : List Score
  futs   : List Future
  mmas   : List Mma
  batches : List Batch
  seqs   : Sparse Nat       -- sequence counters of its core (R272)
  deriving DecidableEq, Repr

structure CoreSys where
  pallets : List Pallet                -- admitted pallets [R30, R31; list; none]
  sheets  : List Sheet                 -- sheets [R15; list; none]
  store   : List Entry                 -- spawn stores and overflow regions [R19, R21, R23; list; empty]
  tiles   : List Tile                  -- tile registers; an unlisted tile is zero with tag none [R305, R301, R315; 128 × 8 KiB per core; DESIGN CHOICE zero, tag none]
  boxes   : Sparse (List Msg)          -- mailboxes by address, oldest message first [R217; FIFO of 8 × 32 bytes; empty]
  boxWait : Sparse (List Nat)          -- threads whose mbrecv waits, by mailbox, in order of arrival [R219; lists of uids; none]
  agents  : List Agent                 -- agents' clocks; unlisted C = F = 0 [R186; 48 + 48; 0]
  seqs    : Sparse Nat                 -- sequence counter of kind k on core c at 8·c + k [R272; 20; 0]
  lastQ   : Sparse (Word × Nat)        -- by core: thread that last issued on quadrant 0, and its PC [R460; 32 + 64; none]
  topd    : Sparse Nat                 -- top-down counter leaf at 16·quadrant + leaf [R459; 64; 0]
  snaps   : Sparse Snap                -- exposure-start states by pallet key [R458; records; none]
  cyc     : Nat                        -- the cores' cycle counter [R103 cyc; 64; 0]
  fresh   : Nat                        -- next internal key of a thread, sheet, pallet or operation
  retired : List Nat                   -- retired cores [R436, R446; 256 bits; none]
  deriving DecidableEq, Repr

/-! ## Fabric -/

inductive ReqKind where
  | read (n : Nat) (gd : Nat) (acq : Bool)
  | write (bytes : List Byte)
  | fop (op : Nat) (fl : Bool) (fmt : BitVec 4) (size : Nat) (val cmp : BitVec 128) (gd : Nat) (acq : Bool) (idx : Option Word)
  | red (op : Nat) (fl : Bool) (fmt : BitVec 4) (size : Nat) (val : BitVec 64) (idx : Option Word)
  | mcast (members : List (Nat × Word)) (bytes : List Byte)
  | flag (bytes : List Byte) (ordered : Bool) (counts : List (Nat × Nat))
  | marker
  | ack
  deriving DecidableEq, Repr

/-- A request or an acknowledgement on its way (R216, R389, R393, R403). -/
structure Req where
  key    : Nat
  kind   : ReqKind
  agent  : AgentKey
  core   : Nat                   -- issuing core
  pal    : Nat
  uid    : Nat                   -- issuing thread
  tid    : Word
  pc     : Dword
  node   : Nat                   -- destination
  dcid   : Word
  addr   : Nat                   -- peer virtual address
  plane  : Nat
  rel    : Option Nat            -- stamp of a release-ordered write
  clk    : Nat                   -- C of the issuing agent at issue (R223)
  tag    : Nat                   -- launch tag (R222)
  scope  : BitVec 3
  mode   : Nat                   -- race mode of the launch
  held   : Bool                  -- a flag held at its destination (R403)
  cid    : Word                  -- issuing context
  uids   : List Nat              -- threads whose registers the result goes to
  fatal  : Bool                  -- it failed at its destination (R397)
  flits  : List Nat              -- data flits that carry it, when it is an rst (R389)
  spine  : Option Nat            -- the spine of its root (R394)
  ordn   : Nat                   -- the thread's earlier operations on its unit, for the negative (R362)
  floor  : Nat                   -- the floor that the packet of another package carries (R225)
  bad    : List (Nat × Nat × List Byte)  -- faults to report for it: code, ADDR, bytes 0x28 to 0x3F (R230, R397, R398)
  deriving DecidableEq, Repr

/-- An aperture entry at its destination (R391). -/
structure Aperture where
  part  : Nat                    -- destination partition
  idx   : Nat                    -- entry index 0-63
  node  : Nat                    -- destination node (entries of other nodes are mirrored here)
  base  : Dword
  size  : Dword
  dcid  : Word
  scid  : Word
  schip : Nat
  spart : Nat
  perm  : Byte
  deriving DecidableEq, Repr

/-- A multicast group (R401, R442). -/
structure Group where
  num     : Nat
  members : List (Nat × Word)    -- node, DCID
  senders : List (Nat × Nat)     -- node, partition
  deriving DecidableEq, Repr

/-- A sequence window open at another package: where, its counter, and what this package's and others' reductions left in it (R209 to
R211, R400). -/
structure PeerWin where
  node : Nat
  dcid : Word
  base : Nat
  size : Nat
  next : Word
  buf  : List SqItem
  deriving DecidableEq, Repr

structure Fabric where
  node    : Nat                  -- this package's domain node number [R388, R103 chip; 0-383; DESIGN CHOICE 0]
  reqs    : List Req             -- requests and acknowledgements in flight [R216, R389; list; none]
  peers   : List (Nat × Word × Mem)  -- memory of other packages by node and context, as remote accesses reach it [R391, R393; bytes; nothing listed]
  prel    : List (Nat × Word × Nat × RelRec)  -- release records of peer lines: node, context, line [R186, R393; records; none]
  pwins   : List PeerWin         -- sequence windows open on other packages' memory [R209, R400; list; none]
  paths   : List (AgentKey × Nat × Nat) -- path sets: agent, peer, plane mask; newest first, 8 per agent [R404; 16-bit masks; none]
  sent    : List (AgentKey × Nat × Nat × Nat)  -- counted packets: agent, peer, plane, count [R403; 16; 0]
  recv    : List (AgentKey × Nat × Nat × Nat)  -- packets performed at their homes, same key [R403; 16; 0]
  wrote   : List (AgentKey × List Nat)  -- peers written since the agent's last rfence [R402; at most 64; none]
  aps     : List Aperture        -- aperture entries and their mirrors [R391; 64 per partition; none]
  groups  : List Group           -- multicast groups [R401; 4,096; none]
  planes  : BitVec 16            -- working planes [R388, R396; 16; all working after training (R437)]
  vers    : List Nat             -- link-protocol version of each port, 0 when down [R405, R442; 16 × 16; DESIGN CHOICE 0x0100]
  deriving DecidableEq, Repr

/-! ## Launches and queues -/

/-- The fields of a launch record (R416). -/
structure LRec where
  ver : Nat
  kind : Nat
  lfl : Byte
  prog : Nat
  depth : Nat
  shape : Nat
  thr : Nat
  gcnt : Nat
  fcnt : Nat
  tiles : Nat
  tray : Nat
  pals : Nat
  entry : Dword
  handler : Dword
  idx : List Nat          -- X, Y, Z
  step : List Nat
  fpt : Byte
  prio : Nat
  param : Dword
  seed : Dword
  negb : Dword
  negs : Dword
  tqb : Dword
  tqn : Nat
  zero : Bool             -- every reserved byte is zero
  deriving DecidableEq, Repr

/-- The fields of a pair record (R333). -/
structure PRec where
  abase : Nat
  acnt : Nat
  astr : Nat
  apos : Nat
  acell : Nat
  bbase : Nat
  bcnt : Nat
  bstr : Nat
  bpos : Nat
  bcell : Nat
  test : Nat
  flags : Byte
  mode : Nat
  width : Nat
  cut : Word
  csize : Word
  hx : Word
  hy : Word
  hz : Word
  xrow : Nat
  xidx : Nat
  xscl : Nat
  tabase : Nat
  tastr : Nat
  tbstr : Nat
  tbbase : Nat
  ovbase : Nat
  ovsize : Nat
  nx : Nat
  ny : Nat
  nz : Nat
  dotd : Nat
  zero : Bool
  deriving DecidableEq, Repr

/-- A launch that has been submitted and not yet admitted or refused (R417, R418). -/
structure Submit where
  key   : Nat
  cid   : Word
  addr  : Dword            -- address of its record in the context
  pair  : Bool             -- packet kind 2
  queue : Option (Nat × Nat)   -- queue and packet index; none for plaunch
  fut   : Option Word      -- handle of plaunch or launch
  stamp : Nat              -- stamp of the submitter's release
  readable : Bool          -- false: the record could not be read (refusal code 13)
  unit  : List Byte        -- 256 or 512 bytes of the record as read
  deriving DecidableEq, Repr

/-- An admitted launch (R418). -/
structure Launch where
  key    : Nat
  ident  : Word            -- launch identity (R418)
  cid    : Word
  r      : LRec
  p      : Option PRec
  pals   : Nat             -- pallet count P
  tag    : Nat             -- launch tag, 0 for none (R222)
  fz     : Bool            -- FZ at launch start (R131)
  eit    : Bool            -- EIT at launch start (R149)
  csb    : Bool            -- CSB at launch start (R60)
  queue  : Option (Nat × Nat)
  fut    : Option Word
  flags  : BitVec 5        -- flag summary (R104)
  negN   : Nat             -- entries written to the negative (R362)
  negT   : Bool            -- negative truncated
  negSeq : Sparse Nat      -- USEQ per key (R362)
  hodF   : Option Bool     -- form fixed by the first hod of a launch without deterministic placement (R357)
  hodN   : Nat             -- tasks handed out by unordered hod (R357)
  redo   : List Nat        -- tasks to hand out again after a core loss (R415)
  maxC   : Nat             -- largest C of an agent of the launch (R179)
  fin    : Option Nat      -- error code with which it ended, when it has (R426)
  cimg   : List (Nat × Nat × Mem)  -- parameter block at launch start: offsets from, to, and its bytes by offset (R165)
  deriving DecidableEq, Repr

/-- A work queue's descriptor and registers (R406, R407). -/
structure Queue where
  num   : Nat
  rbase : Dword            -- [R406; 64]
  logn  : Nat              -- [R406; 3-20]
  rspc  : Nat              -- 0 host memory, 1 device memory [R406]
  group : Nat              -- [R406; 16]
  cid   : Word             -- [R406; 32]
  widx  : Nat              -- [R407; 64; 0]
  acc   : Nat              -- [R407, R414; 64; 0]
  strt  : Nat              -- [R407, R414; 64; 0]
  done  : Nat              -- [R407, R414; 64; 0]
  stat  : Word             -- [R407, R426; 32; 0]
  wake  : Word             -- [R407; 32; 0]
  epoch : Word             -- [R407, R414; 32; 0]
  tries : Nat              -- reads of packet ACC that failed [R411]
  readAt : Nat             -- device time of the last failed read in ns [R411]
  pkts  : Sparse (List Byte)    -- firmware copies of accepted packets from DONE to ACC [R411, R414]
  ended : Sparse (Nat × Nat × Nat)  -- packets that ended and are not yet reported: index, error code, DETAIL, TIME [R414]
  futs  : Sparse (Word × Nat)   -- futures of launch instructions and the stamps of their releases, by packet index [R179, R423; none]
  signed : List Nat        -- ended packets whose completion signals have been applied [R413; none]
  errs  : List (Nat × Nat × Word × Nat)  -- errors met at an unaccepted packet, not yet reported: index, code, TAG, TIME [R411, R426; none]
  deriving DecidableEq, Repr

/-- A packet image registered on a counter, or ready to start (R412, R413). -/
structure Dep where
  queue : Nat
  index : Nat
  addr  : Dword
  image : List Byte
  ready : Bool
  order : Nat              -- its place on the ready list, first in first out [R413]
  started : Bool
  deriving DecidableEq, Repr

/-- A soft interrupt on its way to its wake register (R123). -/
structure SwiOr where
  agent  : AgentKey
  target : Nat
  value  : Word
  deriving DecidableEq, Repr

/-- A partition's event ring (R424). -/
structure EvRing where
  part  : Nat
  base  : Dword            -- in the host's memory
  n     : Nat
  ovf   : Nat              -- [R424; 64; 0]
  deriving DecidableEq, Repr

structure Queues where
  queues : List Queue            -- configured queues [R406, R407; up to 2,048; none (R437)]
  deps   : List Dep              -- dependency images and the ready list [R412, R413; list; none]
  swis   : List SwiOr            -- soft interrupts on their way [R123; list; none]
  owake  : Sparse Word           -- wake registers of queues that are not configured [R123, R406, R407; 32 each; 0]
  mwake  : List Word             -- wake registers of the two management cores [R123, R382; 2 × 32; DESIGN CHOICE 0]
  rings  : List EvRing           -- event rings [R424; list; none]
  subs   : List Submit           -- submitted launches waiting for admission [R417; list; none]
  launches : List Launch         -- admitted launches [R418; list; none]
  nextId : Nat                   -- next launch identity [R418; 32; DESIGN CHOICE 0]
  msix   : List (Nat × Nat)      -- MSI-X messages sent: function, vector [R438; list; none]
  deriving DecidableEq, Repr

/-! ## Contexts, partitions, management -/

/-- What a core's context switch saves beside the parts that stay in their places (R380). -/
structure SwitchOut where
  core  : Nat
  slot  : Nat
  boxes : Sparse (List Msg)     -- the context's mailboxes on the core
  waits : Sparse (List Nat)     -- threads waiting on them
  agents : List Agent           -- its engines' agents
  deriving DecidableEq, Repr

/-- A context: its record (R366) and what the device keeps for it. -/
structure Ctx where
  cid   : Word
  cfl   : BitVec 16
  root  : Dword
  part  : Nat
  keySlot : Nat            -- the slot in use: its partition's or 32-63
  keyByte : Byte           -- KEY as the record holds it (R429)
  wdx   : Nat              -- 20-40, as given (0 reads as 32)
  tqb   : Dword
  tqn   : Nat
  savb  : Dword
  savs  : Dword
  slots : List (Nat × Nat) -- context slot held on each core: core, slot (R31)
  stop  : Option Nat       -- code of the fatal fault that stopped it; 0 for halt (R378, R449)
  race  : List Nat         -- five race counters [R237; 64 each; 0]
  wdog  : Nat              -- watchdog count [R381; cycles; 0]
  out   : List SwitchOut   -- cores it is switched out of, and what is saved there (R380)
  retsel : BitVec 3        -- CSR retsel [R446; 3; 0]
  tqStat : List (Dword × Word)   -- STAT the device has written per trap queue base (R373)
  resume : List (Dword × Word)   -- RESUME as last seen per trap queue base; unlisted 0 (R375)
  deriving DecidableEq, Repr

/-- A partition descriptor (R428). -/
structure Part where
  num   : Nat
  clus  : Word
  vf    : Nat
  keys  : Nat
  mbase : Dword
  msize : Dword
  tbase : Dword
  tsize : Dword
  cal   : Nat
  pcap  : Nat
  smap  : Dword
  mhz   : Nat              -- clock of its cores in MHz (R434)
  deriving DecidableEq, Repr

/-- A RISC-V command core of the firmware complex (R427): what Xkw reads and writes. -/
structure FwCore where
  x      : List Dword      -- x0-x31 [R427; 64 each; DESIGN CHOICE 0]
  pc     : Dword           -- [R427; 64; DESIGN CHOICE 0]
  mcause : Dword           -- [R427; 64; PRESUMED 0]
  mepc   : Dword           -- [PRESUMED, RISC-V; 64; 0]
  mtvec  : Dword           -- [PRESUMED, RISC-V; 64; 0]
  wait   : Bool            -- waiting in swait [R427]
  deriving DecidableEq, Repr

/-- The command page of a function (R439). -/
structure CmdPage where
  fn    : Word               -- the function, as a master identity
  dbell : Word               -- DBELL as last written
  dseq  : Word               -- DSEQ
  busy  : Bool               -- CFLG[0]
  req   : List Byte          -- REQ, 256 bytes
  rsp   : List Byte          -- RSP, 256 bytes
  deriving DecidableEq, Repr

structure Mgmt where
  ctxs    : List Ctx             -- contexts [R366, R429; list; none (R437)]
  parts   : List Part            -- partitions [R428; up to 32; none (R437)]
  owner   : Option Word          -- owner's master identity [R431; 32; none (R431)]
  beat    : Nat                  -- device time of the owner's last command in ns [R431, R443; 64; 0]
  nonces  : List (Word × List Byte × Nat)  -- outstanding claim nonces: master, nonce, time [R431, R442; 32 bytes; none]
  ownKeys : List (List Byte)     -- enrolled owner-key digests [R431; 32 bytes each; DESIGN CHOICE none]
  recovery : Bool                -- firmware verification failed [R432; flag; false]
  image   : List Byte            -- firmware image that runs [R432; bytes; DESIGN CHOICE empty]
  nextImg : Option (List Byte)   -- image to run from the next reset [R442 FWLOAD; bytes; none]
  bringUp : Nat                  -- last completed bring-up step [R437, R442; 0-5; 0]
  off     : Bool                 -- powered down [R434; flag; false]
  mhz     : Nat                  -- clock in MHz [R434, R446; 32; 1,100 (R1, R434)]
  pwr     : Nat                  -- package power in W [R434, R446; 32; DESIGN CHOICE 0]
  ppwr    : Sparse Nat           -- power of each partition in W [R434; 32; DESIGN CHOICE 0]
  temps   : List Nat             -- highest reading of each compute die and the hub, in 1/8 °C [R434, R442; 5 × 32; DESIGN CHOICE 0]
  throttle : Nat                 -- throttle temperature in °C [R434; 32; 100 (R434)]
  eccc    : Nat                  -- correctable errors, package total [R446; 64; DESIGN CHOICE 0]
  eccU    : Sparse Nat           -- correctable errors per unit of R371 [R435; counts; DESIGN CHOICE 0]
  zeroed  : List Nat             -- zeroised key slots [R428, R429; set; none]
  retHbm  : BitVec 12            -- retired HBM4E stacks [R437, R442; 12; 0]
  retLp   : BitVec 24            -- retired second-tier channels [R437, R442; 24; 0]
  retPort : BitVec 16            -- retired Mortar ports [R437, R442; 16; 0]
  warm    : Nat                  -- device time at which a reading was last within 5 % or 5 °C of its limit [R434; ns; 0]
  rsp     : List (Word × Word × Nat × List Byte)  -- responses: master, TAG, STS, payload, newest first [R440, R441; list; none]
  pages   : List CmdPage         -- command pages; an unlisted one is all zero [R439; records; DESIGN CHOICE zero]
  holes   : List (Nat × Nat)     -- host physical ranges that the host link cannot reach: base, length [R441; ranges; DESIGN CHOICE none]
  ns      : Nat                  -- device time in ns since reset [R409; 64; 0]
  fw      : List FwCore          -- the 16 command cores [R427; records; registers zero]
  fwMem   : Mem                  -- firmware memory [R411, R427; bytes; nothing listed, reads 0]
  fwq     : Sparse (List Nat)    -- queues each command core serves; unlisted: the queues congruent to it modulo 16 [R427; sets; DESIGN CHOICE]
  deriving DecidableEq, Repr

/-! ## The whole -/

/-- What the step has fetched: which sheet issues, where its run and its instruction begin, its words (R37, R64, R65). -/
structure Issue where
  sheet : Nat              -- key of the issuing sheet
  pc    : Dword            -- first word of the run
  ipc   : Dword            -- first word of the instruction itself
  next  : Dword            -- address after the instruction
  run   : List RunPart     -- parts of the run before it
  w0    : Word
  w1    : Word
  w2    : Word
  fw    : Nat              -- the command core of an Xkw instruction
  deriving DecidableEq, Repr

/-- Which agent moves next. -/
inductive Move where
  | event (i : Instr)      -- an event of the device or a request from outside
  | issue (sheet : Nat)    -- a sheet issues
  | fw (core : Nat)        -- a command core executes an Xkw instruction
  deriving DecidableEq, Repr

end Sys2Proof.Machine

namespace Sys2Proof.Machine

/-- The whole machine. `agenda` names the moves that come next, an empty agenda leaves the choice to the device's own rules;
`tick` is the model's own counter, advanced by every step, to which the free values of Config are applied. -/
structure State where
  ms     : MemSys
  cs     : CoreSys
  en     : Engines
  fb     : Fabric
  qs     : Queues
  mg     : Mgmt
  iss    : Issue
  agenda : List Move
  tick   : Nat
  turn   : Nat
  deriving DecidableEq, Repr

/-- No instruction fetched. -/
def Issue.none : Issue := ⟨0, 0, 0, 0, [], 0, 0, 0, 0⟩

def FwCore.zero : FwCore := ⟨List.replicate 32 0, 0, 0, 0, 0, false⟩

/-- The machine right after reset (R437): bring-up has not begun, nothing is configured, no owner, memory lists nothing. -/
def State.reset : State where
  ms := ⟨[], [], [], [], [], [], [], [], [], [], [], [], [], [], [], []⟩
  cs := ⟨[], [], [], [], [], [], [], [], [], [], [], 0, 1, []⟩
  en := ⟨[], [], [], [], [], [], 0, [], [], [], [], [], [], []⟩
  fb := ⟨0, [], [], [], [], [], [], [], [], [], [], 0xFFFF, List.replicate 16 0x0100⟩
  qs := ⟨[], [], [], [], [0, 0], [], [], [], 0, []⟩
  mg := ⟨[], [], none, 0, [], [], false, [], none, 0, false, 1100, 0, [], [0, 0, 0, 0, 0], 100, 0, [], [], 0, 0, 0, 0, [], [], [], 0,
         List.replicate 16 FwCore.zero, [], []⟩
  iss := Issue.none
  agenda := []
  tick := 0
  turn := 0

end Sys2Proof.Machine
end

