-- ==== Sys2Proof/Machine/Bits.lean ====
section
/-! DEFINITION. Bytes, byte order (R4), memory as a canonical list of cells, sparse tables, and the small bit operations that the
meanings share. -/

namespace Sys2Proof.Machine

/-! ## Byte order (R4: little-endian) -/

/-- The n low bytes of v, lowest first. -/
def leBytes : Nat → Nat → List Byte
  | 0, _ => []
  | n + 1, v => BitVec.ofNat 8 v :: leBytes n (v / 256)

/-- The number that bytes hold, lowest first. -/
def ofLe : List Byte → Nat
  | [] => 0
  | b :: r => b.toNat + 256 * ofLe r

/-- Bytes lo to lo + n − 1 of a list of bytes; a byte past the end reads 0. -/
def sliceB (l : List Byte) (lo n : Nat) : List Byte :=
  let s := (l.drop lo).take n
  s ++ List.replicate (n - s.length) 0

/-- The little-endian field of n bytes at offset lo. -/
def fieldB (l : List Byte) (lo n : Nat) : Nat := ofLe (sliceB l lo n)

/-- Writes n bytes of v at offset lo of a list of bytes. -/
def putB (l : List Byte) (lo n v : Nat) : List Byte :=
  l.take lo ++ List.replicate (lo - l.length) 0 ++ leBytes n v ++ l.drop (lo + n)

/-- A list of `size` bytes with the given (offset, bytes, value) fields and zeros elsewhere. -/
def layout (size : Nat) (fields : List (Nat × Nat × Nat)) : List Byte :=
  fields.foldl (fun l f => putB l f.1 f.2.1 f.2.2) (List.replicate size 0)

/-! ## Memory -/

/-- What an unlisted address reads as (R437 step 2). -/
def memDefault : Byte := 0

/-- Reads one byte. -/
def memGet : Mem → Nat → Byte
  | [], _ => memDefault
  | (k, v) :: r, a => if k = a then v else if a < k then memDefault else memGet r a

/-- Adds a cell in front unless it holds what an unlisted address reads as. -/
def memCons (a : Nat) (b : Byte) (m : Mem) : Mem := if b = memDefault then m else (a, b) :: m

/-- Writes one byte, keeping the canonical form. -/
def memPut : Mem → Nat → Byte → Mem
  | [], a, b => memCons a b []
  | (k, v) :: r, a, b =>
    if k = a then memCons a b r
    else if a < k then memCons a b ((k, v) :: r)
    else (k, v) :: memPut r a b

/-- Reads n bytes upward from a. -/
def memRead (m : Mem) (a : Nat) : Nat → List Byte
  | 0 => []
  | n + 1 => memGet m a :: memRead m (a + 1) n

/-- Writes bytes upward from a. -/
def memWrite (m : Mem) (a : Nat) : List Byte → Mem
  | [] => m
  | b :: r => memWrite (memPut m a b) (a + 1) r

/-- Removes the bytes from lo to hi − 1 (they read as unlisted). -/
def memClear (m : Mem) (lo hi : Nat) : Mem := m.filter fun c => c.1 < lo || hi ≤ c.1

/-- The canonical form: addresses strictly rising, no byte equal to what an unlisted address reads as. -/
def Mem.wf : Mem → Bool
  | [] => true
  | [(_, v)] => v != memDefault
  | (a, v) :: (b, w) :: r => v != memDefault && a < b && Mem.wf ((b, w) :: r)

/-! ## Sparse tables -/

/-- The entry of key k. -/
def sGet {α : Type} : Sparse α → Nat → Option α
  | [], _ => none
  | (i, x) :: r, k => if i = k then some x else sGet r k

/-- Sets the entry of key k, keeping keys rising. -/
def sPut {α : Type} : Sparse α → Nat → α → Sparse α
  | [], k, x => [(k, x)]
  | (i, y) :: r, k, x =>
    if i = k then (k, x) :: r
    else if k < i then (k, x) :: (i, y) :: r
    else (i, y) :: sPut r k x

/-- Removes the entry of key k. -/
def sDel {α : Type} (t : Sparse α) (k : Nat) : Sparse α := t.filter fun e => e.1 != k

/-- The entry of key k, or d. -/
def sGetD {α : Type} (t : Sparse α) (k : Nat) (d : α) : α := (sGet t k).getD d

/-- Replaces the elements that satisfy p. -/
def updIf {α : Type} (p : α → Bool) (x : α) (l : List α) : List α := l.map fun y => if p y then x else y

/-- Replaces the element that satisfies p, or appends. -/
def putBy {α : Type} (p : α → Bool) (x : α) (l : List α) : List α := if l.any p then updIf p x l else l ++ [x]

/-- The element of a list at n, or d. -/
def nthD {α : Type} (l : List α) (n : Nat) (d : α) : α := (l[n]?).getD d

/-- Replaces element n of a list. -/
def setNth {α : Type} (l : List α) (n : Nat) (x : α) : List α := l.set n x

/-- The smallest number below n that a list lacks. -/
def lowestFree (used : List Nat) (n : Nat) : Option Nat := (List.range n).find? fun i => !used.contains i

/-! ## Bits -/

/-- Bits lo to lo + n − 1 of a number. -/
def bitsN (v lo n : Nat) : Nat := v / 2 ^ lo % 2 ^ n

def bitN (v i : Nat) : Bool := v / 2 ^ i % 2 == 1

def boolN (b : Bool) : Nat := if b then 1 else 0

/-- The two's complement value of the low w bits. -/
def signedN (w v : Nat) : Int := if v % 2 ^ w < 2 ^ (w - 1) then (v % 2 ^ w : Nat) else (v % 2 ^ w : Nat) - (2 ^ w : Nat)

/-- An integer reduced to w bits. -/
def wrapN (w : Nat) (v : Int) : Nat := (v % ((2 ^ w : Nat) : Int)).toNat

/-- Number of one bits. -/
def popN : Nat → Nat → Nat
  | 0, _ => 0
  | n + 1, v => v % 2 + popN n (v / 2)

/-- The number of bits of v: 0 for 0, else 1 + floor(log2 v). -/
def bitLen (v : Nat) : Nat := if v = 0 then 0 else v.log2 + 1

/-- The lanes of a 128-bit mask, rising. -/
def lanesOf (m : BitVec 128) : List Nat := (List.range 128).filter fun i => m.getLsbD i

/-- The mask with exactly the lanes of a list. -/
def maskOf (l : List Nat) : BitVec 128 := l.foldl (fun m i => m ||| (1#128 <<< i)) 0#128

/-- Sums a list. -/
def sumN (l : List Nat) : Nat := l.foldl (· + ·) 0

/-- The largest element, or 0. -/
def maxN (l : List Nat) : Nat := l.foldl max 0
def minN (l : List Nat) : Nat := l.foldl min (l.headD 0)

/-- Rounds down to a multiple of n. -/
def alignDown (a n : Nat) : Nat := a / n * n

/-- Splits [a, a + n) at the multiples of 2^k: (start, length) pieces. `fuel` bounds the pieces. -/
def pieces (k : Nat) : Nat → Nat → Nat → List (Nat × Nat)
  | 0, _, _ => []
  | fuel + 1, a, n =>
    if n = 0 then []
    else
      let len := min n (2 ^ k - a % 2 ^ k)
      (a, len) :: pieces k fuel (a + len) (n - len)

/-- All pieces. -/
def piecesOf (k a n : Nat) : List (Nat × Nat) := pieces k (n / 2 ^ k + 2) a n

/-- Insertion sort by a key. -/
def insertBy {α : Type} (le : α → α → Bool) (x : α) : List α → List α
  | [] => [x]
  | y :: r => if le x y then x :: y :: r else y :: insertBy le x r

def sortBy {α : Type} (le : α → α → Bool) (l : List α) : List α := l.foldr (insertBy le) []

/-- Distinct elements, first occurrences kept. -/
def distinctN (l : List Nat) : List Nat := l.foldl (fun acc x => if acc.contains x then acc else acc ++ [x]) []

end Sys2Proof.Machine
end

