-- ==== Sys2Proof/Machine/Space.lean ====
section
/-! DEFINITION. Finding and replacing the parts of the state, the identities of agents (R177, R178), fault descriptions (R370 to
R372), the page walk (R166 to R169) and the home of physical memory (R173, R185, R186, R435). -/

namespace Sys2Proof.Machine

/-- What a fault reports besides who raised it: code, ADDR, and bytes 0x28 to 0x3F (R370 to R372). -/
structure FaultInfo where
  code : Nat
  addr : Nat
  info : List Byte
  deriving DecidableEq, Repr

/-- Code-specific bytes from (offset, size, value) fields, offsets as R370 counts them. -/
def infoBytes (fields : List (Nat × Nat × Nat)) : List Byte :=
  layout 24 (fields.map fun f => (f.1 - 0x28, f.2.1, f.2.2))

def faultOf (code addr : Nat) (fields : List (Nat × Nat × Nat)) : FaultInfo := ⟨code, addr, infoBytes fields⟩

/-- A translation or protection fault in the layout of R168: access kind, level, reason bit. -/
def walkFault (code addr kind lvl reason : Nat) (more : List (Nat × Nat × Nat)) : FaultInfo :=
  faultOf code addr ([(0x28, 1, kind), (0x29, 1, lvl), (0x2A, 2, 2 ^ reason)] ++ more)

/-- A protection fault found without a walk: reason bit and cause at 0x2C (R212, R282, R347, R364, R392). -/
def protFault (addr kind reason cause : Nat) : FaultInfo := walkFault 0x0A addr kind 0xFF reason [(0x2C, 1, cause)]

/-! ## Replacing one table -/

def withL1 (s : State) (l : List L1Sector) : State := { s with ms := { s.ms with l1 := l } }
def withPosted (s : State) (l : List Posted) : State := { s with ms := { s.ms with posted := l } }
def withUnpub (s : State) (l : List Unpublished) : State := { s with ms := { s.ms with unpub := l } }
def withTlb (s : State) (l : List Tlb) : State := { s with ms := { s.ms with tlb := l } }
def withRel (s : State) (l : Sparse RelRec) : State := { s with ms := { s.ms with rel := l } }
def withHigh (s : State) (l : Sparse Nat) : State := { s with ms := { s.ms with highWater := l } }
def withFused (s : State) (l : List Nat) : State := { s with ms := { s.ms with fused := l } }
def withMoved (s : State) (l : List Tlb) : State := { s with ms := { s.ms with moved := l } }
def withKeys (s : State) (l : Sparse Nat) : State := { s with ms := { s.ms with keys := l } }
def withOldText (s : State) (l : List OldText) : State := { s with ms := { s.ms with oldText := l } }
def withRace (s : State) (l : Sparse (BitVec 128)) : State := { s with ms := { s.ms with race := l } }
def withMem (s : State) (m : Mem) : State := { s with ms := { s.ms with mem := m } }
def withHostMem (s : State) (m : Mem) : State := { s with ms := { s.ms with hostMem := m } }
def withPoison (s : State) (l : Sparse (BitVec 128)) : State := { s with ms := { s.ms with poison := l } }
def withPallets (s : State) (l : List Pallet) : State := { s with cs := { s.cs with pallets := l } }
def withSheets (s : State) (l : List Sheet) : State := { s with cs := { s.cs with sheets := l } }
def withStore (s : State) (l : List Entry) : State := { s with cs := { s.cs with store := l } }
def withTiles (s : State) (l : List Tile) : State := { s with cs := { s.cs with tiles := l } }
def withBoxes (s : State) (l : Sparse (List Msg)) : State := { s with cs := { s.cs with boxes := l } }
def withAgents (s : State) (l : List Agent) : State := { s with cs := { s.cs with agents := l } }
def withCyc (s : State) (n : Nat) : State := { s with cs := { s.cs with cyc := n } }
def withCopies (s : State) (l : List Copy) : State := { s with en := { s.en with copies := l } }
def withBoard (s : State) (l : List Score) : State := { s with en := { s.en with board := l } }
def withFuts (s : State) (l : List Future) : State := { s with en := { s.en with futs := l } }
def withMmas (s : State) (l : List Mma) : State := { s with en := { s.en with mmas := l } }
def withBatches (s : State) (l : List Batch) : State := { s with en := { s.en with batches := l } }
def withWins (s : State) (l : List Window) : State := { s with en := { s.en with wins := l } }
def withContribs (s : State) (l : List Contrib) : State := { s with en := { s.en with contribs := l } }
def withParts (s : State) (l : List Partial) : State := { s with en := { s.en with parts := l } }
def withRelq (s : State) (l : List Relaunch) : State := { s with en := { s.en with relq := l } }
def withReqs (s : State) (l : List Req) : State := { s with fb := { s.fb with reqs := l } }
def withPwins (s : State) (l : List PeerWin) : State := { s with fb := { s.fb with pwins := l } }
def withPeers (s : State) (l : List (Nat × Word × Mem)) : State := { s with fb := { s.fb with peers := l } }
def withQueues (s : State) (l : List Queue) : State := { s with qs := { s.qs with queues := l } }
def withLaunches (s : State) (l : List Launch) : State := { s with qs := { s.qs with launches := l } }
def withSubs (s : State) (l : List Submit) : State := { s with qs := { s.qs with subs := l } }
def withDeps (s : State) (l : List Dep) : State := { s with qs := { s.qs with deps := l } }
def withCtxs (s : State) (l : List Ctx) : State := { s with mg := { s.mg with ctxs := l } }

/-! ## Parts of the state -/

def getPallet (s : State) (key : Nat) : Option Pallet := s.cs.pallets.find? fun p => p.key == key
def setPallet (s : State) (p : Pallet) : State := withPallets s (updIf (fun q => q.key == p.key) p s.cs.pallets)
def getSheet (s : State) (key : Nat) : Option Sheet := s.cs.sheets.find? fun p => p.key == key
def setSheet (s : State) (p : Sheet) : State := withSheets s (updIf (fun q => q.key == p.key) p s.cs.sheets)
def addSheet (s : State) (p : Sheet) : State := withSheets s (s.cs.sheets ++ [p])
def delSheet (s : State) (key : Nat) : State := withSheets s (s.cs.sheets.filter fun q => q.key != key)
def getLaunch (s : State) (key : Nat) : Option Launch := s.qs.launches.find? fun p => p.key == key
def setLaunch (s : State) (p : Launch) : State := withLaunches s (updIf (fun q => q.key == p.key) p s.qs.launches)
def getCtx (s : State) (cid : Word) : Option Ctx := s.mg.ctxs.find? fun p => p.cid == cid
def setCtx (s : State) (c : Ctx) : State := withCtxs s (updIf (fun q => q.cid == c.cid) c s.mg.ctxs)
/-- A context that is switched out of a core (R380). -/
def outOf (c : Ctx) (core : Nat) : Bool := c.out.any fun o => o.core == core
def getPart (s : State) (n : Nat) : Option Part := s.mg.parts.find? fun p => p.num == n
def getQueue (s : State) (n : Nat) : Option Queue := s.qs.queues.find? fun p => p.num == n
def setQueue (s : State) (q : Queue) : State := withQueues s (updIf (fun r => r.num == q.num) q s.qs.queues)
def getFuture (s : State) (h : Word) : Option Future := s.en.futs.find? fun f => f.handle == h
def setFuture (s : State) (f : Future) : State := withFuts s (updIf (fun g => g.handle == f.handle) f s.en.futs)
def addEntry (s : State) (e : Entry) : State := withStore s (s.cs.store ++ [e])
def mapStore (s : State) (g : Entry → Entry) : State := withStore s (s.cs.store.map g)
def mapSheets (s : State) (g : Sheet → Sheet) : State := withSheets s (s.cs.sheets.map g)
def mapPallets (s : State) (g : Pallet → Pallet) : State := withPallets s (s.cs.pallets.map g)

/-- A fresh internal key. -/
def freshKey (s : State) : Nat × State := (s.cs.fresh, { s with cs := { s.cs with fresh := s.cs.fresh + 1 } })

/-- The sheet that issues, its pallet, its launch and its context. -/
structure Env where
  sh : Sheet
  pl : Pallet
  la : Launch
  cx : Ctx
  deriving DecidableEq, Repr

def envOf (s : State) (sheet : Nat) : Option Env := do
  let sh ← getSheet s sheet
  let pl ← getPallet s sh.pal
  let la ← getLaunch s pl.launch
  let cx ← getCtx s la.cid
  return ⟨sh, pl, la, cx⟩

/-- The cores of a partition, rising (R428: eight for each cluster). -/
def partCores (p : Part) : List Nat :=
  (List.range 256).filter fun c => p.clus.getLsbD (c / 8)

/-- The working cores of a partition (R436). -/
def workingCores (s : State) (p : Part) : List Nat := (partCores p).filter fun c => !s.cs.retired.contains c

/-- Queues of a partition: 64 for each of its clusters (R406). -/
def queueInPart (p : Part) (q : Nat) : Bool := q < 2048 && p.clus.getLsbD (q / 64)

/-- Strip depth of a launch. -/
def depthOf (la : Launch) : Nat := la.r.depth

/-! ## Agents (R177, R178) -/

/-- The 21-bit identity: CHIP, CORE, CTX, KIND. -/
def agentId (chip core slot kind : Nat) : BitVec 21 :=
  BitVec.ofNat 21 (chip * 4096 + core % 256 * 16 + slot % 4 * 4 + kind % 4)

def idKind (a : BitVec 21) : Nat := a.toNat % 4
def idCore (a : BitVec 21) : Nat := a.toNat / 16 % 256
def idChip (a : BitVec 21) : Nat := a.toNat / 4096

/-- The context slot that a context holds on a core; 0 when it holds none. -/
def ctxSlot (s : State) (core : Nat) (cid : Word) : Nat :=
  match getCtx s cid with
  | some c => ((c.slots.find? fun x => x.1 == core).map (·.2)).getD 0
  | none => 0

def palletAgent (s : State) (pl : Pallet) : AgentKey := ⟨agentId s.fb.node pl.core pl.cslot 0, pl.launch⟩
def copyAgent (s : State) (core : Nat) (cid : Word) : AgentKey := ⟨agentId s.fb.node core (ctxSlot s core cid) 1, 0⟩
def pipeAgent (s : State) (core : Nat) (cid : Word) : AgentKey := ⟨agentId s.fb.node core (ctxSlot s core cid) 2, 0⟩
def hubAgent (s : State) : AgentKey := ⟨agentId s.fb.node 0x40 0 3, 0⟩
def hostAgent (s : State) (fn : Nat) : AgentKey := ⟨agentId s.fb.node (0x10 + fn) 0 3, 0⟩

/-- The clocks of an agent; unlisted C = F = 0 (R186). -/
def getAgent (s : State) (k : AgentKey) : Agent := (s.cs.agents.find? fun a => a.key == k).getD ⟨k, 0, 0, []⟩
def setAgent (s : State) (a : Agent) : State := withAgents s (putBy (fun b => b.key == a.key) a s.cs.agents)

/-- The fixed scope of an external agent (R178): a host function at sys, a hub engine at pkg, a peer access at dom. -/
def externalScope (a : BitVec 21) : Nat :=
  if idKind a ≠ 3 then 0 else if idCore a < 0x10 then 5 else if idCore a < 0x40 then 6 else 4

/-- True when agent y lies in x's domain at scope sc (R178). -/
def inDomain (x y : AgentKey) (sc : Nat) : Bool :=
  let sc := if idKind x.id = 3 then externalScope x.id else sc
  let ext := idKind y.id == 3
  let host := ext && 0x10 ≤ idCore y.id && idCore y.id < 0x40
  let peer := ext && idCore y.id < 0x10
  let here := idChip y.id == idChip x.id
  match sc with
  | 0 => x == y
  | 1 => !ext && here && idCore x.id == idCore y.id
  | 2 => !ext && here && idCore x.id / 8 == idCore y.id / 8
  | 3 => !ext && here && idCore x.id / 64 == idCore y.id / 64
  | 4 => here && !host && !peer
  | 5 => !host
  | _ => true

/-! ## The page walk (R166 to R169) -/

/-- How an access is made: its kind (R168, 0x28), the core whose buffers it uses (256: the die's alone), and what tells apart the
accesses of one step. -/
structure AccKind where
  num  : Nat
  wr   : Bool        -- a write, fetch-operation, reduction or engine write
  ex   : Bool        -- a fetch
  host : Bool        -- a host function's access: not bound by WR or EX
  core : Nat := 256
  salt : Nat := 0
  deriving DecidableEq, Repr

def accOf (num : Nat) (wr ex host : Bool) : AccKind := ⟨num, wr, ex, host, 256, 0⟩
def accFetch : AccKind := accOf 0 false true false
def accLoad : AccKind := accOf 1 false false false
def accStore : AccKind := accOf 2 true false false
def accOther : AccKind := accOf 3 true false false
def accCopyRd : AccKind := accOf 4 false false false
def accCopyWr : AccKind := accOf 5 true false false
def accPipe : AccKind := accOf 6 false false false
def accMatcher : AccKind := accOf 7 false false false
def accHost (wr : Bool) : AccKind := accOf (if wr then 2 else 1) wr false true

/-- The same access made by a core's threads or engines, the `salt`-th of its step. -/
def AccKind.at (k : AccKind) (core salt : Nat) : AccKind := { k with core := core, salt := salt }

/-- The buffer of a core that an access looks in (R169). -/
def AccKind.place (k : AccKind) : TlbPlace :=
  if k.num = 4 ∨ k.num = 5 then .copy k.core else if k.num = 6 then .pipe k.core else .core k.core

/-- The buffers that an access looks in: its core's own, and the shared one of its die (R169). -/
def AccKind.places (k : AccKind) : List TlbPlace := if k.core < 256 then [k.place, .die (k.core / 64)] else [.die 0]

/-- A leaf and the virtual base of its page. -/
structure Leaf where
  base : Nat
  lvl  : Nat
  pte  : Dword
  deriving DecidableEq, Repr

def pageBits (lvl : Nat) : Nat := if lvl = 0 then 16 else if lvl = 1 then 21 else 30
def pteAddr (e : Dword) : Nat := (e.extractLsb' 12 44).toNat * 4096
def ptePart (e : Dword) : Nat := (e.extractLsb' 59 5).toNat
def pteKey (e : Dword) : Nat := (e.extractLsb' 6 6).toNat
def pteTier (e : Dword) : Bool := e.getLsbD 5
def pteRc (e : Dword) : Bool := e.getLsbD 4
def pteEx (e : Dword) : Bool := e.getLsbD 3
def pteWr (e : Dword) : Bool := e.getLsbD 2
def pteLeaf (e : Dword) : Bool := e.getLsbD 1
def pteV (e : Dword) : Bool := e.getLsbD 0

/-- A key slot held by the context or by its partition (R429). -/
def keyHeld (s : State) (cx : Ctx) (slot : Nat) : Bool :=
  (slot == cx.part || slot == cx.keySlot) && !s.mg.zeroed.contains slot

/-- The checks of R168 on one entry at a level; answers the failing reason bit, 0 meaning not valid. -/
def entryCheck (s : State) (cx : Ctx) (lvl : Nat) (e : Dword) : Option Nat :=
  if !pteV e then some 0
  else if e.extractLsb' 56 3 ≠ 0 then some 3
  else if pteLeaf e then
    if lvl = 3 then some 3
    else if pteAddr e % 2 ^ pageBits lvl ≠ 0 then some 3
    else if ptePart e ≠ cx.part then some 4
    else if !keyHeld s cx (pteKey e) then some 5
    else none
  else if lvl = 0 ∨ ptePart e ≠ 0 ∨ pteKey e ≠ 0 then some 3
  else none

def walkIndex (lvl va : Nat) : Nat :=
  match lvl with
  | 3 => bitsN va 39 18
  | 2 => bitsN va 30 9
  | 1 => bitsN va 21 9
  | _ => bitsN va 16 5

/-- Walks from a level downward: the leaf, or the level and the reason at which the walk stopped. -/
def walkFrom (s : State) (cx : Ctx) (va : Nat) : Nat → Nat → Except (Nat × Nat) Leaf
  | 0, table =>
    let e : Dword := BitVec.ofNat 64 (ofLe (memRead s.ms.mem (table + 8 * walkIndex 0 va) 8))
    match entryCheck s cx 0 e with
    | some r => .error (0, r)
    | none => .ok ⟨alignDown va (2 ^ 16), 0, e⟩
  | lvl + 1, table =>
    let e : Dword := BitVec.ofNat 64 (ofLe (memRead s.ms.mem (table + 8 * walkIndex (lvl + 1) va) 8))
    match entryCheck s cx (lvl + 1) e with
    | some r => .error (lvl + 1, r)
    | none =>
      if pteLeaf e then .ok ⟨alignDown va (2 ^ pageBits (lvl + 1)), lvl + 1, e⟩
      else walkFrom s cx va lvl (pteAddr e)

/-- The walk from the translation root (R166). -/
def walk (s : State) (cx : Ctx) (va : Nat) : Except (Nat × Nat) Leaf := walkFrom s cx va 3 cx.root.toNat

/-- The cached leaves that an access may find for an address (R169): after a change of the tables there may be several. -/
def tlbAll (s : State) (cid : Word) (k : AccKind) (va : Nat) : List Leaf :=
  ((s.ms.tlb.filter fun t => t.cid == cid && alignDown va (2 ^ pageBits t.lvl) == t.base && k.places.contains t.place).map
    fun t => (⟨t.base, t.lvl, t.pte⟩ : Leaf)).eraseDups

/-- Makes the race records of a page quiescent (R228: RC cleared on the page). -/
def quietPage (s : State) (l : Leaf) : State :=
  let lo := pteAddr l.pte / 128
  let here := fun (line : Nat) => lo ≤ line && line < lo + 2 ^ pageBits l.lvl / 128
  let s := withUnpub (withRace s (s.ms.race.filter fun r => !here r.1)) (s.ms.unpub.filter fun u => !here u.line)
  withL1 s (s.ms.l1.map fun b => if here (b.sec / 8) then { b with race := BitVec.ofNat 3 4 ++ (0 : BitVec 125), rc := false } else b)

/-- A page that has moved to the other tier brings its lines' race metadata along (R170): the records, and the checks that wait. -/
def movePage (s : State) (old new : Dword) (lvl : Nat) : State :=
  let lo := pteAddr old / 128
  let hi := pteAddr new / 128
  let n := 2 ^ pageBits lvl / 128
  let came := s.ms.race.filter fun r => lo ≤ r.1 && r.1 < lo + n
  let rest := s.ms.race.filter fun r => !(lo ≤ r.1 && r.1 < lo + n) && !(hi ≤ r.1 && r.1 < hi + n)
  withUnpub (withRace s (came.foldl (fun t r => sPut t (r.1 - lo + hi) r.2) rest))
    (s.ms.unpub.map fun u => if lo ≤ u.line && u.line < lo + n then { u with line := u.line - lo + hi } else u)

/-- The first use of the new entry of a page whose move was begun (R170). -/
def settleMove (s : State) (cid : Word) (l : Leaf) : State :=
  match s.ms.moved.find? fun t => t.cid == cid && t.base == l.base && t.lvl == l.lvl with
  | none => s
  | some t =>
    let s := withMoved s (s.ms.moved.filter fun u => u != t)
    if pteRc l.pte && pteTier t.pte != pteTier l.pte then movePage s t.pte l.pte l.lvl else s

/-- Entries that a buffer holds of a page's kind (R169). -/
def tlbCapacity (p : TlbPlace) (lvl : Nat) : Nat :=
  match p with
  | .core _ => if lvl = 0 then 256 else 64
  | .pipe _ => 64
  | .copy _ => 64
  | .die _ => 16384

/-- Two entries that compete for room: of one buffer, and in a core's of one page kind (R169). -/
def tlbRivals (p : TlbPlace) (lvl : Nat) (t : Tlb) : Bool :=
  t.place == p && (match p with | .core _ => (t.lvl == 0) == (lvl == 0) | _ => true)

/-- One of some entries: a free choice. -/
def pickTlb (tick salt : Nat) (t : Tlb) : List Tlb → Tlb
  | [] => t
  | x :: r => if Config.choice tick salt then t else pickTlb tick (salt + 1) x r

/-- Puts an entry into its buffer; a full one loses an entry, a free choice. -/
def tlbPut (s : State) (t : Tlb) : State :=
  if s.ms.tlb.contains t then s
  else
    let l := match s.ms.tlb.filter (tlbRivals t.place t.lvl) with
      | [] => s.ms.tlb
      | x :: r => if r.length + 1 < tlbCapacity t.place t.lvl then s.ms.tlb
        else s.ms.tlb.filter fun u => u != pickTlb s.tick (t.base + 1) x r
    withTlb s (t :: l)

/-- Caches a leaf in the buffers that its access looked in; an older leaf of the same page stays beside it until a tlbinv drops it
(R169). A leaf with RC clear makes the page's records quiescent (R228). -/
def tlbAdd (s : State) (cid : Word) (k : AccKind) (l : Leaf) : State :=
  if k.places.all fun p => s.ms.tlb.contains ⟨cid, l.base, l.lvl, l.pte, p⟩ then s
  else
    let s := settleMove s cid l
    let s := if pteRc l.pte then s else quietPage s l
    k.places.foldl (fun s p => tlbPut s ⟨cid, l.base, l.lvl, l.pte, p⟩) s

/-- A translated piece of an access: physical address, bytes, leaf. -/
structure Phys where
  va   : Nat
  pa   : Nat
  len  : Nat
  leaf : Leaf
  deriving DecidableEq, Repr

/-- One of some leaves that a change of the tables has left in the buffers: a free choice. -/
def pickLeaf (tick salt : Nat) (l : Leaf) : List Leaf → Leaf
  | [] => l
  | x :: r => if Config.choice tick salt then x else pickLeaf tick (salt + 1) l r

/-- The leaf that an access to va uses, and the level to report when a permission fails: 0xFF when the entry came from a
translation buffer. After a change of the tables either translation may be used (R169): a free choice, as is whether a cached leaf
is found in a buffer of the accessing agent. -/
def leafFor (s : State) (cx : Ctx) (k : AccKind) (va : Nat) : Except (Nat × Nat) (Leaf × Nat) :=
  let cached := tlbAll s cx.cid k va
  let salt := va * 4096 + k.salt
  match walk s cx va with
  | .ok l =>
    match cached.filter fun c => c != l with
    | [] => .ok (l, if cached.isEmpty || Config.choice s.tick (2 * salt + 1) then l.lvl else 0xFF)
    | c :: r => if Config.choice s.tick (2 * salt) then .ok (pickLeaf s.tick (2 * salt + 2) c r, 0xFF) else .ok (l, l.lvl)
  | .error e =>
    match cached with
    | [] => .error e
    | c :: r => if Config.choice s.tick (2 * salt) then .ok (pickLeaf s.tick (2 * salt + 2) c r, 0xFF) else .error e

/-! ## The shadow map (R430) -/

/-- An entry of a shadow map: its size is a multiple of 2 MiB, its last bytes are zero, and its shadow region lies in the partition's
HBM4E share (R430). An entry that breaks this covers nothing (log 64). -/
def shadowEntryOk (p : Part) (e : List Byte) : Bool :=
  fieldB e 8 8 % 2 ^ 21 == 0 && fieldB e 24 8 == 0 && p.mbase.toNat ≤ fieldB e 16 8 &&
  fieldB e 16 8 + fieldB e 8 8 / 8 ≤ p.mbase.toNat + p.msize.toNat

/-- True when an entry of the partition's shadow map covers the physical line. -/
def shadowCovers (s : State) (p : Part) (pa : Nat) : Bool :=
  (List.range 16).any fun i =>
    let e := memRead s.ms.mem (p.smap.toNat + 32 * i) 32
    shadowEntryOk p e && fieldB e 0 8 ≤ pa && pa < fieldB e 0 8 + fieldB e 8 8

/-- True when an access touches a race-checked line that no entry of its partition's shadow map covers. -/
def shadowMissing (s : State) (cx : Ctx) (l : Leaf) (pa len : Nat) : Bool :=
  pteRc l.pte &&
  match getPart s cx.part with
  | none => true
  | some p => (piecesOf 7 pa len).any fun q => !shadowCovers s p q.1

/-! ## Translation -/

/-- The access kind that a shadow fault shows: R430 names none (R168). -/
def shadowKind (k : AccKind) : Nat := if k.num = 4 ∨ k.num = 5 then 5 else if k.num = 6 ∨ k.num = 7 then k.num else 3

/-- Checks and translates one piece that lies in one 64 KiB block. -/
def translatePiece (s : State) (cx : Ctx) (k : AccKind) (va len : Nat) : Except FaultInfo (Phys × State) :=
  match leafFor s cx k va with
  | .error (lvl, r) => .error (walkFault (if r = 0 then 0x09 else 0x0A) va k.num lvl r [])
  | .ok (l, lvl) =>
    if k.wr && !k.host && !pteWr l.pte then .error (walkFault 0x0A va k.num lvl 1 [])
    else if k.ex && !k.host && !pteEx l.pte then .error (walkFault 0x0A va k.num lvl 2 [])
    else if shadowMissing s cx l (pteAddr l.pte + (va - l.base)) len then
      .error (walkFault 0x0A va (shadowKind k) 0xFF 14 [])
    else .ok (⟨va, pteAddr l.pte + (va - l.base), len, l⟩, tlbAdd s cx.cid k l)

/-- Translates every piece of [va, va + n); bits [63:57] set fail before any walk (R162). -/
def translate (s : State) (cx : Ctx) (k : AccKind) (va n : Nat) : Except FaultInfo (List Phys × State) :=
  if va + n > 2 ^ 57 ∨ va ≥ 2 ^ 57 then .error (walkFault 0x0A va k.num 0xFF 6 [])
  else (piecesOf 16 va n).foldl (fun acc p =>
    match acc with
    | .error e => .error e
    | .ok (l, s) =>
      match translatePiece s cx k p.1 p.2 with
      | .error e => .error { e with addr := va }
      | .ok (q, s) => .ok (l ++ [q], s)) (.ok ([], s))

/-! ## Line watches (R36, R214) -/

/-- True when a thread's watch is on the line. -/
def watches (t : Thread) (tray : Option Nat) (line : Nat) : Bool :=
  match t.watch with
  | some w => w.tray == tray && w.line == line
  | none => false

def setPending (t : Thread) : Thread :=
  { t with watch := t.watch.map fun w => { w with pending := true } }

/-- Sets the pending bit of every watch on a line whose thread does not belong to agent `by`. -/
def notifyLine (s : State) (tray : Option Nat) (line : Nat) (agent : AgentKey) : State :=
  let mine := fun (pal : Nat) => match getPallet s pal with
    | some p => palletAgent s p == agent
    | none => false
  { s with cs := { s.cs with
    store := s.cs.store.map fun e =>
      if watches e.thr tray line && !mine e.pal then { e with thr := setPending e.thr } else e
    sheets := s.cs.sheets.map fun sh =>
      if mine sh.pal then sh
      else { sh with lanes := sh.lanes.map fun l => if watches l.2 tray line then (l.1, setPending l.2) else l } } }

/-- Sets the pending bit of every watch of a context on lines whose clean blocks some cores lose (R36). -/
def notifyLost (s : State) (cid : Word) (cores : Nat → Bool) (lines : List Nat) : State :=
  let here := fun (pal : Nat) => match getPallet s pal with
    | some p => cores p.core && ((getLaunch s p.launch).map (·.cid)) == some cid
    | none => false
  let hit := fun (t : Thread) => lines.any fun l => watches t none l
  if lines.isEmpty then s
  else { s with cs := { s.cs with
    store := s.cs.store.map fun e => if hit e.thr && here e.pal then { e with thr := setPending e.thr } else e
    sheets := s.cs.sheets.map fun sh =>
      if here sh.pal then { sh with lanes := sh.lanes.map fun l => if hit l.2 then (l.1, setPending l.2) else l } else sh } }

/-! ## Release records (R178, R186) -/

/-- The mark of a release by an agent at a scope. -/
def markOf (k : AgentKey) (sc stamp : Nat) : Mark := ⟨some (k, BitVec.ofNat 3 sc), stamp⟩

/-- A stamp that every acquire takes; 0 is no stamp. -/
def anyMark (stamp : Nat) : List Mark := if stamp = 0 then [] else [⟨none, stamp⟩]

/-- A release into an object that holds one stamp, the maximum of every release into it (R186). -/
def addMark (ms : List Mark) (m : Mark) : List Mark :=
  let top := maxN (m.stamp :: ms.map (·.stamp))
  (if ms.any fun x => x.rel == m.rel then ms else m :: ms).map fun x => { x with stamp := top }

def addMarks (ms : List Mark) (l : List Mark) : List Mark := l.foldl addMark ms

/-- A release and an acquire by `k` at scope `sc` are matched (R178). -/
def matched (k : AgentKey) (sc : Nat) (m : Mark) : Bool :=
  match m.rel with
  | none => true
  | some (x, s1) => inDomain x k s1.toNat && inDomain k x sc

/-- The stamp that an acquire takes of an object: of the releases it is matched with; 0 stands for none. -/
def stampFor (k : AgentKey) (sc : Nat) (ms : List Mark) : Nat :=
  maxN ((ms.filter (matched k sc)).map (·.stamp))

/-- The words of line `line` that bytes [pa, pa + n) touch. -/
def lineWords (line pa n : Nat) : Word :=
  (List.range 32).foldl (fun m w =>
    if line * 128 + 4 * w < pa + n ∧ pa < line * 128 + 4 * w + 4 then m ||| (1#32 <<< w) else m) 0#32

/-- A write to words of a line: a release at a scope stamps them, a plain store removes them, `keep` leaves the record. -/
inductive RelEffect where
  | stamp (c sc : Nat)
  | plain
  | keep
  deriving DecidableEq, Repr

/-- Adds an agent's release of words to a record's releases. -/
def addSrc (l : List (AgentKey × BitVec 3 × Word)) (k : AgentKey) (sc : BitVec 3) (words : Word) :
    List (AgentKey × BitVec 3 × Word) :=
  let same := fun (x : AgentKey × BitVec 3 × Word) => x.1 == k && x.2.1 == sc
  let old : Word := ((l.find? same).map fun x => x.2.2).getD 0
  putBy same (k, sc, old ||| words) l

def relUpdate (t : Sparse RelRec) (line : Nat) (words : Word) (k : AgentKey) : RelEffect → Sparse RelRec
  | .stamp c sc =>
    let r := sGetD t line ⟨0, 0, []⟩
    sPut t line ⟨max r.stamp c, r.mask ||| words, addSrc r.src k (BitVec.ofNat 3 sc) words⟩
  | .plain =>
    match sGet t line with
    | none => t
    | some r => sPut t line { r with
        mask := r.mask &&& ~~~words
        src := (r.src.map fun x => (x.1, x.2.1, x.2.2 &&& ~~~words)).filter fun x => x.2.2 != 0 }
  | .keep => t

/-- What an acquire of the words may take (R186): the record's stamp, for the releases that wrote some of them; with no record, the
slice's high-water stamp. -/
def relMarks (t : Sparse RelRec) (high : Nat) (line : Nat) (words : Word) : List Mark :=
  match sGet t line with
  | none => anyMark high
  | some r => (r.src.filter fun x => x.2.2 &&& words != 0).map fun x => ⟨some (x.1, x.2.1), r.stamp⟩

/-- The L2 slice at which a physical line has its home (R173): interleaved within the partition that owns the memory. -/
def homeSlice (s : State) (line : Nat) : Nat :=
  let inside := fun (p : Part) =>
    (p.mbase.toNat ≤ line * 128 && line * 128 < p.mbase.toNat + p.msize.toNat) ||
    (p.tbase.toNat ≤ line * 128 && line * 128 < p.tbase.toNat + p.tsize.toNat)
  match s.mg.parts.find? inside with
  | some p => p.num * 128 + line % (4 * max 1 ((List.range 32).countP fun i => p.clus.getLsbD i))
  | none => 32 * 128 + line % 128

/-- Release records that the store beside one slice holds before it drops one (R186; the number is the model's: log 39). -/
def relCapacity : Nat := 4096

/-- Drops the lowest line's record of a slice that holds too many, and folds its stamp into the slice's high-water stamp (R186). -/
def foldRel (s : State) (line : Nat) : State :=
  let sl := homeSlice s line
  let mine := s.ms.rel.filter fun r => homeSlice s r.1 == sl
  if mine.length ≤ relCapacity then s
  else match mine.find? fun r => r.1 != line with
    | none => s
    | some r => withHigh (withRel s (sDel s.ms.rel r.1)) (sPut s.ms.highWater sl (max r.2.stamp (sGetD s.ms.highWater sl 0)))

/-! ## The home of physical memory -/

/-- R435: the machine check of a poisoned line, or none. -/
def poisonCheck (s : State) (p : Phys) : Option FaultInfo :=
  match (piecesOf 7 p.pa p.len).find? fun q => (sGet s.ms.poison (q.1 / 128)).isSome with
  | some q =>
    let unit := sGetD s.ms.poisonUnit (q.1 / 128) (if pteTier p.leaf.pte then 7 else 6)
    some (faultOf 0x3F 0 [(0x28, 1, unit), (0x30, 8, p.pa)])
  | none => none

/-- R435: the machine check of an uncorrectable error in a core's register file, tile storage, tray or spawn store (units 0, 1, 2 and 4),
or in the fabric's buffers (unit 8), when an agent consumes its line. Which access meets it is a free choice, since the spec does not say
what such a line holds (log 83). -/
def markCheck (s : State) (hit : Nat × Nat → Bool) : Option FaultInfo :=
  (s.ms.marks.zipIdx.find? fun m => hit m.1 && Config.choice s.tick (0x4350 + m.2)).map fun m => faultOf 0x3F 0 [(0x28, 1, m.1.1)]

def coreCheck (s : State) (core : Nat) : Option FaultInfo := markCheck s fun m => m.1 != 8 && m.2 == core
def fabricCheck (s : State) : Option FaultInfo := markCheck s fun m => m.1 == 8

/-- Lines that have been overwritten in full are cleared: a free choice as well (R435). -/
def clearMarks (s : State) : State :=
  if s.ms.marks.isEmpty then s
  else { s with ms := { s.ms with
    marks := (s.ms.marks.zipIdx.filter fun m => !Config.choice s.tick (0x4360 + m.2)).map (·.1) } }

/-- The bytes at a home. -/
def homeRead (s : State) (pa n : Nat) : List Byte := memRead s.ms.mem pa n

/-- True when the 16 bytes round an address were last written under another key slot (R168). -/
def otherKey (s : State) (key pa : Nat) : Bool := (sGet s.ms.keys (pa / 16)).any fun k => k != key

/-- No byte of a range was written under another slot than this. -/
def ownKey (s : State) (key pa n : Nat) : Bool := (List.range n).all fun i => !otherKey s key (pa + i)

/-- The bytes at a home through pages of a key slot. Those that were written under another do not decrypt: free values (R168). -/
def keyedRead (s : State) (key pa n : Nat) : List Byte :=
  (homeRead s pa n).zipIdx.map fun b => if otherKey s key (pa + b.2) then Config.byte s.tick (pa + b.2) else b.1

/-- The bytes of translated pieces at their homes. -/
def physRead (s : State) (ps : List Phys) : List Byte := ps.flatMap fun p => keyedRead s (pteKey p.leaf.pte) p.pa p.len

/-- What a write under a key slot does to the 16-byte units that it meets: they are encrypted under that slot, and bytes of them that
were written under another become free values (R168). -/
def takeKey (s : State) (key pa n : Nat) : State :=
  (piecesOf 4 pa n).foldl (fun s q =>
    let u := q.1 / 16
    let s := if otherKey s key q.1 then
        withMem s (memWrite s.ms.mem (16 * u) ((List.range 16).map fun i => Config.byte s.tick (16 * u + i)))
      else s
    withKeys s (sPut s.ms.keys u key)) s

/-- Clears poison from overwritten bytes; a line whose every byte is overwritten is clean (R435). -/
def clearPoison (t : Sparse (BitVec 128)) (pa n : Nat) : Sparse (BitVec 128) :=
  (piecesOf 7 pa n).foldl (fun t q =>
    match sGet t (q.1 / 128) with
    | none => t
    | some m =>
      let hit : BitVec 128 := ((1#128 <<< q.2) - 1#128) <<< (q.1 % 128)
      let m' := m &&& ~~~hit
      if m' = 0 then sDel t (q.1 / 128) else sPut t (q.1 / 128) m') t

/-! ## The debug reserve (R457) -/

/-- Bytes of the spawn store that an entry takes: its g and f registers and 512 bytes of side state (log 13). -/
def entryBytes (la : Launch) : Nat := 4 * la.r.gcnt + 8 * la.r.fcnt + 512

/-- Number of sheet slots S of a pallet (R30). -/
def sheetSlots (la : Launch) : Nat := (la.r.thr + 32 * la.r.depth - 1) / (32 * la.r.depth)

/-- Bytes of a pallet's park area (R419). -/
def parkBytes (la : Launch) : Nat := sheetSlots la * 32 * la.r.depth * (4 * la.r.gcnt + 8 * la.r.fcnt) + 65536

/-- Bytes of its save area that a context needs to be switched out (R380): for each pallet its park area, its tray and its spawn
entries (log 34). -/
def saveNeed (s : State) (cid : Word) : Nat :=
  sumN (s.cs.pallets.map fun p =>
    match getLaunch s p.launch with
    | some la =>
      if la.cid == cid then
        parkBytes la + la.r.tray + (s.cs.store.filter fun e => e.pal == p.key).length * entryBytes la
      else 0
    | none => 0)

/-- Bytes of one copied page with its race metadata: 64 KiB and one 16-byte record for each line. -/
def pageCopyBytes : Nat := 65536 + 512 * 16

/-- True when the debug reserve of a context has room for one more page. -/
def reserveRoom (s : State) (c : Ctx) : Bool :=
  let used := sumN (s.cs.pallets.map fun p =>
    if ((getLaunch s p.launch).map (·.cid)) == some c.cid then p.rpl.length * pageCopyBytes else 0)
  saveNeed s c.cid + used + pageCopyBytes ≤ c.savs.toNat

/-- The agents of a pallet: its own, and its core's engines for its context (R177). -/
def isPalletAgent (s : State) (p : Pallet) (k : AgentKey) : Bool :=
  palletAgent s p == k ||
  match getLaunch s p.launch with
  | some la => copyAgent s p.core la.cid == k || pipeAgent s p.core la.cid == k
  | none => false

/-- Copies a page before the first write to it in an exposure, or notes that it has no copy (R457). -/
def notePage (s : State) (p : Pallet) (page : Nat) : State :=
  if p.rpl.any fun r => r.page == page then s
  else
    match (getLaunch s p.launch).bind fun la => getCtx s la.cid with
    | none => s
    | some c =>
      if p.dbg.att && p.rbok && reserveRoom s c then
        setPallet s { p with rpl := p.rpl ++ [⟨page,
          s.ms.mem.filter fun b => b.1 / 65536 == page,
          s.ms.race.filter fun r => r.1 / 512 == page,
          s.ms.keys.filter fun k => k.1 / 4096 == page⟩] }
      else setPallet s { p with rbok := false }

/-- What a write by an agent to physical bytes does to the debug reserves of its pallets. -/
def notePages (s : State) (agent : AgentKey) (pa n : Nat) : State :=
  (piecesOf 16 pa n).foldl (fun s q =>
    (s.cs.pallets.filter fun p => isPalletAgent s p agent && p.rbok).foldl (fun s p => notePage s p (q.1 / 65536)) s) s

def addOlds (s : State) (l : List OldUnit) : State := { s with en := { s.en with olds := l ++ s.en.olds } }

/-- The pallets that hold tiles: their mma may still read what a unit held before it is overwritten (R188). -/
def tilePallets (s : State) : List Pallet :=
  s.cs.pallets.filter fun p => p.st != .ended && (getLaunch s p.launch).any fun la => la.r.tiles != 0

/-- Notes what the 4-byte units of physical bytes hold at their homes, for every pallet whose mma may still read it (R188). -/
def noteHome (s : State) (pa n : Nat) : State :=
  match tilePallets s with
  | [] => s
  | ps => addOlds s <| ps.flatMap fun p => (piecesOf 2 pa n).map fun r =>
      let a := alignDown r.1 4
      ⟨p.key, none, a, BitVec.ofNat 32 (ofLe (homeRead s a 4)), s.tick⟩

/-- The same of a tray's bytes. -/
def noteTray (s : State) (pl : Pallet) (off n : Nat) : State :=
  match tilePallets s with
  | [] => s
  | ps => addOlds s <| ps.flatMap fun p => (piecesOf 2 off n).map fun r =>
      let a := alignDown r.1 4
      ⟨p.key, some pl.key, a, BitVec.ofNat 32 (ofLe (memRead pl.tray a 4)), s.tick⟩

/-- Performs a write at the home of physical bytes (R184, R185): memory, poison, the release record, the watches. -/
def homeWrite (s : State) (agent : AgentKey) (pa : Nat) (bytes : List Byte) (eff : RelEffect) : State :=
  let s := noteHome (notePages s agent pa bytes.length) pa bytes.length
  let s := withPoison (withMem s (memWrite s.ms.mem pa bytes)) (clearPoison s.ms.poison pa bytes.length)
  (piecesOf 7 pa bytes.length).foldl (fun s q =>
    let line := q.1 / 128
    let s := foldRel (withRel s (relUpdate s.ms.rel line (lineWords line q.1 q.2) agent eff)) line
    notifyLine s none line agent) s

/-- A write at a home through a page of a key slot (R168). -/
def keyedWrite (s : State) (agent : AgentKey) (key pa : Nat) (bytes : List Byte) (eff : RelEffect) : State :=
  homeWrite (takeKey (notePages s agent pa bytes.length) key pa bytes.length) agent pa bytes eff

/-! ## Trays (R164, R175) -/

/-- The bytes of a pallet's tray. -/
def trayRead (pl : Pallet) (off n : Nat) : List Byte := memRead pl.tray off n

/-- Performs a write in a pallet's tray. -/
def trayWrite (s : State) (agent : AgentKey) (pal off : Nat) (bytes : List Byte) (eff : RelEffect) : State :=
  match getPallet s pal with
  | none => s
  | some pl =>
    let rel := (piecesOf 7 off bytes.length).foldl (fun t q =>
      relUpdate t (q.1 / 128) (lineWords (q.1 / 128) q.1 q.2) agent eff) pl.trel
    let s := setPallet (noteTray s pl off bytes.length) { pl with tray := memWrite pl.tray off bytes, trel := rel }
    (piecesOf 7 off bytes.length).foldl (fun s q => notifyLine s (some pal) (q.1 / 128) agent) s

/-- The pallet of a launch on a core (R162 ctray), whose core is not retired (R436). -/
def palletOnCore (s : State) (launch core : Nat) : Option Pallet :=
  if s.cs.retired.contains core then none
  else s.cs.pallets.find? fun p => p.launch == launch && p.core == core && p.st != PalSt.ended

end Sys2Proof.Machine
end

