-- ==== Sys2Proof/Machine/Race.lean ====
section
/-! DEFINITION. The race detector: records (R224), the ordering test (R225 to R227), the state table (R228), counters (R237), the
report filter (R233), and the bytes of a race (R156). -/

namespace Sys2Proof.Machine

/-- The clock of a saturated agent (R223). -/
def satClock : Nat := 2 ^ 22 - 1

/-- A clock as a record holds it: 22 bits, saturating (R223). -/
def recClock (c : Nat) : Nat := min c satClock

/-- The fields of a race record (R224). -/
structure RaceRec where
  state : Nat
  wagt  : BitVec 21
  wclk  : Nat
  tag   : Nat
  wsc   : Nat
  ragt  : BitVec 21
  rclk  : Nat
  mask  : Word
  deriving DecidableEq, Repr

def unpackRace (b : BitVec 128) : RaceRec where
  state := (b.extractLsb' 125 3).toNat
  wagt := b.extractLsb' 104 21
  wclk := (b.extractLsb' 82 22).toNat
  tag := (b.extractLsb' 78 4).toNat
  wsc := (b.extractLsb' 75 3).toNat
  ragt := b.extractLsb' 54 21
  rclk := (b.extractLsb' 32 22).toNat
  mask := b.extractLsb' 0 32

def packRace (r : RaceRec) : BitVec 128 :=
  BitVec.ofNat 3 r.state ++ r.wagt ++ BitVec.ofNat 22 r.wclk ++ BitVec.ofNat 4 r.tag ++ BitVec.ofNat 3 r.wsc ++ r.ragt ++
  BitVec.ofNat 22 r.rclk ++ r.mask

/-- A quiescent record (R224). -/
def raceQuiet : BitVec 128 := BitVec.ofNat 3 4 ++ (0 : BitVec 125)

/-- The record of a physical line; an unlisted line is quiescent (R437). -/
def raceGet (t : Sparse (BitVec 128)) (line : Nat) : BitVec 128 := sGetD t line raceQuiet

/-- Sets a record; quiescent records are unlisted. -/
def racePut (t : Sparse (BitVec 128)) (line : Nat) (r : BitVec 128) : Sparse (BitVec 128) :=
  if r = raceQuiet then sDel t line else sPut t line r

/-- The accessing party of a check. -/
structure Party where
  id   : BitVec 21
  c    : Nat
  f    : Nat
  tag  : Nat
  scope : Nat
  deriving DecidableEq, Repr

def isSat (c : Nat) : Bool := satClock ≤ c

/-- R225: the recorded clock of party `p` is unordered with respect to the accessor. -/
def unordered (r : RaceRec) (p : BitVec 21) (c : Nat) (a : Party) : Bool :=
  r.tag == a.tag && p != a.id && !isSat c && !isSat a.c && a.f ≤ c && c - a.f < 2 ^ 21

/-- True when a check of R225 is skipped because a party is saturated (counted, R237; where no check would be made, none is: log 108). -/
def satSkip (r : RaceRec) (p : BitVec 21) (c : Nat) (a : Party) : Bool :=
  r.tag == a.tag && p != a.id && (isSat c || isSat a.c)

def meets (a b : Word) : Bool := a &&& b != 0

/-- The verdict of a check: no race, or the role of the recorded party and the conflicting words; and what was skipped. -/
structure Verdict where
  race : Option (Bool × BitVec 21 × Nat × Nat × Word)   -- reader?, recorded agent, clock, scope, words
  sat  : Bool
  split : Bool
  deriving DecidableEq, Repr

def live (r : RaceRec) : Bool := r.state == 1 || r.state == 2

/-- R226: a load of words l. -/
def loadVerdict (r : RaceRec) (l : Word) (a : Party) : Verdict :=
  if r.state = 3 then ⟨none, false, true⟩
  else if live r ∧ meets l r.mask then
    if unordered r r.wagt r.wclk a then ⟨some (false, r.wagt, r.wclk, r.wsc, l &&& r.mask), false, false⟩
    else ⟨none, satSkip r r.wagt r.wclk a, false⟩
  else ⟨none, false, false⟩

/-- True when every populated field is ordered for the writer (R228). A record of another tag is ordered. -/
def writeOrdered (r : RaceRec) (a : Party) : Bool :=
  r.tag != a.tag || a.tag == 0 ||
  (!unordered r r.wagt r.wclk a && !(r.state == 2 && unordered r r.ragt r.rclk a))

/-- R227: a published write of words w. -/
def writeVerdict (r : RaceRec) (w : Word) (a : Party) : Verdict :=
  if r.state = 3 then ⟨none, false, !writeOrdered r a⟩
  else if live r ∧ meets w r.mask then
    if unordered r r.wagt r.wclk a then ⟨some (false, r.wagt, r.wclk, r.wsc, w &&& r.mask), false, false⟩
    else if r.state = 2 ∧ unordered r r.ragt r.rclk a then
      ⟨some (true, r.ragt, r.rclk, r.wsc, w &&& r.mask), satSkip r r.wagt r.wclk a, false⟩
    else ⟨none, satSkip r r.wagt r.wclk a || (r.state == 2 && satSkip r r.ragt r.rclk a), false⟩
  else ⟨none, false, false⟩

/-- A record with A as its writer. -/
def writerRec (a : Party) (w : Word) : RaceRec := ⟨1, a.id, recClock a.c, a.tag, a.scope, 0, 0, w⟩

/-- The record after a write by A of words w (R228). The recorded writer's own row stands above tag 0's (log 108). -/
def afterWrite (r : RaceRec) (a : Party) (w : Word) : RaceRec :=
  if r.state = 0 ∨ r.state = 4 then writerRec a w
  else if live r ∧ r.wagt = a.id ∧ r.tag = a.tag then
    let keep := w &&& ~~~r.mask == 0
    { r with
      mask := r.mask ||| w, wclk := recClock a.c, wsc := a.scope
      state := if keep then r.state else 1
      ragt := if keep then r.ragt else 0
      rclk := if keep then r.rclk else 0 }
  else if writeOrdered r a then writerRec a w
  else
    let new := r.wclk ≤ recClock a.c
    { r with
      state := 3, mask := r.mask ||| w, ragt := 0, rclk := 0
      wagt := if new then a.id else r.wagt
      wclk := if new then recClock a.c else r.wclk
      wsc := if new then a.scope else r.wsc }

/-- The record after a load by B of words l served at the home (R228). -/
def afterLoad (r : RaceRec) (b : Party) (l : Word) : RaceRec :=
  if live r ∧ b.id ≠ r.wagt ∧ r.tag = b.tag ∧ r.mask &&& ~~~l = 0 then
    if r.state = 2 ∧ r.rclk > recClock b.c then r
    else { r with state := 2, ragt := b.id, rclk := recClock b.c }
  else r

/-- The code-specific bytes of a race (R156). `pub` for a published store. -/
def raceInfo (a : Party) (pub : Bool) (reader : Bool) (agt : BitVec 21) (clk sc : Nat) (words : Word) : List Byte :=
  infoBytes [(0x28, 4, a.scope * 2 ^ 24 + boolN pub * 2 ^ 21 + a.id.toNat),
    (0x2C, 4, sc * 2 ^ 24 + boolN reader * 2 ^ 21 + agt.toNat), (0x30, 8, a.f), (0x38, 4, clk), (0x3C, 4, words.toNat)]

/-- The lowest word of a mask. -/
def lowWord (m : Word) : Nat := ((List.range 32).find? fun i => m.getLsbD i).getD 0

/-- A race that is to be raised or reported. -/
structure RaceHit where
  fault : FaultInfo
  line  : Nat
  deriving DecidableEq, Repr

/-- Adds to a counter of R237. -/
def countRace (s : State) (cid : Word) (n : Nat) (k : Nat) : State :=
  match getCtx s cid with
  | none => s
  | some c => setCtx s { c with race := c.race.set n ((nthD c.race n 0 + k) % 2 ^ 64) }

def countIf (s : State) (cid : Word) (n : Nat) (b : Bool) : State := if b then countRace s cid n 1 else s

/-- The report filter (R233): a race on a line already reported in the phase, or any once 64 lines are held, is counted only. -/
def filterRace (s : State) (k : AgentKey) (cid : Word) (h : RaceHit) : State × Option RaceHit :=
  let a := getAgent s k
  if a.filter.contains h.line || 64 ≤ a.filter.length then (countRace s cid 2 1, none)
  else (setAgent s { a with filter := a.filter ++ [h.line] }, some h)

/-- The race mode of a launch (R221): 0 off, 1 fault, 2 report. -/
def raceMode (la : Launch) : Nat := bitsN la.r.lfl.toNat 4 2

/-- A party of a check: the agent's clocks as they stand, the launch's tag (0 in mode off). -/
def partyOf (s : State) (k : AgentKey) (tag scope : Nat) : Party :=
  let a := getAgent s k
  ⟨k.id, a.c, a.f, tag, scope⟩

/-- Checks a load of words of one line, each part of them against the record it was filled with, and counts what it skips once
(R226, R229). `va` is the load's formed address (R203). -/
def checkLoad (s : State) (cid : Word) (p : Party) (recs : List (BitVec 128 × Word)) (line va : Nat) : State × List RaceHit :=
  let vs := recs.map fun r => loadVerdict (unpackRace r.1) r.2 p
  let s := countIf (countIf s cid 1 (vs.any (·.sat))) cid 4 (vs.any (·.split))
  match vs.findSome? (·.race) with
  | none => (s, [])
  | some (rd, agt, clk, sc, words) => (s, [⟨⟨0x18, va, raceInfo p false rd agt clk sc words⟩, line⟩])

/-- Records a load served at the home (R228, R229). -/
def recordLoad (s : State) (p : Party) (line : Nat) (l : Word) : State :=
  let r := unpackRace (raceGet s.ms.race line)
  withRace s (racePut s.ms.race line (packRace (afterLoad r p l)))

/-- Checks and records a published write of words of one line (R227, R228, R230). `check` is false for a party that is never
checked (R231); `lineVa` is the virtual address of the line. -/
def publishLine (s : State) (cid : Word) (p : Party) (check : Bool) (line lineVa : Nat) (w : Word) : State × List RaceHit :=
  let r := unpackRace (raceGet s.ms.race line)
  let v := if check then writeVerdict r w p else ⟨none, false, false⟩
  let s := countIf (countIf s cid 1 v.sat) cid 4 v.split
  let s := withRace s (racePut s.ms.race line (packRace (afterWrite r p w)))
  match v.race with
  | none => (s, [])
  | some (rd, agt, clk, sc, words) => (s, [⟨⟨0x18, lineVa + 4 * lowWord words, raceInfo p true rd agt clk sc words⟩, line⟩])

/-- The races of one access that are raised or reported (R233): in fault mode the first that the filter lets pass, in report mode
each of them. -/
def filterHits (s : State) (k : AgentKey) (cid : Word) (mode : Nat) : List RaceHit → State × List RaceHit
  | [] => (s, [])
  | h :: r =>
    match filterRace s k cid h with
    | (s, none) => filterHits s k cid mode r
    | (s, some x) =>
      if mode = 1 then (s, [x])
      else
        let y := filterHits s k cid mode r
        (y.1, x :: y.2)

end Sys2Proof.Machine
end

