-- ==== Sys2Proof/Machine/Memory.lean ====
section
/-! DEFINITION. The L1 of each core (R171, R172, R174), where loads are served and stores go (R183, R184, R200), publication
(R230), the remote writes an agent has in flight (R193), releases and acquires (R179 to R181, R186). -/

namespace Sys2Proof.Machine

/-- Who makes an access: its agent, the core, the context, and its launch's tag and race mode (0 for launches in mode off, host
functions and hub engines). -/
structure Who where
  agent : AgentKey
  core  : Nat
  cx    : Ctx
  tag   : Nat
  mode  : Nat
  deriving DecidableEq, Repr

def whoOf (s : State) (e : Env) : Who := ⟨palletAgent s e.pl, e.pl.core, e.cx, e.la.tag, raceMode e.la⟩

/-! ## L1 sectors -/

/-- R174: the eight L1s of the core's cluster act as one. -/
def fusedOn (s : State) (core : Nat) : Bool := s.ms.fused.contains (core / 8)

/-- The clusters that launches with the fusel1 flag fuse: those on which such a launch holds a pallet on all eight cores (R174). -/
def fusedNow (s : State) : List Nat :=
  let las := s.qs.launches.filter fun la => la.r.lfl.getLsbD 0
  if las.isEmpty then []
  else (List.range 32).filter fun cl => las.any fun la => (List.range 8).all fun i => !s.cs.retired.contains (8 * cl + i) &&
    s.cs.pallets.any fun p => p.launch == la.key && p.core == 8 * cl + i && p.st != PalSt.ended

/-- The core whose L1 holds a line for accesses from `core` (R174). -/
def l1Core (s : State) (core line : Nat) : Nat := if fusedOn s core then core / 8 * 8 + line % 8 else core

def l1Find (s : State) (core : Nat) (cid : Word) (sec : Nat) : Option L1Sector :=
  s.ms.l1.find? fun b => b.core == core && b.cid == cid && b.sec == sec

def l1Put (s : State) (b : L1Sector) : State :=
  let same := fun (x : L1Sector) => x.core == b.core && x.cid == b.cid && x.sec == b.sec
  withL1 s (if b.valid = 0 then s.ms.l1.filter fun x => !same x else putBy same b s.ms.l1)

/-- Bytes lo to lo + n − 1 of a sector as a mask. -/
def byteMask (lo n : Nat) : BitVec 16 := ((1#16 <<< n) - 1#16) <<< lo

def dirtyMask (b : L1Sector) : BitVec 16 := b.dirty.foldl (fun m d => m ||| d.2) 0#16
def dirtyBy (b : L1Sector) (k : AgentKey) : BitVec 16 := (b.dirty.find? fun d => d.1 == k).elim 0#16 fun d => d.2

/-- Clears bytes from every agent's dirty mask. -/
def cleanBytes (b : L1Sector) (m : BitVec 16) : L1Sector :=
  { b with dirty := (b.dirty.map fun d => (d.1, d.2 &&& ~~~m)).filter fun d => d.2 != 0, nor := b.nor &&& ~~~m }

def addDirty (b : L1Sector) (k : AgentKey) (m : BitVec 16) : L1Sector :=
  { b with dirty := putBy (fun d => d.1 == k) (k, dirtyBy b k ||| m) b.dirty }

/-- The bytes of a sector's image. -/
def imageBytes (d : BitVec 128) (lo n : Nat) : List Byte := (List.range n).map fun i => d.extractLsb' (8 * (lo + i)) 8

/-- Replaces bytes lo and up of a sector's image. -/
def imagePut (d : BitVec 128) (lo : Nat) (bytes : List Byte) : BitVec 128 :=
  let old := imageBytes d 0 16
  BitVec.ofNat 128 (ofLe (old.take lo ++ bytes ++ old.drop (lo + bytes.length)))

/-- The bytes named by a mask taken from a, the others from b. -/
def imageMix (m : BitVec 16) (a b : BitVec 128) : BitVec 128 :=
  BitVec.ofNat 128 (ofLe ((List.range 16).map fun i => if m.getLsbD i then a.extractLsb' (8 * i) 8 else b.extractLsb' (8 * i) 8))

/-- The maximal runs of a byte mask: (first byte, length). -/
def maskRuns (m : BitVec 16) : List (Nat × Nat) :=
  (List.range 16).foldr (fun i acc =>
    if m.getLsbD i then
      match acc with
      | (j, n) :: r => if j = i + 1 then (i, n + 1) :: r else (i, 1) :: acc
      | [] => [(i, 1)]
    else acc) []

/-! ## Writes on their way home -/

def overlaps (a n b m : Nat) : Bool := a < b + m && b < a + n

/-- Performs one posted write (R164, R184). -/
def performPosted (s : State) (p : Posted) : State :=
  match p.tray with
  | some pal => trayWrite s p.agent pal p.addr p.bytes .plain
  | none => keyedWrite s p.agent p.key p.addr p.bytes .plain

/-- Performs the posted writes that satisfy q, in order. -/
def performPostedIf (s : State) (q : Posted → Bool) : State :=
  let l := s.ms.posted.filter q
  l.foldl performPosted (withPosted s (s.ms.posted.filter fun p => !q p))

/-- A posted write of the L1 that serves `core`, to a line: writes of one L1 to one line reach its home in order (R183). -/
def sameLine (s : State) (core line : Nat) (p : Posted) : Bool :=
  p.tray.isNone && p.addr / 128 == line && l1Core s p.core line == l1Core s core line

/-- Performs the posted writes of a core's L1 to a line, so that later accesses at the home follow them (R183). -/
def flushLine (s : State) (core line : Nat) : State := performPostedIf s (sameLine s core line)

/-- Performs a core's posted writes to the lines of physical bytes. -/
def flushOwn (s : State) (core pa n : Nat) : State := (piecesOf 7 pa n).foldl (fun s q => flushLine s core (q.1 / 128)) s

/-- Writes home the bytes of a sector that one agent holds dirty, without a check. -/
def sectorHome (s : State) (b : L1Sector) (k : AgentKey) : State :=
  (maskRuns (dirtyBy b k)).foldl (fun s r => keyedWrite s k b.key (16 * b.sec + r.1) (imageBytes b.data r.1 r.2) .plain) s

/-- Words of its line that bytes of a sector meet. -/
def maskWords (b : L1Sector) (m : BitVec 16) : Word :=
  (maskRuns m).foldl (fun m r => m ||| lineWords (b.sec / 8) (16 * b.sec + r.1) r.2) 0#32

/-- Words of its line that the dirty, race-recorded bytes of a sector cover. -/
def sectorWords (b : L1Sector) (k : AgentKey) : Word := maskWords b (dirtyBy b k &&& ~~~b.nor)

/-- A check that waits for the agent's next release (R172). -/
def waitingCheck (b : L1Sector) (k : AgentKey) (w : Word) : Unpublished := ⟨k, b.sec / 8, b.va - b.sec % 8 * 16, w, b.scope⟩

/-- Evicts a sector (R172): dirty bytes go home; on a race-checked page the update and the check wait as unpublished words. -/
def evictSector (s : State) (b : L1Sector) : State :=
  let s := b.dirty.foldl (fun s d =>
    let s := sectorHome s b d.1
    let w := sectorWords b d.1
    if b.rc && w != 0 then
      withUnpub s (s.ms.unpub ++ [waitingCheck b d.1 w])
    else s) (if b.dirty.isEmpty then s else flushLine s b.core (b.sec / 8))
  l1Put s { b with valid := 0, dirty := [] }

/-- Evicts what a core holds of some sectors, where `q` picks the blocks. -/
def evictIf (s : State) (core : Nat) (cid : Word) (secs : List Nat) (q : L1Sector → Bool) : State :=
  secs.foldl (fun s sec =>
    match l1Find s core cid sec with
    | some b => if q b then evictSector s b else s
    | none => s) s

/-- Sends home and drops every L1 copy that a core holds of physical bytes, before an access at the home (R185, R204). -/
def l1Sync (s : State) (core : Nat) (cid : Word) (pa n : Nat) : State :=
  (piecesOf 4 pa n).foldl (fun s q => evictIf s (l1Core s core (q.1 / 128)) cid [q.1 / 16] fun _ => true) s

/-- Drops the clean bytes of blocks that `hit` picks, on cores that `cores` picks; a watch on a line that loses some is woken (R36). -/
def dropBlocks (s : State) (cid : Word) (cores : Nat → Bool) (hit : L1Sector → Bool) : State :=
  let gone := s.ms.l1.filter fun b => hit b && b.valid != dirtyMask b
  let s := withL1 s ((s.ms.l1.map fun b => if hit b then { b with valid := dirtyMask b } else b).filter fun b => b.valid != 0)
  notifyLost s cid cores (distinctN (gone.map fun b => b.sec / 8))

/-- The cores that an L1 serves: its own, or the cluster's under fusion (R174). -/
def servedBy (s : State) (core x : Nat) : Bool := if fusedOn s core then x / 8 == core / 8 else x == core

/-- After fusion has started or ended on a cluster, its L1s hold nothing: their dirty bytes have gone home (R172, R174). -/
def refuse (s : State) : State :=
  let now := fusedNow s
  if now = s.ms.fused then s
  else
    let changed := fun (cl : Nat) => now.contains cl != s.ms.fused.contains cl
    withFused ((s.ms.l1.filter fun b => changed (b.core / 8)).foldl evictSector s) now

/-! ## What a core sees of physical bytes without an access -/

/-- The bytes that a core's own accesses would find now: its L1's, else its newest write on its way, else the home's. -/
def coreRead (s : State) (core : Nat) (cid : Word) (pa n : Nat) : List Byte :=
  let mine := s.ms.posted.filter fun p => p.tray.isNone && overlaps p.addr p.bytes.length pa n && servedBy s core p.core
  let under := mine.foldl (fun m p => memWrite m p.addr p.bytes) ((List.range n).map fun i => (pa + i, nthD (homeRead s pa n) i 0))
  (List.range n).map fun i =>
    let a := pa + i
    match l1Find s (l1Core s core (a / 128)) cid (a / 16) with
    | some b => if b.valid.getLsbD (a % 16) then b.data.extractLsb' (8 * (a % 16)) 8 else memGet under a
    | none => memGet under a

/-- Notes the words of a launch's text that are overwritten, as they were and as they will be: a fetch may find either (R38). -/
def noteText (s : State) (launch core : Nat) (cid : Word) (ps : List Phys) (bytes : List Byte) : State :=
  let r := ps.foldl (fun (r : List OldText × List Byte) p =>
    let here := r.2.take p.len
    let ws := if !pteEx p.leaf.pte then [] else (piecesOf 2 p.pa p.len).flatMap fun q =>
      let a := alignDown q.1 4
      let old := coreRead s core cid a 4
      let new := (List.range 4).map fun i =>
        if p.pa ≤ a + i && a + i < p.pa + p.len then nthD here (a + i - p.pa) 0 else nthD old i 0
      [⟨launch, a, BitVec.ofNat 32 (ofLe old)⟩, ⟨launch, a, BitVec.ofNat 32 (ofLe new)⟩]
    (r.1 ++ ws, r.2.drop p.len)) ([], bytes)
  if r.1.isEmpty then s else withOldText s (s.ms.oldText ++ r.1.filter fun x => !s.ms.oldText.contains x)

/-- The same for every running launch of a context, whoever overwrites its text (R93). -/
def noteTexts (s : State) (cid : Word) (ps : List Phys) (bytes : List Byte) : State :=
  (s.cs.pallets.filter fun p => p.st != .ended && ((getLaunch s p.launch).map (·.cid)) == some cid).foldl
    (fun s p => noteText s p.launch p.core cid ps bytes) s

/-! ## Loads (R183, R184, R200, R226, R229) -/

structure LoadRes where
  s     : State
  bytes : List Byte
  hits  : List RaceHit
  deriving DecidableEq, Repr

/-- How a load is made. -/
structure LoadHow where
  scope : Nat
  ldp   : Bool     -- R200
  own   : Bool     -- an acquiring load: served from L1 only when its own agent holds the block dirty (R181)
  noL1  : Bool     -- does not allocate (R56)
  check : Bool     -- checked for races: mode fault or report, no norace, not a retried load (R229, R231)
  unit  : Nat      -- its single-copy-atomic units have 2 ^ unit bytes (R190)
  deriving DecidableEq, Repr

/-- The sectors of a line that a fill brings: a block of 1 to 8, sized by a predictor (R171), round those that a load names. How far
it reaches is free. -/
def fillSectors (s : State) (line : Nat) (secs : List Nat) : List Nat :=
  let lo := minN secs
  let hi := maxN secs
  ((List.range 8).map fun i => line * 8 + i).filter fun t =>
    (List.range 8).all fun i =>
      let u := line * 8 + i
      !((t ≤ u && u < lo) || (hi < u && u ≤ t)) || Config.choice s.tick u

/-- A sector that is filled from its home into block `blk` and keeps its dirty bytes. -/
def filledBlock (s : State) (core : Nat) (cid : Word) (sec va blk : Nat) (leaf : Leaf) : L1Sector :=
  let key := pteKey leaf.pte
  let home := BitVec.ofNat 128 (ofLe (keyedRead s key (16 * sec) 16))
  let rec' := raceGet s.ms.race (sec / 8)
  match l1Find s core cid sec with
  | none => ⟨core, cid, sec, va, BitVec.allOnes 16, home, [], 0, rec', pteRc leaf.pte, 0, blk, key⟩
  | some b => { b with
      valid := BitVec.allOnes 16, data := imageMix (dirtyMask b) b.data home, race := rec', rc := pteRc leaf.pte, blk := blk, key := key }

/-- Fills the sectors of a line that a load names, and those that the predictor adds. -/
def fillLine (s : State) (core : Nat) (cid : Word) (line lineVa : Nat) (secs : List Nat) (leaf : Leaf) : State :=
  let all := fillSectors s line secs
  let blk := minN all
  let s := secs.foldl (fun s t => l1Put s (filledBlock s core cid t (lineVa + t % 8 * 16) blk leaf)) s
  let more := all.filter fun t => !secs.contains t && (l1Find s core cid t).isNone
  withL1 s (s.ms.l1 ++ more.map fun t => filledBlock s core cid t (lineVa + t % 8 * 16) blk leaf)

/-- One entry for each record among the parts of a load, with all its words. -/
def mergeRecs (l : List (BitVec 128 × Word)) : List (BitVec 128 × Word) :=
  l.foldl (fun m x =>
    let old : Word := ((m.find? fun y => y.1 == x.1).map (·.2)).getD 0
    putBy (fun y => y.1 == x.1) (x.1, old ||| x.2) m) []

/-- Two sectors of one L1 that belong to one block (R171). -/
def sameBlock (a b : L1Sector) : Bool := a.core == b.core && a.cid == b.cid && a.sec / 8 == b.sec / 8 && a.blk == b.blk

/-- The agent holds the block of a sector dirty. -/
def ownDirty (s : State) (k : AgentKey) (b : L1Sector) : Bool := s.ms.l1.any fun x => sameBlock b x && dirtyBy x k != 0

/-- The L1 sector that serves a unit: it holds its bytes, and for ldp and an acquiring load its own agent holds the block dirty. -/
def l1Serves (s : State) (w : Who) (h : LoadHow) (core : Nat) (q : Nat × Nat) : Option L1Sector :=
  (l1Find s core w.cx.cid (q.1 / 16)).filter fun b =>
    b.valid &&& byteMask (q.1 % 16) q.2 == byteMask (q.1 % 16) q.2 && (!(h.ldp || h.own) || ownDirty s w.agent b)

/-- The bytes that a unit's home gives a load: what its L1 still holds dirty, else the home's. -/
def homeUnit (s : State) (core : Nat) (cid : Word) (key : Nat) (q : Nat × Nat) : List Byte :=
  let home := keyedRead s key q.1 q.2
  match l1Find s core cid (q.1 / 16) with
  | none => home
  | some b => (List.range q.2).map fun i =>
      if (dirtyMask b).getLsbD (q.1 % 16 + i) then b.data.extractLsb' (8 * (q.1 % 16 + i)) 8 else nthD home i 0

/-- What a load that was served at the home leaves of the clean bytes that its L1 held of those units: ldp drops their blocks (R200),
one that does not allocate drops the bytes (R183), any other fills. -/
def afterHome (s : State) (w : Who) (h : LoadHow) (core line lineVa : Nat) (cold : List (Nat × Nat)) (leaf : Leaf) : State :=
  let secs := distinctN (cold.map (·.1 / 16))
  if h.ldp then
    let own := secs.filterMap (l1Find s core w.cx.cid)
    dropBlocks s w.cx.cid (servedBy s w.core) fun b => own.any (sameBlock b)
  else if h.noL1 then
    cold.foldl (fun s q => match l1Find s core w.cx.cid (q.1 / 16) with
      | none => s
      | some b =>
        let gone := b.valid &&& byteMask (q.1 % 16) q.2 &&& ~~~dirtyMask b
        if gone = 0 then s else notifyLost (l1Put s { b with valid := b.valid &&& ~~~gone }) w.cx.cid (servedBy s w.core) [line]) s
  else fillLine s core w.cx.cid line lineVa secs leaf

/-- Loads the bytes of one line, unit by unit: from L1 where its block holds the unit, otherwise at the home, after the L1's own
writes to the line, and after the dirty blocks in the way of an ldp or an acquiring load (log 40). `at'` is the formed address. -/
def loadLine (s : State) (w : Who) (h : LoadHow) (at' va pa n : Nat) (leaf : Leaf) : LoadRes :=
  let line := pa / 128
  let core := l1Core s w.core line
  let check := h.check && pteRc leaf.pte
  let party := partyOf s w.agent w.tag h.scope
  let us := piecesOf h.unit pa n
  let hot := us.map fun q => (q, l1Serves s w h core q)
  let recs := hot.filterMap fun x => x.2.map fun b => (b.race, lineWords line x.1.1 x.1.2)
  let cold := (hot.filter fun x => x.2.isNone).map (·.1)
  if cold.isEmpty then
    let bytes := hot.flatMap fun x => x.2.elim [] fun b => imageBytes b.data (x.1.1 % 16) x.1.2
    if check then
      let c := checkLoad s w.cx.cid party (mergeRecs recs) line at'
      ⟨c.1, bytes, c.2⟩
    else ⟨s, bytes, []⟩
  else
    let s := flushLine s w.core line
    let s := if h.ldp || h.own then evictIf s core w.cx.cid (cold.map (·.1 / 16)) fun b => !b.dirty.isEmpty else s
    let words := cold.foldl (fun m q => m ||| lineWords line q.1 q.2) 0#32
    let c := if check then checkLoad s w.cx.cid party (mergeRecs (recs ++ [(raceGet s.ms.race line, words)])) line at' else (s, [])
    let a := getAgent s w.agent
    let goes := c.2.isEmpty || w.mode == 2 || a.filter.contains line || 64 ≤ a.filter.length
    let s := if check && goes then recordLoad c.1 party line words else c.1
    let bytes := hot.flatMap fun x => match x.2 with
      | some b => imageBytes b.data (x.1.1 % 16) x.1.2
      | none => homeUnit s core w.cx.cid (pteKey leaf.pte) x.1
    ⟨afterHome s w h core line (alignDown va 128) cold leaf, bytes, c.2⟩

/-- Loads translated pieces, line by line, upward. -/
def loadPhys (s : State) (w : Who) (h : LoadHow) (ps : List Phys) : LoadRes :=
  let at' := (ps.head?.map (·.va)).getD 0
  ps.foldl (fun r p =>
    (piecesOf 7 p.pa p.len).foldl (fun r q =>
      let x := loadLine r.s w h at' (p.va + (q.1 - p.pa)) q.1 q.2 p.leaf
      ⟨x.s, r.bytes ++ x.bytes, r.hits ++ x.hits⟩) r) ⟨s, [], []⟩

/-! ## Stores (R171, R184, R230) -/

/-- How a store is made. -/
structure StoreHow where
  scope : Nat
  rel   : Option Nat   -- the stamp of a release-ordered store
  clk   : Nat          -- C before the release
  norace : Bool        -- R238
  deriving DecidableEq, Repr

/-- Publishes the words of a write performed at its home now. -/
def publishNow (s : State) (w : Who) (scope clk : Nat) (va pa n : Nat) : State × List RaceHit :=
  let party := { partyOf s w.agent w.tag scope with c := clk }
  publishLine s w.cx.cid party (w.mode != 0) (pa / 128) (alignDown va 128) (lineWords (pa / 128) pa n)

/-- R171, R174: a store that stays in L1: at scope self or core, and at clus in a fused one, without release ordering. -/
def staysInL1 (s : State) (w : Who) (h : StoreHow) : Bool :=
  h.rel.isNone && (h.scope ≤ 1 || (h.scope == 2 && fusedOn s w.core))

/-- The checks that another agent's dirty bytes still owe when a store of the same L1 overwrites them (R230). -/
def owedChecks (b : L1Sector) (k : AgentKey) (m : BitVec 16) : List Unpublished :=
  if !b.rc then []
  else b.dirty.filterMap fun d =>
    let w := maskWords b (d.2 &&& m &&& ~~~b.nor)
    if d.1 == k || w == 0 then none else some (waitingCheck b d.1 w)

/-- Notes what is owed before bytes of a sector are overwritten. -/
def owe (s : State) (core : Nat) (cid : Word) (k : AgentKey) (pa n : Nat) : State :=
  match l1Find s core cid (pa / 16) with
  | none => s
  | some b => match owedChecks b k (byteMask (pa % 16) n) with
    | [] => s
    | l => withUnpub s (s.ms.unpub ++ l)

/-- The block of a sector after a store of bytes into it, clean there. -/
def blockPut (s : State) (core : Nat) (cid : Word) (va pa : Nat) (bytes : List Byte) (scope : Nat) (leaf : Leaf) : L1Sector :=
  let old := (l1Find s core cid (pa / 16)).getD
    ⟨core, cid, pa / 16, va - pa % 16, 0, 0, [], 0, raceQuiet, pteRc leaf.pte, 0, pa / 16, pteKey leaf.pte⟩
  let m := byteMask (pa % 16) bytes.length
  { cleanBytes old m with
    valid := old.valid ||| m, data := imagePut old.data (pa % 16) bytes, scope := BitVec.ofNat 3 scope, rc := pteRc leaf.pte
    key := pteKey leaf.pte }

/-- A store of the bytes of one sector piece that stays dirty in L1. A store at self is marked dirty at core (R171). -/
def storeDirty (s : State) (w : Who) (h : StoreHow) (core va pa : Nat) (bytes : List Byte) (leaf : Leaf) : State :=
  let m := byteMask (pa % 16) bytes.length
  let s := owe s core w.cx.cid w.agent pa bytes.length
  let b := addDirty (blockPut s core w.cx.cid va pa bytes (max 1 h.scope) leaf) w.agent m
  l1Put s { b with nor := if h.norace then b.nor ||| m else b.nor }

/-- Stores the bytes of one line. A store that leaves L1 leaves its blocks clean: what else they held dirty goes home before it, but
for a release-ordered store at self or core, which moves only its own bytes (R171). It is performed at once when it is
release-ordered, and on a race-checked page, where the store itself publishes it (R230); else it is on its way (R184; log 40). -/
def storeLine (s : State) (w : Who) (h : StoreHow) (va pa : Nat) (bytes : List Byte) (leaf : Leaf) : State × List RaceHit :=
  let line := pa / 128
  let core := l1Core s w.core line
  let rc := pteRc leaf.pte
  let qs := piecesOf 4 pa bytes.length
  let part := fun (q : Nat × Nat) => sliceB bytes (q.1 - pa) q.2
  if staysInL1 s w h then
    (qs.foldl (fun s q => storeDirty s w h core (va + (q.1 - pa)) q.1 (part q) leaf) s, [])
  else
    let s := if h.rel.isSome && h.scope ≤ 1 then s else evictIf s core w.cx.cid (qs.map (·.1 / 16)) fun b => !b.dirty.isEmpty
    let s := qs.foldl (fun s q =>
      let s := owe s core w.cx.cid w.agent q.1 q.2
      l1Put s (blockPut s core w.cx.cid (va + (q.1 - pa)) q.1 (part q) h.scope leaf)) s
    if h.rel.isSome || (rc && !h.norace) then
      let s := flushLine s w.core line
      let s := keyedWrite s w.agent (pteKey leaf.pte) pa bytes (match h.rel with | some c => .stamp c h.scope | none => .plain)
      if rc && !h.norace then publishNow s w h.scope h.clk va pa bytes.length else (s, [])
    else (withPosted s (s.ms.posted ++ [⟨w.agent, none, pa, bytes, BitVec.ofNat 3 h.scope, w.core, pteKey leaf.pte⟩]), [])

/-- Stores bytes over translated pieces. -/
def storePhys (s : State) (w : Who) (h : StoreHow) (ps : List Phys) (bytes : List Byte) : State × List RaceHit :=
  let r := ps.foldl (fun (r : State × List RaceHit × List Byte) p =>
    (piecesOf 7 p.pa p.len).foldl (fun (r : State × List RaceHit × List Byte) q =>
      let x := storeLine r.1 w h (p.va + (q.1 - p.pa)) q.1 (r.2.2.take q.2) p.leaf
      (x.1, r.2.1 ++ x.2, r.2.2.drop q.2)) r) (s, [], bytes)
  (r.1, r.2.1)

/-! ## Clocks, acquires, units at their homes -/

/-- Clears the filter at a phase boundary (R233). -/
def clearFilter (s : State) (k : AgentKey) : State := setAgent s { getAgent s k with filter := [] }

/-- C + 1 in 48 bits; the last clock stays (R186; log 39). -/
def nextClock (c : Nat) : Nat := min (c + 1) (2 ^ 48 - 1)

/-- C := C + 1 (R186): the new clock and the state. -/
def bumpClock (s : State) (k : AgentKey) : Nat × State :=
  let a := getAgent s k
  (nextClock a.c, setAgent s { a with c := nextClock a.c })

/-- Raises C and F to a stamp; 0 is no stamp (R186). -/
def takeStamp (s : State) (k : AgentKey) (stamp : Nat) : State :=
  if stamp = 0 then s
  else
    let a := getAgent s k
    setAgent s { a with c := max a.c stamp, f := max a.f stamp }

/-- R181, R174: an acquire at clus or wider invalidates, but for one at clus under fusion. -/
def dropsClean (s : State) (core sc : Nat) : Bool := 2 ≤ sc && !(fusedOn s core && sc == 2)

/-- R181: an acquire at clus or wider drops the clean blocks of the context in the core's L1. -/
def dropClean (s : State) (core : Nat) (cid : Word) (sc : Nat) : State :=
  if !dropsClean s core sc then s
  else dropBlocks s cid (servedBy s core) fun b => b.cid == cid && servedBy s core b.core

/-- The clocks of an acquire at scope `sc` of an object (R178, R186). -/
def acquireClock (s : State) (k : AgentKey) (sc : Nat) (ms : List Mark) : State := takeStamp s k (stampFor k sc ms)

/-- The boundary of an acquire: a new phase, and what it invalidates (R181, R233). -/
def acquireEnd (s : State) (w : Who) (sc : Nat) : State := dropClean (clearFilter s w.agent) w.core w.cx.cid sc

/-- An acquire at scope `sc` of an object (R181, R186). -/
def acquire (s : State) (w : Who) (sc : Nat) (ms : List Mark) : State := acquireEnd (acquireClock s w.agent sc ms) w sc

/-- What an acquire of translated words may take (R186). -/
def physMarks (s : State) (ps : List Phys) : List Mark :=
  ps.flatMap fun p => (piecesOf 7 p.pa p.len).flatMap fun q =>
    let line := q.1 / 128
    relMarks s.ms.rel (sGetD s.ms.highWater (homeSlice s line) 0) line (lineWords line q.1 q.2)

/-- What an acquire of tray bytes may take. -/
def trayMarks (pl : Pallet) (off n : Nat) : List Mark :=
  (piecesOf 7 off n).flatMap fun q => relMarks pl.trel 0 (q.1 / 128) (lineWords (q.1 / 128) q.1 q.2)

/-- Sends home what the core holds of a unit, so that the operation at the home comes after it (R183). -/
def settleUnit (s : State) (w : Who) (ps : List Phys) : State :=
  ps.foldl (fun s p => flushOwn (l1Sync s w.core w.cx.cid p.pa p.len) w.core p.pa p.len) s

/-- Writes bytes at their home, line by line, and records them as a write, unchecked (R231); `clk` is C before the operation's
release. -/
def unitWrite (s : State) (w : Who) (scope clk : Nat) (ps : List Phys) (bytes : List Byte) (eff : RelEffect) : State :=
  (ps.foldl (fun (r : State × List Byte) p =>
    (piecesOf 7 p.pa p.len).foldl (fun (r : State × List Byte) q =>
      let s := keyedWrite r.1 w.agent (pteKey p.leaf.pte) q.1 (r.2.take q.2) eff
      let s := if pteRc p.leaf.pte then
          let party := { partyOf s w.agent w.tag scope with c := clk }
          (publishLine s w.cx.cid party false (q.1 / 128) (alignDown (p.va + (q.1 - p.pa)) 128) (lineWords (q.1 / 128) q.1 q.2)).1
        else s
      (s, r.2.drop q.2)) r) (s, bytes)).1

end Sys2Proof.Machine
end

