-- ==== Sys2Proof/Machine/Record.lean ====
section
/-! DEFINITION. Accesses by the device for a context (R168, R222, R409), and the negative that recording units write and replay
(R361 to R364). -/

namespace Sys2Proof.Machine

/-! ## Device accesses: queue packets, trap queues, records (R168, R409) -/

/-- Reads bytes of a context at their homes; none when they cannot be accessed. -/
def deviceRead (s : State) (cx : Ctx) (va n : Nat) : Option (List Byte) :=
  match translate s cx accLoad va n with
  | .error _ => none
  | .ok (ps, s) => if ps.any fun p => (poisonCheck s p).isSome then none else some (physRead s ps)

/-- A write by a hub engine or the device for a context: recorded with launch tag 0 and its C before
a release (R223), never checked (R222, R231). -/
def deviceWrite (s : State) (cx : Ctx) (agent : AgentKey) (va : Nat) (bytes : List Byte) (eff : RelEffect) : Option State :=
  match translate s cx accOther va bytes.length with
  | .error _ => none
  | .ok (ps, s) =>
    let s := noteTexts s cx.cid ps bytes
    let party := partyOf s agent 0 4
    let party := match eff with
      | .stamp c _ => { party with c := c - 1 }
      | _ => party
    let r := ps.foldl (fun (r : State × List Byte) p =>
      (piecesOf 7 p.pa p.len).foldl (fun (r : State × List Byte) q =>
        let s := keyedWrite r.1 agent (pteKey p.leaf.pte) q.1 (r.2.take q.2) eff
        let s := if pteRc p.leaf.pte then
            (publishLine s cx.cid party false (q.1 / 128) 0 (lineWords (q.1 / 128) q.1 q.2)).1
          else s
        (s, r.2.drop q.2)) r) (s, bytes)
    some r.1

/-! ## The negative (R361 to R364) -/

def recording (la : Launch) : Bool := la.r.lfl.getLsbD 3
def replaying (la : Launch) : Bool := la.r.lfl.getLsbD 2

/-- What asking for a recorded operation's turn answers: go on (with the identity a replay gives), wait, or a fault. -/
inductive Turn where
  | go (s : State) (res : Option Word)
  | wait
  | fault (x : FaultInfo)

/-- A choice at a recording unit: kind, unit, key (R362). -/
structure NegKey where
  kind : Nat
  unit : Nat
  key  : Nat
  deriving DecidableEq, Repr

/-- Where the model counts operations of a kind on a key. -/
def negIndex (k : NegKey) : Nat := (k.key * 1024 + k.unit) * 8 + k.kind
def ordIndex (k : NegKey) : Nat := k.key * 8 + k.kind

def negEntry (k : NegKey) (useq : Nat) (agt : BitVec 21) (thr : Word) (ordn : Nat) (res : Word) : List Byte :=
  layout 32 [(0, 1, k.kind), (2, 2, k.unit), (4, 4, useq), (8, 8, k.key), (0x10, 4, agt.toNat), (0x14, 4, thr.toNat),
    (0x18, 4, ordn), (0x1C, 4, res.toNat)]

/-- Room for entries: (size − 64) div 32. -/
def negRoom (la : Launch) : Nat := (la.r.negs.toNat - 64) / 32

/-- The header of a launch's negative. -/
def negHeader (la : Launch) (complete : Bool) : List Byte :=
  layout 64 [(0, 2, 0x0100), (2, 2, boolN la.negT + 2 * boolN complete), (4, 4, la.pals), (8, 8, la.r.seed.toNat),
    (0x10, 8, la.negN), (0x18, 4, la.ident.toNat)]

/-- Writes one entry, or marks the header truncated when the buffer is full. The recording unit makes the access, no agent of a
pallet (R361). -/
def negWrite (s : State) (la : Launch) (cx : Ctx) (entry : List Byte) : State :=
  if la.negT then s
  else
    let full := negRoom la ≤ la.negN
    let la' := if full then { la with negT := true } else { la with negN := la.negN + 1 }
    let base := la.r.negb.toNat
    let s := if full then s else (deviceWrite s cx (hubAgent s) (base + 0x40 + 32 * la.negN) entry .plain).getD s
    let s := (deviceWrite s cx (hubAgent s) base (negHeader la' false) .plain).getD s
    setLaunch s { la' with negSeq := ((getLaunch s la.key).getD la).negSeq }

/-- The entries of a negative under replay. -/
def negEntries (s : State) (la : Launch) (cx : Ctx) : List (List Byte) :=
  match deviceRead s cx la.r.negb.toNat 64 with
  | none => []
  | some h => (List.range (min (fieldB h 0x10 8) (negRoom la))).map fun i =>
      (deviceRead s cx (la.r.negb.toNat + 0x40 + 32 * i) 32).getD (List.replicate 32 0)

/-- The replay fault (R364). -/
def replayFault (cause : Nat) : FaultInfo := walkFault 0x0A 0 3 0xFF 11 [(0x2C, 1, cause)]

def bumpSeq (s : State) (launch : Nat) (k : NegKey) : State :=
  match getLaunch s launch with
  | none => s
  | some la => setLaunch s { la with negSeq := sPut la.negSeq (negIndex k) (sGetD la.negSeq (negIndex k) 0 + 1) }

/-- An entry of a negative for a key and an agent. -/
def entryFor (k : NegKey) (agent : AgentKey) (e : List Byte) : Bool :=
  fieldB e 0 1 == k.kind && fieldB e 2 2 == k.unit && fieldB e 8 8 == k.key && fieldB e 0x10 4 == agent.id.toNat

/-- The pallet of an agent that re-executes a rolled-back exposure, with the exposure's start and what it has made again (R458). -/
def redoing (s : State) (launch : Nat) (agent : AgentKey) : Option (Pallet × Snap × List (Nat × Nat)) :=
  match s.cs.pallets.find? fun p => p.launch == launch && p.redone.isSome && isPalletAgent s p agent with
  | none => none
  | some p => match p.redone, sGet s.cs.snaps p.key with
    | some l, some n => some (p, n, l)
    | _, _ => none

/-- The entries that an agent's operations on a key have in the exposure that is made again. -/
def exposureEntries (s : State) (la : Launch) (cx : Ctx) (n : Snap) (k : NegKey) (agent : AgentKey) : List (List Byte) :=
  (negEntries s la cx).filter fun e => entryFor k agent e && sGetD n.negSeq (negIndex k) 0 ≤ fieldB e 4 4 &&
    fieldB e 4 4 < sGetD la.negSeq (negIndex k) 0

/-- The turn of an operation that a rolled-back exposure had made before: after those of its pallet with a smaller USEQ on the key
(R364, R458); none for one that it had not made. -/
def redoTurn (s : State) (la : Launch) (cx : Ctx) (k : NegKey) (agent : AgentKey) (thr : Word) (ordn : Nat) : Option Turn :=
  match redoing s la.key agent with
  | none => none
  | some (p, n, l) =>
    let es := exposureEntries s la cx n k agent
    match es.find? fun e => fieldB e 0x14 4 == thr.toNat && fieldB e 0x18 4 == ordn % 2 ^ 32 with
    | none => none
    | some e =>
      let u := fieldB e 4 4
      if es.all fun x => u ≤ fieldB x 4 4 || l.contains (negIndex k, fieldB x 4 4) then
        some (.go (setPallet s { p with redone := some (l ++ [(negIndex k, u)]) })
          (if k.kind = 5 then some (BitVec.ofNat 32 (fieldB e 0x1C 4)) else none))
      else some .wait

/-- Asks for the turn of an unordered operation by thread `thr` that has made `ordn` earlier ones on the key; `res` is the identity
that an unordered creation would take. -/
def negTurn (s : State) (launch : Nat) (k : NegKey) (agent : AgentKey) (thr : Word) (ordn : Nat) (res : Word) : Turn :=
  match getLaunch s launch with
  | none => .go s none
  | some la =>
    match getCtx s la.cid with
    | none => .go s none
    | some cx =>
      match redoTurn s la cx k agent thr ordn with
      | some t => t
      | none =>
      if recording la then
        let useq := sGetD la.negSeq (negIndex k) 0
        .go (negWrite (bumpSeq s launch k) ((getLaunch (bumpSeq s launch k) launch).getD la) cx
          (negEntry k useq agent.id thr ordn res)) none
      else if replaying la then
        let es := negEntries s la cx
        match es.find? fun e => entryFor k agent e && fieldB e 0x14 4 == thr.toNat && fieldB e 0x18 4 == ordn % 2 ^ 32 with
        | none => .fault (replayFault 1)
        | some e =>
          if fieldB e 4 4 = sGetD la.negSeq (negIndex k) 0 then
            .go (bumpSeq s launch k) (if k.kind = 5 then some (BitVec.ofNat 32 (fieldB e 0x1C 4)) else none)
          else .wait
      else .go s none

/-- The L2 slice at which a physical line has its home, numbered within its partition (R173; log 22). -/
def sliceUnit (s : State) (cx : Ctx) (pa : Nat) : Nat :=
  let c := match getPart s cx.part with
    | some p => (List.range 32).countP fun i => p.clus.getLsbD i
    | none => 1
  0x100 + pa / 128 % (4 * max 1 c)

end Sys2Proof.Machine
end

