-- ==== Sys2Proof/Machine/Rounding.lean ====
section
/-! DEFINITION. Floating formats bit by bit (R125), their values, rounding once with the exceptions of IEEE 754 (R130 to R132), and
the exact operations that rounding ends: sum, product, quotient, square root. -/

namespace Sys2Proof.Machine

/-! ## Floating exceptions, in fpf bit order (R103, R132) -/

abbrev Exc := BitVec 5

def excInv : Exc := 1
def excDz : Exc := 2
def excOvf : Exc := 4
def excUnf : Exc := 8
def excInx : Exc := 16

def excAll (l : List Exc) : Exc := l.foldl (fun a b => a ||| b) 0

/-- An element format (R125). -/
structure FF where
  eb   : Nat       -- exponent bits
  p    : Nat       -- fraction bits
  bias : Nat
  noInf : Bool     -- e4m3: no infinities
  fz   : Bool      -- FZ acts on it (R131)
  deriving DecidableEq, Repr

def ff32 : FF := ⟨8, 23, 127, false, true⟩
def ff64 : FF := ⟨11, 52, 1023, false, false⟩
def ff16 : FF := ⟨5, 10, 15, false, true⟩
def ffB16 : FF := ⟨8, 7, 127, false, true⟩
def ffE4 : FF := ⟨4, 3, 7, true, true⟩
def ffE5 : FF := ⟨5, 2, 15, false, true⟩

/-- The element format of a floating FMT (R51, R128). -/
def ffOf (fmt : Nat) : FF :=
  match fmt with | 1 => ff64 | 2 => ff16 | 3 => ffB16 | 5 => ff16 | 6 => ffB16 | 7 => ffE4 | 8 => ffE5 | _ => ff32

/-- Elements of a floating FMT. -/
def ffN (fmt : Nat) : Nat := if fmt = 4 ∨ fmt = 5 ∨ fmt = 6 then 2 else 1

def FF.bits (F : FF) : Nat := F.eb + F.p + 1
def FF.emax (F : FF) : Nat := 2 ^ F.eb - 1
/-- The exponent of the least significant bit of a subnormal. -/
def FF.qmin (F : FF) : Int := 1 - (F.bias : Int) - F.p
def FF.signBit (F : FF) (neg : Bool) : Nat := boolN neg * 2 ^ (F.eb + F.p)
def FF.infBits (F : FF) : Nat := F.emax * 2 ^ F.p
/-- The largest finite magnitude, as bits. -/
def FF.maxBits (F : FF) : Nat := F.infBits + (if F.noInf then 2 ^ F.p - 2 else 0) - (if F.noInf then 0 else 1)
def FF.nanBits (F : FF) : Nat := if F.noInf then 2 ^ (F.eb + F.p) - 1 else F.infBits + 2 ^ (F.p - 1)

/-- A value. A number is (−1)^neg · m · 2^e. -/
inductive FV where
  | nan (signalling : Bool)
  | inf (neg : Bool)
  | num (neg : Bool) (m : Nat) (e : Int)
  deriving DecidableEq, Repr

def FF.isNeg (F : FF) (x : Nat) : Bool := bitN x (F.eb + F.p)

/-- The value of a bit pattern (R125). -/
def FF.val (F : FF) (x : Nat) : FV :=
  let s := F.isNeg x
  let e := bitsN x F.p F.eb
  let f := bitsN x 0 F.p
  if F.noInf then
    if e = F.emax ∧ f = 2 ^ F.p - 1 then .nan false
    else if e = 0 then .num s f F.qmin
    else .num s (2 ^ F.p + f) (F.qmin + e - 1)
  else if e = F.emax then (if f = 0 then .inf s else .nan (f < 2 ^ (F.p - 1)))
  else if e = 0 then .num s f F.qmin
  else .num s (2 ^ F.p + f) (F.qmin + e - 1)

/-- A source operand: under FZ a subnormal is read as zero of its sign (R131). -/
def FF.read (F : FF) (fz : Bool) (x : Nat) : FV :=
  match F.val x with
  | .num s m e => if fz && F.fz && m < 2 ^ F.p then .num s 0 e else .num s m e
  | v => v

/-- An exact result before rounding. -/
inductive XR where
  | nan (inv : Bool)
  | inf (neg dz : Bool)
  | num (neg : Bool) (m : Nat) (e : Int)
  deriving DecidableEq, Repr

/-- (r, inexact): m · 2^e rounded to a multiple r · 2^q. Modes: 0 ne, 1 rz, 2 rd, 3 ru, 4 na (R52). -/
def roundTo (mode : Nat) (neg : Bool) (m : Nat) (e q : Int) : Nat × Bool :=
  if q ≤ e then (m * 2 ^ (e - q).toNat, false)
  else
    let d := 2 ^ (q - e).toNat
    let k := m / d
    let r := m % d
    let up := match mode with
      | 1 => false
      | 2 => neg && r != 0
      | 3 => !neg && r != 0
      | 4 => d ≤ 2 * r
      | _ => d < 2 * r || (d == 2 * r && k % 2 == 1)
    (if up then k + 1 else k, r != 0)

/-- A magnitude far below the smallest subnormal, replaced by one that rounds as it does. -/
def clampLow (F : FF) (m : Nat) (e : Int) : Nat × Int :=
  if e + bitLen m < F.qmin - 4 then (1, F.qmin - 6) else (m, e)

/-- The result of an overflow (R130). -/
def FF.overflow (F : FF) (mode : Nat) (neg sat : Bool) : Nat :=
  let toInf := match mode with | 1 => false | 2 => neg | 3 => !neg | _ => true
  F.signBit neg + (if sat || !toInf then F.maxBits else if F.noInf then F.nanBits else F.infBits)

/-- Rounds a nonzero number once (R130 to R132): bits and exceptions. -/
def FF.round (F : FF) (mode : Nat) (fz sat neg : Bool) (m : Nat) (e : Int) : Nat × Exc :=
  let c := clampLow F m e
  let top := c.2 + bitLen c.1 - 1
  let qInf := top - F.p
  let u := roundTo mode neg c.1 c.2 qInf
  -- bits of the value rounded with unbounded exponent; a negative number when it is tiny
  let ub : Int := (qInf - F.qmin) * 2 ^ F.p + u.1
  if ub > F.maxBits then (F.overflow mode neg sat, excOvf ||| excInx)
  else if ub < 2 ^ F.p then
    if fz && F.fz then (F.signBit neg, excUnf ||| excInx)
    else
      let r := roundTo mode neg c.1 c.2 F.qmin
      (F.signBit neg + r.1, if r.2 then excUnf ||| excInx else 0)
  else
    let r := roundTo mode neg c.1 c.2 (max qInf F.qmin)
    (F.signBit neg + ((max qInf F.qmin - F.qmin) * 2 ^ F.p + r.1).toNat, if r.2 then excInx else 0)

/-- An exact result, written in a format (R126, R130). A zero keeps the sign that it comes with, in a conversion too (log 106). -/
def FF.finish (F : FF) (mode : Nat) (fz sat : Bool) : XR → Nat × Exc
  | .nan inv => (F.nanBits, if inv then excInv else 0)
  | .inf neg dz =>
    if sat then (F.signBit neg + F.maxBits, excInx)
    else if F.noInf then (F.signBit neg + F.nanBits, excInv)
    else (F.signBit neg + F.infBits, if dz then excDz else 0)
  | .num neg m e => if m = 0 then (F.signBit neg, 0) else F.round mode fz sat neg m e

/-! ## Exact operations -/

def FV.snan : FV → Bool | .nan s => s | _ => false
def FV.isNan : FV → Bool | .nan _ => true | _ => false
def FV.neg : FV → Bool | .nan _ => false | .inf s => s | .num s _ _ => s

/-- The negative of a value. -/
def FV.negate : FV → FV | .nan s => .nan s | .inf s => .inf (!s) | .num s m e => .num (!s) m e

def intOf (neg : Bool) (m : Nat) : Int := if neg then -(m : Int) else m

/-- A dyadic number as an integer at exponent q ≤ e. -/
def atExp (neg : Bool) (m : Nat) (e q : Int) : Int := intOf neg (m * 2 ^ (e - q).toNat)

/-- The sum of two numbers; the sign of an exact zero follows R130. -/
def addNum (mode : Nat) (s1 : Bool) (m1 : Nat) (e1 : Int) (s2 : Bool) (m2 : Nat) (e2 : Int) : XR :=
  let q := if m1 = 0 then e2 else if m2 = 0 then e1 else min e1 e2
  let v := (if m1 = 0 then 0 else atExp s1 m1 e1 q) + (if m2 = 0 then 0 else atExp s2 m2 e2 q)
  if v = 0 then .num (if s1 = s2 then s1 else mode == 2) 0 0 else .num (v < 0) v.natAbs q

def addFV (mode : Nat) (a b : FV) : XR :=
  match a, b with
  | .nan s, b => .nan (s || b.snan)
  | _, .nan s => .nan s
  | .inf s, .inf t => if s = t then .inf s false else .nan true
  | .inf s, _ => .inf s false
  | _, .inf t => .inf t false
  | .num s1 m1 e1, .num s2 m2 e2 => addNum mode s1 m1 e1 s2 m2 e2

def mulFV (a b : FV) : XR :=
  match a, b with
  | .nan s, b => .nan (s || b.snan)
  | _, .nan s => .nan s
  | .inf s, .inf t => .inf (s != t) false
  | .inf s, .num t m _ => if m = 0 then .nan true else .inf (s != t) false
  | .num s m _, .inf t => if m = 0 then .nan true else .inf (s != t) false
  | .num s m e, .num t n f => .num (s != t) (m * n) (e + f)

/-- fma: 0·∞ is invalid whatever the addend (R135). -/
def fmaFV (mode : Nat) (a b c : FV) : XR :=
  match mulFV a b with
  | .nan i => .nan (i || c.snan)
  | .inf s _ => addFV mode (.inf s) c
  | .num s m e => addFV mode (.num s m e) c

/-- A quotient of numbers to 70 or more significant bits, its last bit sticky. -/
def divNum (m n : Nat) (e f : Int) : Nat × Int :=
  let k := bitLen n + 70
  let x := m * 2 ^ k
  (2 * (x / n) + (if x % n = 0 then 0 else 1), e - f - k - 1)

def divFV (a b : FV) : XR :=
  match a, b with
  | .nan s, b => .nan (s || b.snan)
  | _, .nan s => .nan s
  | .inf _, .inf _ => .nan true
  | .inf s, .num t _ _ => .inf (s != t) false
  | .num s _ _, .inf t => .num (s != t) 0 0
  | .num s m e, .num t n f =>
    if n = 0 then (if m = 0 then .nan true else .inf (s != t) true)
    else if m = 0 then .num (s != t) 0 0
    else let q := divNum m n e f; .num (s != t) q.1 q.2

/-- floor(√n), bit by bit from bit k − 1. -/
def isqrtFrom (n : Nat) : Nat → Nat → Nat
  | 0, r => r
  | k + 1, r => let t := r + 2 ^ k; isqrtFrom n k (if t * t ≤ n then t else r)
def isqrtN (n : Nat) : Nat := isqrtFrom n (bitLen n / 2 + 1) 0

/-- A square root to 70 or more significant bits, its last bit sticky. -/
def sqrtNum (m : Nat) (e : Int) : Nat × Int :=
  let k := 140 + (e % 2).toNat
  let x := m * 2 ^ k
  let r := isqrtN x
  (2 * r + (if r * r = x then 0 else 1), (e - k) / 2 - 1)

def sqrtFV : FV → XR
  | .nan s => .nan s
  | .inf s => if s then .nan true else .inf false false
  | .num s m e => if m = 0 then .num s 0 0 else if s then .nan true else let q := sqrtNum m e; .num false q.1 q.2

/-- The value that an exact result stands for. -/
def XR.toFV : XR → FV
  | .nan _ => .nan false
  | .inf s _ => .inf s
  | .num s m e => .num s m e

def FV.toXR : FV → XR
  | .nan s => .nan s
  | .inf s => .inf s false
  | .num s m e => .num s m e

/-! ## Comparison -/

/-- The sign of a − b for values that are not NaN; −0 equals +0. -/
def cmpFV (a b : FV) : Ordering :=
  match a, b with
  | .inf s, .inf t => if s = t then .eq else if s then .lt else .gt
  | .inf s, _ => if s then .lt else .gt
  | _, .inf t => if t then .gt else .lt
  | .num s1 m1 e1, .num s2 m2 e2 =>
    match addNum 0 s1 m1 e1 (!s2) m2 e2 with
    | .num s m _ => if m = 0 then .eq else if s then .lt else .gt
    | _ => .eq
  | _, _ => .eq

def ltFV (a b : FV) : Bool := cmpFV a b == .lt
def leFV (a b : FV) : Bool := cmpFV a b != .gt

/-- −0 orders below +0 (R138). -/
def ltSigned (a b : FV) : Bool := ltFV a b || (cmpFV a b == .eq && a.neg && !b.neg)

/-- minimumNumber and maximumNumber (R138). -/
def minMaxFV (big : Bool) (a b : FV) : XR :=
  let inv := a.snan || b.snan
  match a.isNan, b.isNan with
  | true, true => .nan inv
  | true, false => b.toXR
  | false, true => a.toXR
  | false, false => if ltSigned a b != big then a.toXR else b.toXR

/-- The invalid flag of fmin and fmax, raised even when the result is a number. -/
def minMaxExc (a b : FV) : Exc := if a.snan || b.snan then excInv else 0

/-! ## Packed operands -/

/-- The image of elements, element 0 lowest. -/
def packElems (w : Nat) (l : List Nat) : Nat := sumN (l.zipIdx.map fun x => x.1 % 2 ^ w * 2 ^ (w * x.2))

/-- Element i of an image. -/
def elemAt (w x i : Nat) : Nat := bitsN x (w * i) w

end Sys2Proof.Machine
end

