-- ==== Sys2Proof/Machine/Rmw.lean ====
section
/-! DEFINITION. The value that a fetch-operation or a reduction leaves in its unit (R205, R207, R208). -/

namespace Sys2Proof.Machine

/-- One floating element: add, sub, min, max, rounded once to nearest even, subnormals kept, no flags. -/
def fopElem (F : FF) (op a b : Nat) : Nat :=
  let x := F.read false a
  let y := F.read false b
  let r := match op with
    | 0 => addFV 0 x y
    | 1 => addFV 0 x y.negate
    | 2 => minMaxFV false x y
    | _ => minMaxFV true x y
  (F.finish 0 false false r).1

/-- The new value of a unit of `n` bytes under XOP `op` (R205), none for a failed acas. -/
def rmwValue (op : Nat) (fl : Bool) (fmt : BitVec 4) (n old b d : Nat) : Option Nat :=
  let w := 8 * n
  let lt := if fmt = 0 ∨ fmt = 2 then signedN w old < signedN w b else old < b
  if fl then
    let F := ffOf fmt.toNat
    some (packElems F.bits ((List.range (ffN fmt.toNat)).map fun i => fopElem F op (elemAt F.bits old i) (elemAt F.bits b i)))
  else
    match op with
    | 0 => some ((old + b) % 2 ^ w)
    | 1 => some ((old + 2 ^ w - b) % 2 ^ w)
    | 2 => some (if lt then old else b)
    | 3 => some (if lt then b else old)
    | 4 => some (old &&& b)
    | 5 => some (old ||| b)
    | 6 => some (old ^^^ b)
    | 7 => some b
    | 8 => if old = d then some b else none
    | 9 => some ((old + 1) % 2 ^ w)
    | _ => some ((old + 2 ^ w - 1) % 2 ^ w)

/-- The operation of a reduction in R205's numbering (R208): add, min, max, and, or, xor. -/
def redOp (xop : Nat) : Nat := if xop = 0 then 0 else xop + 1

end Sys2Proof.Machine
end

