-- ==== Sys2Proof/Machine/Request.lean ====
section
/-! DEFINITION. Sequence windows and what they apply (R209 to R212), path sets and apertures (R391, R392, R404), and requests of the
fabric performed at their homes (R193, R216, R393, R397 to R403). -/

namespace Sys2Proof.Machine

/-! ## Sequence windows -/

/-- The windows of a launch that count as open; one whose close is paused does not (log 52). -/
def openWins (s : State) (launch : Nat) : List Window := s.en.wins.filter fun w => w.launch == launch && w.phase == 0

def sameWin (a b : Window) : Bool :=
  a.launch == b.launch && a.tray == b.tray && a.base == b.base && a.phase == b.phase && a.closer == b.closer

def setWin (s : State) (old new : Window) : State := withWins s (updIf (sameWin old) new s.en.wins)
def delWin (s : State) (w : Window) : State := withWins s (s.en.wins.filter fun x => !sameWin w x)

/-- The open window of a launch that covers an address (R212). -/
def findWin (s : State) (launch : Nat) (tray : Option Nat) (a : Nat) : Option Window :=
  (openWins s launch).find? fun w => w.tray == tray && w.base ≤ a && a < w.base + w.size

/-- The protection fault of a misused window (R212). -/
def winFault (addr cause : Nat) : FaultInfo := protFault addr 3 7 cause

/-- Bytes of a contribution's unit (R204). -/
def sqBytes (x : SqItem) : Nat := if x.fl then (if x.fmt = 1 then 8 else 4) else if x.fmt = 2 ∨ x.fmt = 3 then 8 else 4

/-- Order of application (R211): index, agent identity, issue order. -/
def sqBefore (a b : SqItem) : Bool :=
  a.idx < b.idx || (a.idx == b.idx && (a.agent < b.agent || (a.agent == b.agent && a.seqNo ≤ b.seqNo)))

/-- Applies one contribution at its unit's home; its faults (R211). -/
def applySq (s : State) (cx : Ctx) (tag mode : Nat) (w : Window) (x : SqItem) : Except FaultInfo State :=
  let n := sqBytes x
  let k : AgentKey := ⟨x.agent, w.launch⟩
  let eff := match x.stamp with | some c => RelEffect.stamp c x.scope.toNat | none => .keep
  let new := fun (old : Nat) => leBytes n ((rmwValue x.op x.fl x.fmt n old x.val.toNat 0).getD old)
  match w.tray with
  | some pal =>
    let old := ((getPallet s pal).map fun p => ofLe (trayRead p x.addr n)).getD 0
    .ok (trayWrite s k pal x.addr (new old) eff)
  | none =>
    match translate s cx accOther x.addr n with
    | .error f => .error f
    | .ok (ps, s) =>
      match ps.findSome? fun p => poisonCheck s p with
      | some f => .error { f with addr := x.addr }
      | none =>
        let who : Who := ⟨k, idCore x.agent, cx, tag, mode⟩
        let s := settleUnit s who ps
        .ok (unitWrite s who x.scope.toNat x.clk ps (new (ofLe (physRead s ps))) eff)

/-- The turn of an ordered operation in a window: its holder, by the number under which it waits. -/
inductive SqTurn where
  | go (s : State) (w : Window)
  | wait (s : State)
  | fault (s : State) (x : FaultInfo)

/-- The turn of the ordered fetch-operation `who` with index n at an address of a region (R210, R212). -/
def sqTurn (s : State) (launch who : Nat) (tray : Option Nat) (a addr : Nat) (n : Word) : SqTurn :=
  match findWin s launch tray a with
  | none => .fault s (winFault addr 1)
  | some w =>
    let d := (w.next - n).toNat
    if 1 ≤ d ∧ d ≤ 2 ^ 31 then .fault s (winFault addr 2)
    else
      let others := w.waits.filter fun x => x.1 != who
      if d = 0 then
        let w' := { w with waits := others }
        .go (setWin s w w') w'
      else .wait (setWin s w { w with waits := others ++ [(who, n, addr)] })

/-! ## Paths and apertures (R391, R392, R404) -/

/-- The path set of an agent on a core to a peer. -/
def pathSet (s : State) (k : AgentKey) (core peer : Nat) : Nat :=
  match s.fb.paths.find? fun p => p.1 == k && p.2.1 == peer with
  | some p => p.2.2
  | none => if (peer + core) % 2 = 0 then 0x5555 else 0xAAAA

/-- The working planes of a set. -/
def workingPlanes (s : State) (set : Nat) : List Nat := (List.range 16).filter fun i => bitN set i && s.fb.planes.getLsbD i

/-- True when a working plane of the set reaches the node (R396): every plane joins every node of the domain (R388; log 89). This
node reaches itself. -/
def reaches (s : State) (k : AgentKey) (core node : Nat) : Bool :=
  node < 384 && (node == s.fb.node || !(workingPlanes s (pathSet s k core node)).isEmpty)

/-- The root of a line: plane and spine (R394). -/
def lineRoot (line : Nat) : Nat × Nat := (line % 16, line / 16 % 6)

/-- The entry that lets an access through, or the cause of R392. `bit` is the kind's bit of PERM; a multicast member names its
destination context (R401). -/
def aperture (s : State) (cx : Ctx) (node va n bit : Nat) (dcid : Option Word := none) : Except Nat Aperture :=
  let mine := s.fb.aps.filter fun a => a.node == node && dcid.all (· == a.dcid) && (a.schip == s.fb.node || a.schip == 0xFFFF) && a.spart == cx.part &&
    (a.scid == cx.cid || a.scid == 0xFFFFFFFF) && a.base.toNat ≤ va && va + n ≤ a.base.toNat + a.size.toNat
  match mine.find? fun a => a.perm.getLsbD bit with
  | some a => .ok a
  | none => .error (if mine.isEmpty then 1 else 2)

/-- An aperture fault (R392). -/
def apertureFault (va kind cause : Nat) : FaultInfo := protFault va kind 12 cause

/-- A remote-unreachable fault (R371), of an address when the access had begun (R397). -/
def unreachableFault (node : Nat) (addr : Nat := 0) : FaultInfo := faultOf 0x24 addr [(0x28, 2, node)]

/-! ## Memory of other packages -/

/-- The memory of another package's context (R391). -/
def peerMem (s : State) (node : Nat) (cid : Word) : Mem :=
  ((s.fb.peers.find? fun p => p.1 == node && p.2.1 == cid).map (·.2.2)).getD []

def setPeerMem (s : State) (node : Nat) (cid : Word) (m : Mem) : State :=
  withPeers s (putBy (fun p => p.1 == node && p.2.1 == cid) (node, cid, m) s.fb.peers)

def samePeerLine (node : Nat) (cid : Word) (line : Nat) (p : Nat × Word × Nat × RelRec) : Bool :=
  p.1 == node && p.2.1 == cid && p.2.2.1 == line

def peerRel (s : State) (node : Nat) (cid : Word) (line : Nat) : Option RelRec :=
  (s.fb.prel.find? (samePeerLine node cid line)).map (·.2.2.2)

def setPeerRel (s : State) (node : Nat) (cid : Word) (line : Nat) (r : RelRec) : State :=
  { s with fb := { s.fb with prel := putBy (samePeerLine node cid line) (node, cid, line, r) s.fb.prel } }

/-- The release record of a peer's line after a write (R186). -/
def peerRelWrite (s : State) (node : Nat) (cid : Word) (va n : Nat) (k : AgentKey) (eff : RelEffect) : State :=
  (piecesOf 7 va n).foldl (fun s q =>
    let line := q.1 / 128
    let t := relUpdate (match peerRel s node cid line with | some r => [(line, r)] | none => []) line (lineWords line q.1 q.2) k eff
    match sGet t line with
    | some r => setPeerRel s node cid line r
    | none => s) s

def peerMarks (s : State) (node : Nat) (cid : Word) (va n : Nat) : List Mark :=
  (piecesOf 7 va n).flatMap fun q =>
    match peerRel s node cid (q.1 / 128) with
    | some r => relMarks [(q.1 / 128, r)] 0 (q.1 / 128) (lineWords (q.1 / 128) q.1 q.2)
    | none => []

/-- A write to another package's memory, with its effect on the lines' release records. -/
def peerWrite (s : State) (node : Nat) (cid : Word) (va : Nat) (bytes : List Byte) (k : AgentKey) (eff : RelEffect) : State :=
  peerRelWrite (setPeerMem s node cid (memWrite (peerMem s node cid) va bytes)) node cid va bytes.length k eff

/-! ## Accesses at the destination -/

/-- Access kinds 8 to 11 of R392; 4 and 5 for a copy's reads and writes. -/
def accRemote (kind : Nat) : AccKind := accOf kind (kind != 8 && kind != 4) false false

/-- What an access at its destination answers. -/
inductive AtHome (α : Type) where
  | ok (x : α)
  | fault (x : FaultInfo)

/-- The destination's bytes of an access to this node: context, translated pieces, state; cause 3 when they cannot be reached. -/
def homePieces (s : State) (dcid : Word) (kind va n : Nat) : AtHome (Ctx × List Phys × State) :=
  match getCtx s dcid with
  | none => .fault (apertureFault va kind 3)
  | some cx =>
    match translate s cx (accRemote kind) va n with
    | .error _ => .fault (apertureFault va kind 3)
    | .ok (ps, s) =>
      match (ps.findSome? fun p => poisonCheck s p).or (fabricCheck s) with
      | some x => .fault { x with addr := va }
      | none => .ok (cx, ps, s)

/-- True for a request of another package. -/
def foreign (s : State) (r : Req) : Bool := idChip r.agent.id != s.fb.node

/-- The agent that accesses for a request (R177): its issuer, or for another package's the port of arrival. -/
def reqAgent (s : State) (r : Req) : AgentKey :=
  if foreign s r then ⟨agentId (idChip r.agent.id) (r.plane % 16) 0 3, 0⟩ else r.agent

/-- The party of a request's check (R222, R223, R229): a write's clock is the one it carried. -/
def reqParty (s : State) (r : Req) (wr : Bool) : Party :=
  let p := partyOf s (reqAgent s r) r.tag r.scope.toNat
  if foreign s r then { p with c := r.clk, f := r.floor } else if wr then { p with c := r.clk } else p

/-- Who acquires the result of a request, when it is an agent of this package. -/
def reqWho (s : State) (r : Req) : Option Who :=
  if foreign s r then none else (getCtx s r.cid).map fun cx => ⟨r.agent, r.core, cx, r.tag, r.mode⟩

/-- The acquire of a request's result (R186, R399). -/
def reqAcquire (s : State) (r : Req) (ms : List Mark) : State :=
  match reqWho s r with
  | none => s
  | some w => acquire s w r.scope.toNat ms

/-- The races of a request that are reported or raised (R230, R233). -/
def reqHits (s : State) (r : Req) (hits : List RaceHit) : State × List RaceHit := filterHits s (reqAgent s r) r.cid r.mode hits

/-- Writes bytes for a request at one destination: the state and the races found, or a fault. A race in fault mode is treated as a
failure is: nothing is performed at the destination (R397, R398). Skipped checks count at the destination's context (log 108). -/
def reqWrite (s : State) (r : Req) (node : Nat) (dcid : Word) (kind : Nat) (bytes : List Byte) (eff : RelEffect)
    (check : Bool) : AtHome (State × List RaceHit) :=
  if node = s.fb.node then
    match homePieces s dcid kind r.addr bytes.length with
    | .fault x => .fault x
    | .ok (cx, ps, s) =>
      let s := noteTexts s cx.cid ps bytes
      let x := ps.foldl (fun (a : State × List RaceHit × List Byte) p =>
        (piecesOf 7 p.pa p.len).foldl (fun (a : State × List RaceHit × List Byte) q =>
          let s := keyedWrite a.1 (reqAgent s r) (pteKey p.leaf.pte) q.1 (a.2.2.take q.2) eff
          if pteRc p.leaf.pte then
            let va := p.va + (q.1 - p.pa)
            let y := publishLine s cx.cid (reqParty s r true) (check && r.mode != 0) (q.1 / 128) (alignDown va 128)
              (lineWords (q.1 / 128) q.1 q.2)
            (y.1, a.2.1 ++ y.2, a.2.2.drop q.2)
          else (s, a.2.1, a.2.2.drop q.2)) a) (s, [], bytes)
      let f := reqHits x.1 r x.2.1
      if r.mode == 1 && !f.2.isEmpty then .ok ({ s with cs := { s.cs with agents := f.1.cs.agents }, mg := f.1.mg }, f.2)
      else .ok f
  else
    .ok (peerWrite s node dcid r.addr bytes r.agent eff, [])

/-- Reads bytes for a request: value, what an acquire may take of the record read, the state, the races found. A read that acquires
raises its clocks before its check (R186). -/
def reqRead (s : State) (r : Req) (kind n : Nat) (check acq : Bool) : AtHome (List Byte × List Mark × State × List RaceHit) :=
  let clocks := fun (s : State) (ms : List Mark) => if acq && !foreign s r then acquireClock s r.agent r.scope.toNat ms else s
  if r.node = s.fb.node then
    match homePieces s r.dcid kind r.addr n with
    | .fault x => .fault x
    | .ok (cx, ps, s) =>
      let bytes := physRead s ps
      let marks := physMarks s ps
      let s := clocks s marks
      let x := ps.foldl (fun (a : State × List RaceHit) p =>
        if check && r.mode != 0 && pteRc p.leaf.pte then
          (piecesOf 7 p.pa p.len).foldl (fun (a : State × List RaceHit) q =>
            let words := lineWords (q.1 / 128) q.1 q.2
            let party := reqParty a.1 r false
            let c := checkLoad a.1 cx.cid party [(raceGet a.1.ms.race (q.1 / 128), words)] (q.1 / 128) r.addr
            let a' := getAgent c.1 (reqAgent c.1 r)
            let goes := c.2.isEmpty || r.mode == 2 || a'.filter.contains (q.1 / 128) || 64 ≤ a'.filter.length
            let s := if goes then recordLoad c.1 party (q.1 / 128) words else c.1
            (s, a.2 ++ c.2)) a
        else a) (s, [])
      let f := reqHits x.1 r x.2
      .ok (bytes, marks, f.1, f.2)
  else
    let marks := peerMarks s r.node r.dcid r.addr n
    .ok (memRead (peerMem s r.node r.dcid) r.addr n, marks, clocks s marks, [])

/-! ## Requests -/

def sameReq (r : Req) (q : Req) : Bool := q.key == r.key
def setReq (s : State) (r : Req) : State := withReqs s (updIf (sameReq r) r s.fb.reqs)
def delReq (s : State) (r : Req) : State := withReqs s (s.fb.reqs.filter fun q => !sameReq r q)

/-- The agent, peer and plane of a count of packets (R403). -/
def sameFlow (r : Req) (c : AgentKey × Nat × Nat × Nat) : Bool := c.1 == r.agent && c.2.1 == r.node && c.2.2.1 == r.plane

/-- Adds to a count of packets (R403). -/
def countFlow (l : List (AgentKey × Nat × Nat × Nat)) (r : Req) (k : Nat) : List (AgentKey × Nat × Nat × Nat) :=
  let n := ((l.find? (sameFlow r)).map (·.2.2.2)).getD 0
  if k = 0 then l else putBy (sameFlow r) (r.agent, r.node, r.plane, (n + k) % 65536) l

/-- Counts packets at their destination once their bytes are performed (R403). -/
def countRecv (s : State) (r : Req) (k : Nat) : State := { s with fb := { s.fb with recv := countFlow s.fb.recv r k } }

/-- A request that has not been performed. -/
def unperformed (r : Req) : Bool := r.kind != .ack && r.kind != .marker

/-- Packets of a request that are performed with it: its own, or for an rst each data flit that carries no other write (R389, R403). -/
def packetsDone (s : State) (r : Req) : Nat :=
  if r.flits.isEmpty then 1
  else (r.flits.filter fun f => !s.fb.reqs.any fun q => q.key != r.key && unperformed q && q.flits.contains f).length

/-- True for a packet that the ports count: rst data, rfop and rred requests (R403). -/
def isCounted (k : ReqKind) : Bool :=
  match k with
  | .write _ => true
  | .fop .. => true
  | .red .. => true
  | _ => false

/-- True for a request that writes at its home. -/
def isRemoteWrite (r : Req) : Bool :=
  match r.kind with
  | .write _ => true
  | .fop .. => true
  | .red .. => true
  | .mcast _ _ => true
  | .flag _ _ _ => true
  | _ => false

def faultData (x : FaultInfo) : Nat × Nat × List Byte := (x.code, x.addr, x.info)

/-- A performed request becomes its acknowledgement; races found are reported with it (R193, R230). Another package's leaves. -/
def reqDone (s : State) (r : Req) (hits : List RaceHit) : State :=
  let s := if isCounted r.kind then countRecv s r (packetsDone s r) else s
  if foreign s r then delReq s r else setReq s { r with kind := .ack, held := false, bad := hits.map fun h => faultData h.fault }

/-- A request that fails at its destination performs nothing there (R397). -/
def reqFail (s : State) (r : Req) (x : FaultInfo) : State :=
  if foreign s r then delReq s r else setReq s { r with kind := .ack, held := false, fatal := true, bad := [faultData x] }

/-- The g registers that the result of a request goes to (R59). -/
def reqWaits (r : Req) : List Nat :=
  match r.kind with
  | .read n gd _ => (List.range (max 1 (n / 4))).map fun i => gd + i
  | .fop _ _ _ n _ _ gd _ _ => (List.range (n / 4)).map fun i => gd + i
  | _ => []

def reqsOf (s : State) (uid : Nat) : List Req := s.fb.reqs.filter fun r => r.uids.contains uid

/-- The g registers of a thread that await a remote result (R59). -/
def awaited (s : State) (uid : Nat) : List Nat := (reqsOf s uid).flatMap reqWaits

/-- True while a remote read or fetch-operation that acquires is on its way for a thread. -/
def awaitsAcquire (s : State) (uid : Nat) : Bool :=
  (reqsOf s uid).any fun r => match r.kind with
    | .read _ _ a => a
    | .fop _ _ _ _ _ _ _ a _ => a
    | _ => false

/-- Changes a thread wherever it is. -/
def mapThread (s : State) (uid : Nat) (h : Thread → Thread) : State :=
  { s with cs := { s.cs with
    store := s.cs.store.map fun e => if e.thr.uid == uid then { e with thr := h e.thr } else e
    sheets := s.cs.sheets.map fun sh =>
      if sh.lanes.any fun l => l.2.uid == uid then
        { sh with lanes := sh.lanes.map fun l => if l.2.uid == uid then (l.1, h l.2) else l }
      else sh } }

/-- Writes `cnt` g registers from gd of the threads that a result goes to. -/
def reqRegs (s : State) (r : Req) (gd cnt x : Nat) : State :=
  r.uids.foldl (fun s u => mapThread s u fun t =>
    (List.range cnt).foldl (fun t i => { t with
      g := t.g.set (gd + i) (BitVec.ofNat 32 (x / 2 ^ (32 * i)))
      gp := t.gp.filter fun j => j != gd + i }) t) s

/-- The effect of a write on its words' record: a release-ordered one stamps them. -/
def reqEff (r : Req) (other : RelEffect) : RelEffect := match r.rel with | some c => .stamp c r.scope.toNat | none => other

/-- A read-modify-write at the destination (R185, R400). -/
def reqRmw (s : State) (r : Req) (n : Nat) (fn : Nat → Option Nat) : AtHome (Nat × List Mark × State) :=
  match reqRead s r 10 n false false with
  | .fault x => .fault x
  | .ok (bytes, marks, s, _) =>
    let old := ofLe bytes
    match fn old with
    | none => .ok (old, marks, s)
    | some x =>
      match reqWrite s r r.node r.dcid 10 (leBytes n x) (reqEff r .keep) false with
      | .fault x => .fault x
      | .ok (s, _) => .ok (old, marks, s)

/-- True when the received counts have reached the carried ones (R403). -/
def flagReady (s : State) (r : Req) (counts : List (Nat × Nat)) : Bool :=
  counts.all fun c =>
    let got := ((s.fb.recv.find? fun x => x.1 == r.agent && x.2.1 == r.node && x.2.2.1 == c.1).map (·.2.2.2)).getD 0
    let d := (c.2 + 65536 - got) % 65536
    d == 0 || 2 ^ 15 ≤ d

/-- The turn of an unordered operation of a request under its launch's negative (R363, R364): recorded at its unit's home. -/
def reqTurn (s : State) (r : Req) : Turn :=
  let unit := if r.node = s.fb.node then
      match (getCtx s r.dcid).bind fun cx => ((translate s cx (accRemote 10) r.addr 1).toOption).map fun t => (cx, t.1) with
      | some (cx, p :: _) => sliceUnit s cx p.pa
      | _ => 0x100
    else Config.homeUnit r.node (r.addr / 128) % 65536
  negTurn s r.agent.launch ⟨1, unit, r.addr⟩ r.agent r.tid r.ordn 0

/-- Asks for the turn of an unordered operation, then performs it. Another package's launch has its negative there (log 53). -/
def inReqTurn (s : State) (r : Req) (go : State → State) : Option State :=
  if foreign s r then some (go s)
  else match reqTurn s r with
  | .go s _ => some (go s)
  | .wait => none
  | .fault x => some (reqFail s r x)

/-! ## Sequence windows of other packages (R209 to R212, R400) -/

def samePeerWin (a b : PeerWin) : Bool := a.node == b.node && a.dcid == b.dcid && a.base == b.base

def setPeerWin (s : State) (w : PeerWin) : State := withPwins s (updIf (samePeerWin w) w s.fb.pwins)

/-- The window of another package that covers a request's address. -/
def peerWinAt (s : State) (r : Req) : Option PeerWin :=
  s.fb.pwins.find? fun w => w.node == r.node && w.dcid == r.dcid && w.base ≤ r.addr && r.addr < w.base + w.size

/-- The turn of an ordered fetch-operation in a window. -/
inductive PeerTurn where
  | go (s : State) (w : PeerWin)
  | wait (s : State)
  | fault (s : State) (x : FaultInfo)

/-- The turn of an ordered fetch-operation with index n in a window of another package (R210, R212). -/
def peerTurn (s : State) (r : Req) (n : Word) : PeerTurn :=
  match peerWinAt s r with
  | none => .fault s (winFault r.addr 1)
  | some w =>
    let d := (w.next - n).toNat
    if d = 0 then .go s w else if d ≤ 2 ^ 31 then .fault s (winFault r.addr 2) else .wait s

/-- Applies one buffered contribution in another package's memory. -/
def applyPeer (w : PeerWin) (s : State) (x : SqItem) : State :=
  let n := sqBytes x
  let old := ofLe (memRead (peerMem s w.node w.dcid) x.addr n)
  let eff := match x.stamp with | some c => RelEffect.stamp c x.scope.toNat | none => .keep
  peerWrite s w.node w.dcid x.addr (leBytes n ((rmwValue x.op x.fl x.fmt n old x.val.toNat 0).getD old)) ⟨x.agent, 0⟩ eff

def openPeerWin (s : State) (w : PeerWin) : State := withPwins s (putBy (samePeerWin w) w s.fb.pwins)

/-- A window of another package closes: its contributions are applied in their order, and the fetch-operations that wait in it take
cause 7 (R209, R211, R212). -/
def closePeerWin (s : State) (w : PeerWin) : State :=
  let s := (sortBy sqBefore w.buf).foldl (applyPeer w) s
  let s := withPwins s (s.fb.pwins.filter fun x => !samePeerWin w x)
  let late := fun (r : Req) => r.held && (match r.kind with | .fop _ _ _ _ _ _ _ _ (some _) => true | _ => false) &&
    r.node == w.node && r.dcid == w.dcid && w.base ≤ r.addr && r.addr < w.base + w.size
  (s.fb.reqs.filter late).foldl (fun s r => reqFail s r (winFault r.addr 7)) s

/-- Performs a request at its home; none while it must wait there: an ordered or replayed operation for its turn, a held flag for its
counts. -/
def performReq (s : State) (r : Req) : Option State :=
  let wrote := fun (x : AtHome (State × List RaceHit)) => match x with
    | .fault f => some (reqFail s r f)
    | .ok (s, hits) => some (reqDone s r hits)
  match r.kind with
  | .read n gd acq =>
    match reqRead s r 8 n true acq with
    | .fault x => some (reqFail s r x)
    | .ok (bytes, _, s, hits) =>
      let stop := !hits.isEmpty && r.mode == 1
      let s := if stop then s else reqRegs s r gd (max 1 (n / 4)) (ofLe bytes)
      some (reqDone (if acq && !stop then reqAcquire s r [] else s) r hits)
  | .write bytes => wrote (reqWrite s r r.node r.dcid 9 bytes (reqEff r .plain) true)
  | .mcast members bytes =>
    let x := members.foldl (fun (a : AtHome (State × List RaceHit)) m =>
      match a with
      | .fault f => .fault f
      | .ok (s, hits) =>
        match reqWrite s r m.1 m.2 11 bytes (reqEff r .plain) true with
        | .fault f => .fault f
        | .ok (s, h) => .ok (s, hits ++ h)) (.ok (s, []))
    wrote x
  | .flag bytes ordered counts =>
    if ordered && !flagReady s r counts then none else wrote (reqWrite s r r.node r.dcid 9 bytes (reqEff r .plain) true)
  | .fop op fl fmt n b d gd acq idx =>
    let go := fun (s : State) =>
      match reqRmw s r n fun old => rmwValue op fl fmt n old b.toNat d.toNat with
      | .fault x => reqFail s r x
      | .ok (old, marks, s) =>
        let s := reqRegs s r gd (n / 4) old
        reqDone (if acq then reqAcquire s r marks else s) r []
    match idx with
    | none => inReqTurn s r go
    | some i =>
      if r.node ≠ s.fb.node then
        match peerTurn s r i with
        | .fault s x => some (reqFail s r x)
        | .wait s => some (setReq s { r with held := true })
        | .go s w => some (setPeerWin (go s) { w with next := w.next + 1 })
      else
        match sqTurn s r.agent.launch r.key none r.addr r.addr i with
        | .fault s x => some (reqFail s r x)
        | .wait s => some (setReq s { r with held := true })
        | .go s w => some (setWin (go s) w { w with next := w.next + 1 })
  | .red op fl fmt n b idx =>
    let go := fun (s : State) =>
      match reqRmw s r n fun old => rmwValue (redOp op) fl fmt n old b.toNat 0 with
      | .fault x => reqFail s r x
      | .ok (_, _, s) => reqDone s r []
    match idx with
    | none => if fl then inReqTurn s r go else some (go s)
    | some i =>
      let x : SqItem := ⟨r.addr, i, r.agent.id, s.en.sqNo, redOp op, fmt, fl, b, r.rel, r.scope, r.clk⟩
      let buffered := fun (s : State) (n : Nat) (put : State → State) =>
        if 65536 ≤ n then some (reqFail s r (winFault r.addr 3))
        else some (reqDone (put { s with en := { s.en with sqNo := s.en.sqNo + 1 } }) r [])
      if r.node ≠ s.fb.node then
        match peerWinAt s r with
        | none => some (reqFail s r (winFault r.addr 1))
        | some w => buffered s w.buf.length fun s => setPeerWin s { w with buf := w.buf ++ [x] }
      else
        match findWin s r.agent.launch none r.addr with
        | none => some (reqFail s r (winFault r.addr 1))
        | some w => buffered s w.buf.length fun s => setWin s w { w with buf := w.buf ++ [x] }
  | .marker => some (delReq s r)
  | .ack => some s

/-- Bytes that a request names from its address. -/
def reqSize (r : Req) : Nat :=
  match r.kind with
  | .read n _ _ => n
  | .write b => b.length
  | .fop _ _ _ n _ _ _ _ _ => n
  | .red _ _ _ n _ _ => n
  | .mcast _ b => b.length
  | .flag b _ _ => b.length
  | _ => 0

/-- Two requests touch a common line. -/
def lineMeets (q r : Req) : Bool :=
  q.addr / 128 ≤ (r.addr + reqSize r - 1) / 128 && r.addr / 128 ≤ (q.addr + reqSize q - 1) / 128

def isMcast (r : Req) : Bool := match r.kind with | .mcast _ _ => true | _ => false

/-- The nodes at which a request is performed. -/
def reqNodes (r : Req) : List Nat := match r.kind with | .mcast ms _ => ms.map (·.1) | _ => [r.node]

/-- True when a fence marker of the agent to the peer was sent between two requests (R194). -/
def markerBetween (s : State) (q r : Req) : Bool :=
  s.fb.reqs.any fun m => m.kind == .marker && m.agent == r.agent && m.node == r.node && q.key < m.key && m.key < r.key

/-- True for an earlier write of the agent that comes before a request at its destination: one to its line (R193, R399), one before a
fence marker (R194), and any before a flag (R195). A multicast is ordered with the writes to its line alone (R193, R401). -/
def comesBefore (s : State) (r q : Req) : Bool :=
  let flag := match r.kind with | .flag _ _ _ => true | _ => false
  q.agent == r.agent && q.key < r.key && isRemoteWrite q && ((reqNodes q).any fun n => (reqNodes r).contains n) &&
  (if isMcast q || isMcast r then lineMeets q r
   else flag || lineMeets q r || (isRemoteWrite r && markerBetween s q r))

/-- A flag that its counts still hold is not made ready by performing what they count: those packets arrive by themselves. -/
def heldFlag (s : State) (r : Req) : Bool :=
  match r.kind with
  | .flag _ true counts => !flagReady s r counts
  | _ => false

/-- The writes that come before a request at its destination, and those that come before these, in issue order. -/
def priors (s : State) (r : Req) : List Req :=
  s.fb.reqs.reverse.foldl (fun acc q => if (r :: acc).any (comesBefore s · q) then q :: acc else acc) []

/-- Performs requests in order, each unless something that comes before it is left. -/
def performEach (s : State) (l : List Req) : State :=
  l.foldl (fun s q => if s.fb.reqs.any (comesBefore s q) then s else (performReq s q).getD s) s

/-- Performs what comes before a request at its destination, as far as it can go. -/
def performBefore (s : State) (r : Req) : State := if heldFlag s r then s else performEach s (priors s r)

/-- Performs every remote write of an agent that can be performed, in issue order (R180 step 3). -/
def flushRemote (s : State) (k : AgentKey) : State :=
  performEach s (s.fb.reqs.filter fun r => r.agent == k && isRemoteWrite r)

/-- True when a remote write of an agent must still wait at its destination, so that a release at dom or sys waits with it (R180). -/
def remoteStuck (s : State) (k : AgentKey) : Bool :=
  s.fb.reqs.any (fun r => r.agent == k && isRemoteWrite r) &&
  (flushRemote s k).fb.reqs.any fun r => r.agent == k && isRemoteWrite r

end Sys2Proof.Machine
end

