-- ==== Sys2Proof/Machine/Release.lean ====
section
/-! DEFINITION. Publication (R230), soft interrupts on their way (R123), and what a release moves home (R180). -/

namespace Sys2Proof.Machine

/-- The blocks of a line that an agent's release at `sc` writes home (R171, R180): those it holds dirty, recorded at a narrower
scope. Under fusion a release at clus moves none (R174). -/
def releaseBlocks (s : State) (w : Who) (sc line : Nat) : List L1Sector :=
  if fusedOn s w.core && sc == 2 then []
  else sortBy (fun a b => a.sec ≤ b.sec) (s.ms.l1.filter fun b =>
    dirtyBy b w.agent != 0 && b.scope.toNat < sc && b.sec / 8 == line)

/-- A check that waits after an early eviction for a release of the agent at `sc` (R172). -/
def dueCheck (w : Who) (sc : Nat) (u : Unpublished) : Bool := u.agent == w.agent && u.scope.toNat < sc

/-- Publishes one line (R230): its blocks go home, and the words of blocks evicted early are checked and recorded with theirs, at the
scope of the publishing release. -/
def publishAt (s : State) (w : Who) (sc line va : Nat) : State × List RaceHit :=
  let bs := releaseBlocks s w sc line
  let early := s.ms.unpub.filter fun u => dueCheck w sc u && u.line == line
  let s := bs.foldl (fun s b => l1Put (sectorHome s b w.agent) (
    { cleanBytes b (dirtyBy b w.agent) with dirty := b.dirty.filter fun d => d.1 != w.agent })) (flushLine s w.core line)
  let s := withUnpub s (s.ms.unpub.filter fun u => !(dueCheck w sc u && u.line == line))
  let late := early.foldl (fun m u => m ||| u.words) 0#32
  let words := bs.foldl (fun m b => if b.rc then m ||| sectorWords b w.agent else m) late
  let s := if late = 0 then s else notifyLine s none line w.agent
  if words = 0 then (s, []) else publishLine s w.cx.cid (partyOf s w.agent w.tag sc) (w.mode != 0) line va words

/-- Publishes what a release at `sc` covers, in increasing address order (R172, R180, R230). -/
def publishDirty (s : State) (w : Who) (sc : Nat) : State × List RaceHit :=
  let mine := s.ms.l1.filter fun b => dirtyBy b w.agent != 0 && b.scope.toNat < sc
  let lines := mine.map (fun b => (alignDown b.va 128, b.sec / 8)) ++ (s.ms.unpub.filter (dueCheck w sc)).map fun u => (u.va, u.line)
  let once := lines.foldl (fun l x => if l.any fun y => y.2 == x.2 then l else l ++ [x]) ([] : List (Nat × Nat))
  (sortBy (fun a b => a.1 ≤ b.1) once).foldl (fun (acc : State × List RaceHit) x =>
    let y := publishAt acc.1 w sc x.2 x.1
    (y.1, acc.2 ++ y.2)) (s, [])

/-- Performs a soft interrupt at its wake register (R123). -/
def performSwi (s : State) (x : SwiOr) : State :=
  if x.target < 2048 then
    match getQueue s x.target with
    | some q => setQueue s { q with wake := q.wake ||| x.value }
    | none => { s with qs := { s.qs with owake := sPut s.qs.owake x.target (sGetD s.qs.owake x.target 0 ||| x.value) } }
  else { s with qs := { s.qs with mwake := setNth s.qs.mwake (x.target - 0x1000) (nthD s.qs.mwake (x.target - 0x1000) 0 ||| x.value) } }

def withSwis (s : State) (l : List SwiOr) : State := { s with qs := { s.qs with swis := l } }

/-- Performs an agent's soft interrupts that are on their way: they come before any later release of the agent completes (R123). -/
def flushSwis (s : State) (k : AgentKey) : State :=
  withSwis ((s.qs.swis.filter fun x => x.agent == k).foldl performSwi s) (s.qs.swis.filter fun x => x.agent != k)

/-- Steps 1 and 2 of a release at scope `sc` (R180): what it moves home, and the races its publications find. They fall into the phase
that the release opens (R233; log 108). -/
def releaseLocal (s : State) (w : Who) (sc : Nat) : State × List RaceHit :=
  let s := flushSwis (clearFilter s w.agent) w.agent
  if sc < 2 then (s, [])
  else
    let r := publishDirty s w sc
    (performPostedIf r.1 fun p => p.agent == w.agent, r.2)

/-- Steps 1 to 3 of a release at scope `sc` (R180). -/
def releaseMoves (s : State) (w : Who) (sc : Nat) : State × List RaceHit :=
  let r := releaseLocal s w sc
  if sc < 5 then r else (flushRemote r.1 w.agent, r.2)

end Sys2Proof.Machine
end

