-- ==== Sys2Proof/Machine/Ops.lean ====
section
/-! DEFINITION. Operations over the whole machine that the meanings share: device accesses, threads leaving and entering sheets
(R19, R20), the trap record and queue (R372 to R374), stopping a context (R378), ending packets (R413, R414), TAKING A FAULT
(`takeFaults`: R368 to R378) and returning from a handler (`retHandler`: R124, R376). -/

namespace Sys2Proof.Machine

/-! ## Threads and sheets -/

/-- A hub engine's release at sys (R409): its clock and the stamp. -/
def hubRelease (s : State) : Nat × State := bumpClock s (hubAgent s)

def laneThread (sh : Sheet) (lane : Nat) : Option Thread := sGet sh.lanes lane
def setLane (sh : Sheet) (lane : Nat) (t : Thread) : Sheet := { sh with lanes := sPut sh.lanes lane t }
def dropLane (sh : Sheet) (lane : Nat) : Sheet :=
  { sh with
    lanes := sDel sh.lanes lane
    em := sh.em &&& ~~~(1#128 <<< lane)
    done := sh.done &&& ~~~(1#128 <<< lane)
    pend := sh.pend.filter fun p => p.cls == RegC.k || p.lane != lane }

def zeroK : List Word := List.replicate 64 0

/-- k0 to k63 of a column. -/
def kImage (sh : Sheet) (col : Nat) : List Word := sGetD sh.ks col zeroK

/-- Puts a sheet back, or frees its slot when no lane is occupied (R24). -/
def putSheet (s : State) (sh : Sheet) : State := if sh.lanes.isEmpty then delSheet s sh.key else setSheet s sh

/-- R20: registers outside the live set hold undefined values with tag none, and lose their pending marks. -/
def applyLive (t : Thread) (n m tick : Nat) : Thread :=
  { t with
    g := t.g.zipIdx.map fun x => if x.2 < n then x.1 else Config.word tick (t.uid * 256 + x.2)
    gp := t.gp.filter fun r => r < n
    f := t.f.zipIdx.map fun x => if x.2 < m then x.1 else Config.dword tick (t.uid * 256 + x.2)
    ft := t.ft.zipIdx.map fun x => if x.2 < m then x.1 else 0 }

def palletEntryBytes (s : State) (pal : Nat) : Nat :=
  match getPallet s pal with
  | none => 0
  | some p => match getLaunch s p.launch with
    | none => 0
    | some la => entryBytes la

def palletCore (s : State) (pal : Nat) : Nat := ((getPallet s pal).map (·.core)).getD 0

/-- A pinned course that sleeps in an mwait is held in the spawn store and occupies no lane and no slot (R36). -/
def sleepsOut (sh : Sheet) : Bool := sh.sleep.any fun x => match x.2 with | .mwait _ _ _ => true | _ => false

/-- Bytes in use in a core's 256 KiB spawn store, and in a pallet's 4 MiB overflow region (R23, R419). -/
def storeUsed (s : State) (core : Nat) : Nat :=
  sumN ((s.cs.store.filter fun e => !e.ovf && palletCore s e.pal == core).map fun e => palletEntryBytes s e.pal) +
  sumN ((s.cs.sheets.filter fun sh => sleepsOut sh && palletCore s sh.pal == core).map fun sh => sh.lanes.length * palletEntryBytes s sh.pal)
def overflowUsed (s : State) (pal : Nat) : Nat :=
  sumN ((s.cs.store.filter fun e => e.ovf && e.pal == pal).map fun e => palletEntryBytes s e.pal)

/-- True when the store has room for one more entry of the pallet, or its overflow region has. -/
def storeRoom (s : State) (pal : Nat) : Bool := storeUsed s (palletCore s pal) + palletEntryBytes s pal ≤ 262144
def entryRoom (s : State) (pal : Nat) : Bool :=
  storeRoom s pal || overflowUsed s pal + palletEntryBytes s pal ≤ 4194304

/-- Puts a thread into the spawn store, or into the overflow region when the store is full (R19, R23). -/
def enterStore (s : State) (pal : Nat) (pc : Dword) (t : Thread) (k : List Word) (sl : Sleep) : State :=
  addEntry s ⟨pal, pc, t, k, s.cs.cyc, sl, !storeRoom s pal⟩

/-- A lane leaves its sheet for the spawn store. -/
def departLane (s : State) (sh : Sheet) (lane : Nat) (t : Thread) (pc : Dword) (sl : Sleep) : State :=
  let s := enterStore s sh.pal pc t (kImage sh (lane % 32)) sl
  putSheet s (dropLane sh lane)

/-- Entries that still fit the spawn store and the pallet's overflow region (R23). -/
def storeFits (s : State) (la : Launch) (pal n : Nat) : Bool :=
  let eb := entryBytes la
  n ≤ (262144 - storeUsed s (palletCore s pal)) / eb + (4194304 - overflowUsed s pal) / eb

/-- A sheet that holds a slot while its pallet is active. -/
def onCore (sh : Sheet) : Bool := !sh.evicted && !sleepsOut sh

/-- True when a pallet has a slot for one more sheet. -/
def sheetFree (s : State) (la : Launch) (p : Pallet) : Bool :=
  (s.cs.sheets.filter fun x => x.pal == p.key && onCore x).length < sheetSlots la

/-- Free sheet slots of a core, as quadrant·8 + slot; the sheets of parked pallets, evicted and sleeping sheets hold none. -/
def freeSlots (s : State) (core : Nat) : List Nat :=
  let used := (s.cs.sheets.filter fun sh => onCore sh && s.cs.pallets.any fun p =>
    p.key == sh.pal && p.core == core && p.st == .active).map (·.slot)
  (List.range 32).filter fun i => !used.contains i

/-- The slot R21 chooses: the quadrant with a free slot and the fewest occupied slots, the lowest first; its lowest slot. -/
def chooseSlot (s : State) (core : Nat) : Option Nat :=
  let free := freeSlots s core
  let quads := (List.range 4).filter fun q => free.any fun i => i / 8 == q
  let freeIn := fun (q : Nat) => (free.filter fun i => i / 8 == q).length
  match quads with
  | [] => none
  | q0 :: r =>
    let q := r.foldl (fun b q => if freeIn q > freeIn b then q else b) q0
    free.find? fun i => i / 8 == q

/-- A thread's prelaunch future completes when it exits (R354). A fault of completion cannot follow: the state is clean. -/
def endPair (s : State) (t : Thread) : State :=
  match t.pair.bind (·.fut) with
  | some h => match s.en.futs.find? fun f => f.handle == h with
    | some f => if f.st == .pending then setFuture s { f with st := .clean } else s
    | none => s
  | none => s

/-! ## Packets and launches (R411 to R414, R424 to R426) -/

/-- The group of the queue that a launch came from (R406, R421). -/
def launchGroup (s : State) (la : Launch) : Nat := ((la.queue.bind fun q => getQueue s q.1).map (·.group)).getD 0

/-- Marks a packet as ended with an error code (0 for a completion) and its DETAIL; PACKET_END reports it (R413, R414). -/
def endPacket (s : State) (q x code detail : Nat) : State :=
  match getQueue s q with
  | none => s
  | some u => if (sGet u.ended x).isSome then s else setQueue s { u with ended := sPut u.ended x (code, detail, s.mg.ns) }

/-- The state and the stamp with which a future completes (R186, R272). A completed future keeps its state. -/
def completeFuture (s : State) (h : Word) (st : OpSt) (stamp : Nat) : State :=
  match getFuture s h with
  | none => s
  | some f => if f.st == .pending then setFuture s { f with st := st, stamp := stamp } else s

/-- R178, R424: the launch ends with an error. -/
def failLaunch (s : State) (la : Launch) (code detail : Nat) : State :=
  let s := setLaunch s { la with fin := some code }
  let s := match la.queue with
    | some (q, x) => endPacket s q x code detail
    | none => s
  match la.fut with
  | some h => completeFuture s h .error 0
  | none => s

/-! ## Stopping a context (R158, R378) -/

/-- Completes at their homes the stores that a context's agents issued (R158). -/
def completeStores (s : State) (cid : Word) : State :=
  let s := (s.ms.l1.filter fun b => b.cid == cid && !b.dirty.isEmpty).foldl evictSector s
  let mine := fun (k : AgentKey) => s.cs.pallets.any fun p => palletAgent s p == k &&
    (s.qs.launches.any fun la => la.key == p.launch && la.cid == cid)
  let s := performPostedIf s fun p => mine p.agent
  s.cs.agents.foldl (fun s a => if mine a.key then flushRemote s a.key else s) s

/-- Stops a context: its pallets, copies, mma, batches and matchers stop, buffered contributions are discarded, its launches
complete with error 4 (R378). `code` is the fault's code, 0 for halt (R449). -/
def stopContext (s : State) (cid : Word) (code : Nat) : State :=
  match getCtx s cid with
  | none => s
  | some cx =>
    if cx.stop.isSome then s
    else
      let s := completeStores s cid
      let ls := s.qs.launches.filter fun la => la.cid == cid && la.fin.isNone
      let isLa := fun (k : Nat) => ls.any fun la => la.key == k
      let isPal := fun (k : Nat) => s.cs.pallets.any fun p => p.key == k && isLa p.launch
      let s := s.en.copies.foldl (fun s c => if c.cid == cid then completeFuture s c.handle .error 0 else s) s
      let s := s.en.batches.foldl (fun s b => if isPal b.pal then completeFuture s b.handle .error 0 else s) s
      let s := { s with en := { s.en with
        copies := s.en.copies.filter fun c => c.cid != cid
        board := s.en.board.filter fun b => !isPal b.pal
        mmas := s.en.mmas.filter fun m => m.cid != cid
        batches := s.en.batches.filter fun b => !isPal b.pal
        wins := s.en.wins.filter fun w => !isLa w.launch
        contribs := s.en.contribs.filter fun c => !isLa c.launch
        parts := s.en.parts.filter fun p => !isLa p.launch
        relq := s.en.relq.filter fun p => !isLa p.launch } }
      let s := mapPallets s fun p => if isLa p.launch then { p with st := .stopped } else p
      let s := setCtx s { (getCtx s cid).getD cx with stop := some code }
      ls.foldl (fun s la => failLaunch s la 4 (cid.toNat + code * 2 ^ 32)) s

/-! ## The trap record (R327, R328, R372) -/

/-- Who a record names. -/
structure RecWho where
  pc    : Nat
  tid   : Word
  crs   : Word
  flags : Nat
  expo  : Word
  rwc   : Word
  deriving DecidableEq, Repr

/-- The 64 bytes of a trap record; `cls` is R157's class. -/
def trapRecord (cx : Ctx) (w : RecWho) (x : FaultInfo) (cls : Nat) : List Byte :=
  (layout 40 [(0, 1, x.code), (1, 1, cls), (2, 2, w.flags), (4, 4, cx.cid.toNat), (8, 8, w.pc), (0x10, 4, w.tid.toNat),
    (0x14, 4, w.crs.toNat), (0x18, 8, x.addr), (0x20, 4, w.expo.toNat), (0x24, 4, w.rwc.toNat)]) ++ sliceB x.info 0 24

/-- The target of record idx of set A (role i) or B (role j) (R343). -/
def pairTarget (p : PRec) (roleJ : Bool) (idx : Nat) : Nat :=
  if roleJ then p.tbbase + idx * p.tbstr else p.tabase + idx * p.tastr

/-- Contributions of other pairs to a target: received and not yet applied in ordered mode, applied ones otherwise (R328). -/
def pairCount (s : State) (la : Launch) (p : PRec) (i j : Word) (addr : Nat) : Nat :=
  let own := fun (role : Bool) (partner : Word) =>
    pairTarget p role (if role then j.toNat else i.toNat) == addr && partner == (if role then i else j)
  let n := if p.flags.getLsbD 1 then
      (s.en.contribs.filter fun c => c.launch == la.key && c.addr == addr && !own c.role c.partner).length +
        sumN ((s.en.parts.filter fun q => q.launch == la.key && q.addr == addr).map fun q =>
          (q.froms.filter fun f => !own q.role f).length)
    else (s.en.papp.filter fun c => c.1 == la.key && c.2.1 == addr && !own c.2.2.1 c.2.2.2).length
  min n 0xFFFFFFFF

/-- The bytes that a pair thread's record holds (R328). -/
def pairInfoBytes (s : State) (la : Launch) (q : PairInfo) : List Byte :=
  match la.p with
  | none => List.replicate 24 0
  | some p => infoBytes [(0x28, 4, q.i.toNat), (0x2C, 4, q.j.toNat), (0x30, 1, q.homeI.toNat), (0x31, 1, q.homeJ.toNat),
      (0x34, 4, q.pos.toNat), (0x38, 4, pairCount s la p q.i q.j (pairTarget p false q.i.toNat)),
      (0x3C, 4, pairCount s la p q.i q.j (pairTarget p true q.j.toNat))]

/-- FLAGS of a lane's record: PASS, NEST, ENG, PAIR, PIN (R327, R368). `pass` is the lowest faulting pass. -/
def laneFlags (sh : Sheet) (t : Thread) (pass : Nat) : Nat :=
  (2 ^ pass - 1) * 16 + boolN t.trap.isSome * 8 + boolN t.pair.isSome * 2 + boolN sh.course.isSome

/-- CRS: core, slot and lane of a pinned course's thread (R372). -/
def crsOf (pl : Pallet) (sh : Sheet) (lane : Nat) : Word :=
  match sh.course with
  | some slot => BitVec.ofNat 32 (pl.core * 2 ^ 24 + slot * 2 ^ 18 + lane)
  | none => 0xFFFFFFFF

def recWhoLane (e : Env) (pc : Dword) (lane : Nat) (t : Thread) (pass : Nat) : RecWho :=
  ⟨pc.toNat, t.tid, crsOf e.pl e.sh lane, laneFlags e.sh t pass, e.pl.expo, e.pl.rwc⟩

/-- Faults whose ADDR is a formed address (R370, R371): a protection fault's by its reason, of which none, 8, 10, 11 and 13 name what is
no memory (R123, R217, R353, R364, R423). -/
def memoryFault (x : FaultInfo) : Bool :=
  [0x08, 0x09, 0x0B, 0x0C, 0x18].contains x.code || (x.code == 0x0A && (ofLe (sliceB x.info 2 2)) &&& 0xD2FF != 0)

/-- The record of a lane's fault. A pair thread's holds the pair, and no address but a memory fault's (R328). `pass` is the lowest
faulting pass. -/
def laneRecord (s : State) (e : Env) (pc : Dword) (lane : Nat) (t : Thread) (x : FaultInfo) (cls : Nat) (pass : Nat := lane / 32) :
    List Byte :=
  let x := match t.pair with
    | some q => { x with addr := if memoryFault x then x.addr else 0, info := pairInfoBytes s e.la q }
    | none => x
  trapRecord e.cx (recWhoLane e pc lane t pass) x cls

/-! ## The trap queue (R373, R374) -/

/-- The queue of a launch: the launch record's, or the context record's when its base is 0. -/
def trapQueueOf (la : Launch) (cx : Ctx) : Nat × Nat :=
  if la.r.tqb.toNat ≠ 0 then (la.r.tqb.toNat, la.r.tqn) else (cx.tqb.toNat, cx.tqn)

/-- What putting a record answers. -/
inductive QPut where
  | written (s : State)
  | full (s : State)
  | lost

/-- Free slots of a queue: N − (WIDX − RIDX); none when it cannot be accessed. -/
def queueFree (s : State) (cx : Ctx) (base n : Nat) : Option (Nat × Nat) :=
  (deviceRead s cx base 16).map fun h =>
    let w := fieldB h 0 8
    let r := fieldB h 8 8
    (n - (w + 2 ^ 64 - r) % 2 ^ 64, w)

/-- Writes bytes in device order: a list of (address, bytes, effect). -/
def deviceWrites (s : State) (cx : Ctx) (ws : List (Nat × List Byte × RelEffect)) : Option State :=
  ws.foldl (fun acc w =>
    match acc with
    | none => none
    | some s => deviceWrite s cx (hubAgent s) w.1 w.2.1 w.2.2) (some s)

/-- LOST := LOST + 1. -/
def countLost (s : State) (cx : Ctx) (base : Nat) : State :=
  match deviceRead s cx (base + 0x10) 8 with
  | none => s
  | some b => (deviceWrite s cx (hubAgent s) (base + 0x10) (leBytes 8 (ofLe b + 1)) .plain).getD s

/-- STAT after a fatal fault (R373, R374): stopped, the first fatal code, overflow when no slot was free. -/
def writeStat (s : State) (cx : Ctx) (base code : Nat) (ovf : Bool) : State :=
  match getCtx s cx.cid with
  | none => s
  | some c =>
    let old := ((c.tqStat.find? fun x => x.1.toNat == base).map fun x => x.2.toNat).getD 0
    let first := if bitN old 9 then old % 256 else code
    let st := first + 512 + (if ovf || bitN old 10 then 1024 else 0)
    let key : Dword := BitVec.ofNat 64 base
    let s := setCtx s { c with tqStat := putBy (fun x => x.1 == key) (key, BitVec.ofNat 32 st) c.tqStat }
    (deviceWrite s cx (hubAgent s) (base + 0x18) (leBytes 4 st) .plain).getD s

/-- Puts a record into slot WIDX mod N and increments WIDX with a release at sys; `spare` slots stay free. -/
def putRecord (s : State) (cx : Ctx) (base n spare : Nat) (record : List Byte) : QPut :=
  match queueFree s cx base n with
  | none => .lost
  | some (free, w) =>
    if free ≤ spare then .full s
    else
      let c := hubRelease s
      match deviceWrites c.2 cx [(base + 0x40 + 64 * (w % n), record, .plain), (base, leBytes 8 (w + 1), .stamp c.1 6)] with
      | none => .lost
      | some s => .written s

/-- Counts a race record written (R237 counter 3). -/
def countRecord (s : State) (cid : Word) (code : Nat) : State := if code = 0x18 then countRace s cid 3 1 else s

/-- A fatal record, and the stop of its context (R374, R378); a stop writes one record (R372), after every store issued before it is
performed (R158). -/
def fatalRecord (s : State) (la : Launch) (cx : Ctx) (code : Nat) (record : List Byte) : State :=
  if ((getCtx s cx.cid).bind (·.stop)).isSome then s else
  let q := trapQueueOf la cx
  let s := completeStores s cx.cid
  let s := match putRecord s cx q.1 q.2 0 record with
    | .written s => countRecord (writeStat s cx q.1 code false) cx.cid code
    | .full s => writeStat s cx q.1 code true
    | .lost => s
  stopContext s cx.cid code

/-- An engine fault's record: class, ENG flag, the named PC and thread (R266, R316, R340, R397). -/
def engineWho (pl : Option Pallet) (pc : Nat) (tid : Word) : RecWho :=
  ⟨pc, tid, 0xFFFFFFFF, 4, (pl.map (·.expo)).getD 0, (pl.map (·.rwc)).getD 0⟩

/-- Writes a record that does not stop its context; with no room it is dropped and LOST increments. Answers whether it was
written. A queue that cannot be accessed stops the context (R373). -/
def softRecord (s : State) (la : Launch) (cx : Ctx) (code : Nat) (record : List Byte) : State × Bool :=
  let q := trapQueueOf la cx
  match putRecord s cx q.1 q.2 4 record with
  | .written s => (countRecord s cx.cid code, true)
  | .full s => (countLost s cx q.1, false)
  | .lost => (stopContext s cx.cid code, false)

/-! ## Classes (R370) -/

inductive FClass where
  | fatal | handled | replay | debug
  deriving DecidableEq, Repr

/-- Codes that are handled when the launch names a handler. -/
def handledCode (c : Nat) : Bool := c == 0x10 || c == 0x11 || c == 0x15 || c == 0x18 || c == 0x31

/-- The class of a lane's fault: a fault of a handler thread is fatal (R377), a breakpoint goes to an attached debugger. -/
def classOf (e : Env) (t : Thread) (x : FaultInfo) : FClass :=
  if t.trap.isSome then .fatal
  else if x.code = 0x09 then .replay
  else if x.code = 0x30 then (if e.pl.dbg.att then .debug else .fatal)
  else if handledCode x.code && e.la.r.handler != 0 then .handled
  else .fatal

/-! ## Retiring (R64, R456) -/

/-- Adds n to the retired-work count, and resets the context's watchdog count (R381, R456). -/
def retire (s : State) (pal : Nat) (n : Nat) : State :=
  match getPallet s pal with
  | none => s
  | some p =>
    let s := setPallet s { p with rwc := p.rwc + BitVec.ofNat 32 n }
    match (getLaunch s p.launch).bind fun la => getCtx s la.cid with
    | some c => if n = 0 then s else setCtx s { c with wdog := 0 }
    | none => s

/-- The sheet goes on at `pc`: run, done mask and stall cleared. -/
def advanceTo (sh : Sheet) (pc : Dword) : Sheet := { sh with pc := pc, done := 0, run := [], stalled := false, why := .none }

/-! ## Trace records and halting (R454, R460) -/

/-- The trace ring of a pallet: base and entries; none while it is off. -/
def traceRing (p : Pallet) : Option (Nat × Nat) :=
  let base := p.dbg.trbh.toNat % 2 ^ 25 * 2 ^ 32 + p.dbg.trb.toNat
  let n := p.dbg.trc.toNat / 256
  if n = 0 ∨ base = 0 ∨ base % 64 ≠ 0 then none else some (base, n)

/-- Writes a trace record into the pallet's ring, as a store of its agent that its next release publishes. A ring that cannot be
written takes nothing (log 35). -/
def traceRecord (s : State) (pal kind : Nat) (tid : Word) (pc : Nat) : State :=
  match getPallet s pal with
  | none => s
  | some p =>
    match traceRing p, (getLaunch s p.launch).bind fun la => (getCtx s la.cid).map fun c => (la, c) with
    | some (base, n), some (la, cx) =>
      let va := base + 32 * (p.trn % n)
      match translate s cx accStore va 32 with
      | .error _ => s
      | .ok (ps, s) =>
        let bytes := layout 32 [(0, 1, kind), (4, 4, p.expo.toNat), (8, 4, p.rwc.toNat), (0xC, 4, tid.toNat), (0x10, 8, pc),
          (0x18, 8, s.cs.cyc)]
        let w : Who := ⟨palletAgent s p, p.core, cx, la.tag, raceMode la⟩
        let s := (storePhys s w ⟨1, none, 0, true⟩ ps bytes).1
        match getPallet s pal with
        | some p => setPallet s { p with trn := p.trn + 1 }
        | none => s
    | _, _ => s

/-- HALT set: every sheet stops at its next issue boundary (R454). -/
def haltPallet (s : State) (pal : Nat) : State :=
  match getPallet s pal with
  | none => s
  | some p =>
    if p.dbg.halt then s
    else traceRecord (setPallet s { p with dbg := { p.dbg with halt := true } }) pal 3 0xFFFFFFFF 0

/-! ## Taking a fault -/

/-- Pauses a pallet for service of a replayable fault (R375). One of a stopped context stays stopped (R373, R378). -/
def pausePallet (s : State) (pal : Nat) : State :=
  match getPallet s pal with
  | none => s
  | some p => if p.st = .stopped then s else setPallet s { p with st := .paused }

/-- The context a handler thread runs with (R124, R376). -/
def trapCtxOf (iss : Issue) (sh : Sheet) (lane : Nat) (record : List Byte) (x : FaultInfo) : TrapCtx :=
  ⟨record, iss.pc, iss.next, if sh.course.isSome then some (sh.key, lane) else none, x.code == 0x18 && !(nthD x.info 2 0).getLsbD 5⟩

/-- Diverts a lane whose record is written: the thread runs from the handler's address as a free thread. A pinned course keeps the
lane and sleeps (R376). -/
def divertLane (s : State) (e : Env) (sh : Sheet) (lane : Nat) (t : Thread) (c : TrapCtx) (sl : Sleep) : State × Sheet :=
  let s := enterStore s sh.pal e.la.r.handler { t with trap := some c } (kImage sh (lane % 32)) sl
  if sh.course.isSome then (s, { sh with sleep := sPut sh.sleep lane .handled })
  else (s, dropLane sh lane)

/-- One handled lane: its record is written when the queue has room, else the thread waits for it with its record (R374). -/
def takeHandled (acc : State × Sheet) (e : Env) (pass lane : Nat) (x : FaultInfo) : State × Sheet :=
  match laneThread acc.2 lane with
  | none => acc
  | some t =>
    let s := acc.1
    let record := laneRecord s e s.iss.pc lane t x 1 pass
    let c := trapCtxOf s.iss acc.2 lane record x
    let r := softRecord s e.la e.cx x.code record
    if r.2 then divertLane r.1 e acc.2 lane t c .ready
    else divertLane r.1 e acc.2 lane t c (.trapSlot record true)

/-- One lane of a breakpoint with a debugger attached (R455): its record has class 1, and a free lane parks in the store. With no room for
the record it waits with it first (R374). -/
def takeBreak (acc : State × Sheet) (e : Env) (pass lane : Nat) (x : FaultInfo) : State × Sheet :=
  match laneThread acc.2 lane with
  | none => acc
  | some t =>
    let s := acc.1
    let record := laneRecord s e s.iss.pc lane t x 1 pass
    let r := softRecord s e.la e.cx x.code record
    if acc.2.course.isSome then
      (r.1, { acc.2 with
        halted := true
        qwait := if r.2 then acc.2.qwait else some (acc.2.qwait.getD [] ++ record) })
    else (enterStore r.1 acc.2.pal s.iss.next t (kImage acc.2 (lane % 32)) (if r.2 then .brk else .trapSlot record false), dropLane acc.2 lane)

/-- True when no participating lane is left to execute the instruction. -/
def allDone (sh : Sheet) (parts : BitVec 128) : Bool :=
  let occ := maskOf (sh.lanes.map (·.1))
  parts &&& occ &&& ~~~sh.done == 0

/-- A rolled-back pallet that re-executes up to its first fault halts at it, and the fault is raised (R458 step 4). -/
def rollFault (s : State) (p : Pallet) : State :=
  if p.dbg.roll && p.dbg.trwc == 0xFFFFFFFF then setPallet s { p with dbg := { p.dbg with roll := false, halt := true } } else s

/-- TAKING FAULTS (R368 to R378). `parts` are the instruction's participating lanes, `comp` those that completed now, `flt` the
faulting lanes in increasing order, of the lowest faulting pass or all lanes of a course's mask, with what each reports. The issuing
sheet is `s.iss.sheet`. -/
def takeFaults (s : State) (parts comp : BitVec 128) (flt : List (Nat × FaultInfo)) : State :=
  match envOf s s.iss.sheet with
  | none => s
  | some e =>
    let s := rollFault s e.pl
    let pass := (flt.map fun l => l.1 / 32).foldl min 3
    let cls := fun (l : Nat × FaultInfo) => match laneThread e.sh l.1 with
      | some t => classOf e t l.2
      | none => .fatal
    match flt.find? fun l => cls l == .fatal with
    | some (lane, x) =>
      let t := laneThread e.sh lane
      let record := match t with
        | some t => laneRecord s e s.iss.pc lane t x 2 pass
        | none => trapRecord e.cx ⟨s.iss.pc.toNat, 0xFFFFFFFF, 0xFFFFFFFF, 0, e.pl.expo, e.pl.rwc⟩ x 2
      let s := setSheet s { e.sh with done := e.sh.done ||| comp, run := [], pc := s.iss.pc }
      fatalRecord s e.la e.cx x.code record
    | none =>
      let sh := { e.sh with done := e.sh.done ||| comp, run := [], pc := s.iss.pc }
      let r := (flt.filter fun l => cls l == .handled).foldl (fun acc l => takeHandled acc e pass l.1 l.2) (s, sh)
      let dbg := flt.filter fun l => cls l == .debug
      let r := dbg.foldl (fun acc l => takeBreak acc e pass l.1 l.2) r
      let sh := if dbg.isEmpty || r.2.course.isNone then r.2 else { r.2 with done := r.2.done ||| maskOf (dbg.map (·.1)) }
      let s := retire r.1 e.pl.key dbg.length
      let s := if dbg.isEmpty || !e.pl.dbg.allstop then s else haltPallet s e.pl.key
      match flt.find? fun l => cls l == .replay with
      | some (lane, x) =>
        let record := match laneThread sh lane with
          | some t => laneRecord s e s.iss.pc lane t x 0 pass
          | none => []
        let r := softRecord s e.la e.cx x.code record
        if r.2 then pausePallet (putSheet r.1 sh) e.pl.key
        else putSheet r.1 { sh with qwait := some record }
      | none =>
        if sh.sleep.isEmpty && allDone sh parts then putSheet s (advanceTo sh s.iss.next)
        else putSheet s { sh with stalled := false, why := .none }

/-! ## Returning from a handler (R124, R376) -/

/-- tret of one handler lane: the thread resumes with the registers it holds, at the instruction after the faulting run or at the
run itself. A pinned course's lane goes back to its sheet; the course strip keeps its own k registers, and what the handler wrote to
k is dropped (R124 speaks of the thread's registers and tags only): DESIGN CHOICE, log 100. -/
def retHandler (s : State) (sh : Sheet) (lane : Nat) (t : Thread) (c : TrapCtx) (re : Bool) : State × Sheet :=
  let t' := { t with trap := none, skip := re && c.once }
  match c.crs with
  | none =>
    (enterStore s sh.pal (if re then c.pc else c.next) t' (kImage sh (lane % 32)) .ready, dropLane sh lane)
  | some (key, ln) =>
    let s := match getSheet s key with
      | none => s
      | some cs =>
        let cs := setLane { cs with sleep := sDel cs.sleep ln } ln t'
        let cs := if re then cs else { cs with done := cs.done ||| (1#128 <<< ln) }
        setSheet s { cs with pend := cs.pend.filter fun p => p.lane != ln }
    (s, dropLane sh lane)

end Sys2Proof.Machine
end

