-- ==== Sys2Proof/Machine/Fetch.lean ====
section
/-! DEFINITION. Fetching (R38, R427): the words at a sheet's program counter or at a command core's, the instruction they decode
to, and the record of the issue that the meaning reads. -/

namespace Sys2Proof.Machine

/-- A word of a launch's text as a fetch finds it: as it stands, or as it was or will be when the launch has stored to it (R38): free. -/
def pickWord (tick : Nat) : Nat → Word → List OldText → Word
  | _, w, [] => w
  | salt, w, x :: r => if Config.choice tick salt then x.word else pickWord tick (salt + 1) w r

/-- One fetched word, or the fault of its page. -/
def fetchWord (s : State) (core launch : Nat) (cx : Ctx) (va : Nat) : Except FaultInfo (Word × State) :=
  match translate s cx (accFetch.at core 0) va 4 with
  | .error x => .error x
  | .ok (ps, s) =>
    match ps.findSome? fun p => poisonCheck s p with
    | some x => .error x
    | none =>
      let w := BitVec.ofNat 32 (ofLe (physRead s ps))
      .ok (pickWord s.tick va w (s.ms.oldText.filter fun x => x.launch == launch && ps.any fun p => p.pa == x.addr), s)

/-- n words upward from va (R38: every word is fetched before the instruction issues). -/
def fetchWords (s : State) (core launch : Nat) (cx : Ctx) (va : Nat) : Nat → Except FaultInfo (List Word × State)
  | 0 => .ok ([], s)
  | n + 1 =>
    match fetchWord s core launch cx va with
    | .error x => .error x
    | .ok (w, s) =>
      match fetchWords s core launch cx (va + 4) n with
      | .error x => .error x
      | .ok (ws, s) => .ok (w :: ws, s)

/-- The length of the instruction that a first word begins (R37). -/
def fetchLen (w0 : Word) : Nat := wordCount (w0.extractLsb' 0 2)

/-- All the words of the instruction at va, or the machine check of what the issuing agent consumes in its core (R435). -/
def fetchInstr (s : State) (core launch : Nat) (cx : Ctx) (va : Nat) : Except FaultInfo (List Word × State) :=
  match coreCheck s core with
  | some x => .error x
  | none =>
    match fetchWord s core launch cx va with
    | .error x => .error x
    | .ok (w0, s) =>
      match fetchWords s core launch cx (va + 4) (fetchLen w0 - 1) with
      | .error x => .error x
      | .ok (ws, s) => .ok (w0 :: ws, s)

/-- The instruction that fetched words stand for, and its length in words; none for an illegal word. -/
def fetched (ws : List Word) : Option (Instr × Nat) :=
  match decodeWords ws with
  | .ok i n => some (i, n)
  | .reserved i n => some (i, n)
  | _ => none

/-- The issue record of a sheet whose words are at hand. -/
def issueOf (sh : Sheet) (ws : List Word) (n : Nat) : Issue where
  sheet := sh.key
  pc := if sh.run.isEmpty then sh.pc else sh.runPc
  ipc := sh.pc
  next := sh.pc + BitVec.ofNat 64 (4 * n)
  run := sh.run
  w0 := nthD ws 0 0
  w1 := nthD ws 1 0
  w2 := nthD ws 2 0
  fw := 0

/-- The issue record of a fetch that fails: the fault's PC is the run's first word (R38, R64). -/
def fetchIssue (sh : Sheet) : Issue := issueOf sh [] 0

/-- The lowest active lane of a sheet, else its lowest lane. -/
def fetchLane (sh : Sheet) : Nat :=
  let act := (sh.lanes.map (·.1)).filter fun l => sh.em.getLsbD l
  act.headD ((sh.lanes.map (·.1)).headD 0)

/-- The illegal-instruction fault of an undecodable word, `off` bytes after the run's first (R65, R67). -/
def raiseIllegal (s : State) (bad : Word) (off : Nat) (w1 w2 : Word) : State :=
  match getSheet s s.iss.sheet with
  | none => s
  | some sh => takeFaults s sh.em 0 [(fetchLane sh,
      faultOf 0x01 0 [(0x28, 4, bad.toNat), (0x2C, 4, off), (0x30, 4, w1.toNat), (0x34, 4, w2.toNat)])]

/-- What a sheet's issue comes to: an instruction to execute, or the state after a fault of the fetch or of the decoder. -/
inductive Fetched where
  | run (i : Instr) (s : State)
  | done (s : State)

/-- Fetches and decodes at a sheet's program counter. -/
def fetchSheet (s : State) (key : Nat) : Fetched :=
  match envOf s key with
  | none => .done s
  | some e =>
    match fetchInstr s e.pl.core e.la.key e.cx e.sh.pc.toNat with
    | .error x => .done (takeFaults { s with iss := fetchIssue e.sh } e.sh.em 0 [(fetchLane e.sh, x)])
    | .ok (ws, s) =>
      match fetched ws with
      | some (i, n) => .run i { s with iss := issueOf e.sh ws n }
      | none =>
        let iss := issueOf e.sh ws 1
        let ext := iss.w0.getLsbD 1
        .done (raiseIllegal { s with iss := iss } iss.w0 (iss.ipc - iss.pc).toNat (if ext then iss.w1 else 0)
          (if ext then iss.w2 else 0))

/-! ## Command cores -/

/-- A synchronous exception of a command core (R427). -/
def fwTrap (s : State) (core cause : Nat) : State :=
  let c := nthD s.mg.fw core FwCore.zero
  { s with mg := { s.mg with fw := s.mg.fw.set core { c with
      mcause := BitVec.ofNat 64 cause
      mepc := c.pc
      pc := c.mtvec } } }

/-- The word at a command core's program counter. -/
def fwWord (s : State) (core : Nat) : Word :=
  BitVec.ofNat 32 (ofLe (memRead s.mg.fwMem (nthD s.mg.fw core FwCore.zero).pc.toNat 4))

/-- The issue record of a command core. -/
def fwIssue (s : State) (core : Nat) : Issue := { Issue.none with w0 := fwWord s core, fw := core }

end Sys2Proof.Machine
end

