-- ==== Sys2Proof/Machine/Operands.lean ====
section
/-! DEFINITION. Operand forms: the view of one executing unit, register reads with early results (R60), literals (R47), memory
operands (R75, R198), the checks of an access in R203's order, the range scoreboard (R176), and one load or store of a lane. -/

namespace Sys2Proof.Machine

/-- One executing unit of an instruction: a lane, or with U a strip whose lowest active pass `lane` executes for `lanes` (R17). -/
structure LV where
  env   : Env
  iss   : Issue
  f     : Fld          -- the fields in effect, prefixes applied (R61)
  lane  : Nat
  lanes : List Nat
  t     : Thread
  cyc   : Nat          -- the issue cycle
  tick  : Nat

/-- A register result of a unit. `thr` changes the state of every thread that the results go to. -/
inductive Wr where
  | g (n : Nat) (x : Word)
  | f (n : Nat) (x : Dword) (tag : BitVec 4)
  | q (n : Nat) (x : BitVec 2)
  | k (n : Nat) (x : Word)
  | e (n : Nat) (x : Dword)
  | thr (h : Thread → Thread)

/-- What a unit's execution answers. -/
inductive LaneRes where
  | ok (s : State) (ws : List Wr)
  | fault (s : State) (x : FaultInfo)
  | wait (s : State) (why : Stall)

/-! ## Early reads (R59, R60) -/

/-- The old value that an early read may return: a free choice for each producer on its way, newest first. -/
def pendPick (cyc tick : Nat) (cls : RegC) (lane num : Nat) : Nat → List Pend → Option (BitVec 64 × BitVec 4)
  | _, [] => none
  | salt, p :: r =>
    if p.cls == cls && p.lane == lane && p.num == num then
      if cyc < p.ready && Config.choice tick salt then
        match pendPick cyc tick cls lane num (2 * salt + 1) r with
        | some x => some x
        | none => some (p.old, p.oldT)
      else none
    else pendPick cyc tick cls lane num salt r

/-- True when a read at `cyc` comes before a fixed-latency result is certain. -/
def earlyRead (sh : Sheet) (cyc : Nat) (cls : RegC) (lane num : Nat) : Bool :=
  match sh.pend.find? fun p => p.cls == cls && p.lane == lane && p.num == num with
  | some p => cyc < p.ready
  | none => false

def regSalt (cls : RegC) (fld lane num : Nat) : Nat :=
  let c := match cls with | .g => 0 | .f => 1 | .k => 2 | .q => 3 | .e => 4
  (((fld * 8 + c) * 128 + num) * 128 + lane) * 2 + 1

/-- The register lane of a class: k registers belong to the strip's column. -/
def regLane (cls : RegC) (lane : Nat) : Nat := match cls with | .k => lane % 32 | _ => lane

def LV.pick (v : LV) (fld : Nat) (cls : RegC) (num : Nat) : Option (BitVec 64 × BitVec 4) :=
  pendPick v.cyc v.tick cls (regLane cls v.lane) num (regSalt cls fld v.lane num) v.env.sh.pend

/-! ## Register reads. `fld` is the operand field, 0 D, 1 A, 2 B, 3 C. -/

def LV.g (v : LV) (fld n : Nat) : Word :=
  match v.pick fld .g n with
  | some o => o.1.setWidth 32
  | none => nthD v.t.g n 0

/-- `cnt` consecutive g registers as one number, the lowest register in the low bits. -/
def LV.gs (v : LV) (fld n : Nat) : Nat → Nat
  | 0 => 0
  | cnt + 1 => (v.g fld n).toNat + 2 ^ 32 * v.gs fld (n + 1) cnt

def LV.fr (v : LV) (fld n : Nat) : Dword × BitVec 4 :=
  match v.pick fld .f n with
  | some o => o
  | none => (nthD v.t.f n 0, nthD v.t.ft n 0)

/-- True when the literal replaces the field (R45, R47). -/
def litIs (f : Fld) (fld : Nat) : Bool := fld != 0 && f.lit.toNat == fld && fld ≤ 3

/-- A literal in a predicate's place supplies its low two bits (R47). -/
def LV.q (v : LV) (fld n : Nat) : BitVec 2 :=
  if litIs v.f fld then v.f.imm.setWidth 2 else
  match v.pick fld .q n with
  | some o => o.1.setWidth 2
  | none => nthD v.t.q n 0

def LV.k (v : LV) (fld n : Nat) : Word :=
  match v.pick fld .k n with
  | some o => o.1.setWidth 32
  | none => nthD (kImage v.env.sh (v.lane % 32)) n 0

def LV.ks (v : LV) (fld n : Nat) : Nat → Nat
  | 0 => 0
  | cnt + 1 => (v.k fld n).toNat + 2 ^ 32 * v.ks fld (n + 1) cnt

def LV.e (v : LV) (n : Nat) : Dword :=
  match v.pick 4 .e n with
  | some o => o.1
  | none => nthD v.t.e n 0
/-- A thread outside a pinned course reads all ones (R248). -/
def LV.m (v : LV) (n : Nat) : BitVec 128 := if v.env.sh.course.isNone then BitVec.allOnes 128 else nthD v.env.sh.m n 0

/-- The register number of a field. -/
def fieldNum (f : Fld) (fld : Nat) : Nat :=
  match fld with | 0 => f.d.toNat | 1 => f.a.toNat | 2 => f.b.toNat | _ => f.c.toNat

/-- An integer operand of `cnt` g registers, or the literal that replaces it (R47). -/
def LV.int (v : LV) (fld cnt : Nat) : Nat :=
  if litIs v.f fld then v.f.imm.toNat % 2 ^ (32 * cnt) else v.gs fld (fieldNum v.f fld) cnt

/-- The tag that a floating format requires (R128). -/
def fmtTag (fmt : BitVec 4) : BitVec 4 :=
  match fmt.toNat with
  | 0 => 2 | 1 => 1 | 2 => 3 | 3 => 4 | 4 => 14 | 5 => 3 | 6 => 4 | 7 => 5 | 8 => 6 | 9 => 7 | 10 => 8 | 11 => 10 | 12 => 11
  | 13 => 12 | _ => 13

/-- A format fault (R129): required code, tag found, operand field. -/
def formatFault (req : Nat) (found : BitVec 4) (fld : Nat) : FaultInfo :=
  faultOf 0x05 0 [(0x28, 1, req), (0x29, 1, found.toNat), (0x2A, 1, fld)]

/-- A floating source with one required tag: its image, or the literal's (R47, R129). -/
def LV.fsrc (v : LV) (fld : Nat) (tag : BitVec 4) : Except FaultInfo Nat :=
  if litIs v.f fld then .ok v.f.imm.toNat
  else
    let r := v.fr fld (fieldNum v.f fld)
    if r.2 = tag then .ok r.1.toNat else .error (formatFault tag.toNat r.2 fld)

/-- A floating source that accepts every tag except none. -/
def LV.fany (v : LV) (fld : Nat) : Except FaultInfo (Dword × BitVec 4) :=
  let r := v.fr fld (fieldNum v.f fld)
  if r.2 = 0 then .error (formatFault 0xFF 0 fld) else .ok r

/-! ## Results -/

/-- `cnt` g registers that together hold a value. -/
def wrG (n : Nat) : Nat → Nat → List Wr
  | 0, _ => []
  | cnt + 1, x => .g n (BitVec.ofNat 32 x) :: wrG (n + 1) cnt (x / 2 ^ 32)

def wrK (n : Nat) : Nat → Nat → List Wr
  | 0, _ => []
  | cnt + 1, x => .k n (BitVec.ofNat 32 x) :: wrK (n + 1) cnt (x / 2 ^ 32)

/-! ## Who executes -/

def LV.who (v : LV) (s : State) : Who := whoOf s v.env
def LV.agent (v : LV) (s : State) : AgentKey := palletAgent s v.env.pl

/-- A prefix of the run, by kind. -/
def runHas (run : List RunPart) (kind : BitVec 7) : Bool := run.any fun p => p.kind == kind

def LV.norace (v : LV) : Bool := runHas v.iss.run 1

/-- The k register that names the peer: the peer prefix's, or the E field's (R61). -/
def peerK (run : List RunPart) (f : Fld) : Nat :=
  match run.find? fun p => p.kind == 3 with
  | some p => p.arg.toNat
  | none => f.e.toNat

/-- The fields in effect under a run of prefixes (R61). -/
def effFld (f : Fld) (run : List RunPart) : Fld :=
  run.foldl (fun f p =>
    match p.kind.toNat with
    | 2 => { f with atm := p.arg.setWidth 2 }
    | 4 => { f with ord := true, c := p.arg }
    | 5 => { f with scope := p.arg.setWidth 3 }
    | _ => f) f

/-! ## Reports (R157, R374) -/

/-- Writes the report records of races found in report mode. A dropped report leaves the sheet waiting for queue space. -/
def LV.report (v : LV) (s : State) (hits : List RaceHit) : State :=
  hits.foldl (fun s h =>
    let r := softRecord s v.env.la v.env.cx h.fault.code (laneRecord s v.env v.iss.pc v.lane v.t h.fault 3)
    if r.2 then r.1
    else match getSheet r.1 v.env.sh.key with
      | some sh => setSheet r.1 { sh with qwait := some [] }
      | none => r.1) s

/-- What races found by an access do: in fault mode the first that the filter lets pass stops the lane, otherwise each of them is
reported (R232, R233). -/
def LV.races (v : LV) (s : State) (hits : List RaceHit) : Except (State × FaultInfo) State :=
  let f := filterHits s (v.agent s) v.env.cx.cid (raceMode v.env.la) hits
  match f.2 with
  | [] => .ok f.1
  | h :: _ => if raceMode v.env.la = 1 then .error (f.1, h.fault) else .ok (v.report f.1 f.2)

/-! ## Releases and acquires by a lane (R180, R181, R186) -/

/-- Applies a change to every thread that a unit's results go to. -/
def LV.toThreads (v : LV) (s : State) (h : Thread → Thread) : State :=
  match getSheet s v.env.sh.key with
  | none => s
  | some sh => setSheet s { sh with lanes := sh.lanes.map fun l => if v.lanes.contains l.1 then (l.1, h l.2) else l }

/-- Ends a thread's open tasks at a release at pkg or wider (R415). -/
def endTasks (sc : Nat) (t : Thread) : Thread := if 4 ≤ sc then { t with task := [] } else t

/-- A release at scope `sc`: the new clock, and the clock before. A race that it publishes stops it before its own write. -/
def LV.release (v : LV) (s : State) (sc : Nat) : Except (State × FaultInfo) (Nat × State) :=
  let r := releaseMoves s (v.who s) sc
  match v.races r.1 r.2 with
  | .error e => .error e
  | .ok s => .ok (bumpClock (if 4 ≤ sc then v.toThreads s (endTasks sc) else s) (v.agent s))

def LV.acquire (v : LV) (s : State) (sc : Nat) (ms : List Mark) : State := Machine.acquire s (v.who s) sc ms

/-- The mark that a release by a lane leaves in an object. -/
def LV.mark (v : LV) (s : State) (sc stamp : Nat) : Mark := markOf (v.agent s) sc stamp

/-! ## Memory operands (R75, R198) -/

def LV.off (v : LV) : Nat := if v.f.lit = 4 then v.f.imm.toNat else 0

/-- The index of field C, sign-extended to 64 bits; 0 when C is 0 or holds another operand. -/
def LV.idx (v : LV) (useC : Bool) : Nat :=
  if useC && v.f.c != 0 then ((v.g 3 v.f.c.toNat).signExtend 64).toNat else 0

/-- The formed address. `useC` is false when C holds another operand. -/
def LV.addr (v : LV) (useC : Bool) : Nat :=
  if basePair v.f.spc then (v.gs 1 v.f.a.toNat 2 + v.idx useC + v.off) % 2 ^ 64
  else (v.gs 1 v.f.a.toNat 1 + v.idx useC + v.off) % 2 ^ 32

/-- Where the bytes of a checked access lie. -/
inductive Place where
  | glob (ps : List Phys)
  | tray (pal off : Nat)
  | konst (off : Nat)

/-- R191: aligned for its width. -/
def aligned (addr n : Nat) : Bool := addr % min n 16 == 0

/-- R162: range, translation and protection of n bytes at an address of a space. -/
def LV.place (v : LV) (s : State) (k : AccKind) (spc addr n : Nat) : Except FaultInfo (Place × State) :=
  match spc with
  | 0 => (translate s v.env.cx (k.at v.env.pl.core v.lane) addr n).map fun r => (.glob r.1, r.2)
  | 1 => if addr + n ≤ v.env.la.r.tray then .ok (.tray v.env.pl.key addr, s) else .error (faultOf 0x0C addr [])
  | 2 =>
    match palletOnCore s v.env.la.key (v.env.pl.core / 8 * 8 + bitsN addr 19 3) with
    | some p =>
      if addr < 2 ^ 22 ∧ addr % 2 ^ 19 + n ≤ v.env.la.r.tray then .ok (.tray p.key (addr % 2 ^ 19), s)
      else .error (faultOf 0x0C addr [])
    | none => .error (faultOf 0x0C addr [])
  | _ =>
    if addr + n > 65536 then .error (walkFault 0x0A addr k.num 0xFF 6 [])
    else
      match translate s v.env.cx (k.at v.env.pl.core v.lane) (v.env.la.r.param.toNat + addr) n with
      | .error x => .error { x with addr := addr }
      | .ok r => .ok (.konst addr, r.2)

/-- The pages of a place. -/
def Place.phys : Place → List Phys
  | .glob ps => ps
  | _ => []

/-- R190: a 16-byte request to a page of the second tier. -/
def atomFault (p : Place) (atm : BitVec 2) (spc addr : Nat) : Option FaultInfo :=
  if atm = 2 ∧ p.phys.any fun q => pteTier q.leaf.pte then some (faultOf 0x0B addr [(0x28, 1, 16), (0x29, 1, spc)]) else none

/-- R435: a machine check of poisoned bytes. -/
def poisonIn (s : State) (p : Place) : Option FaultInfo := p.phys.findSome? fun q => poisonCheck s q

/-- The checks of R203 before a race check, in order. -/
def LV.check (v : LV) (s : State) (k : AccKind) (addr n : Nat) (mis : Bool) : Except FaultInfo (Place × State) :=
  let spc := v.f.spc.toNat
  if !mis && !aligned addr n then .error (faultOf 0x08 addr [])
  else
    match v.place s k spc addr n with
    | .error x => .error x
    | .ok (p, s) =>
      match atomFault p v.f.atm spc addr with
      | some x => .error x
      | none => .ok (p, s)

/-! ## The range scoreboard (R176) -/

/-- Tray and ctray bytes under one name: the ctray address. -/
def canonSpan (pl : Pallet) (spc addr : Nat) : Nat × Nat :=
  if spc = 1 then (2, pl.core % 8 * 2 ^ 19 + addr) else (spc, addr)

/-- The scoreboard entries of the pallet that an access overlaps. -/
def boardHits (s : State) (pl : Pallet) (spc addr n : Nat) : List Score :=
  let c := canonSpan pl spc addr
  s.en.board.filter fun b => b.pal == pl.key && b.spc.toNat == c.1 && b.lo < c.2 + n && c.2 < b.hi

/-- Handles of the copies that entries stand for. -/
def boardHandles (s : State) (bs : List Score) : List Word :=
  (s.en.copies.filter fun c => bs.any fun b => b.ops.contains c.key).map (·.handle)

/-- What a lane's earlier stall waited for (R176). -/
def heldOf (sh : Sheet) (lane : Nat) : List Word := (sh.heldBy.filter fun h => h.1 == lane).map (·.2)

/-- The scoreboard gate of an access: none while it stalls, with the handles it waits for noted; else the state after the
acquire that ends an earlier stall of its lane. -/
def LV.gate (v : LV) (s : State) (spc addr n : Nat) : Except State State :=
  match boardHits s v.env.pl spc addr n, getSheet s v.env.sh.key with
  | [], some sh =>
    if (heldOf sh v.lane).isEmpty then .ok s
    else
      let stamp := maxN ((heldOf sh v.lane).map fun h => ((getFuture s h).map (·.stamp)).getD 0)
      .ok (v.acquire (setSheet s { sh with heldBy := sh.heldBy.filter fun h => h.1 != v.lane }) 1 (anyMark stamp))
  | [], none => .ok s
  | bs, some sh => .error (setSheet s { sh with
      heldBy := (sh.heldBy.filter fun h => h.1 != v.lane) ++ (boardHandles s bs).map fun h => (v.lane, h) })
  | _, none => .error s

/-! ## One load -/

/-- Performs an agent's own ctray stores to bytes of a tray, so that its later accesses follow them (R164, R183). -/
def flushTray (s : State) (k : AgentKey) (pal off n : Nat) : State :=
  performPostedIf s fun p => p.tray == some pal && p.agent == k && overlaps p.addr p.bytes.length off n

def trayBytes (s : State) (pal off n : Nat) : List Byte :=
  match getPallet s pal with
  | some p => trayRead p off n
  | none => List.replicate n 0

/-- The parameter block at launch start (R165); a part that had no translation then reads as it is. -/
def constBytes (s : State) (la : Launch) (cx : Ctx) (off n : Nat) : List Byte :=
  (List.range n).map fun i =>
    match la.cimg.find? fun c => c.1 ≤ off + i && off + i < c.2.1 with
    | some c => memGet c.2.2 (off + i)
    | none => ((deviceRead s cx (la.r.param.toNat + off + i) 1).getD [0]).headD 0

/-- What an acquire of a place may take (R186). -/
def placeMarks (s : State) (p : Place) (n : Nat) : List Mark :=
  match p with
  | .glob ps => physMarks s ps
  | .tray pal off => ((getPallet s pal).map fun q => trayMarks q off n).getD []
  | .konst _ => []

/-- Loads n bytes from a place (R199, R200). With acq the clocks rise before the race check (R186), and the acquire ends after it. -/
def LV.load (v : LV) (s : State) (p : Place) (n : Nat) (acq ldp : Bool) : Except (State × FaultInfo) (List Byte × State) :=
  let sc := v.f.scope.toNat
  let clocks := fun (s : State) => if acq then acquireClock s (v.agent s) sc (placeMarks s p n) else s
  let fin := fun (s : State) => if acq then acquireEnd s (v.who s) sc else s
  match p with
  | .glob ps =>
    match poisonIn s p with
    | some x => .error (s, x)
    | none =>
      let s := clocks (if v.norace then countRace s v.env.cx.cid 0 1 else s)
      let how : LoadHow := ⟨sc, ldp, acq && dropsClean s v.env.pl.core sc, v.f.cache == 3,
        raceMode v.env.la != 0 && !v.norace && !v.t.skip, 2 + v.f.atm.toNat⟩
      let r := loadPhys s (v.who s) how ps
      match v.races r.s r.hits with
      | .error e => .error e
      | .ok s => .ok (r.bytes, fin s)
  | .tray pal off =>
    let s := clocks (flushTray s (v.agent s) pal off n)
    .ok (trayBytes s pal off n, fin s)
  | .konst off => .ok (constBytes s v.env.la v.env.cx off n, fin (clocks s))

/-! ## What an mma issued without fopr may still read (R188) -/

/-- Notes the values that the 4-byte units of global memory hold, as the core sees them, before a write of a pallet; trayWrite notes a
tray's. -/
def noteOld (s : State) (la : Launch) (pal : Nat) (p : Place) : State :=
  let core := ((getPallet s pal).map (·.core)).getD 0
  let us : List OldUnit := match p with
    | .glob ps => ps.flatMap fun q => (piecesOf 2 q.pa q.len).map fun r =>
        let a := alignDown r.1 4
        ⟨pal, none, a, BitVec.ofNat 32 (ofLe (coreRead s core la.cid a 4)), s.tick⟩
    | _ => []
  if la.r.tiles = 0 then s else addOlds s us

/-- Notes what a write of a lane is about to change: units that an mma may still read, and its launch's own text (R38, R188). -/
def LV.noteWrite (v : LV) (s : State) (p : Place) (bytes : List Byte) : State :=
  noteTexts (noteOld s v.env.la v.env.pl.key p) v.env.cx.cid p.phys bytes

/-! ## One store -/

/-- Stores bytes at a place; `rel` makes it release-ordered (R199, R230). In fault mode a race at its own publication stops it
with nothing written. -/
def LV.store (v : LV) (s : State) (p : Place) (bytes : List Byte) (rel : Bool) : Except (State × FaultInfo) State :=
  let sc := v.f.scope.toNat
  let clk := (getAgent s (v.agent s)).c
  let r : Except (State × FaultInfo) (Option Nat × State) :=
    if rel then (v.release s sc).map fun x => (some x.1, x.2) else .ok (none, s)
  match r with
  | .error e => .error e
  | .ok (stamp, s) =>
    let s := v.noteWrite s p bytes
    match p with
    | .glob ps =>
      let s := if v.norace then countRace s v.env.cx.cid 0 1 else s
      let x := storePhys s (v.who s) ⟨sc, stamp, clk, v.norace⟩ ps bytes
      match v.races x.1 x.2 with
      | .error (t, e) => .error ({ s with cs := { s.cs with agents := t.cs.agents }, mg := t.mg }, e)
      | .ok s => .ok s
    | .tray pal off =>
      let eff := match stamp with | some c => RelEffect.stamp c sc | none => .plain
      if pal = v.env.pl.key || rel then
        .ok (trayWrite (flushTray s (v.agent s) pal off bytes.length) (v.agent s) pal off bytes eff)
      else
        .ok (withPosted s (s.ms.posted ++ [⟨v.agent s, some pal, off, bytes, v.f.scope, v.env.pl.core, 0⟩]))
    | .konst _ => .ok s

end Sys2Proof.Machine
end

