-- ==== Sys2Proof/Machine/Flags.lean ====
section
/-! DEFINITION. Flag computations: conditions of comparisons (R96, R136), Kleene logic (R106), guard senses (R58), and the
floating exceptions with their traps (R132, R133). -/

namespace Sys2Proof.Machine

/-! ## Predicates: 0 F, 1 T, 2 U -/

def qF : BitVec 2 := 0
def qT : BitVec 2 := 1
def qU : BitVec 2 := 2

def qOf (b : Bool) : BitVec 2 := if b then qT else qF

/-- A pattern that no instruction writes (R105). -/
def qBad (q : BitVec 2) : Bool := q == 3

/-- Kleene's strong logic (R106). -/
def kand (a b : BitVec 2) : BitVec 2 := if a = qF ∨ b = qF then qF else if a = qT ∧ b = qT then qT else qU
def kor (a b : BitVec 2) : BitVec 2 := if a = qT ∨ b = qT then qT else if a = qF ∧ b = qF then qF else qU
def knot (a : BitVec 2) : BitVec 2 := if a = qF then qT else if a = qT then qF else qU
def kxor (a b : BitVec 2) : BitVec 2 := if a = qU ∨ b = qU then qU else qOf (a != b)

/-- A predicate against a sense: t, f, u, nf (R58). -/
def senseHolds (gs : Nat) (q : BitVec 2) : Bool :=
  match gs with | 0 => q == qT | 1 => q == qF | 2 => q == qU | _ => q == qT || q == qU

/-- The conditions of icmp and fcmp: eq, ne, lt, le, gt, ge (R96, R136). -/
def condHolds (c : Nat) (lt eq : Bool) : Bool :=
  match c with | 0 => eq | 1 => !eq | 2 => lt | 3 => lt || eq | 4 => !lt && !eq | _ => !lt

/-! ## Floating exceptions (R132, R133) -/

/-- FZ acts in this launch (R131). -/
def LV.fz (v : LV) : Bool := v.env.la.fz

/-- The exceptions that the launch enables (R133). -/
def trapMask (la : Launch) : Exc := la.r.fpt.setWidth 5

/-- Bit i set for element i that raised an enabled exception. -/
def trapElems (m : Exc) (l : List Exc) : Nat := sumN (l.zipIdx.map fun x => if x.1 &&& m ≠ 0 then 2 ^ x.2 else 0)

/-- The bytes of an FP-exception fault (R133). -/
def fpFault (m : Exc) (l : List Exc) (image : Nat) : FaultInfo :=
  faultOf 0x10 0 [(0x28, 1, (excAll l &&& m).toNat), (0x29, 1, (excAll l).toNat), (0x2A, 2, trapElems m l), (0x30, 8, image)]

/-- Sets sticky flags (R104, R132). -/
def addFpf (x : Exc) (t : Thread) : Thread := { t with fpf := t.fpf ||| x }

/-- The end of a floating operation: its exceptions per element, its result image, and what it writes (R132, R133). -/
def LV.fpDone (v : LV) (s : State) (l : List Exc) (image : Nat) (ws : List Wr) : LaneRes :=
  let m := trapMask v.env.la
  let all := excAll l
  if all &&& m ≠ 0 then .fault (v.toThreads s (addFpf all)) (fpFault m l image)
  else if all = 0 then .ok s ws
  else .ok s (.thr (addFpf all) :: ws)

end Sys2Proof.Machine
end

