-- ==== Sys2Proof/Machine/Slots.lean ====
section
/-! DEFINITION. The top-down counters of each quadrant (R459). Leaves 0 to 7 are kept; leaf 9 is 32 for every cycle and leaf 8 what
is left (`topLeaf`), so leaf 9 is always the sum of the others. -/

namespace Sys2Proof.Machine

/-- The priority of a sheet's launch. -/
def sheetPrio (s : State) (sh : Sheet) : Nat :=
  (((getPallet s sh.pal).bind fun p => getLaunch s p.launch).map fun la => la.r.prio).getD 0

/-- The better of two sheets: higher priority, then longest since its last issue, then the lower slot (R32, R458). -/
def better (s : State) (a b : Sheet) : Bool :=
  sheetPrio s a > sheetPrio s b ||
  (sheetPrio s a == sheetPrio s b && (a.lastIssue < b.lastIssue || (a.lastIssue == b.lastIssue && a.slot ≤ b.slot)))

def bestOf (s : State) (l : List Sheet) : Option Sheet :=
  l.foldl (fun b a => match b with | none => some a | some b => if better s a b then some a else some b) none

/-- The number of a quadrant among all cores' quadrants. -/
def quadOf (s : State) (sh : Sheet) : Nat := palletCore s sh.pal * 4 + sh.slot / 8

def addLeaf (t : Sparse Nat) (quad leaf n : Nat) : Sparse Nat :=
  if n = 0 then t else sPut t (16 * quad + leaf) ((sGetD t (16 * quad + leaf) 0 + n) % 2 ^ 64)

/-- The leaf of a condition that stalls an instruction: dependency, memory, synchronisation, engine. -/
def whyLeaf : Stall → Nat
  | .board => 3
  | .table => 4
  | .store => 4
  | .remote => 4
  | .future _ => 6
  | .mma => 6
  | _ => 5

/-- The leaf of a sheet that does not issue in a cycle: its reasons in the order of R459. -/
def stallLeaf (sh : Sheet) (cyc : Nat) : Nat :=
  if cyc < sh.notBefore then 3
  else if !sh.sleep.isEmpty then 5
  else if sh.stalled then whyLeaf sh.why
  else 2

/-- A sheet that is resident on its core: its pallet is active and it has not been evicted (R459). -/
def resident (s : State) (sh : Sheet) : Bool := !sh.evicted && s.cs.pallets.any fun p => p.key == sh.pal && p.st == .active

/-- The leaf of a quadrant in a cycle in which it does not issue: spawn formation when every resident sheet waits in the spawn store,
else the reason of the one that R32 would choose first. -/
def quadLeaf (s : State) (shs : List Sheet) (cyc : Nat) : Nat :=
  match bestOf s (shs.filter fun sh => !sleepsOut sh) with
  | none => 7
  | some sh => stallLeaf sh cyc

/-- The resident sheets of a quadrant. -/
def quadSheets (s : State) (quad : Nat) : List Sheet := s.cs.sheets.filter fun x => resident s x && quadOf s x == quad

/-- The quadrants that have a resident sheet. -/
def quadsUsed (s : State) : List Nat := distinctN ((s.cs.sheets.filter (resident s)).map (quadOf s))

/-- Charges n cycles in which they do not issue to the quadrants of a list, each to its reason. -/
def chargeQuads (s : State) (quads : List Nat) (n : Nat) (t : Sparse Nat) : Sparse Nat :=
  quads.foldl (fun t q => addLeaf t q (quadLeaf s (quadSheets s q) s.cs.cyc) (32 * n)) t

/-- Accounts for the cycles from the counter's value to `last`: the issuing sheet's quadrant waits until `cyc`, then issues to
`last` with `useful` active columns over all its cycles; every other quadrant with a resident sheet is charged to its reason. -/
def countSlots (s : State) (sh : Sheet) (cyc last useful : Nat) : Sparse Nat :=
  let q := quadOf s sh
  let busy := last + 1 - cyc
  let t := chargeQuads s [q] (cyc - s.cs.cyc) s.cs.topd
  let t := addLeaf (addLeaf t q 0 useful) q 1 (32 * busy - useful)
  chargeQuads s ((quadsUsed s).filter fun o => o != q) (last + 1 - s.cs.cyc) t

/-- Lets cycles pass in which no sheet issues. -/
def idleCycles (s : State) (n : Nat) : State :=
  { s with cs := { s.cs with topd := chargeQuads s (quadsUsed s) n s.cs.topd, cyc := s.cs.cyc + n } }

/-- A counter as it reads (R459). -/
def topLeaf (s : State) (quad leaf : Nat) : Nat :=
  let kept := sumN ((List.range 8).map fun i => sGetD s.cs.topd (16 * quad + i) 0)
  match leaf with
  | 9 => 32 * s.cs.cyc % 2 ^ 64
  | 8 => (32 * s.cs.cyc + 2 ^ 64 - kept % 2 ^ 64) % 2 ^ 64
  | i => sGetD s.cs.topd (16 * quad + i) 0

end Sys2Proof.Machine
end

