-- ==== Sys2Proof/Machine/Lanes.lean ====
section
/-! DEFINITION. How a vector instruction executes: the decode checks in R69's order, units and passes (R15, R17, R368), guards
(R58), blocking reads of future handles (R273), writing results (R59, R60), and the end of the instruction (R369). `vec` is the
form of every instruction that acts lane by lane; `crs` of those that a pinned course executes under a membership mask (R29). -/

namespace Sys2Proof.Machine

abbrev Out := Host.Outcome State Fault Refusal

/-! ## Decode faults (R65, R69) -/

/-- R62: what each prefix kind may precede. -/
def mayPrecede (kind : Nat) (o : OpForm) : Bool :=
  match kind with
  | 0 => true
  | 1 => (o.maj == 0x20 || o.maj == 0x21 || o.maj == 0x23 || (o.maj == 0x22 && o.xop == 0))
  | 2 => (o.maj == 0x20 || o.maj == 0x21 || o.maj == 0x23 || (o.maj == 0x22 && o.xop == 0))
  | 3 => o.maj == 0x32 && o.xop == 0
  | 4 => (o.maj == 0x24 && (o.xop == 9 || o.xop == 10)) || (o.maj == 0x30 && o.xop == 1)
  | _ => (0x20 ≤ o.maj && o.maj ≤ 0x27) || o.maj == 0x32 || o.maj == 0x33

/-- R63: a run ends in a 32-bit form that each of its prefixes may precede. -/
def runOk (o : OpForm) (f : Fld) (run : List RunPart) : Bool :=
  run.isEmpty || (!f.len.getLsbD 1 && run.all fun p => mayPrecede p.kind.toNat o)

/-- The code-specific bytes of R65; the offending word is the instruction's first word. -/
def decodeFault (code : Nat) (iss : Issue) (ext : Bool) : FaultInfo :=
  faultOf code 0 [(0x28, 4, iss.w0.toNat), (0x2C, 4, (iss.ipc - iss.pc).toNat),
    (0x30, 4, if ext then iss.w1.toNat else 0), (0x34, 4, if ext then iss.w2.toNat else 0)]

/-- R41, R44 on the word as it stands, then on the fields that a run puts in effect. -/
def fieldsOk (o : OpForm) (f g : Fld) (run : List RunPart) : Bool :=
  wfForm o f && o.sel f && wfReservedFields o f &&
  (run.isEmpty || (o.also g && (!runHas run 5 || o.scope.contains g.scope.toNat)))

/-- The fault of the first prefix of a run that holds a reserved value: the offending word is that prefix (R61, R65). -/
def prefixFault (iss : Issue) : Option FaultInfo :=
  (iss.run.zipIdx.filterMap fun p => p.1.bad.map fun w => faultOf 0x02 0 [(0x28, 4, w.toNat), (0x2C, 4, 4 * p.2)]).head?

/-- Faults 0x01 and 0x02, found before any lane is looked at. -/
def decodeCheck (o : OpForm) (f g : Fld) (iss : Issue) : Option FaultInfo :=
  let ext := f.len.getLsbD 1
  if !runOk o f iss.run || !formListed o f then some (decodeFault 0x01 iss ext)
  else match prefixFault iss with
    | some x => some x
    | none => if !fieldsOk o f g iss.run then some (decodeFault 0x02 iss ext) else none

/-- The lane that a fault found in decoding names: the lowest active lane, else the lowest occupied one. -/
def faultLane (sh : Sheet) : Nat :=
  let act := (sh.lanes.map (·.1)).filter fun l => sh.em.getLsbD l
  act.headD ((sh.lanes.map (·.1)).headD 0)

/-- Raises one fault of the whole instruction. -/
def raiseDecode (s : State) (sh : Sheet) (x : FaultInfo) : State := takeFaults s sh.em 0 [(faultLane sh, x)]

/-! ## Checks of a unit (R69 steps 4 to 7) -/

/-- The membership-mask register that a fault names: 0xFF for an instruction without one (R371). -/
def maskReg (o : OpForm) (f : Fld) : Nat :=
  if o.maj == 0x17 && o.xop < 15 then 0xFF
  else ((o.regs f).find? fun r => r.cls == RC.m).elim 0xFF (·.num)

/-- R40: the class check of one register use. Tile registers are checked for pinned courses only. -/
def classBad (e : Env) (r : RegUse) : Bool :=
  let bad := fun (n : Nat) => r.num + r.cnt > n || r.num % max 1 r.al != 0
  match r.cls with
  | .g => bad (min 128 e.la.r.gcnt)
  | .f => bad (min 64 e.la.r.fcnt)
  | .k => bad 64
  | .q => bad 8
  | .m => bad 8
  | .e => bad 16
  | .a =>
    match e.sh.course with
    | some c => r.num ≥ 16 || r.num ≥ ((sGet e.pl.table c).map (·.tiles.length)).getD 0
    | none => false

/-- Register uses in effect: the literal replaces its operand, and a peer register is a source. -/
def usesOf (o : OpForm) (f : Fld) (run : List RunPart) : List RegUse :=
  let us := (o.regs f).filter fun r => !(litIs f r.fld)
  let peer := (o.maj == 0x32) || (o.maj == 0x33 && o.xop == 1) ||
    (o.maj == 0x28 && (f.spc == 4 || copySrc f == 4))
  if peer then us ++ [⟨0, .k, peerK run f, 1, 1, true⟩] else us

def needsPriv (o : OpForm) (f : Fld) : Bool := o.priv || ((o.maj == 0x20 || o.maj == 0x21) && f.spc == 5)

def isPriv (e : Env) : Bool := e.cx.cfl.getLsbD 0

/-- True when some register of a use is read before a fixed-latency result is certain. -/
def earlyUse (sh : Sheet) (cyc lane : Nat) (r : RegUse) : Bool :=
  let cls : Option RegC := match r.cls with | .g => some .g | .f => some .f | .k => some .k | .q => some .q | .e => some .e | _ => none
  match cls with
  | none => false
  | some c => r.src && (List.range r.cnt).any fun i => earlyRead sh cyc c (regLane c lane) (r.num + i)

/-- pget, pret and prelaunch are illegal in a thread that is not a pair thread (R350), tret outside a handler (R124). -/
def notForThread (o : OpForm) (t : Thread) : Bool :=
  (o.maj == 0x30 && o.xop != 2 && t.pair.isNone) || (o.maj == formTret.maj && o.xop == formTret.xop && t.trap.isNone)

/-- A register of the guard or of a use is read before a fixed-latency result is certain (R60, CSB). -/
def LV.earlyFault (v : LV) (o : OpForm) : Option FaultInfo :=
  if !v.env.la.csb then none
  else if v.f.ge && v.lanes.any fun l => earlyRead v.env.sh v.cyc .q l v.f.gq.toNat then
    some (faultOf 0x06 0 [(0x28, 1, (Config.byte v.tick 0x28).toNat), (0x29, 1, v.f.gq.toNat)])
  else ((usesOf o v.f v.iss.run).find? fun r => earlyUse v.env.sh v.cyc v.lane r).map fun r =>
    faultOf 0x06 0 [(0x28, 1, if r.fld = 4 then (Config.byte v.tick 0x28).toNat else r.fld), (0x29, 1, r.num)]

/-- R69 steps 4 to 6: privilege, class but for tiles, membership. They are the same in every lane. -/
def LV.formFault (v : LV) (o : OpForm) : Option FaultInfo :=
  if needsPriv o v.f && !isPriv v.env then some (faultOf 0x04 0 [])
  else
    match (usesOf o v.f v.iss.run).find? fun r => r.cls != RC.a && classBad v.env r with
    | some r => some (faultOf 0x03 0 [(0x28, 1, r.fld), (0x29, 1, r.num)])
    | none =>
      if o.member && v.env.sh.course.isNone then some (faultOf 0x14 0 [(0x28, 1, 1), (0x2C, 1, maskReg o v.f)]) else none

/-- R69 step 7, stall count; then the entry's own illegal forms (R124, R350). -/
def LV.readFault (v : LV) (o : OpForm) : Option FaultInfo :=
  (v.earlyFault o).or (if notForThread o v.t then some (decodeFault 0x01 v.iss (v.f.len.getLsbD 1)) else none)

/-- The first of the faults of R69 steps 4 to 7 that a unit raises, and of its entry's own illegal forms. -/
def LV.operandFault (v : LV) (o : OpForm) : Option FaultInfo :=
  (v.formFault o).or (v.readFault o)

/-- A tile that the course does not hold (R40, R311). -/
def LV.tileFault (v : LV) (o : OpForm) : Option FaultInfo :=
  ((usesOf o v.f v.iss.run).find? fun r => r.cls == RC.a && classBad v.env r).map fun r =>
    faultOf 0x03 0 [(0x28, 1, r.fld), (0x29, 1, r.num)]

/-- A q source that holds 11 (R105). -/
def LV.badQ (v : LV) (o : OpForm) : Option FaultInfo :=
  if (o.regs v.f).any fun r => r.cls == RC.q && r.src && qBad (v.q r.fld r.num) then
    some (decodeFault 0x02 v.iss (v.f.len.getLsbD 1))
  else none

/-! ## Blocking reads of future handles (R273, R274) -/

/-- Operand fields that are read without blocking: mov of 32 bits, the data of a 4-byte st, the handle of the future group. -/
def noBlock (o : OpForm) (f : Fld) (fld : Nat) : Bool :=
  (o.maj == 0x0B && intCnt f == 1) || (o.maj == 0x21 && f.w == 2 && fld == 2) || (o.maj == 0x29 && fld == 1)

/-- The marked g registers that an instruction reads as operands. -/
def LV.marked (v : LV) (o : OpForm) : List Nat :=
  if v.t.gp.isEmpty then []
  else distinctN (((usesOf o v.f v.iss.run).filter fun r => r.cls == RC.g && r.src && !noBlock o v.f r.fld).flatMap fun r =>
    ((List.range r.cnt).map fun i => r.num + i).filter fun n => v.t.gp.contains n)

def futFault (cause : Nat) (h : Word) : FaultInfo := faultOf 0x1C 0 [(0x28, 1, cause), (0x2C, 4, h.toNat)]

/-- Instructions that release, or copy a thread's registers: they come after the results of its earlier remote operations (R59,
R180). -/
def mayRelease (o : OpForm) (f : Fld) : Bool :=
  match o.maj with
  | 0x16 => o.xop == 15
  | 0x1A => o.xop == 2
  | 0x1B => o.xop == 2
  | 0x1D => o.xop != 2
  | 0x21 => f.md.getLsbD 1
  | 0x23 => f.md.getLsbD 1
  | 0x24 => f.md.getLsbD 1
  | 0x25 => f.md.getLsbD 1
  | 0x26 => o.xop == 0 || o.xop == 2
  | 0x27 => o.xop == 0
  | 0x28 => true
  | 0x2A => o.xop == 2
  | 0x2B => o.xop == 1
  | 0x2E => true
  | 0x30 => o.xop == 2 || o.xop == 3
  | 0x32 => o.xop != 0
  | 0x33 => o.xop == 0
  | _ => false

/-- The scope of an instruction's own release, as far as it waits for remote writes (R180 step 3): rflag and rfence do not (R194). -/
def releaseScope (o : OpForm) (f : Fld) : Nat :=
  match o.maj with
  | 0x16 => 0
  | 0x1B => 6
  | 0x28 => 1
  | 0x2E => 1
  | 0x30 => 4
  | 0x32 => if f.md.getLsbD 1 then (if f.scope = 6 then 6 else 5) else 0
  | 0x33 => 0
  | _ => f.scope.toNat

/-- A register awaits a remote result, or a release a remote write that must wait at its destination: the core waits by itself (R59,
R180). -/
def LV.interlock (v : LV) (o : OpForm) (s : State) : Bool :=
  !s.fb.reqs.isEmpty && (
  (mayRelease o v.f && 5 ≤ releaseScope o v.f && remoteStuck s (v.agent s)) ||
  v.lanes.any fun l =>
    match laneThread v.env.sh l with
    | none => false
    | some t =>
      let regs := awaited s t.uid
      awaitsAcquire s t.uid || (mayRelease o v.f && !regs.isEmpty) ||
      (usesOf o v.f v.iss.run).any fun r => r.cls == RC.g && (List.range r.cnt).any fun i => regs.contains (r.num + i))

/-- Applies a change to the thread whose registers a unit reads: its lane, with U the lowest active pass (R17). -/
def LV.toReader (v : LV) (s : State) (h : Thread → Thread) : State := { v with lanes := [v.lane] }.toThreads s h

/-- A blocking read of marked registers: waits, faults, or acquires and clears the marks of the registers that it reads. -/
def LV.block (v : LV) (o : OpForm) (s : State) : LaneRes :=
  if v.interlock o s then .wait s .remote
  else (v.marked o).foldl (fun r n =>
    match r with
    | .ok s ws =>
      let h := nthD v.t.g n 0
      let clear := fun (t : Thread) => { t with gp := t.gp.filter fun i => i != n }
      match getFuture s h with
      | none => .ok (v.toReader s clear) ws
      | some fu =>
        match fu.st with
        | .pending => .wait s (.future h)
        | .cancelledPart => .fault s (futFault 4 h)
        | .error => .fault s (futFault 5 h)
        | _ => .ok (v.toReader (v.acquire s 1 (anyMark fu.stamp)) clear) ws
    | r => r) (.ok s [])

/-! ## Results (R59, R60) -/

/-- Records that a register's old value may still be read until `ready`. Within one instruction the value before it stands. -/
def notePend (sh : Sheet) (ready : Option Nat) (cls : RegC) (lane num : Nat) (old : BitVec 64) (oldT : BitVec 4) : Sheet :=
  let same := fun (p : Pend) => p.cls == cls && p.lane == lane && p.num == num
  match ready with
  | none => { sh with pend := sh.pend.filter fun p => !same p }
  | some r =>
    if cls == .k && sh.pend.any fun p => same p && p.ready == r then sh
    else { sh with pend := ⟨cls, lane, num, old, oldT, r⟩ :: sh.pend }

/-- One result into one lane. -/
def writeLane (sh : Sheet) (ready : Option Nat) (lane : Nat) (w : Wr) : Sheet :=
  match laneThread sh lane with
  | none => sh
  | some t =>
    match w with
    | .g n x =>
      setLane (notePend sh ready .g lane n ((nthD t.g n 0).setWidth 64) 0) lane
        { t with g := t.g.set n x, gp := t.gp.filter fun i => i != n }
    | .f n x tag =>
      setLane (notePend sh ready .f lane n (nthD t.f n 0) (nthD t.ft n 0)) lane
        { t with f := t.f.set n x, ft := t.ft.set n tag }
    | .q n x => setLane (notePend sh ready .q lane n ((nthD t.q n 0).setWidth 64) 0) lane { t with q := t.q.set n x }
    | .e n x => setLane (notePend sh ready .e lane n (nthD t.e n 0) 0) lane { t with e := t.e.set n x }
    | .thr h => setLane sh lane (h t)
    | .k _ _ => sh

/-- One result of a unit: a thread register in every lane of the unit, a k register once (R17). -/
def writeUnit (lanes : List Nat) (ready : Option Nat) (sh : Sheet) (w : Wr) : Sheet :=
  match w with
  | .k n x =>
    let col := lanes.headD 0 % 32
    let img := kImage sh col
    let sh := notePend sh ready .k col n ((nthD img n 0).setWidth 64) 0
    { sh with ks := sPut sh.ks col (img.set n x) }
  | w => lanes.foldl (fun sh l => writeLane sh ready l w) sh

def writeAll (s : State) (key : Nat) (lanes : List Nat) (ready : Option Nat) (ws : List Wr) : State :=
  match getSheet s key with
  | none => s
  | some sh => setSheet s (ws.foldl (writeUnit lanes ready) sh)

/-! ## Units, passes, and the end of the instruction -/

/-- What has happened to the units so far. -/
structure Tally where
  s    : State
  comp : List Nat
  flt  : List (Nat × FaultInfo)
  pass : Nat                -- the lowest faulting pass, once there is a fault
  waits : List (Nat × Stall) -- lanes that wait

/-- Nothing has happened yet. -/
def Tally.start (s : State) : Tally := ⟨s, [], [], 0, []⟩

/-- A unit that comes after a waiting one is held: a lane that waits for the range scoreboard or for store room holds every later lane
(R23, R199, R264), a blocking read holds its strip (R273), and a wait holds every higher pass (R15, R368), but for one for its turn,
which a higher pass may be holding up (R210). -/
def heldBack (w : Nat × Stall) (lead : Nat) : Bool :=
  match w.2 with
  | .board => true
  | .store => true
  | .turn => false
  | .future _ => w.1 % 32 == lead % 32 || w.1 / 32 < lead / 32
  | _ => w.1 / 32 < lead / 32

/-- The units of a set of lanes: the lanes themselves, or with U the strips in the order of their lowest lanes (R17). -/
def unitsOf (u : Bool) (ls : List Nat) : List (List Nat) :=
  if u then (ls.filter fun l => !ls.any fun m => m % 32 == l % 32 && m < l).map fun l => ls.filter fun m => m % 32 == l % 32
  else ls.map fun l => [l]

/-- Under the checking scoreboard the guard's predicate is read before a fixed-latency result is certain: the read gives no value (R60). -/
def LV.guardEarly (v : LV) : Bool := v.env.la.csb && v.f.ge && earlyRead v.env.sh v.cyc .q v.lane v.f.gq.toNat

/-- Lanes whose guard predicate holds 11 (R58). -/
def guardFault (iss : Issue) (f : Fld) (v : LV) : Option FaultInfo :=
  if f.ge && !v.guardEarly && qBad (v.q 7 f.gq.toNat) then some (decodeFault 0x02 iss true) else none

def guardActs (f : Fld) (v : LV) : Bool := !f.ge || senseHolds f.gs.toNat (v.q 7 f.gq.toNat)

def viewOf (s : State) (e : Env) (f : Fld) (cyc : Nat) (lanes : List Nat) : Option LV :=
  (laneThread e.sh (lanes.headD 0)).map fun t => ⟨e, s.iss, f, lanes.headD 0, lanes, t, cyc, s.tick⟩

/-- The guard fault of a unit: with U of any lane of its strip, attributed to the lowest (R17, R58). -/
def LV.unitGuard (v : LV) : Option FaultInfo :=
  if !v.f.ge then none
  else v.lanes.findSome? fun l => (laneThread v.env.sh l).bind fun t => guardFault v.iss v.f { v with lane := l, t := t }

/-- The faults that a unit raises before its body: guard (R58), R69's, the course's tiles, q sources. R69 does not place R58's fault of a
guard that holds 11: the model's choice is first (log 9). -/
def LV.firstFault (v : LV) (o : OpForm) : Option FaultInfo :=
  v.unitGuard.or ((v.operandFault o).or ((v.tileFault o).or (v.badQ o)))

/-- Ends the exemption of a load that a handler resumed: its thread has executed an instruction since (R229). -/
def endSkip (t : Thread) : Thread := { t with skip := false }

/-- A lane that keeps the faults of a pass waiting: they are taken when every other lane of the pass has completed (R368). One that waits
for its turn does not: the faulting lane may be holding it up. -/
def putsOff (pass : Nat) (w : Nat × Stall) : Bool := w.1 / 32 ≤ pass && w.2 != .turn

/-- Runs one unit through its checks and its body. A fault waits for the lanes of its pass that wait; with `skip`, that lane waits too. -/
def runUnit (o : OpForm) (f : Fld) (cyc : Nat) (ready : Option Nat) (key : Nat) (body : LV → State → LaneRes)
    (skip : Option (Nat × Stall)) (r : Tally) (lanes : List Nat) : Tally :=
  let lead := lanes.headD 0
  if (!r.flt.isEmpty && lead / 32 > r.pass) || r.waits.any fun w => heldBack w lead then r
  else if skip.any fun w => w.1 == lead then { r with waits := r.waits ++ skip.toList }
  else
    match (envOf r.s key).bind fun e => viewOf r.s e f cyc lanes with
    | none => r
    | some v =>
      let late := r.waits.find? (putsOff (lead / 32))
      let bad := fun (s : State) (x : FaultInfo) => match late with
        | some w => { r with waits := r.waits ++ [(lead, w.2)] }
        | none => { r with s := s, flt := r.flt ++ [(lead, x)], pass := lead / 32 }
      let wait := fun (s : State) (w : Stall) => { r with s := s, waits := r.waits ++ [(lead, w)] }
      match v.firstFault o with
      | some x => bad r.s x
      | none =>
        match v.block o r.s with
        | .fault s x => bad s x
        | .wait s w => wait s w
        | .ok s _ =>
          match body v s with
          | .fault s x => bad s x
          | .wait s w => wait s w
          | .ok s ws =>
            { r with s := writeAll s key lanes ready (ws ++ [.thr endSkip]), comp := r.comp ++ lanes }

/-- Runs the units in order. When a lane of the faulting pass comes to wait after the fault, the faulting lane waits with it instead. -/
def runUnits (o : OpForm) (f : Fld) (cyc : Nat) (ready : Option Nat) (key : Nat) (body : LV → State → LaneRes) (r : Tally)
    (us : List (List Nat)) : Tally :=
  let t := us.foldl (runUnit o f cyc ready key body none) r
  match t.flt.head?, t.waits.find? (putsOff t.pass) with
  | some x, some w => us.foldl (runUnit o f cyc ready key body (some (x.1, w.2))) r
  | _, _ => t

/-- True when an instruction issues: a lane completes or faults, or none has anything left to do. An attempt that only waits takes no
issue cycle (R216, R459). -/
def Tally.issues (r : Tally) : Bool := !r.comp.isEmpty || !r.flt.isEmpty || r.waits.isEmpty

/-- The cycle at which the sheet's next instruction may issue (R59). -/
def nextIssue (sh : Sheet) (stl last : Nat) : Nat :=
  if stl = 7 then maxN ((last + 1) :: sh.pend.map (·.ready)) else last + max 1 stl

/-- Issue times of an instruction: issue cycle, cycle of its last pass (R15, R17, R59, R134). -/
def issueAt (s : State) (sh : Sheet) : Nat := max s.cs.cyc sh.notBefore
/-- A uniform instruction takes one cycle whatever its occupancy factor (R17 against R59 and R134): DESIGN CHOICE, log 95. -/
def lastPass (o : OpForm) (f : Fld) (la : Launch) (cyc : Nat) : Nat := cyc + (if f.u then 1 else la.r.depth * o.occ f) - 1

/-- Notes the thread that has issued, and its PC, when its sheet's slot is of quadrant 0 (R460): the lowest active lane's. -/
def noteIssue (s : State) (sh : Sheet) : State :=
  match getPallet s sh.pal with
  | none => s
  | some p =>
    if 8 ≤ sh.slot then s
    else
      let l := faultLane sh
      { s with cs := { s.cs with lastQ := sPut s.cs.lastQ p.core (((laneThread sh l).map (·.tid)).getD 0xFFFFFFFF, s.iss.pc.toNat) } }

/-- Sets the times and the issue-slot counters after an instruction has issued; `useful` as `countSlots` says. -/
def afterIssue (s : State) (key cyc last stl useful : Nat) : State :=
  let s := match getSheet s key with
    | some sh => noteIssue { s with cs := { s.cs with topd := countSlots s sh cyc last useful } } sh
    | none => s
  let s := withCyc s (last + 1)
  match getSheet s key with
  | none => s
  | some sh =>
    let sh := { sh with pend := sh.pend.filter fun p => cyc < p.ready }
    setSheet s { sh with lastIssue := cyc, notBefore := nextIssue sh stl last, waitAll := stl == 7 }

/-- The times and the counters after an attempt, which change only when it issues. -/
def timed (r : Tally) (key cyc last stl useful : Nat) : State := if r.issues then afterIssue r.s key cyc last stl useful else r.s

/-- Ends an instruction: faults are taken, or the lanes that completed are noted and the sheet goes on when all have (R369). -/
def finish (s : State) (key pal : Nat) (parts : BitVec 128) (r : Tally) (count : Bool) : State :=
  let comp := maskOf r.comp
  let s := if count then retire s pal r.comp.length else s
  if !r.flt.isEmpty then takeFaults s parts comp r.flt
  else
    match getSheet s key with
    | none => s
    | some sh =>
      let sh := { sh with done := sh.done ||| (comp &&& maskOf (sh.lanes.map (·.1))) }
      if allDone sh parts then putSheet s (advanceTo sh s.iss.next)
      else putSheet s { sh with stalled := true, why := (r.waits.head?.map (·.2)).getD .other, run := [], pc := s.iss.pc }

/-- The lanes in which an instruction may execute: occupied, active in em, awake, not done. -/
def awakeLanes (sh : Sheet) : List Nat :=
  (sh.lanes.map (·.1)).filter fun l => sh.em.getLsbD l && !sh.done.getLsbD l && (sGet sh.sleep l).isNone

/-- The lanes that act: those whose guard matches, and those whose guard faults (R58, R60). -/
def lanesActing (s : State) (e : Env) (f : Fld) (cyc : Nat) (ls : List Nat) : List Nat :=
  if !f.ge then ls
  else ls.filter fun l =>
    match viewOf s e f cyc [l] with
    | some v => v.guardEarly || (guardFault s.iss f v).isSome || guardActs f v
    | none => false

/-- The fields in effect as an operation executes: ldk executes once per strip whether U is 0 or 1 (R202). -/
def execFld (o : OpForm) (f : Fld) (run : List RunPart) : Fld :=
  let g := effFld f run
  if o.maj == 0x22 && o.xop == 1 then { g with u := true } else g

/-- A vector instruction: `body` executes one unit. -/
def vecWith (count : Bool) (o : OpForm) (f : Fld) (s : State) (body : LV → State → LaneRes) : Out :=
  match envOf s s.iss.sheet with
  | none => .next s
  | some e =>
    let g := execFld o f s.iss.run
    match decodeCheck o f (effFld f s.iss.run) s.iss with
    | some x => .next (raiseDecode s e.sh x)
    | none =>
      let cyc := issueAt s e.sh
      let last := lastPass o g e.la cyc
      let ls := lanesActing s e g cyc (awakeLanes e.sh)
      let ready := o.lat.map fun l => last + l
      let us := unitsOf g.u ls
      let r := runUnits o g cyc ready e.sh.key body (Tally.start s) us
      let s := timed r e.sh.key cyc last f.stl.toNat (if g.u then us.length else ls.length * o.occ g)
      .next (finish s e.sh.key e.pl.key (maskOf ls) { r with s := s } count)

def vec := vecWith true

/-- A vector instruction whose result is a function of its operands. -/
def pureOp (o : OpForm) (f : Fld) (s : State) (g : LV → List Wr) : Out := vec o f s fun v s => .ok s (g v)

/-! ## Instructions of a pinned course -/

/-- What a course-wide body answers: results per lane that completed, and the lanes that fault. -/
inductive CrsRes where
  | ok (s : State) (ws : List (Nat × List Wr))
  | fault (s : State) (ws : List (Nat × List Wr)) (flt : List (Nat × FaultInfo))
  | every (s : State) (flt : List (Nat × FaultInfo))   -- faults in every lane that takes part: none completes (R368)
  | wait (s : State) (why : Stall)

/-- Writes the results of lanes. -/
def writeLanes (s : State) (key : Nat) (ready : Option Nat) (ws : List (Nat × List Wr)) : State :=
  ws.foldl (fun s w => writeAll s key [w.1] ready w.2) s

/-- The views of lanes. -/
def viewsOf (s : State) (e : Env) (f : Fld) (cyc : Nat) (ls : List Nat) : List LV :=
  ls.filterMap fun l => viewOf s e f cyc [l]

/-- The faults that lanes raise, each its own. -/
def laneFaults (vs : List LV) (g : LV → Option FaultInfo) : List (Nat × FaultInfo) :=
  vs.filterMap fun v => (g v).map fun x => (v.lane, x)

/-- The first fault of each lane's operand checks. -/
def crsFaults (o : OpForm) (vs : List LV) : List (Nat × FaultInfo) :=
  laneFaults vs fun v => v.unitGuard.or ((v.operandFault o).or (v.badQ o))

/-- What every active lane may raise before its membership is known: its guard, and the checks that are the same in every lane. -/
def crsForm (o : OpForm) (vs : List LV) : List (Nat × FaultInfo) := laneFaults vs fun v => v.unitGuard.or (v.formFault o)

/-- What only lanes that take part raise: they alone read their operands (R29). -/
def crsReads (o : OpForm) (vs : List LV) : List (Nat × FaultInfo) := laneFaults vs fun v => (v.readFault o).or (v.badQ o)

/-- Blocking reads of all lanes: the first that waits or faults decides. -/
def crsBlock (o : OpForm) (vs : List LV) (s : State) : LaneRes × Nat :=
  vs.foldl (fun r v =>
    match r.1 with
    | .ok s _ => (v.block o s, v.lane)
    | _ => r) (.ok s [], 0)

/-- R29: lanes of M that are inactive in em or in the guard. -/
def disagree (m : BitVec 128) (act : List Nat) : Bool := m &&& ~~~(maskOf act) != 0

/-- The faults of the lowest faulting pass. -/
def lowestPass (l : List (Nat × FaultInfo)) : List (Nat × FaultInfo) :=
  let p := (l.map fun x => x.1 / 32).foldl min 3
  l.filter fun x => x.1 / 32 == p

/-- An instruction that a pinned course executes under membership mask M. With `all`, every member lane must be in M and active
(R252). The lanes of the done mask take no part (R369). -/
def crsWith (all : Bool) (o : OpForm) (f : Fld) (s : State) (mask : LV → BitVec 128) (body : List LV → State → CrsRes) : Out :=
  match envOf s s.iss.sheet with
  | none => .next s
  | some e =>
    let g := effFld f s.iss.run
    match decodeCheck o f g s.iss with
    | some x => .next (raiseDecode s e.sh x)
    | none =>
      let cyc := issueAt s e.sh
      let last := lastPass o g e.la cyc
      let base := (e.sh.lanes.map (·.1)).filter fun l => e.sh.em.getLsbD l
      let act := lanesActing s e g cyc base
      let vs := viewsOf s e g cyc act
      let fin := fun (s : State) (r : Tally) =>
        let s := timed { r with s := s } e.sh.key cyc last f.stl.toNat (act.length * o.occ g)
        Host.Outcome.next (finish s e.sh.key e.pl.key (maskOf act) { r with s := s } true)
      match crsForm o vs, vs with
      | x :: r, _ => fin s ⟨s, [], lowestPass (x :: r), 0, []⟩
      | [], [] => fin s (Tally.start s)
      | [], v :: _ =>
        let m := mask v
        let ins := vs.filter fun v => m.getLsbD v.lane
        let left := act.filter fun l => !e.sh.done.getLsbD l
        match crsReads o ins with
        | x :: r => fin s ⟨s, [], lowestPass (x :: r), 0, []⟩
        | [] =>
        if disagree m act || (all && maskOf (e.sh.lanes.map (·.1)) &&& ~~~(m &&& maskOf act) != 0) then
          let flt := ins.map fun v => (v.lane, faultOf 0x14 0 [(0x28, 1, 3), (0x2C, 1, maskReg o f)])
          fin s ⟨s, if flt.isEmpty then left else [], flt, 0, []⟩
        else
          let part := ins.filter fun v => !e.sh.done.getLsbD v.lane
          match laneFaults part (·.tileFault o) with
          | x :: r => fin s ⟨s, [], lowestPass (x :: r), 0, []⟩
          | [] =>
            match crsBlock o part s with
            | (.wait s w, l) => fin s ⟨s, [], [], 0, [(l, w)]⟩
            | (.fault s x, l) => fin s ⟨s, [], [(l, x)], 0, []⟩
            | (.ok s _, _) =>
              let ready := o.lat.map fun l => last + l
              let comp := fun (ws : List (Nat × List Wr)) => left.filter fun l => ws.any (fun w => w.1 == l) || !(m.getLsbD l)
              match body part s with
              | .wait s w => fin s ⟨s, [], [], 0, [(v.lane, w)]⟩
              | .every s flt => fin s ⟨s, [], flt, 0, []⟩
              | .fault s ws flt => let s := writeLanes s e.sh.key ready ws; fin s ⟨s, comp ws, lowestPass flt, 0, []⟩
              | .ok s ws =>
                let s := writeLanes s e.sh.key ready (ws.map fun w => (w.1, w.2 ++ [.thr endSkip]))
                fin s ⟨s, comp ws, [], 0, []⟩

def crs := crsWith false

/-! ## Mask instructions: once for the course, not gated by em (R108) -/

/-- The checks of a mask instruction, which is not gated by em; with no active lane (`empty`) no predicate is read, but its number is
checked (R27, R40). -/
def maskFaults (o : OpForm) (empty : Bool) (vs : List LV) : List (Nat × FaultInfo) := if empty then crsForm o vs else crsFaults o vs

/-- A mask instruction. `body` changes the sheet. -/
def maskOp (o : OpForm) (f : Fld) (s : State) (body : LV → Sheet → Sheet) : Out :=
  match envOf s s.iss.sheet with
  | none => .next s
  | some e =>
    match decodeCheck o f f s.iss with
    | some x => .next (raiseDecode s e.sh x)
    | none =>
      let cyc := issueAt s e.sh
      let last := cyc
      let act := awakeLanes e.sh
      let stop := fun (l : List (Nat × FaultInfo)) => Host.Outcome.next (takeFaults s (maskOf act) 0 (lowestPass l))
      let all := e.sh.lanes.map (·.1)
      match viewsOf s e f cyc (if act.isEmpty then all.take 1 else act) with
      | [] => .next s
      | v :: r =>
        match maskFaults o act.isEmpty (v :: r) with
        | x :: l => stop (x :: l)
        | [] =>
          let ended := fun (s : State) (comp : List Nat) (waits : List (Nat × Stall)) =>
            let s := timed ⟨s, comp, [], 0, waits⟩ e.sh.key cyc last f.stl.toNat (min 32 act.length)
            Host.Outcome.next (finish s e.sh.key e.pl.key (maskOf act) ⟨s, comp, [], 0, waits⟩ true)
          if (v :: r).any fun v => v.interlock o s then ended s [] [(v.lane, .remote)]
          else ended (setSheet s (body v e.sh)) act []

end Sys2Proof.Machine
end

