-- ==== Sys2Proof/Machine/Special.lean ====
section
/-! DEFINITION. Special registers (R102 to R104) and course handles (R244). -/

namespace Sys2Proof.Machine

/-- The handle of a slot of a pallet's course table (R244). -/
def courseHandle (p : Pallet) (slot : Nat) : Word :=
  let cl := ((sGet p.table slot).map (·.clus)).getD false
  BitVec.ofNat 32 (boolN cl * 2 ^ 31 + p.core % 256 * 2 ^ 22 + sGetD p.ser slot 0 % 2 ^ 16 * 2 ^ 6 + slot % 64)

/-- 32-bit word n of the current trap record; zero outside a handler (R103). -/
def trecWord (t : Thread) (n : Nat) : Nat := match t.trap with | some c => fieldB c.info (4 * n) 4 | none => 0

/-- The value of a special register for the executing thread (R103). -/
def srValue (v : LV) (s : State) (n : Nat) : Nat :=
  let e := v.env
  match n with
  | 0x00 => v.t.tid.toNat
  | 0x01 => v.lane
  | 0x02 => v.lane % 32
  | 0x03 => v.lane / 32
  | 0x04 => e.sh.slot
  | 0x05 => match e.sh.course with | some c => (courseHandle e.pl c).toNat | none => 0xFFFFFFFF
  | 0x06 => e.pl.core
  | 0x07 => e.pl.core / 8
  | 0x08 => e.pl.core / 64
  | 0x09 => s.fb.node
  | 0x0A => e.cx.cid.toNat
  | 0x0B => e.la.ident.toNat
  | 0x0C => e.pl.num
  | 0x0D => e.la.r.thr
  | 0x0E => v.cyc % 2 ^ 64
  | 0x0F => v.t.ret.toNat
  | 0x10 => e.pl.expo.toNat + 2 ^ 32 * e.pl.rwc.toNat
  | 0x11 => (getAgent s (v.agent s)).c % 2 ^ 48
  | 0x12 => (getAgent s (v.agent s)).f % 2 ^ 48
  | 0x13 => v.t.fpf.toNat
  | 0x14 => e.la.r.seed.toNat
  | n => trecWord v.t (n - 0x40)

/-- srd: bits [31:0], or all 64 into a pair with W b64. -/
def execSrd (f : Fld) (s : State) : Out :=
  vec formSrd f s fun v s => .ok s (wrG f.d.toNat (if f.w = 3 then 2 else 1) (srValue v s f.a.toNat))

/-- A write of a special register: ret or fpf (R103). A 32-bit write of ret is zero-extended (log 24). -/
def srWrite (n x : Nat) (t : Thread) : Thread :=
  if n = 0x0F then { t with ret := BitVec.ofNat 64 x } else { t with fpf := BitVec.ofNat 5 x }

def execSwr (f : Fld) (s : State) : Out :=
  vec formSwr f s fun v s =>
    .ok s [.thr (srWrite f.d.toNat (v.gs 1 f.a.toNat (if f.w = 3 then 2 else 1)))]

end Sys2Proof.Machine
end

