-- ==== Sys2Proof/Machine/Window.lean ====
section
/-! DEFINITION. The debug window (R450 to R454), halting and resuming (R454, R455), exposures, the page copies and rollback (R456 to
R458), and trace records (R460). -/

namespace Sys2Proof.Machine

/-! ## Samples (R460) -/

/-- The thread that last issued on quadrant 0 of a core, and its PC: the lowest active lane of the sheet. -/
def lastOnQuadrant (s : State) (core : Nat) : Word × Nat := sGetD s.cs.lastQ core (0xFFFFFFFF, 0)

/-- Writes a sample record. -/
def traceSample (s : State) (p : Pallet) : State :=
  let x := lastOnQuadrant s p.core
  traceRecord s p.key 1 x.1 x.2

/-! ## Exposures (R456, R458) -/

/-- The state of a pallet at the start of an exposure. -/
def snapOf (s : State) (p : Pallet) : Snap where
  pal := p
  sheets := s.cs.sheets.filter fun sh => sh.pal == p.key
  entries := s.cs.store.filter fun e => e.pal == p.key
  tiles := s.cs.tiles.filter fun t => t.core == p.core && p.table.any fun c => c.2.tiles.contains t.num
  agents := s.cs.agents.filter fun a => isPalletAgent s p a.key
  l1 := s.ms.l1.filter fun b => dirtyBy b (palletAgent s p) != 0
  posted := s.ms.posted.filter fun w => w.agent == palletAgent s p
  negSeq := ((getLaunch s p.launch).map (·.negSeq)).getD []
  copies := s.en.copies.filter fun c => c.pal == p.key
  board := s.en.board.filter fun b => b.pal == p.key
  futs := s.en.futs.filter fun f => f.pal == p.key
  mmas := s.en.mmas.filter fun m => m.pal == p.key
  batches := s.en.batches.filter fun b => b.pal == p.key
  seqs := s.cs.seqs.filter fun x => x.1 / 8 == p.core

/-- Keeps the state that a rollback of the exposure now beginning returns to. -/
def takeSnap (s : State) (pal : Nat) : State :=
  match getPallet s pal with
  | none => s
  | some p => { s with cs := { s.cs with snaps := sPut s.cs.snaps pal (snapOf s p) } }

/-- Ends the pallet's exposure and begins the next (R456): PEXP + 1, PRWC 0, no page copied. -/
def endExposure (s : State) (pal : Nat) : State :=
  let s := traceRecord s pal 2 0xFFFFFFFF 0
  match getPallet s pal with
  | none => s
  | some p => takeSnap (setPallet s { p with expo := p.expo + 1, rwc := 0, rpl := [], rbok := true, redone := none }) pal

/-- True when the retired-work count has reached 2^EXPX. -/
def exposureDue (p : Pallet) : Bool := 2 ^ p.dbg.expx ≤ p.rwc.toNat

/-! ## Halting, resuming, rolling back -/

def withDbg (s : State) (pal : Nat) (h : DbgWords → DbgWords) : State :=
  match getPallet s pal with
  | some p => setPallet s { p with dbg := h p.dbg }
  | none => s

/-- HALT cleared: the pallet goes on, and halted breakpoints resume after their brk (R454, R455). -/
def resumePallet (s : State) (pal : Nat) : State :=
  let s := withDbg s pal fun d => { d with halt := false }
  let s := mapSheets s fun sh => if sh.pal == pal then { sh with halted := false } else sh
  mapStore s fun e => if e.pal == pal && e.sleep == .brk then { e with sleep := .ready } else e

/-- Drops the clean bytes of the L1 sectors that a test picks: what is loaded again comes from memory as it then stands (R458). -/
def forgetClean (s : State) (q : L1Sector → Bool) : State :=
  withL1 s ((s.ms.l1.map fun b => if q b then { b with valid := dirtyMask b } else b).filter fun b => b.valid != 0)

/-- Puts the copied pages of an exposure back; the clean copies that caches hold of them are gone. -/
def restorePages (s : State) (rpl : List PageCopy) : State :=
  rpl.foldl (fun s r =>
    let m := s.ms.mem.filter fun b => b.1 / 65536 != r.page
    let m := r.mem.foldl (fun m b => memPut m b.1 b.2) m
    let t := s.ms.race.filter fun x => x.1 / 512 != r.page
    let t := r.race.foldl (fun t x => sPut t x.1 x.2) t
    let k := s.ms.keys.filter fun x => x.1 / 4096 != r.page
    let k := r.keys.foldl (fun k x => sPut k x.1 x.2) k
    forgetClean (withKeys (withRace (withMem s m) t) k) fun b => b.sec / 4096 == r.page) s

/-- Drops a pallet's own unwritten bytes from a sector and puts back those of the snapshot. -/
def forgetDirty (k : AgentKey) (b : L1Sector) : L1Sector :=
  { b with valid := b.valid &&& ~~~(dirtyBy b k), dirty := b.dirty.filter fun d => d.1 != k }

def restoreDirty (s : State) (k : AgentKey) (snap : L1Sector) : State :=
  let m := dirtyBy snap k
  match l1Find s snap.core snap.cid snap.sec with
  | none => l1Put s { snap with valid := m, dirty := [(k, m)] }
  | some b => l1Put s { addDirty b k m with valid := b.valid ||| m, data := imageMix m snap.data b.data, scope := snap.scope }

/-- Step 2 of a rollback: the pallet as it was at the exposure's start, with the operations that it then had in flight; its control
words and page copies stay, and what it recorded in the negative is replayed (R458). Its core's handles are numbered as then when no
other pallet shares them. -/
def restoreSnap (s : State) (p : Pallet) (n : Snap) : State :=
  let k := palletAgent s p
  let cid := ((getLaunch s p.launch).map (·.cid)).getD 0
  let alone := !(s.cs.pallets.any fun q => q.core == p.core && q.key != p.key && q.st != .ended)
  let mine := fun (t : Tile) => t.core == p.core && ((n.pal.table ++ p.table).any fun c => c.2.tiles.contains t.num)
  let s := setPallet s { n.pal with redone := some [], dbg := p.dbg, rbok := p.rbok, rpl := p.rpl, trn := p.trn, st := p.st, cslot := p.cslot }
  let s := withSheets s ((s.cs.sheets.filter fun sh => sh.pal != p.key) ++ n.sheets)
  let s := withStore s ((s.cs.store.filter fun e => e.pal != p.key) ++ n.entries)
  let s := withTiles s ((s.cs.tiles.filter fun t => !mine t) ++ n.tiles)
  let s := withAgents s ((s.cs.agents.filter fun a => !isPalletAgent s p a.key) ++ n.agents)
  let s := { s with en := { s.en with
    copies := (s.en.copies.filter fun (c : Copy) => c.pal != p.key) ++ n.copies
    board := (s.en.board.filter fun (b : Score) => b.pal != p.key) ++ n.board
    futs := (s.en.futs.filter fun (f : Future) => f.pal != p.key) ++ n.futs
    mmas := (s.en.mmas.filter fun (m : Mma) => m.pal != p.key) ++ n.mmas
    batches := (s.en.batches.filter fun (b : Batch) => b.pal != p.key) ++ n.batches } }
  let s := if !alone then s
    else { s with cs := { s.cs with seqs := n.seqs.foldl (fun t x => sPut t x.1 x.2) (s.cs.seqs.filter fun x => x.1 / 8 != p.core) } }
  let uids := (s.cs.sheets.filter fun sh => sh.pal == p.key).flatMap fun sh => sh.lanes.map fun l => l.2.uid
  let s := { s with cs := { s.cs with boxWait := s.cs.boxWait.map fun w => (w.1, w.2.filter fun u => !uids.contains u) } }
  let s := withL1 s ((s.ms.l1.map (forgetDirty k)).filter fun b => b.valid != 0)
  let s := forgetClean s fun b => b.cid == cid && servedBy s p.core b.core
  let s := n.l1.foldl (fun s b => restoreDirty s k b) s
  withPosted s ((s.ms.posted.filter fun w => w.agent != k) ++ n.posted)

/-- Starts a rollback: pages and state restored, and the pallet re-executes (R458 steps 1 to 3). -/
def startRollback (s : State) (pal : Nat) : State :=
  match getPallet s pal, sGet s.cs.snaps pal with
  | some p, some n =>
    let s := restoreSnap (restorePages s p.rpl) p n
    let s := mapSheets s fun sh => if sh.pal == pal then { sh with lastIssue := 0 } else sh
    withDbg s pal fun d => { d with roll := true, halt := false }
  | _, _ => s

/-- A rollback's target is reached (R458 steps 4 and 5): the pallet is halted and ROLL reads 0. -/
def endRollback (s : State) (pal : Nat) : State :=
  let s := withDbg s pal fun d => { d with roll := false, halt := true }
  traceRecord s pal 4 0xFFFFFFFF 0

/-- The conditions of a ROLL write. -/
def mayRoll (p : Pallet) : Bool := p.dbg.halt && p.rbok && p.dbg.texp == p.expo

/-! ## Control words (R454) -/

def pctl (p : Pallet) : Nat :=
  boolN p.dbg.halt + boolN p.dbg.allstop * 2 + boolN p.dbg.roll * 4 + boolN p.rbok * 8 + boolN p.dbg.att * 16

def ctlRead (s : State) (p : Pallet) (n : Nat) : Nat :=
  match n with
  | 0 => pctl p
  | 1 => p.expo.toNat
  | 2 => p.rwc.toNat
  | 3 => p.dbg.texp.toNat
  | 4 => p.dbg.trwc.toNat
  | 5 => p.dbg.expx
  | 6 => p.dbg.trb.toNat
  | 7 => p.dbg.trc.toNat
  | 8 => p.dbg.trbh.toNat
  | 9 => ((getLaunch s p.launch).map (·.ident.toNat)).getD 0
  | _ => p.num

/-- A write of PCTL attaches the debugger: ATT is set, for as long as the context of its first write lasts (R454). -/
def DbgWords.attached (d : DbgWords) (who : Option Word) : DbgWords := if d.att then d else { d with att := true, debugger := who }

/-- A write of PCTL: ATT is set, then HALT, ALLSTOP and ROLL act (R454, R458). -/
def pctlWrite (s : State) (p : Pallet) (who : Option Word) (x : Nat) : State :=
  let s := withDbg s p.key fun d => { d.attached who with allstop := bitN x 1 }
  if bitN x 0 then
    let s := haltPallet s p.key
    if bitN x 2 && mayRoll { p with dbg := { p.dbg with halt := true } } then startRollback s p.key else s
  else resumePallet s p.key

/-- A write of a control word by a context; `who` is none where an event names no context. -/
def ctlWrite (s : State) (p : Pallet) (who : Option Word) (n x : Nat) : State :=
  let w : Word := BitVec.ofNat 32 x
  match n with
  | 0 => pctlWrite s p who x
  | 1 => setPallet s { p with expo := w }
  | 2 => setPallet s { p with rwc := w }
  | 3 => withDbg s p.key fun d => { d with texp := w }
  | 4 => withDbg s p.key fun d => { d with trwc := w }
  | 5 => if 16 ≤ x ∧ x ≤ 30 then withDbg s p.key fun d => { d with expx := x } else s
  | 6 => withDbg s p.key fun d => { d with trb := w }
  | 7 => withDbg s p.key fun d => { d with trc := w &&& 0xFFFFFF1F }
  | 8 => withDbg s p.key fun d => { d with trbh := w &&& 0x01FFFFFF }
  | _ => s

/-! ## Addresses (R450) -/

structure WinAddr where
  kind : Nat
  core : Nat
  ctx  : Nat
  psl  : Nat
  sel  : Nat
  low  : Nat
  deriving DecidableEq, Repr

def winAddr (a : Nat) : WinAddr :=
  ⟨bitsN a 60 4, bitsN a 52 8, bitsN a 50 2, bitsN a 47 3, bitsN a 36 11, bitsN a 0 36⟩

/-- A reserved kind, or a nonzero bit that the kind does not use. -/
def winReserved (w : WinAddr) : Bool :=
  match w.kind with
  | 0 => 2 ^ 32 ≤ w.low
  | 1 => w.sel != 0 || 2 ^ 19 ≤ w.low
  | 2 => w.ctx != 0 || w.psl != 0 || w.sel % 16 != 0 || 2 ^ 15 ≤ w.low
  | 3 => w.sel != 0 || 256 ≤ w.low
  | 4 => w.ctx != 0 || w.psl != 0 || w.sel != 0 || 4096 ≤ w.low || bitsN w.low 7 3 != 0 || w.low % 8 != 0
  | _ => true

/-- The pallet of an admission slot: of the context that is now in the context slot, not of one that is switched out (R380). -/
def winPallet (s : State) (w : WinAddr) : Option Pallet :=
  s.cs.pallets.find? fun p => p.core == w.core && p.cslot == w.ctx && p.psl == w.psl && p.st != PalSt.ended &&
    !(((getLaunch s p.launch).bind fun la => getCtx s la.cid).any fun c => outOf c w.core)

/-- The core, and for kinds 0, 1 and 3 the context of the slot, belong to the accessor's partition. -/
def winInPart (s : State) (cx : Ctx) (w : WinAddr) : Bool :=
  (((getPart s cx.part).map fun p => (partCores p).contains w.core).getD false) &&
  (w.kind == 2 || w.kind == 4 ||
    !(s.mg.ctxs.any fun c => c.slots.contains (w.core, w.ctx) && c.part != cx.part))

/-- The pallet that must be halted for kind 2: the one whose course holds the tile. -/
def tileOwner (s : State) (core tile : Nat) : Option Pallet :=
  s.cs.pallets.find? fun p => p.core == core && p.table.any fun c => c.2.tiles.contains tile

def winHalted (s : State) (w : WinAddr) : Bool :=
  match w.kind with
  | 2 => ((tileOwner s w.core (w.sel / 16)).map (·.dbg.halt)).getD false
  | k => k == 3 || k == 4 || (((winPallet s w).map (·.dbg.halt)).getD false)

def winProt (addr reason : Nat) : FaultInfo := walkFault 0x0A addr 3 0xFF reason []

/-- A data access of n bytes has a listed width, an existing target and the alignment of its kind (R452, R454, R459). -/
def winWidthOk (w : WinAddr) (n : Nat) : Bool :=
  (n == 4 || n == 8) &&
  match w.kind with
  | 3 => w.low + n / 4 ≤ 11 && (n == 4 || w.low % 2 == 0)
  | 4 => n == 8 && bitsN w.low 3 4 < 10
  | _ => true

/-- What an access answers. -/
inductive WinRes where
  | value (x : Nat)
  | moved (s : State)
  | fault (x : FaultInfo)
  | rsv                      -- the reserved-field fault

/-- The checks that ld and st make, in the order reserved bits, pairing and width, alignment, partition, halted (R203). -/
def winCheck (s : State) (cx : Ctx) (a n : Nat) : Option WinRes :=
  let w := winAddr a
  if winReserved w || w.kind == 0 || !winWidthOk w n then some .rsv
  else if w.kind != 3 && w.low % n != 0 then some (.fault (faultOf 0x08 a []))
  else if !winInPart s cx w then some (.fault (winProt a 4))
  else if !winHalted s w then some (.fault (winProt a 15))
  else none

/-! ## Kinds 1 to 4 -/

def getTile (s : State) (core num : Nat) : Tile :=
  (s.cs.tiles.find? fun t => t.core == core && t.num == num).getD ⟨core, num, 0, [], [], false, 0⟩

def setTile (s : State) (t : Tile) : State :=
  withTiles s (putBy (fun u => u.core == t.core && u.num == t.num) t s.cs.tiles)

/-- Bytes of a residue tile: position p in bytes 4p to 4p + 3. -/
def residBytes (t : Tile) (off n : Nat) : List Byte :=
  (List.range n).map fun i => ((sGetD t.resid ((off + i) / 4) 0) >>> (8 * ((off + i) % 4))).setWidth 8

def residPut (t : Tile) (pos : Nat) (x : Word) : Tile := { t with resid := if x = 0 then sDel t.resid pos else sPut t.resid pos x }

/-- The row-progress register (R315). -/
def progWord (t : Tile) : Nat := boolN t.act * 2 ^ 31 + t.steps

def winTileRead (t : Tile) (low n : Nat) : Nat :=
  let off := low % 8192
  match bitsN low 13 2 with
  | 0 => ofLe (memRead t.bytes off n)
  | 1 => ofLe (residBytes t off n)
  | 2 => if off = 0 then progWord t else 0
  | _ => if off = 0 then t.tag.toNat else 0

/-- A write of a tile's bytes, residues or tag; the progress register is read-only. A tag of 15 is reserved (R451). -/
def winTileWrite (s : State) (t : Tile) (low n x : Nat) : WinRes :=
  let off := low % 8192
  match bitsN low 13 2 with
  | 0 => .moved (setTile s { t with bytes := memWrite t.bytes off (leBytes n x) })
  | 1 =>
    let t := residPut t (off / 4) (BitVec.ofNat 32 x)
    .moved (setTile s (if n = 8 then residPut t (off / 4 + 1) (BitVec.ofNat 32 (x / 2 ^ 32)) else t))
  | 2 => .moved s
  | _ =>
    if off ≠ 0 then .moved s
    else if 15 ≤ x % 2 ^ 32 then .rsv
    else .moved (setTile s { t with tag := BitVec.ofNat 4 x })

def trayFault (p : Option Pallet) (s : State) (a low n : Nat) : Option FaultInfo :=
  let size := ((p.bind fun p => getLaunch s p.launch).map (·.r.tray)).getD 0
  if size < low + n then some (faultOf 0x0C a []) else none

/-- A load of n bytes through the window. -/
def winLoad (s : State) (cx : Ctx) (a n : Nat) : WinRes :=
  match winCheck s cx a n with
  | some r => r
  | none =>
    let w := winAddr a
    let p := winPallet s w
    match w.kind with
    | 1 =>
      match trayFault p s a w.low n, p with
      | some x, _ => .fault x
      | none, some p => .value (ofLe (trayRead p w.low n))
      | none, none => .value 0
    | 2 => .value (winTileRead (getTile s w.core (w.sel / 16)) w.low n)
    | 3 =>
      match p with
      | none => .value 0
      | some p => .value (ctlRead s p w.low + (if n = 8 then 2 ^ 32 * ctlRead s p (w.low + 1) else 0))
    | _ => .value (topLeaf s (w.core * 4 + bitsN w.low 10 2) (bitsN w.low 3 4))

/-- A store of n bytes through the window. Tray writes change no stamp of a barrier object (R452); they are no agent's of the pallet, so
every watch on the line sees them (R36). -/
def winStore (s : State) (cx : Ctx) (a n x : Nat) : WinRes :=
  match winCheck s cx a n with
  | some r => r
  | none =>
    let w := winAddr a
    let p := winPallet s w
    match w.kind with
    | 1 =>
      match trayFault p s a w.low n, p with
      | some x, _ => .fault x
      | none, some p => .moved (trayWrite s (hubAgent s) p.key w.low (leBytes n x) .keep)
      | none, none => .moved s
    | 2 => winTileWrite s (getTile s w.core (w.sel / 16)) w.low n x
    | 3 =>
      match p with
      | none => .moved s
      | some p =>
        let s := ctlWrite s p (some cx.cid) w.low (x % 2 ^ 32)
        if n = 4 then .moved s
        else match getPallet s p.key with
          | some p => .moved (ctlWrite s p (some cx.cid) (w.low + 1) (x / 2 ^ 32))
          | none => .moved s
    | _ => .moved s

/-! ## Kind 0: registers of a thread (R451) -/

/-- Where a thread is: a lane of a sheet or the spawn store. -/
inductive Held where
  | lane (sheet lane : Nat)
  | stored (uid : Nat)
  deriving DecidableEq, Repr

/-- The thread of a pallet with an identity. One that a handler runs for is in the spawn store, not in its pinned lane (R376). -/
def findThread (s : State) (pal : Nat) (tid : Word) : Option (Held × Thread) :=
  match (s.cs.sheets.filter fun sh => sh.pal == pal).findSome? fun sh =>
      (sh.lanes.find? fun l => l.2.tid == tid && sGet sh.sleep l.1 != some .handled).map fun l => (Held.lane sh.key l.1, l.2) with
  | some r => some r
  | none => (s.cs.store.find? fun e => e.pal == pal && e.thr.tid == tid).map fun e => (Held.stored e.thr.uid, e.thr)

/-- Replaces a thread; what an earlier instruction still has on its way to it is settled. -/
def putThread (s : State) (pal : Nat) (h : Held) (t : Thread) : State :=
  match h with
  | .lane key lane =>
    match getSheet s key with
    | some sh => setSheet s (setLane { sh with pend := sh.pend.filter fun p => p.cls == RegC.k || p.lane != lane } lane t)
    | none => s
  | .stored uid => mapStore s fun e => if e.pal == pal && e.thr.uid == uid then { e with thr := t } else e

/-- The k registers of a thread's strip. -/
def heldK (s : State) (pal : Nat) (h : Held) : List Word :=
  match h with
  | .lane key lane => ((getSheet s key).map fun sh => kImage sh (lane % 32)).getD zeroK
  | .stored uid => ((s.cs.store.find? fun e => e.pal == pal && e.thr.uid == uid).map (·.k)).getD zeroK

def putHeldK (s : State) (pal : Nat) (h : Held) (n : Nat) (x : Word) : State :=
  match h with
  | .lane key lane =>
    match getSheet s key with
    | some sh => setSheet s { sh with
        ks := sPut sh.ks (lane % 32) ((kImage sh (lane % 32)).set n x)
        pend := sh.pend.filter fun p => !(p.cls == RegC.k && p.lane == lane % 32 && p.num == n) }
    | none => s
  | .stored uid => mapStore s fun e => if e.pal == pal && e.thr.uid == uid then { e with k := e.k.set n x } else e

/-- The sheet of a thread in a pinned course. -/
def heldPinned (s : State) (h : Held) : Option Sheet :=
  match h with
  | .lane key _ => (getSheet s key).bind fun sh => if sh.course.isSome then some sh else none
  | .stored _ => none

/-- Bits that a special register holds; none for a number that R103 does not list. -/
def srWidth (n : Nat) : Option Nat :=
  if n = 0x0E ∨ n = 0x0F ∨ n = 0x10 ∨ n = 0x11 ∨ n = 0x12 ∨ n = 0x14 then some 64
  else if n ≤ 0x13 ∨ (0x40 ≤ n ∧ n < 0x50) then some 32
  else none

/-- A class, number and width that R451 lists. -/
def regListed (la : Launch) (pinned : Bool) (cls num n : Nat) : Bool :=
  match cls with
  | 0 => num < la.r.gcnt && n == 4
  | 1 => num < la.r.fcnt
  | 2 => num < la.r.fcnt && n == 4
  | 3 => num < 8 && n == 4
  | 4 => num < 16 && n == 8
  | 5 => num < 64 && n == 4
  | 6 => (srWidth num).any fun w => w == 8 * n
  | 7 => pinned && num < 32 && n == 4
  | 8 => pinned && num < 4 && n == 4
  | _ => false

/-- The view that a special register of a halted thread is read through. -/
def heldView (s : State) (pal : Nat) (h : Held) (t : Thread) : Option LV :=
  let sh : Option (Sheet × Nat) := match h with
    | .lane key lane => (getSheet s key).map fun sh => (sh, lane)
    | .stored _ => none
  match getPallet s pal with
  | none => none
  | some p => match getLaunch s p.launch with
    | none => none
    | some la => match getCtx s la.cid with
      | none => none
      | some cx =>
        let off : Sheet := ⟨0, pal, 0, 0, [], [], 0, List.replicate 8 0, none, 0, [], 0, [], 0, 0, false, false, .none, [], [], false, none, false⟩
        let x := sh.getD (off, 0)
        let f : Fld := ⟨0, 0, 0, 0, 0, 0, 0, 0, 1, false, false, 0, 0, 0, 0, 2, 0, 0, 0, 0, false, false, 0, 0⟩
        some ⟨⟨x.1, p, la, cx⟩, s.iss, f, x.2, [x.2], t, s.cs.cyc, s.tick⟩

/-- The image of a register of a halted thread. -/
def regImage (s : State) (pal : Nat) (h : Held) (t : Thread) (cls num : Nat) : Nat :=
  match cls with
  | 0 => (nthD t.g num 0).toNat
  | 1 => (nthD t.f num 0).toNat
  | 2 => (nthD t.ft num 0).toNat
  | 3 => (nthD t.q num 0).toNat
  | 4 => (nthD t.e num 0).toNat
  | 5 => (nthD (heldK s pal h) num 0).toNat
  | 6 => ((heldView s pal h t).map fun v => srValue v s num).getD 0
  | 7 => ((heldPinned s h).map fun sh => bitsN (nthD sh.m (num / 4) 0).toNat (32 * (num % 4)) 32).getD 0
  | _ => ((heldPinned s h).map fun sh => bitsN sh.em.toNat (32 * num) 32).getD 0

/-- Replaces 32-bit word i of a 128-bit mask. -/
def putWord (m : BitVec 128) (i : Nat) (x : Word) : BitVec 128 :=
  (m &&& ~~~(0xFFFFFFFF#128 <<< (32 * i))) ||| ((x.setWidth 128) <<< (32 * i))

/-- Writes a register of a halted thread; none is the reserved-field fault. -/
def regWrite (s : State) (pal : Nat) (h : Held) (t : Thread) (cls num n x : Nat) : Option State :=
  let w : Word := BitVec.ofNat 32 x
  match cls with
  | 0 => some (putThread s pal h { t with g := t.g.set num w, gp := t.gp.filter fun i => i != num })
  | 1 =>
    let old := nthD t.f num 0
    some (putThread s pal h { t with f := t.f.set num (if n = 8 then BitVec.ofNat 64 x else old.extractLsb' 32 32 ++ w) })
  | 2 => if 15 ≤ x then none else some (putThread s pal h { t with ft := t.ft.set num (BitVec.ofNat 4 x) })
  | 3 => if 3 ≤ x then none else some (putThread s pal h { t with q := t.q.set num (BitVec.ofNat 2 x) })
  | 4 => some (putThread s pal h { t with e := t.e.set num (BitVec.ofNat 64 x) })
  | 5 => some (putHeldK s pal h num w)
  | 6 => if num = 0x0F ∨ num = 0x13 then some (putThread s pal h (srWrite num x t)) else none
  | 7 => (heldPinned s h).map fun sh => setSheet s { sh with m := sh.m.set (num / 4) (putWord (nthD sh.m (num / 4) 0) (num % 4) w) }
  | _ => (heldPinned s h).map fun sh => setSheet s { sh with em := putWord sh.em num w }

/-- An access of kind 0 by dbgld or dbgst. -/
def winReg (s : State) (cx : Ctx) (a n : Nat) (wr : Option Nat) : WinRes :=
  let w := winAddr a
  if winReserved w || w.kind != 0 then .rsv
  else if !winInPart s cx w then .fault (winProt a 4)
  else if !winHalted s w then .fault (winProt a 15)
  else
    match winPallet s w with
    | none => .fault (winProt a 15)
    | some p =>
      match getLaunch s p.launch, findThread s p.key (BitVec.ofNat 32 w.low) with
      | some la, some (h, t) =>
        let cls := w.sel / 128
        let num := w.sel % 128
        if !regListed la (heldPinned s h).isSome cls num n then .rsv
        else
          match wr with
          | none => .value (regImage s p.key h t cls num)
          | some x => match regWrite s p.key h t cls num n x with
            | some s => .moved s
            | none => .rsv
      | _, _ => .rsv

end Sys2Proof.Machine
end

