-- ==== Sys2Proof/Machine/LoadStore.lean ====
section
/-! DEFINITION. Loads and stores (R196 to R203), and their accesses to the debug window (R450, R452). -/

namespace Sys2Proof.Machine

/-- The reserved-field fault that an access of the debug window raises (R450 to R452). -/
def LV.windowRsv (v : LV) : FaultInfo := decodeFault 0x02 v.iss (v.f.len.getLsbD 1)

def LV.mis (v : LV) : Bool := v.f.md.getLsbD 2
def LV.isAcq (v : LV) : Bool := v.f.md.getLsbD 0
def LV.isRel (v : LV) : Bool := v.f.md.getLsbD 1

/-- A load of n bytes in the order of R199 and R203: the checks, the wait on the range scoreboard, then the access. -/
def loadOp (n : Nat) (ldp mis : Bool) (v : LV) (s : State) (res : Nat → List Wr) : LaneRes :=
  let a := v.addr true
  if v.f.spc = 5 then
    match winLoad s v.env.cx a n with
    | .value x => .ok s (res x)
    | .moved s => .ok s []
    | .fault x => .fault s x
    | .rsv => .fault s v.windowRsv
  else
    match v.check s accLoad a n mis with
    | .error x => .fault s x
    | .ok (p, s) =>
      match v.gate s v.f.spc.toNat a n with
      | .error s => .wait s .board
      | .ok s =>
        match v.load s p n v.isAcq ldp with
        | .error (s, x) => .fault s x
        | .ok (bytes, s) => .ok s (res (ofLe bytes))

/-- A store of bytes. -/
def storeOp (mis : Bool) (v : LV) (s : State) (bytes : List Byte) : LaneRes :=
  let a := v.addr true
  let n := bytes.length
  if v.f.spc = 5 then
    match winStore s v.env.cx a n (ofLe bytes) with
    | .moved s => .ok s []
    | .value _ => .ok s []
    | .fault x => .fault s x
    | .rsv => .fault s v.windowRsv
  else
    match v.check s accStore a n mis with
    | .error x => .fault s x
    | .ok (p, s) =>
      match v.gate s v.f.spc.toNat a n with
      | .error s => .wait s .board
      | .ok s =>
        match v.store s p bytes v.isRel with
        | .error (s, x) => .fault s x
        | .ok s => .ok s []

/-- The value of a load of n bytes as registers hold it: a b8 or b16 load is extended to 32 bits (R199). -/
def extendLoad (n : Nat) (sx : Bool) (x : Nat) : Nat := if n < 4 && sx then wrapN 32 (signedN (8 * n) x) else x

def ldBody (ldp : Bool) (f : Fld) (v : LV) (s : State) : LaneRes :=
  let n := wBytes f.w
  loadOp n ldp v.mis v s fun x => wrG f.d.toNat (wCnt f.w) (extendLoad n (f.md.getLsbD 3) x)

def execLd (f : Fld) (s : State) : Out := vec formLd f s (ldBody false f)
def execLdp (f : Fld) (s : State) : Out := vec formLdp f s (ldBody true f)

def execSt (f : Fld) (s : State) : Out :=
  vec formSt f s fun v s => storeOp v.mis v s (leBytes (wBytes f.w) (v.gs 2 f.b.toNat (wCnt f.w)))

/-- What ldf writes: the image and the tag of its format; i64 fills two registers (R201). -/
def ldfWrites (fmt : BitVec 4) (d x : Nat) : List Wr :=
  if fmt = 10 then [.f d (BitVec.ofNat 64 x) 8, .f (d + 1) (BitVec.ofNat 64 (x / 2 ^ 64)) 9]
  else [.f d (BitVec.ofNat 64 x) (fmtTag fmt)]

def execLdf (f : Fld) (s : State) : Out :=
  vec formLdf f s fun v s => loadOp (ldfBytes f.fmt) false v.mis v s (ldfWrites f.fmt f.d.toNat)

/-- ldk: one access for each strip, into its k registers (R202). -/
def execLdk (f : Fld) (s : State) : Out :=
  vec formLdk f s fun v s => loadOp (wBytes f.w) false false v s fun x => wrK f.d.toNat (wCnt f.w) x

/-- The image that stf stores, its tags checked (R129, R201). -/
def stfSource (fmt : BitVec 4) (v : LV) : Except FaultInfo Nat :=
  let b := v.f.b.toNat
  if fmt = 14 then (v.fany 2).map fun r => r.1.toNat
  else if fmt = 10 then
    let lo := v.fr 2 b
    let hi := v.fr 2 (b + 1)
    if lo.2 ≠ 8 then .error (formatFault 8 lo.2 2)
    else if hi.2 ≠ 9 then .error (formatFault 8 hi.2 2)
    else .ok (lo.1.toNat + 2 ^ 64 * hi.1.toNat)
  else
    let r := v.fr 2 b
    if r.2 = fmtTag fmt then .ok r.1.toNat else .error (formatFault (fmtTag fmt).toNat r.2 2)

def execStf (f : Fld) (s : State) : Out :=
  vec formStf f s fun v s =>
    match stfSource f.fmt v with
    | .error x => .fault s x
    | .ok x => storeOp v.mis v s (leBytes (ldfBytes f.fmt) x)

end Sys2Proof.Machine
end

