-- ==== Sys2Proof/Machine/Negative.lean ====
section
/-! DEFINITION. The generator (R355), identities of created threads (R13, R360), the negative (R361 to R364), and the creation of a
thread from another (R20, R121, R154). -/

namespace Sys2Proof.Machine

/-! ## The generator (R355) -/

def mix (z : Dword) : Dword :=
  let z := (z ^^^ (z >>> 30)) * 0xBF58476D1CE4E5B9#64
  let z := (z ^^^ (z >>> 27)) * 0x94D049BB133111EB#64
  z ^^^ (z >>> 31)

def genH (seed : Dword) (a : Nat) : Dword := mix (seed + BitVec.ofNat 64 a * 0x9E3779B97F4A7C15#64)

def genSlot (seed : Dword) (n t : Nat) : Nat := (genH seed t).toNat * n / 2 ^ 64

/-! ## Identities (R13, R360) -/

/-- The identity of an unordered creation, from the pallet's spawn counter. -/
def unorderedId (p : Pallet) : Word := BitVec.ofNat 32 (2 ^ 31 + p.num % 256 * 2 ^ 23 + p.spawn % 2 ^ 23)

/-- The identity of an ordered creation: the pallet number and the argument of H. -/
def orderedId (seed : Dword) (pal a : Nat) : Word :=
  let c := (genH seed a).toNat % 2 ^ 23
  BitVec.ofNat 32 (2 ^ 31 + pal % 256 * 2 ^ 23 + (if c = 0x7FFFFF then 0x7FFFFE else c))

def bumpSpawn (s : State) (pal : Nat) : State :=
  match getPallet s pal with
  | none => s
  | some p => setPallet s { p with spawn := (p.spawn + 1) % (2 ^ 23 - 1) }

/-! ## Turns under a negative (R362 to R364) -/

/-- Counts an operation of a thread on a key (ORDN). -/
def bumpOrdn (k : NegKey) (t : Thread) : Thread :=
  { t with ops := sPut t.ops (ordIndex k) (sGetD t.ops (ordIndex k) 0 + 1) }

/-- The turn of a unit's operation; with U the lowest lane of the strip makes it (R17). -/
def LV.turn (v : LV) (s : State) (k : NegKey) (res : Word) : Turn :=
  if recording v.env.la || replaying v.env.la then
    match negTurn s v.env.la.key k (v.agent s) v.t.tid (sGetD v.t.ops (ordIndex k) 0) res with
    | .go s r => .go (LV.toThreads { v with lanes := [v.lane] } s (bumpOrdn k)) r
    | t => t
  else .go s none

/-! ## Creating a thread from another (R20, R121, R154) -/

/-- The LIVE values of a branch, spawn or ibis: g count, f count; the declared counts without LV (R20, R111). -/
def liveOf (e : Env) (f : Fld) : Nat × Nat :=
  let g := e.la.r.gcnt
  let n := f.w.toNat * 16 + f.e.toNat
  if f.md.getLsbD 7 then (if n = 127 then g else min n g, min f.c.toNat e.la.r.fcnt) else (g, e.la.r.fcnt)

/-- A child of lane v's thread: its live state, with its own name and identity, no watch moved to the parent's registers. -/
def childOf (v : LV) (t : Thread) (uid : Nat) (ident : Word) : Thread :=
  let n := liveOf v.env v.f
  { applyLive { t with uid := uid } n.1 n.2 v.tick with
    tid := ident
    ordn := 0
    hods := 0
    ops := []
    pair := none
    trap := none
    skip := false
    task := [] }

/-- Creates a thread that waits in the spawn store at `pc`: its identity, by ORD, and the state; or why it cannot yet.
`change` sets the registers that the instruction gives the child. -/
def LV.create (v : LV) (s : State) (pc : Dword) (change : Thread → Thread) : LaneRes × Word :=
  match getSheet s v.env.sh.key with
  | none => (.wait s .other, 0)
  | some sh =>
    if !entryRoom s sh.pal then (.wait s .store, 0)
    else
      match laneThread sh v.lane, getPallet s sh.pal with
      | some t, some p =>
        let k : NegKey := ⟨5, p.core, t.tid.toNat⟩
        let turn := if v.f.ord then Turn.go s none else v.turn s k (unorderedId p)
        match turn with
        | .wait => (.wait s .turn, 0)
        | .fault x => (.fault s x, 0)
        | .go s res =>
          let ident := if v.f.ord then orderedId v.env.la.r.seed p.num (t.tid.toNat * 2 ^ 32 + t.ordn.toNat)
            else res.getD (unorderedId p)
          let s := if v.f.ord then v.toThreads s fun t => { t with ordn := t.ordn + 1 } else bumpSpawn s p.key
          let u := freshKey s
          let c := change (childOf v t u.1 ident)
          (.ok (enterStore u.2 sh.pal pc c (kImage sh (v.lane % 32)) .ready) [], ident)
      | _, _ => (.wait s .other, 0)

end Sys2Proof.Machine
end

