-- ==== Sys2Proof/Machine/Engine.lean ====
section
/-! DEFINITION. Faults of engines (R211, R266, R316, R340, R397): the records they leave, and atomic operations at a home (R185,
R205 to R207). -/

namespace Sys2Proof.Machine

/-! ## Engine faults -/

/-- A replayable engine fault: its record, or the record's wait for queue space (R374, R375). -/
def engineSoft (s : State) (la : Launch) (cx : Ctx) (pl : Option Pallet) (pc : Nat) (tid : Word) (x : FaultInfo) : State :=
  let record := trapRecord cx (engineWho pl pc tid) x 0
  let r := softRecord s la cx x.code record
  if r.2 || ((getCtx r.1 cx.cid).bind (·.stop)).isSome then r.1
  else { r.1 with en := { r.1.en with qheld := r.1.en.qheld ++ [⟨la.key, x.code, record⟩] } }

/-- A fatal engine fault: its record, and the context stops (R378). -/
def engineFatal (s : State) (la : Launch) (cx : Ctx) (pl : Option Pallet) (pc : Nat) (tid : Word) (x : FaultInfo) : State :=
  fatalRecord s la cx x.code (trapRecord cx (engineWho pl pc tid) x 2)

/-- A race that an engine reports (R230, R232). A report without room is dropped (R374). -/
def engineReport (s : State) (la : Launch) (cx : Ctx) (pl : Option Pallet) (pc : Nat) (tid : Word) (x : FaultInfo) : State :=
  (softRecord s la cx x.code (trapRecord cx (engineWho pl pc tid) x 3)).1

/-- Races found by an engine's agent: those that the filter lets pass are a fatal engine fault in fault mode, reports otherwise
(R232, R233). -/
def engineRaces (s : State) (k : AgentKey) (la : Launch) (cx : Ctx) (pl : Option Pallet) (pc : Nat) (tid : Word)
    (hits : List RaceHit) : State :=
  let f := filterHits s k cx.cid (raceMode la) hits
  match f.2 with
  | [] => f.1
  | h :: _ =>
    if raceMode la = 1 then engineFatal f.1 la cx pl pc tid h.fault
    else f.2.foldl (fun s h => engineReport s la cx pl pc tid h.fault) f.1

/-! ## One unit at its home (R185, R186) -/

/-- A read-modify-write of n bytes at a place by a lane: release, the operation at the home, acquire (R206). `fn` answers the new
value, none for no write. -/
def LV.rmw (v : LV) (s : State) (p : Place) (n : Nat) (acq rel : Bool) (fn : Nat → Option Nat) :
    Except (State × FaultInfo) (Nat × State) :=
  match poisonIn s p with
  | some x => .error (s, x)
  | none =>
    let clk := (getAgent s (v.agent s)).c
    let r : Except (State × FaultInfo) (Option Nat × State) :=
      if rel then (v.release s v.f.scope.toNat).map fun x => (some x.1, x.2) else .ok (none, s)
    match r with
    | .error e => .error e
    | .ok (stamp, s) =>
      let eff := match stamp with | some c => RelEffect.stamp c v.f.scope.toNat | none => .keep
      let fin := fun (s : State) (got : List Mark) (old : Nat) =>
        Except.ok (ε := State × FaultInfo) (old, if acq then v.acquire s v.f.scope.toNat got else s)
      match p with
      | .glob ps =>
        let s := settleUnit s (v.who s) ps
        let got := physMarks s ps
        let old := ofLe (physRead s ps)
        match fn old with
        | some x =>
          let s := v.noteWrite s p (leBytes n x)
          fin (unitWrite s (v.who s) v.f.scope.toNat clk ps (leBytes n x) eff) got old
        | none => fin s got old
      | .tray pal off =>
        let s := flushTray s (v.agent s) pal off n
        let got := placeMarks s p n
        let old := ofLe (trayBytes s pal off n)
        match fn old with
        | some x => fin (trayWrite (v.noteWrite s p (leBytes n x)) (v.agent s) pal off (leBytes n x) eff) got old
        | none => fin s got old
      | .konst _ => .ok (0, s)

/-- The recording unit and the key of an unordered operation at a place (R362). -/
def unitKey (s : State) (e : Env) (addr : Nat) (p : Place) : NegKey :=
  match p with
  | .glob ps => ⟨1, sliceUnit s e.cx ((ps.head?.map (·.pa)).getD 0), addr⟩
  | .tray pal off => ⟨1, palletCore s pal, off⟩
  | .konst _ => ⟨1, e.pl.core, addr⟩

end Sys2Proof.Machine
end

