-- ==== Sys2Proof/Machine/Mailbox.lean ====
section
/-! DEFINITION. Mailboxes (R217 to R220, R421). A mailbox of this package is held by its address; one of another package takes or
refuses a message as its own receivers leave it, which this package cannot see: a free choice (log 3). -/

namespace Sys2Proof.Machine

/-- The address of a mailbox of this package (R217). -/
def boxAddr (s : State) (core box : Nat) : Nat := s.fb.node * 4096 + core * 16 + box

/-- The contexts that own a mailbox of a core of this package: those in slot box / 4 of some core, switched out or not, whose partition
holds the core (R380, R421). -/
def boxOwners (s : State) (core box : Nat) : List Ctx :=
  s.mg.ctxs.filter fun c => ((getPart s c.part).map fun p => (partCores p).contains core).getD false &&
    ((c.slots.any fun x => x.2 == box / 4) || c.out.any fun o => o.slot == box / 4)

/-- A mailbox fault: protection with reason bit 8 (R217); what ADDR shows is the model's choice (log 50). -/
def boxFault (addr : Nat) : FaultInfo := walkFault 0x0A addr 3 0xFF 8 []

/-- True when the scope's domain holds the target core (R178, R218). -/
def scopeHolds (node core chip target sc : Nat) : Bool :=
  match sc with
  | 0 => false
  | 1 => chip == node && target == core
  | 2 => chip == node && target / 8 == core / 8
  | 3 => chip == node && target / 64 == core / 64
  | 4 => chip == node
  | _ => true

/-- A message into a list of mailboxes, and whether it was appended (R218). -/
def sendTo (t : Sparse (List Msg)) (a : Nat) (m : Msg) : Sparse (List Msg) × Bool :=
  let old := sGetD t a []
  if 8 ≤ old.length then (t, false) else (sPut t a (old ++ [m]), true)

/-- A message for a context's mailbox: where it is switched out of the core, into the mailbox that its save area holds (R380). -/
def sendBox (s : State) (cx : Ctx) (a : Nat) (m : Msg) : State × Bool :=
  match cx.out.find? fun o => o.core == bitsN a 4 8 && o.slot == a % 16 / 4 with
  | some o =>
    let r := sendTo o.boxes a m
    (setCtx s { cx with out := updIf (fun x => x.core == o.core && x.slot == o.slot) { o with boxes := r.1 } cx.out }, r.2)
  | none =>
    let r := sendTo s.cs.boxes a m
    (withBoxes s r.1, r.2)

/-- The check of a mailbox address by a sender (R217). -/
def LV.boxCheck (v : LV) (s : State) (a : Nat) : Option FaultInfo :=
  let chip := bitsN a 12 9
  let core := bitsN a 4 8
  if 2 ^ 21 ≤ a then some (boxFault a)
  else if !scopeHolds s.fb.node v.env.pl.core chip core v.f.scope.toNat then
    some (decodeFault 0x02 v.iss (v.f.len.getLsbD 1))
  else if chip ≠ s.fb.node then
    if !reaches s (v.agent s) v.env.pl.core chip then some (unreachableFault chip)
    else if launchGroup s v.env.la = 0 then some (boxFault a) else none
  else if (boxOwners s core (a % 16)).any fun c => c.cid == v.env.cx.cid then none
  else some (boxFault a)

def execMbsend (f : Fld) (s : State) : Out :=
  vec formMbsend f s fun v s =>
    let a := (v.g 2 f.b.toNat).toNat
    match v.boxCheck s a with
    | some x => .fault s x
    | none =>
      match v.release s v.f.scope.toNat with
      | .error (s, x) => .fault s x
      | .ok (stamp, s) =>
        let m : Msg := ⟨leBytes 32 (v.gs 1 f.a.toNat 8), [v.mark s v.f.scope.toNat stamp]⟩
        if bitsN a 12 9 ≠ s.fb.node then .ok s [.q f.d.toNat (qOf (Config.choice v.tick (a * 128 + v.lane)))]
        else
          let r := sendBox s ((getCtx s v.env.cx.cid).getD v.env.cx) a m
          .ok r.1 [.q f.d.toNat (qOf r.2)]

def boxWaiters (s : State) (a : Nat) : List Nat := sGetD s.cs.boxWait a []

def setWaiters (s : State) (a : Nat) (l : List Nat) : State :=
  { s with cs := { s.cs with boxWait := if l.isEmpty then sDel s.cs.boxWait a else sPut s.cs.boxWait a l } }

/-- mbrecv: waits its turn among the mailbox's receivers, or in the sequence under replay, then dequeues and acquires (R219, R364). -/
def execMbrecv (f : Fld) (s : State) : Out :=
  vec formMbrecv f s fun v s =>
    let box := (v.g 1 f.a.toNat).toNat
    let core := v.env.pl.core
    if 16 ≤ box || !((boxOwners s core box).any fun c => c.cid == v.env.cx.cid) then .fault s (boxFault box)
    else
      let a := boxAddr s core box
      let ws := boxWaiters s a
      let wait := LaneRes.wait (if ws.contains v.t.uid then s else setWaiters s a (ws ++ [v.t.uid]))
      match sGetD s.cs.boxes a [] with
      | [] => wait .box
      | m :: rest =>
        if ws.headD v.t.uid ≠ v.t.uid ∧ !replaying v.env.la then wait .box
        else
          match v.turn s ⟨3, core, a⟩ 0 with
          | .wait => wait .turn
          | .fault x => .fault s x
          | .go s _ =>
            let s := setWaiters (withBoxes s (if rest.isEmpty then sDel s.cs.boxes a else sPut s.cs.boxes a rest)) a
              (ws.filter fun u => u != v.t.uid)
            .ok (v.acquire s v.f.scope.toNat m.stamp) (wrG f.d.toNat 8 (ofLe m.data))

/-- mbpoll: messages waiting, 0 to 8 (R220); 0 for a number of 16 or above (log 50). -/
def execMbpoll (f : Fld) (s : State) : Out :=
  vec formMbpoll f s fun v s =>
    let box := (v.g 1 f.a.toNat).toNat
    let n := if box < 16 then (sGetD s.cs.boxes (boxAddr s v.env.pl.core box) []).length else 0
    .ok s [.g f.d.toNat (BitVec.ofNat 32 n)]

end Sys2Proof.Machine
end

