-- ==== Sys2Proof/Machine/Ordering.lean ====
section
/-! DEFINITION. Fences (R188, R189, R213), drain (R193), line watches and the wait on them (R214, R215). -/

namespace Sys2Proof.Machine

/-! ## Fences: one boundary of the agent for the whole sheet instruction (R213) -/

/-- An instruction whose boundary happens once: no lane completes before all may, then the first that acts makes it, unless it faults;
a lane that comes back after a fault finds it made. A second acquire of the same stamps changes nothing. -/
def onceOp (o : OpForm) (f : Fld) (s : State) (body : LV → State → LaneRes) (other : List Wr := []) : Out :=
  match envOf s s.iss.sheet with
  | none => .next s
  | some e =>
    let k := palletAgent s e.pl
    let c := (getAgent s k).c
    let held := (viewsOf s e (execFld o f s.iss.run) (issueAt s e.sh)
      (lanesActing s e (execFld o f s.iss.run) (issueAt s e.sh) (awakeLanes e.sh))).any fun v => v.interlock o s
    vec o f s fun v s =>
      if held then .wait s .remote
      else if e.sh.done = 0 && (getAgent s k).c == c then body v s
      else .ok s other

def execRel (f : Fld) (s : State) : Out :=
  onceOp formRel f s (fun v s =>
    match v.release s v.f.scope.toNat with
    | .error (s, x) => .fault s x
    | .ok (_, s) => .ok s []) [.thr (endTasks f.scope.toNat)]

def execAcq (f : Fld) (s : State) : Out := onceOp formAcq f s fun v s => .ok (v.acquire s v.f.scope.toNat []) []

/-- fopr: a release at core to the load pipes, which acquire it with the next mma; what was stored before it is then read (R188). -/
def execFopr (f : Fld) (s : State) : Out :=
  onceOp formFopr f s fun v s =>
    match v.release s 1 with
    | .error (s, x) => .fault s x
    | .ok (stamp, s) =>
      let busy := s.en.mmas.any fun m => m.pal == v.env.pl.key
      let s := { s with en := { s.en with olds := if busy then s.en.olds else s.en.olds.filter fun o => o.pal != v.env.pl.key } }
      match getPallet s v.env.pl.key with
      | some p => .ok (setPallet s { p with fopr := stamp, foprT := s.tick }) []
      | none => .ok s []

/-- The kind of a future's handle (R272). -/
def handleKind (h : Word) : Nat := h.toNat / 2 ^ 28

/-- feng: an acquire at core of every completed operation of the agent's own engines (R189). -/
def execFeng (f : Fld) (s : State) : Out :=
  onceOp formFeng f s fun v s =>
    let own := s.en.futs.filter fun u =>
      u.pal == v.env.pl.key && (handleKind u.handle == 1 || handleKind u.handle == 2) && u.st != .pending
    .ok (v.acquire s 1 (anyMark (maxN (own.map (·.stamp))))) []

/-- drain waits until every remote operation of the agent is acknowledged (R193). -/
def execDrain (f : Fld) (s : State) : Out :=
  vec formDrain f s fun v s =>
    if s.fb.reqs.any fun r => r.agent == v.agent s && r.kind != .marker then .wait s .remote else .ok s []

/-! ## monitor (R214) -/

/-- The watched line of a place: the pallet whose tray holds it, and the line number. -/
def placeLine (p : Place) (addr : Nat) : Option Nat × Nat :=
  match p with
  | .glob ps => (none, ((ps.head?.map (·.pa)).getD 0) / 128)
  | .tray pal off => (some pal, off / 128)
  | .konst _ => (none, addr / 128)

def execMonitor (f : Fld) (s : State) : Out :=
  vec formMonitor f s fun v s =>
    let a := v.addr true
    match v.check s accLoad a 1 true with
    | .error x => .fault s x
    | .ok (p, s) =>
      let l := placeLine p a
      .ok s [.thr fun t => { t with watch := some ⟨l.1, l.2, false⟩ }]

/-! ## mwait (R215) -/

/-- What a wake from a watched line may take: the line's release record, when its mask is not empty. -/
def watchMarks (s : State) (t : Thread) : List Mark :=
  match t.watch with
  | none => []
  | some w =>
    let all : Word := BitVec.allOnes 32
    match w.tray with
    | some pal => ((getPallet s pal).map fun p => relMarks p.trel 0 w.line all).getD []
    | none => relMarks s.ms.rel (sGetD s.ms.highWater (homeSlice s w.line) 0) w.line all

def clearPending (t : Thread) : Thread := { t with watch := t.watch.map fun w => { w with pending := false } }

def isPending (t : Thread) : Bool := t.watch.any fun w => w.pending

/-- The thread after its mwait returns r. -/
def mwaitReturn (gd r : Nat) (t : Thread) : Thread :=
  let t := clearPending t
  { t with g := t.g.set gd (BitVec.ofNat 32 r), gp := t.gp.filter fun i => i != gd }

/-- The accessing party that a pallet is. -/
def palletWho (s : State) (pal : Nat) : Option Who := do
  let p ← getPallet s pal
  let la ← getLaunch s p.launch
  let cx ← getCtx s la.cid
  return ⟨palletAgent s p, p.core, cx, la.tag, raceMode la⟩

/-- An acquire by a pallet's agent outside an instruction: a sleeper's wake. -/
def palletAcquire (s : State) (pal : Nat) (sc : BitVec 3) (ms : List Mark) : State :=
  match palletWho s pal with
  | none => s
  | some w => acquire s w sc.toNat ms

/-- The acquire of a return, for a thread of a pallet. -/
def mwaitAcquire (s : State) (pal : Nat) (sc : BitVec 3) (t : Thread) : State := palletAcquire s pal sc (watchMarks s t)

/-- The lanes of a unit go to sleep: in the spawn store, or in the sheet of a pinned course. -/
def LV.sleepAll (v : LV) (s : State) (sl : Sleep) : LaneRes :=
  match getSheet s v.env.sh.key with
  | none => .wait s .other
  | some sh =>
    if sh.course.isSome then .ok (setSheet s { sh with sleep := v.lanes.foldl (fun m l => sPut m l sl) sh.sleep }) []
    else if !entryRoom s sh.pal then .wait s .store
    else
      .ok (v.lanes.foldl (fun s l =>
        match getSheet s v.env.sh.key with
        | none => s
        | some sh => match laneThread sh l with
          | some t => departLane s sh l t v.iss.next sl
          | none => s) s) []

/-- An mwait of a unit of a free sheet. -/
def mwaitFree (f : Fld) (v : LV) (s : State) : LaneRes :=
  let back := fun (r : Nat) =>
    let s := v.acquire s v.f.scope.toNat (watchMarks s v.t)
    LaneRes.ok s [.thr clearPending, .g f.d.toNat (BitVec.ofNat 32 r)]
  if v.t.watch.isNone then back 2
  else if isPending v.t then back 0
  else v.sleepAll s (.mwait f.d.toNat (v.g 1 f.a.toNat) v.f.scope)

/-- What a lane of a pinned course returns (R215): 2 without a watch, else 0, or 1 when the limit expired and its bit is clear. -/
def laneReturn (expired : Bool) (t : Thread) : Nat :=
  if t.watch.isNone then 2 else if isPending t then 0 else boolN expired

/-- The smallest nonzero limit. -/
def courseLimit (l : List Nat) : Nat := l.foldl (fun m x => if x = 0 then m else if m = 0 then x else min m x) 0

/-- An mwait of a pinned course. -/
def mwaitPinned (f : Fld) (vs : List LV) (s : State) : CrsRes :=
  if vs.all fun v => v.t.watch.isNone || vs.any fun v => isPending v.t then
    let s := vs.foldl (fun s v => v.acquire s v.f.scope.toNat (watchMarks s v.t)) s
    .ok s (vs.map fun v => (v.lane, [.thr clearPending, .g f.d.toNat (BitVec.ofNat 32 (laneReturn false v.t))]))
  else
    let limit := courseLimit (vs.map fun v => (v.g 1 f.a.toNat).toNat)
    match vs with
    | [] => .ok s []
    | v :: _ =>
      match getSheet s v.env.sh.key with
      | none => .wait s .other
      | some sh =>
        if !storeFits s v.env.la sh.pal sh.lanes.length then .wait s .store else
        let sl := Sleep.mwait f.d.toNat (BitVec.ofNat 32 limit) v.f.scope
        .ok (setSheet s { sh with sleep := vs.foldl (fun m v => sPut m v.lane sl) sh.sleep }) (vs.map fun v => (v.lane, []))

def execMwait (f : Fld) (s : State) : Out :=
  match (getSheet s s.iss.sheet).bind (·.course) with
  | none => vec formMwait f s (mwaitFree f)
  | some _ => crs formMwait f s (fun v =>
      maskOf (lanesActing s v.env v.f v.cyc ((v.env.sh.lanes.map (·.1)).filter fun l => v.env.sh.em.getLsbD l))) (mwaitPinned f)

/-! ## Wakes (R36, R215) -/

/-- Wakes a stored thread from its mwait: it returns r and waits for the sheet former. -/
def wakeStored (s : State) (e : Entry) (gd r : Nat) (sc : BitVec 3) : State :=
  let s := mwaitAcquire s e.pal sc e.thr
  mapStore s fun x => if x.pal == e.pal && x.thr.uid == e.thr.uid then
    { x with thr := mwaitReturn gd r x.thr, sleep := .ready, since := s.cs.cyc } else x

/-- A sheet that comes back from a sleep takes its slot again, or another, or waits for one as an evicted sheet does: a pallet runs within
its S slots (R30, R36, R379). -/
def seatAgain (s : State) (sh : Sheet) : Sheet :=
  let core := palletCore s sh.pal
  let room := ((getPallet s sh.pal).bind fun p => (getLaunch s p.launch).map fun la => sheetFree s la p).getD false
  if sh.evicted then sh
  else if !room then { sh with evicted := true }
  else if (freeSlots s core).contains sh.slot then sh
  else match chooseSlot s core with
    | some n => { sh with slot := n }
    | none => { sh with evicted := true }

/-- Wakes a pinned course from its mwait. -/
def wakeCourse (s : State) (sh : Sheet) (expired : Bool) : State :=
  let sleepers := sh.sleep.filterMap fun x => match x.2 with | .mwait gd _ sc => some (x.1, gd, sc) | _ => none
  let s := sleepers.foldl (fun s x => match laneThread sh x.1 with | some t => mwaitAcquire s sh.pal x.2.2 t | none => s) s
  match getSheet s sh.key with
  | none => s
  | some sh =>
    let sh := sleepers.foldl (fun sh x =>
      match laneThread sh x.1 with
      | some t => setLane { sh with sleep := sDel sh.sleep x.1 } x.1 (mwaitReturn x.2.1 (laneReturn expired t) t)
      | none => sh) sh
    setSheet s (seatAgain s { sh with lastIssue := s.cs.cyc, pend := [] })

def sheetMwait (sh : Sheet) : Option (Nat × Word) :=
  sh.sleep.findSome? fun x => match x.2 with | .mwait gd lim _ => some (gd, lim) | _ => none

/-- Wakes every sleeper whose pending bit is set. -/
def wakePending (s : State) : State :=
  let s := s.cs.store.foldl (fun s e =>
    match e.sleep with
    | .mwait gd _ sc => if isPending e.thr then wakeStored s e gd 0 sc else s
    | _ => s) s
  s.cs.sheets.foldl (fun s sh =>
    if (sheetMwait sh).isSome && sh.lanes.any fun l => isPending l.2 then wakeCourse s sh false else s) s

end Sys2Proof.Machine
end

