-- ==== Sys2Proof/Machine/XBarrier.lean ====
section
/-! DEFINITION. Barrier objects in the tray (R277 to R282): their fields, completion and wakes, and the barrier group. -/

namespace Sys2Proof.Machine

/-! ## The object (R277) -/

structure Bar where
  exp  : Nat
  arr  : Nat
  expb : Nat
  land : Nat
  gen  : Nat
  narr : Nat
  pois : Bool
  lpois : Bool
  rsv  : Nat
  deriving DecidableEq, Repr

def unpackBar (x : Nat) : Bar :=
  ⟨bitsN x 0 16, bitsN x 16 16, bitsN x 32 24, bitsN x 56 24, bitsN x 80 8, bitsN x 88 16, bitN x 104, bitN x 105, bitsN x 106 22⟩

def packBar (b : Bar) : Nat :=
  b.exp + b.arr % 2 ^ 16 * 2 ^ 16 + b.expb * 2 ^ 32 + b.land * 2 ^ 56 + b.gen * 2 ^ 80 + b.narr % 2 ^ 16 * 2 ^ 88 + boolN b.pois * 2 ^ 104 +
  boolN b.lpois * 2 ^ 105 + b.rsv * 2 ^ 106

/-- The object at a tray offset of a pallet, and its stamps. -/
def getBar (s : State) (pal off : Nat) : Bar := unpackBar (ofLe (trayBytes s pal off 16))
def getBarSt (s : State) (pal off : Nat) : BarSt := ((getPallet s pal).bind fun p => sGet p.bars off).getD ⟨[], [], []⟩

def putBar (s : State) (agent : AgentKey) (pal off : Nat) (b : Bar) (st : BarSt) : State :=
  let s := trayWrite s agent pal off (leBytes 16 (packBar b)) .keep
  match getPallet s pal with
  | none => s
  | some p => setPallet s { p with bars := sPut p.bars off st }

/-! ## Completion (R280) -/

/-- What an xwait writes: T for a clean generation, U for a poisoned one. -/
def barResult (pois : Bool) : BitVec 2 := if pois then qU else qT

/-- True for a sleeper of generation g of the object. -/
def waitsBar (off g : Nat) : Sleep → Option (Nat × BitVec 3)
  | .xwait a g' qd sc => if a = off ∧ g'.toNat = g then some (qd, sc) else none
  | _ => none

/-- Wakes the waiters of generation g. -/
def wakeBar (s : State) (pal off g : Nat) (pois : Bool) (stamp : List Mark) : State :=
  let setQ := fun (qd : Nat) (t : Thread) => { t with q := t.q.set qd (barResult pois) }
  let s := s.cs.store.foldl (fun s e =>
    match if e.pal = pal then waitsBar off g e.sleep else none with
    | some (qd, sc) =>
      mapStore (palletAcquire s pal sc stamp) fun x =>
        if x.thr.uid == e.thr.uid then { x with thr := setQ qd x.thr, sleep := .ready, since := s.cs.cyc } else x
    | none => s) s
  (s.cs.sheets.filter fun sh => sh.pal == pal).foldl (fun s sh =>
    sh.sleep.foldl (fun s x =>
      match waitsBar off g x.2 with
      | none => s
      | some (qd, sc) =>
        let s := palletAcquire s pal sc stamp
        match getSheet s sh.key with
        | none => s
        | some sh =>
          let sh := { sh with sleep := sDel sh.sleep x.1, lastIssue := s.cs.cyc }
          match laneThread sh x.1 with
          | some t => setSheet s (setLane sh x.1 (setQ qd t))
          | none => setSheet s sh) s) s

/-- The completion check: at most one further generation can follow the first, since its arrivals were made early. -/
def barCheck (s : State) (agent : AgentKey) (pal off : Nat) : Nat → State
  | 0 => s
  | n + 1 =>
    let b := getBar s pal off
    let st := getBarSt s pal off
    if b.exp ≠ 0 ∧ b.arr = b.exp ∧ b.land = b.expb then
      let c := { b with
        lpois := b.pois
        pois := false
        arr := b.narr
        narr := 0
        expb := 0
        land := 0
        gen := (b.gen + 1) % 256 }
      let s := putBar s agent pal off c ⟨st.nextSt, [], st.openSt⟩
      barCheck (wakeBar s pal off b.gen b.pois st.openSt) agent pal off n
    else s

/-- Changes an object and its stamps, and makes the completion check. -/
def barEvent (s : State) (agent : AgentKey) (pal off : Nat) (b : Bar) (st : BarSt) : State :=
  barCheck (putBar s agent pal off b st) agent pal off 2

/-! ## The group (R278, R279, R282) -/

def barFault (addr cause : Nat) : FaultInfo := protFault addr 3 9 cause

/-- Cause 2 of R282. -/
def barUnset (b : Bar) : Bool := b.exp == 0 || b.rsv != 0

/-- Runs a body on the object that the memory operand names: its pallet, offset and formed address. -/
def onBar (v : LV) (s : State) (body : State → (pal off addr : Nat) → LaneRes) : LaneRes :=
  let a := v.addr true
  if a % 16 ≠ 0 then .fault s (faultOf 0x08 a [])
  else
    match v.place s accOther v.f.spc.toNat a 16 with
    | .error x => .fault s x
    | .ok (.tray pal off, s) => body (flushTray s (v.agent s) pal off 16) pal off a
    | .ok (_, s) => .fault s (decodeFault 0x02 v.iss (v.f.len.getLsbD 1))

def execXinit (f : Fld) (s : State) : Out :=
  vec formXinit f s fun v s => onBar v s fun s pal off a =>
    let n := (v.g 2 f.b.toNat).toNat
    if n = 0 ∨ n > 65535 then .fault s (barFault a 1)
    else .ok (putBar s (v.agent s) pal off ⟨n, 0, 0, 0, 0, 0, false, false, 0⟩ ⟨[], [], []⟩) []

def execXexpect (f : Fld) (s : State) : Out :=
  vec formXexpect f s fun v s => onBar v s fun s pal off a =>
    let n := (v.g 2 f.b.toNat).toNat
    let b := getBar s pal off
    if barUnset b then .fault s (barFault a 2)
    else if n ≥ 2 ^ 24 then .fault s (barFault a 4)
    else .ok (barEvent s (v.agent s) pal off { b with expb := (b.expb + n) % 2 ^ 24 } (getBarSt s pal off)) []

def execXarrive (f : Fld) (s : State) : Out :=
  vec formXarrive f s fun v s => onBar v s fun s pal off a =>
    let b := getBar s pal off
    let next := f.md.getLsbD 0
    if v.f.scope = 1 ∧ palletCore s pal ≠ v.env.pl.core then .fault s (decodeFault 0x02 v.iss (v.f.len.getLsbD 1))
    else if barUnset b then .fault s (barFault a 2)
    else if (if next then b.narr else b.arr) = b.exp then .fault s (barFault a 3)
    else
      match v.release s v.f.scope.toNat with
      | .error (s, x) => .fault s x
      | .ok (c, s) =>
        let b := getBar s pal off
        let st := getBarSt s pal off
        let m := v.mark s v.f.scope.toNat c
        if next then .ok (barEvent s (v.agent s) pal off { b with narr := b.narr + 1 } { st with nextSt := addMark st.nextSt m }) []
        else .ok (barEvent s (v.agent s) pal off { b with arr := b.arr + 1 } { st with openSt := addMark st.openSt m }) []

def execXwait (f : Fld) (s : State) : Out :=
  vec formXwait f s fun v s => onBar v s fun s pal off a =>
    let b := getBar s pal off
    let g := (v.g 2 f.b.toNat).toNat % 256
    let check := fun (s : State) => barCheck s (v.agent s) pal off 2
    let back := fun (p : Bool) =>
      LaneRes.ok (check (v.acquire s v.f.scope.toNat (getBarSt s pal off).lastSt)) [.q f.d.toNat (barResult p)]
    if barUnset b then .fault s (barFault a 2)
    else if (g + 256 - b.gen) % 256 < 128 then
      match v.sleepAll s (.xwait off (BitVec.ofNat 8 g) f.d.toNat v.f.scope) with
      | .ok s ws => .ok (check s) ws
      | r => r
    else if (b.gen + 256 - g) % 256 = 1 then back b.lpois
    else back true

end Sys2Proof.Machine
end

