-- ==== Sys2Proof/Machine/Layout.lean ====
section
/-! DEFINITION. Tensor layout records (R267 to R271): fields, checks, and where each image byte comes from and goes to. -/

namespace Sys2Proof.Machine

abbrev Lay := BitVec 768

def Lay.fld (l : Lay) (lo n : Nat) : Nat := (l.extractLsb' lo n).toNat

/-! ## Fields (R268) -/

def Lay.base (l : Lay) : Nat := l.fld 0 64
def Lay.fmt (l : Lay) : Nat := l.fld 64 4
def Lay.rank (l : Lay) : Nat := l.fld 68 3 + 1
def Lay.fill (l : Lay) : Bool := l.getLsbD 71
def Lay.ilv (l : Lay) : Nat := l.fld 72 3
def Lay.fillv (l : Lay) : Nat := l.fld 80 16
def Lay.size (l : Lay) (d : Nat) : Nat := l.fld (96 + 32 * d) 32
def Lay.stride (l : Lay) (d : Nat) : Nat := l.fld (216 + 40 * d) 40
def Lay.ext (l : Lay) (d : Nat) : Nat := l.fld (416 + 12 * d) 12
def Lay.orig (l : Lay) (d : Nat) : Int := signedN 32 (l.fld (480 + 32 * d) 32)
def Lay.scale (l : Lay) : Nat := l.fld 640 64

def Lay.isDx (l : Lay) : Bool := 5 ≤ l.fmt && l.fmt ≤ 7

/-- Bytes of an element, or of a block of 32 in a DX format (R269). -/
def Lay.z (l : Lay) : Nat :=
  match l.fmt with
  | 0 => 4 | 11 => 4 | 1 => 2 | 2 => 2 | 8 => 8 | 5 => 32 | 6 => 24 | 7 => 16
  | _ => 1

/-- Points, or blocks, of the window along dimension d. -/
def Lay.span (l : Lay) (d : Nat) : Nat := if l.isDx && d == 0 then l.ext 0 / 32 else l.ext d

def Lay.points (l : Lay) : Nat := ((List.range 5).map l.span).foldl (· * ·) 1
def Lay.elems (l : Lay) : Nat := ((List.range 5).map l.ext).foldl (· * ·) 1

/-- Bytes of the image: elements, then a scale pair for each DX block. -/
def Lay.image (l : Lay) : Nat := l.points * (l.z + if l.isDx then 2 else 0)

/-- The unit of an interleave (R270). -/
def Lay.unit (l : Lay) : Nat := 16 * 2 ^ l.ilv

/-! ## Checks (R271) -/

/-- The failing conditions, as the lowest bit numbers of the fields charged. -/
def Lay.bad (l : Lay) : List Nat :=
  let ds := List.range 5
  let at' := fun (b : Bool) (n : Nat) => if b then [n] else []
  let inner := ds.filter fun d => d < l.rank
  let outer := ds.filter fun d => l.rank ≤ d
  let off32 := fun (x : Int) => decide (x % 32 ≠ 0)
  at' (l.fld 57 7 != 0) 57 ++ at' (12 ≤ l.fmt) 64 ++ at' (5 < l.rank) 68 ++ at' (5 ≤ l.ilv) 72 ++ at' (l.fld 75 5 != 0) 75 ++
  at' (l.fld 476 4 != 0) 476 ++ at' (l.fld 697 7 != 0) 697 ++ at' (l.fld 704 64 != 0) 704 ++
  inner.flatMap (fun d => at' (l.size d == 0) (96 + 32 * d) ++ at' (l.ext d == 0) (416 + 12 * d)) ++
  outer.flatMap (fun d => at' (l.size d != 1) (96 + 32 * d) ++ at' (l.ext d != 1) (416 + 12 * d) ++
    at' (l.orig d != 0) (480 + 32 * d)) ++
  (inner.filter fun d => 1 ≤ d).flatMap (fun d => at' (l.stride d == 0 || l.stride d % l.z != 0) (216 + 40 * d)) ++
  at' (65536 < l.elems) 416 ++ at' (!l.fill && l.fillv != 0) 80 ++ at' (l.isDx && l.fill) 71 ++
  at' (l.isDx && l.size 0 % 32 != 0) 96 ++ at' (l.isDx && l.ext 0 % 32 != 0) 416 ++ at' (l.isDx && off32 (l.orig 0)) 480 ++
  at' (!l.isDx && l.fld 640 57 != 0) 640 ++ at' (l.ilv != 0 && l.image % (8 * l.unit) != 0) 72

/-- The reserved-field fault of a record (R271). -/
def Lay.fault (l : Lay) : Option FaultInfo :=
  match l.bad with
  | [] => none
  | b :: r => some (faultOf 0x02 0 [(0x28, 4, 0xFFFFFFFF), (0x2C, 4, r.foldl min b)])

/-! ## The image (R269, R270) -/

/-- Coordinates of the point with ordinal n in the window, dimension 0 fastest. -/
def Lay.coords (l : Lay) (n : Nat) : List Nat :=
  ((List.range 5).foldl (fun (acc : List Nat × Nat) d => (acc.1 ++ [acc.2 % max 1 (l.span d)], acc.2 / max 1 (l.span d))) ([], n)).1

/-- Tensor coordinates of a point; dimension 0 counts blocks in a DX format. -/
def Lay.tensor (l : Lay) (n : Nat) : List Int :=
  (l.coords n).zipIdx.map fun w => (if l.isDx && w.2 == 0 then l.orig 0 / 32 else l.orig w.2) + (w.1 : Int)

/-- True for a point inside the tensor. -/
def Lay.inside (l : Lay) (c : List Int) : Bool :=
  (List.range l.rank).all fun d =>
    let n := if l.isDx && d == 0 then l.size 0 / 32 else l.size d
    0 ≤ nthD c d 0 && nthD c d 0 < (n : Int)

/-- Offset of a point's bytes from BASE. -/
def Lay.offset (l : Lay) (c : List Int) : Int :=
  (List.range l.rank).foldl (fun a d => a + nthD c d 0 * (if d = 0 then (l.z : Int) else (l.stride d : Int))) 0

/-- The bytes of an element outside the tensor. -/
def Lay.fillBytes (l : Lay) : List Byte :=
  let v := l.fillv
  let x := match l.fmt with
    | 0 => v * 2 ^ 16
    | 8 =>
      if (ffB16.val v).isNan then v / 2 ^ 15 * 2 ^ 63 + 2047 * 2 ^ 52 + v % 128 * 2 ^ 45
      else (ff64.finish 0 false false (FV.toXR (ffB16.val v))).1
    | 11 => v
    | _ => v
  if l.fill then leBytes l.z x else List.replicate l.z 0

/-- What an image byte is copied from. -/
inductive SrcAt where
  | mem (addr : Nat)
  | bytes (l : List Byte)

/-- The source of the bytes at an image offset, and how many of them follow one another there. -/
def Lay.source (l : Lay) (o : Nat) : SrcAt × Nat :=
  let body := l.points * l.z
  if o < body then
    let c := l.tensor (o / l.z)
    let i := o % l.z
    if l.inside c then (.mem (wrapN 64 ((l.base : Int) + l.offset c + (i : Int))), l.z - i)
    else (.bytes (l.fillBytes.drop i), l.z - i)
  else
    let p := o - body
    let c := l.tensor (p / 2)
    let i := p % 2
    if l.inside c then (.mem (wrapN 64 ((l.scale : Int) + 2 * (l.offset c / (l.z : Int)) + (i : Int))), 2 - i)
    else (.bytes (List.replicate (2 - i) 0x7F), 2 - i)

/-- Where an image byte is written, and how many follow it (R270). -/
def Lay.place (l : Lay) (o : Nat) : Nat × Nat :=
  if l.ilv = 0 then (o, l.image - o)
  else
    let u := l.unit
    let r := o / (8 * u)
    let k := o % (8 * u) / u
    (8 * u * r + u * ((k + r) % 8) + o % u, u - o % u)

/-- The image byte that is written at offset d of the destination (R270). -/
def Lay.unplace (l : Lay) (d : Nat) : Nat :=
  if l.ilv = 0 then d
  else
    let u := l.unit
    let r := d / (8 * u)
    let k := d % (8 * u) / u
    8 * u * r + u * ((k + (8 - r % 8)) % 8) + d % u

/-- The image bytes that are copied from the byte at address a: at most one in each row of the window, and in each row of scale
pairs. -/
def Lay.readers (l : Lay) (a : Nat) : List Nat :=
  let n := max 1 (l.span 0)
  let cand := fun (q : Nat) (start : Int) (size base : Nat) =>
    let t := wrapN 64 ((a : Int) - start)
    if t / size < n then [base + (q * n + t / size) * size + t % size] else []
  let rows := (List.range (l.points / n)).flatMap fun q =>
    let off := l.offset (l.tensor (q * n))
    cand q ((l.base : Int) + off) (max 1 l.z) 0 ++
    (if l.isDx then cand q ((l.scale : Int) + 2 * (off / (l.z : Int))) 2 (l.points * l.z) else [])
  rows.filter fun o => match (l.source o).1 with
    | .mem b => b == a
    | .bytes _ => false

end Sys2Proof.Machine
end

