-- ==== Sys2Proof/Machine/Copies.lean ====
section
/-! DEFINITION. The copy engine (R260, R261, R266, R270, R281): reading a copy's sources, writing its destinations, faults,
completion and abandonment. -/

namespace Sys2Proof.Machine

/-! ## Futures (R272) -/

def futureSeq (h : Word) : Nat := bitsN h.toNat 0 20
def futureCore (h : Word) : Nat := bitsN h.toNat 20 8

/-- Issues the next handle of a kind on a core. A handle of 2^20 operations ago names the new one. -/
def newFuture (s : State) (kind core pal : Nat) : Word × State :=
  let n := sGetD s.cs.seqs (8 * core + kind) 0
  let h : Word := BitVec.ofNat 32 (kind * 2 ^ 28 + core % 256 * 2 ^ 20 + n)
  let s := { s with cs := { s.cs with seqs := sPut s.cs.seqs (8 * core + kind) ((n + 1) % 2 ^ 20) } }
  (h, withFuts s ((s.en.futs.filter fun f => f.handle != h) ++ [⟨h, pal, .pending, 0, false⟩]))

/-- A thread's register d holds a handle, marked pending (R273). -/
def markWr (d : Nat) (h : Word) : List Wr :=
  [.g d h, .thr fun t => { t with gp := if t.gp.contains d then t.gp else d :: t.gp }]

/-- Notes that an operation has begun (R276). -/
def beginFuture (s : State) (h : Word) : State :=
  match getFuture s h with
  | none => s
  | some f => setFuture s { f with begun := true }

/-! ## The range scoreboard (R261) -/

/-- Takes or shares an entry for [lo, hi); none while all 64 entries of the core are in use. -/
def takeScore (s : State) (core pal : Nat) (spc : BitVec 3) (lo hi key : Nat) : Option State :=
  let near := fun (b : Score) => b.core == core && b.pal == pal && b.spc == spc && b.lo ≤ hi && lo ≤ b.hi
  match s.en.board.filter near with
  | [] =>
    if 64 ≤ (s.en.board.filter fun b => b.core == core).length then none
    else some (withBoard s (s.en.board ++ [⟨core, pal, spc, lo, hi, [key]⟩]))
  | bs =>
    let e : Score := ⟨core, pal, spc, (bs.map (·.lo)).foldl min lo, maxN (hi :: bs.map (·.hi)), bs.flatMap (·.ops) ++ [key]⟩
    some (withBoard s ((s.en.board.filter fun b => !near b) ++ [e]))

/-- A copy retires: the entries that it alone held are free. -/
def dropScore (s : State) (key : Nat) : State :=
  withBoard s ((s.en.board.map fun b => { b with ops := b.ops.filter fun k => k != key }).filter fun b => !b.ops.isEmpty)

/-! ## Copies in flight -/

def getCopy (s : State) (key : Nat) : Option Copy := s.en.copies.find? fun c => c.key == key
def setCopy (s : State) (c : Copy) : State := withCopies s (updIf (fun d => d.key == c.key) c s.en.copies)

/-- The launch, the context and the engine as an accessing party. -/
structure CopyEnv where
  la : Launch
  cx : Ctx
  w  : Who
  deriving DecidableEq, Repr

def copyEnv (s : State) (c : Copy) : Option CopyEnv := do
  let la ← getLaunch s c.launch
  let cx ← getCtx s c.cid
  return ⟨la, cx, ⟨copyAgent s c.core c.cid, c.core, cx, la.tag, raceMode la⟩⟩

/-- Bytes not yet landed. -/
def Copy.undelivered (c : Copy) : Nat := sumN (c.left.map (·.2))

/-- The bytes of an engine fault (R266). -/
def copyFault (c : Copy) (x : FaultInfo) : FaultInfo :=
  if x.code = 0x09 ∨ x.code = 0x0A then
    { x with info := sliceB x.info 0 4 ++ leBytes 4 c.handle.toNat ++ leBytes 4 (c.total - c.undelivered) ++
      leBytes 4 c.undelivered ++ leBytes 4 (c.bar.getD 0xFFFFFFFF) ++ List.replicate 4 0 }
  else x

/-- A fatal engine fault of a copy: its record is written, the context goes on (R266). Without a slot for it the context stops (R374). -/
def engineKeep (s : State) (la : Launch) (cx : Ctx) (pl : Option Pallet) (pc : Nat) (tid : Word) (x : FaultInfo) : State :=
  let q := trapQueueOf la cx
  match putRecord s cx q.1 q.2 0 (trapRecord cx (engineWho pl pc tid) x 2) with
  | .written s => countRecord s cx.cid x.code
  | .full s => stopContext (writeStat (completeStores s cx.cid) cx q.1 x.code true) cx.cid x.code
  | .lost => stopContext s cx.cid x.code

/-- A release at core by an engine agent (R187): its clock and the state. -/
def engineRelease (s : State) (w : Who) : Nat × State := bumpClock (releaseMoves s w 1).1 w.agent

/-- A copy retires with a final state and the stamp of its release. -/
def retireCopy (s : State) (c : Copy) (st : OpSt) (stamp : Nat) : State :=
  let s := completeFuture s c.handle st stamp
  withCopies (dropScore s c.key) (s.en.copies.filter fun d => d.key != c.key)

/-- A release by an engine stamps a barrier's open generation; 0 is no release (R281). -/
def barStamp (st : BarSt) (w : Who) (stamp : Nat) : BarSt :=
  if stamp = 0 then st else { st with openSt := addMark st.openSt (markOf w.agent 1 stamp) }

/-- The fault of a bound copy that finds its barrier unset (R282); its engine raises it (R168). -/
def barBad (s : State) (c : Copy) : Option FaultInfo :=
  c.bar.bind fun off => if barUnset (getBar s c.pal off) then some (protFault off 5 9 2) else none

/-- Adds landed bytes to the barrier a copy is bound to; `stamp` of a release, 0 for none (R281). -/
def barLand (s : State) (w : Who) (c : Copy) (n stamp : Nat) : State :=
  match c.bar with
  | none => s
  | some off =>
    let b := getBar s c.pal off
    let st := getBarSt s c.pal off
    barEvent s w.agent c.pal off { b with land := (b.land + n) % 2 ^ 24 } (barStamp st w stamp)

/-- A copy has landed whole: the engine's release, the barrier, the future. -/
def copyDone (s : State) (w : Who) (c : Copy) (n : Nat) : State :=
  let r := engineRelease s w
  barLand (retireCopy r.2 c .clean r.1) w c n r.1

/-- A copy is abandoned (R276, R281). -/
def copyAbandon (s : State) (w : Who) (c : Copy) (st : OpSt) : State :=
  let r := engineRelease s w
  let s := retireCopy r.2 c st r.1
  match c.bar with
  | none => s
  | some off =>
    let b := getBar s c.pal off
    let bs := getBarSt s c.pal off
    let left := c.undelivered % 2 ^ 24
    barEvent s w.agent c.pal off { b with pois := true, expb := (b.expb + 2 ^ 24 - left) % 2 ^ 24 }
      (barStamp bs w r.1)

/-- An engine fault of a copy (R266): a translation fault pauses it, any other ends it. -/
def copyFails (s : State) (e : CopyEnv) (c : Copy) (x : FaultInfo) : State :=
  let pl := getPallet s c.pal
  if x.code = 0x09 then setCopy (engineSoft s e.la e.cx pl c.pc.toNat c.tid x) { c with paused := true }
  else copyAbandon (engineKeep s e.la e.cx pl c.pc.toNat c.tid x) e.w c .error

/-! ## One segment: bytes that lie together in the source and in the destination -/

/-- Races that the filter let pass: the first ends the copy in fault mode, otherwise each is reported (R232). -/
def copyRaces (s : State) (e : CopyEnv) (c : Copy) (hits : List RaceHit) : Except (State × FaultInfo) State :=
  match hits with
  | [] => .ok s
  | h :: _ =>
    if e.w.mode = 1 then .error (s, h.fault)
    else .ok (hits.foldl (fun s h => engineReport s e.la e.cx (getPallet s c.pal) c.pc.toNat c.tid h.fault) s)

/-- Races that the engine found, through its filter (R233). -/
def copyFound (s : State) (e : CopyEnv) (c : Copy) (hits : List RaceHit) : Except (State × FaultInfo) State :=
  let f := filterHits s e.w.agent c.cid e.w.mode hits
  copyRaces f.1 e c f.2

/-- The request that a copy's access to a peer is (R391, R392). -/
def copyReq (s : State) (e : CopyEnv) (c : Copy) (wr : Bool) (addr n : Nat) : Except FaultInfo Req :=
  if !reaches s (copyAgent s c.core c.cid) c.core c.peer then .error (unreachableFault c.peer)
  else
    match aperture s e.cx c.peer addr n (boolN wr) with
    | .error k => .error (apertureFault addr (4 + boolN wr) k)
    | .ok a =>
      .ok ⟨0, .ack, e.w.agent, c.core, c.pal, 0, c.tid, c.pc, c.peer, a.dcid, addr, 0, none, (getAgent s e.w.agent).c, e.w.tag, 1,
        e.w.mode, false, c.cid, [], false, [], none, 0, (getAgent s e.w.agent).f, []⟩

/-- The bytes [addr, addr + n) of a space as the engine reads them. -/
def copyRead (s : State) (e : CopyEnv) (c : Copy) (spc addr n : Nat) : Except (State × FaultInfo) (List Byte × State) :=
  let glob := fun (s : State) (va : Nat) =>
    match translate s e.cx (accCopyRd.at c.core 0) va n with
    | .error x => .error (s, x)
    | .ok (ps, s) =>
      match ps.findSome? fun p => poisonCheck s p with
      | some x => .error (s, { x with addr := addr })
      | none =>
        let r := loadPhys s e.w ⟨1, false, false, true, e.w.mode != 0, 2⟩ ps
        match copyFound r.s e c r.hits with
        | .error y => .error y
        | .ok s => .ok (r.bytes, s)
  match spc with
  | 0 => glob s addr
  | 1 => if addr + n ≤ e.la.r.tray then .ok (trayBytes s c.pal addr n, s) else .error (s, faultOf 0x0C addr [])
  | 2 =>
    match palletOnCore s c.launch (c.core / 8 * 8 + bitsN addr 19 3) with
    | some p =>
      if addr < 2 ^ 22 ∧ addr % 2 ^ 19 + n ≤ e.la.r.tray then .ok (trayBytes s p.key (addr % 2 ^ 19) n, s)
      else .error (s, faultOf 0x0C addr [])
    | none => .error (s, faultOf 0x0C addr [])
  | 3 =>
    if addr + n > 65536 then .error (s, walkFault 0x0A addr 4 0xFF 6 [])
    else match translate s e.cx (accCopyRd.at c.core 0) (e.la.r.param.toNat + addr) n with
      | .error x => .error (s, { x with addr := addr })
      | .ok _ => .ok (constBytes s e.la e.cx addr n, s)
  | _ =>
    match copyReq s e c false addr n with
    | .error x => .error (s, x)
    | .ok r =>
      match reqRead s r 4 n true false with
      | .fault x => .error (s, x)
      | .ok (bytes, _, s, hits) => (copyRaces s e c hits).map fun s => (bytes, s)

/-- Writes a segment's bytes. A race in fault mode leaves them unwritten. -/
def copyWrite (s : State) (e : CopyEnv) (c : Copy) (addr : Nat) (bytes : List Byte) : Except (State × FaultInfo) State :=
  let n := bytes.length
  let undo := fun (old s : State) (x : FaultInfo) => Except.error (ε := State × FaultInfo) (α := State)
    ({ old with cs := { old.cs with agents := s.cs.agents }, mg := s.mg }, x)
  let tray := fun (pal off : Nat) =>
    Except.ok (ε := State × FaultInfo) (trayWrite s e.w.agent pal off bytes .plain)
  match c.dspc.toNat with
  | 0 =>
    match translate s e.cx (accCopyWr.at c.core 0) addr n with
    | .error x => .error (s, x)
    | .ok (ps, s) =>
      let s1 := noteTexts (noteOld s e.la c.pal (.glob ps)) c.cid ps bytes
      let r := ps.foldl (fun (a : State × List RaceHit × List Byte) p =>
        let s := keyedWrite (flushOwn (l1Sync a.1 c.core c.cid p.pa p.len) c.core p.pa p.len) e.w.agent (pteKey p.leaf.pte) p.pa
          (a.2.2.take p.len) .plain
        if pteRc p.leaf.pte then
          let y := publishNow s e.w 1 (getAgent s e.w.agent).c p.va p.pa p.len
          (y.1, a.2.1 ++ y.2, a.2.2.drop p.len)
        else (s, a.2.1, a.2.2.drop p.len)) (s1, [], bytes)
      match copyFound r.1 e c r.2.1 with
      | .error (t, x) => undo s t x
      | .ok s => .ok s
  | 1 => if addr + n ≤ e.la.r.tray then tray c.pal addr else .error (s, faultOf 0x0C addr [])
  | 2 =>
    match palletOnCore s c.launch (c.core / 8 * 8 + bitsN addr 19 3) with
    | some p =>
      if addr < 2 ^ 22 ∧ addr % 2 ^ 19 + n ≤ e.la.r.tray then tray p.key (addr % 2 ^ 19) else .error (s, faultOf 0x0C addr [])
    | none => .error (s, faultOf 0x0C addr [])
  | _ =>
    match copyReq s e c true addr n with
    | .error x => .error (s, x)
    | .ok r =>
      match reqWrite s r r.node r.dcid 5 bytes .plain true with
      | .fault x => .error (s, x)
      | .ok (t, hits) =>
        match copyRaces t e c hits with
        | .error (t, x) => undo s t x
        | .ok s => .ok s

/-! ## Reading and landing by units (R260)

A landing writes whole aligned 4-byte units of the destination, and reads whole aligned 4-byte units of the source: bytes that were read
with their unit and land later are held. -/

/-- What one step of a copy answers: the copy goes along, with what it has read. -/
abbrev CopyStep (α : Type) := Except (State × Copy × FaultInfo) (α × State × Copy)

/-- The index value of element i of a gather or scatter: read once, and used as long as the copy is in flight (R263). -/
def copyIndex (s : State) (e : CopyEnv) (c : Copy) (idx i : Nat) : CopyStep Nat :=
  match sGet c.cur i with
  | some x => .ok (x, s, c)
  | none =>
    match copyRead s e c 0 (idx + 4 * i) 4 with
    | .error (s, x) => .error (s, c, x)
    | .ok (b, s) => .ok (ofLe b, s, { c with cur := sPut c.cur i (ofLe b) })

/-- Where the image byte at offset o comes from, and how many bytes follow it there. -/
def copySource (s : State) (e : CopyEnv) (c : Copy) (o : Nat) : CopyStep (SrcAt × Nat) :=
  match c.shape with
  | .lin => .ok ((.mem (c.src + o), c.total - o), s, c)
  | .scatter _ _ => .ok ((.mem (c.src + o), c.total - o), s, c)
  | .window lay => .ok (Lay.source lay o, s, c)
  | .gather size idx =>
    (copyIndex s e c idx (o / size)).map fun r => ((.mem (c.src + r.1 * size + o % size), size - o % size), r.2)

/-- Where the image byte at offset o goes to, and how many bytes follow it there. -/
def copyDest (s : State) (e : CopyEnv) (c : Copy) (o : Nat) : CopyStep (Nat × Nat) :=
  match c.shape with
  | .lin => .ok ((c.dst + o, c.total - o), s, c)
  | .gather _ _ => .ok ((c.dst + o, c.total - o), s, c)
  | .window lay => .ok ((c.dst + (Lay.place lay o).1, (Lay.place lay o).2), s, c)
  | .scatter size idx =>
    (copyIndex s e c idx (o / size)).map fun r => ((c.dst + r.1 * size + o % size, size - o % size), r.2)

/-- The elements from i on, n of them, whose index is x. -/
def elemsAt (s : State) (e : CopyEnv) (c : Copy) (idx x i : Nat) : Nat → CopyStep (List Nat)
  | 0 => .ok ([], s, c)
  | n + 1 =>
    match copyIndex s e c idx i with
    | .error y => .error y
    | .ok (v, s, c) => (elemsAt s e c idx x (i + 1) n).map fun r => (if v = x then i :: r.1 else r.1, r.2)

/-- The image bytes of the indexed elements that stand at address a of the space that base points into. -/
def elemBytes (s : State) (e : CopyEnv) (c : Copy) (size idx base a : Nat) : CopyStep (List Nat) :=
  if a < base then .ok ([], s, c)
  else (elemsAt s e c idx ((a - base) / size) 0 (c.total / size)).map fun r =>
    (r.1.map fun i => i * size + (a - base) % size, r.2)

/-- The image bytes that a contiguous side of a copy has at address a. -/
def Copy.lineBytes (c : Copy) (base a : Nat) : List Nat := if base ≤ a ∧ a < base + c.total then [a - base] else []

/-- The image bytes that come from address a, and those that go to address a. -/
def copyFrom (s : State) (e : CopyEnv) (c : Copy) (a : Nat) : CopyStep (List Nat) :=
  match c.shape with
  | .gather size idx => elemBytes s e c size idx c.src a
  | .window lay => .ok (Lay.readers lay a, s, c)
  | _ => .ok (c.lineBytes c.src a, s, c)
def copyTo (s : State) (e : CopyEnv) (c : Copy) (a : Nat) : CopyStep (List Nat) :=
  match c.shape with
  | .scatter size idx => elemBytes s e c size idx c.dst a
  | .window lay => .ok ((c.lineBytes c.dst a).map (Lay.unplace lay), s, c)
  | _ => .ok (c.lineBytes c.dst a, s, c)

/-- The image bytes at each of the four addresses of a unit. -/
def unitBytes (f : State → Copy → Nat → CopyStep (List Nat)) (s : State) (c : Copy) (u : Nat) : Nat → CopyStep (List (List Nat))
  | 0 => .ok ([], s, c)
  | n + 1 =>
    match f s c u with
    | .error y => .error y
    | .ok (l, s, c) => (unitBytes f s c (u + 1) n).map fun r => (l :: r.1, r.2)

/-- How many bytes from image offset o on have not landed. -/
def Copy.leftRun (c : Copy) (o : Nat) : Nat :=
  ((c.left.find? fun r => r.1 ≤ o && o < r.1 + r.2).map fun r => r.1 + r.2 - o).getD 0

/-- One of several bytes for one place. Which one is not fixed (R263). -/
def pickByte (tick salt : Nat) : List Nat → Option Nat
  | [] => none
  | [x] => some x
  | x :: r => if Config.choice tick salt then some x else pickByte tick (salt + 1) r

/-- One image byte for each of the four addresses of o's unit that still wants one: bytes of o's element before those of others, and of
one element for the addresses of one element. None where part of the unit lies outside this side of the copy. -/
def unitMates (s : State) (c : Copy) (o : Nat) (want : Nat → Bool) (ls : List (List Nat)) : Option (List (Option Nat)) :=
  let size := match c.shape with | .gather z _ => z | .scatter z _ => z | _ => 1
  if ls.any (·.isEmpty) then none
  else some (ls.map fun l =>
    let open' := l.filter want
    match open'.find? fun p => p == o || p / size == o / size with
    | some p => some p
    | none => pickByte s.tick (4096 * (l.head?.getD 0 / size)) open')

/-- Holds bytes from an image offset on; what is held stays. -/
def holdBytes (c : Copy) (o : Nat) (l : List Byte) : Copy :=
  { c with held := l.zipIdx.foldl (fun t x => if (sGet t (o + x.2)).isSome then t else sPut t (o + x.2) x.1) c.held }

/-- Reads image byte o from address a: with its whole source unit, where that lies wholly inside the source. -/
def holdUnit (s : State) (e : CopyEnv) (c : Copy) (o a : Nat) : CopyStep Unit :=
  match unitBytes (fun s c a => copyFrom s e c a) s c (a / 4 * 4) 4 with
  | .error y => .error y
  | .ok (ls, s, c) =>
    match unitMates s c o (fun p => c.leftRun p != 0 && (sGet c.held p).isNone) ls with
    | none =>
      match copyRead s e c c.sspc.toNat a 1 with
      | .error (s, f) => .error (s, c, f)
      | .ok (b, s) => .ok ((), s, holdBytes c o b)
    | some ps =>
      match copyRead s e c c.sspc.toNat (a / 4 * 4) 4 with
      | .error (s, f) => .error (s, c, f)
      | .ok (b, s) =>
        let ps := ps.set (a % 4) (some o)
        .ok ((), s, (ps.zip b).foldl (fun c x => match x.1 with | some p => holdBytes c p [x.2] | none => c) c)

/-- Reads image bytes [o, o + n) that are not held, each with its whole source unit. -/
def copyHold (s : State) (e : CopyEnv) (c : Copy) (o n : Nat) : Nat → CopyStep Unit
  | 0 => .ok ((), s, c)
  | fuel + 1 =>
    if n = 0 then .ok ((), s, c)
    else if (sGet c.held o).isSome then copyHold s e c (o + 1) (n - 1) fuel
    else
      match copySource s e c o with
      | .error x => .error x
      | .ok ((.bytes l, run), s, c) =>
        let k := min (min n (max 1 run)) (max 1 l.length)
        copyHold s e (holdBytes c o (l.take k)) (o + k) (n - k) fuel
      | .ok ((.mem a, run), s, c) =>
        let k := min n run / 4 * 4
        if a % 4 = 0 ∧ k ≠ 0 then
          match copyRead s e c c.sspc.toNat a k with
          | .error (s, f) => .error (s, c, f)
          | .ok (b, s) => copyHold s e (holdBytes c o b) (o + k) (n - k) fuel
        else
          match holdUnit s e c o a with
          | .error x => .error x
          | .ok (_, s, c) => copyHold s e c (o + 1) (n - 1) fuel

/-- Bytes from an address to the end of its 128-byte line. -/
def toLineEnd (a : Nat) : Nat := 128 - a % 128

/-- Removes [o, o + k) from a list of ranges. -/
def cutRange (l : List (Nat × Nat)) (o k : Nat) : List (Nat × Nat) :=
  (l.flatMap fun r => [(r.1, min r.2 (o - r.1)), (max r.1 (o + k), r.1 + r.2 - max r.1 (o + k))]).filter fun r => r.2 != 0

/-- The first access of a copy: the engine acquires the release of its issue (R264). Writes of the issuing pallet that are on their
way come first. -/
def copyBegin (s : State) (e : CopyEnv) (c : Copy) : State :=
  match getFuture s c.handle with
  | none => s
  | some f =>
    if f.begun then s
    else
      let s := match getPallet s c.pal with
        | some p => performPostedIf s fun x => x.agent == palletAgent s p
        | none => s
      takeStamp (clearFilter (setFuture s { f with begun := true }) e.w.agent) e.w.agent c.stamp

/-- Writes image bytes [o, o + k), which go to dst on. -/
def landBytes (s : State) (e : CopyEnv) (c : Copy) (o k dst : Nat) : CopyStep Unit :=
  match copyHold s e c o k k with
  | .error x => .error x
  | .ok (_, s, c) =>
    match copyWrite s e c dst ((List.range k).map fun i => sGetD c.held (o + i) 0) with
    | .error (s, f) => .error (s, c, f)
    | .ok s => .ok ((), s, c)

/-- Writes some image bytes of one destination unit, each a byte's place in the unit and its image offset: from place j on, n bytes of
them at a time. -/
def landPlaces (s : State) (e : CopyEnv) (c : Copy) (u n : Nat) : List (Nat × Nat) → Nat → CopyStep Unit
  | _, 0 => .ok ((), s, c)
  | [], _ => .ok ((), s, c)
  | x :: r, fuel + 1 =>
    match copyWrite s e c (u + x.1) (((x :: r).take n).map fun y => sGetD c.held y.2 0) with
    | .error (s, f) => .error (s, c, f)
    | .ok s => landPlaces s e c u n ((x :: r).drop n) fuel

/-- Reads some single image bytes. -/
def holdAll (s : State) (e : CopyEnv) (c : Copy) : List Nat → CopyStep Unit
  | [] => .ok ((), s, c)
  | o :: r =>
    match copyHold s e c o 1 1 with
    | .error x => .error x
    | .ok (_, s, c) => holdAll s e c r

/-- Lands image byte o, which goes to dst, with its whole destination unit, where that lies wholly inside the destination: the image
bytes that landed. -/
def landUnit (s : State) (e : CopyEnv) (c : Copy) (o dst : Nat) : CopyStep (List (Nat × Nat)) :=
  match unitBytes (fun s c a => copyTo s e c a) s c (dst / 4 * 4) 4 with
  | .error y => .error y
  | .ok (ls, s, c) =>
    match unitMates s c o (fun p => c.leftRun p != 0) ls with
    | none => (landBytes s e c o 1 dst).map fun r => ([(o, 1)], r.2)
    | some ps =>
      let at' := (ps.set (dst % 4) (some o)).zipIdx.filterMap fun x => x.1.map fun p => (x.2, p)
      match holdAll s e c (at'.map (·.2)) with
      | .error y => .error y
      | .ok (_, s, c) =>
        (landPlaces s e c (dst / 4 * 4) (if at'.length = 4 then 4 else 1) at' 4).map fun r => (at'.map fun x => (x.2, 1), r.2)

/-- Lands image byte o, which has not landed, and with it up to n bytes from o on that go side by side in whole destination units: the
image bytes that landed, as ranges, or the fault that stopped it. -/
def landSegment (s : State) (e : CopyEnv) (c : Copy) (o n : Nat) : CopyStep (List (Nat × Nat)) :=
  match copyDest s e c o with
  | .error x => .error x
  | .ok ((dst, run), s, c) =>
    let k := min (min n (min run (c.leftRun o))) (toLineEnd dst) / 4 * 4
    if dst % 4 = 0 ∧ k ≠ 0 then (landBytes s e c o k dst).map fun r => ([(o, k)], r.2)
    else landUnit s e c o dst

/-- A copy after ranges of image bytes have landed: bytes that it no longer needs are dropped. -/
def Copy.landed (c : Copy) (l : List (Nat × Nat)) : Copy :=
  let left := l.foldl (fun left r => cutRange left r.1 r.2) c.left
  { c with
    left := left
    held := c.held.filter fun x => left.any fun r => r.1 ≤ x.1 && x.1 < r.1 + r.2 }

/-- Lands the image bytes of [o, o + n) that have not landed, segment by segment (R260, R281). The flag is the code of a fault. -/
def landRange (s : State) (key o n : Nat) : Nat → State × Option Nat
  | 0 => (s, none)
  | fuel + 1 =>
    if n = 0 then (s, none)
    else
      match (getCopy s key).bind fun c => (copyEnv s c).map fun e => (c, e) with
      | none => (s, none)
      | some (c, e) =>
        if c.leftRun o = 0 then landRange s key (o + 1) (n - 1) fuel
        else
          let s := copyBegin s e c
          match barBad s c with
          | some x => (copyFails s e c x, some x.code)
          | none =>
            match landSegment s e c o n with
            | .error (s, c, x) => (copyFails (setCopy s c) e c (copyFault c x), some x.code)
            | .ok (l, s, c) =>
              let c' := c.landed l
              let k := sumN (l.map (·.2))
              if c'.left.isEmpty then (copyDone s e.w c' k, none)
              else landRange (barLand (setCopy s c') e.w c k 0) key (o + 1) (n - 1) fuel

/-- The parts of [lo, lo + n) that have not landed. -/
def landParts (c : Copy) (lo n : Nat) : List (Nat × Nat) :=
  (c.left.map fun r => (max r.1 lo, min (r.1 + r.2) (lo + n) - max r.1 lo)).filter fun r => r.2 != 0

/-- A copy may move bytes: it is not paused and its context runs on its core. -/
def copyRuns (s : State) (c : Copy) : Bool :=
  !c.paused && ((getCtx s c.cid).map fun x => x.stop.isNone && !outOf x c.core).getD false

/-- Lands parts one after the other, up to the first fault. -/
def landAll (s : State) (key : Nat) (ps : List (Nat × Nat)) : State × Option Nat :=
  ps.foldl (fun r p => match r.2 with
    | some _ => r
    | none => landRange r.1 key p.1 p.2 p.2) (s, none)

/-- COPY_LANDING (R260, R281): image bytes of a copy land. -/
def execCopyLanding (copy lo n : Nat) (s : State) : Out :=
  match getCopy s copy with
  | none => .next s
  | some c => if copyRuns s c then .next (landAll s copy (landParts c lo n)).1 else .next s

/-- COPY_ENGINE_FAULT (R266): the copy goes on until it meets the fault of this code; without such a fault nothing happens. -/
def execCopyEngineFault (copy : Nat) (code : Byte) (s : State) : Out :=
  match getCopy s copy with
  | none => .next s
  | some c =>
    let r := landAll s copy c.left
    if copyRuns s c && r.2 == some code.toNat then .next r.1 else .next s

end Sys2Proof.Machine
end

