-- ==== Sys2Proof/Machine/CopyOps.lean ====
section
/-! DEFINITION. The copy group (R262 to R265): operands, the checks at issue, and the start of a copy. -/

namespace Sys2Proof.Machine

/-- What a copy instruction asks for. -/
structure CopyAsk where
  shape : CopyShape
  dst   : Nat
  src   : Nat
  total : Nat
  bar   : Option Nat
  deriving DecidableEq, Repr

def LV.reservedX (v : LV) : FaultInfo := decodeFault 0x02 v.iss (v.f.len.getLsbD 1)

/-- The bound of a tray, ctray or const range (R162, R265). -/
def LV.rangeFault (v : LV) (s : State) (spc addr n kind : Nat) : Option FaultInfo :=
  match spc with
  | 1 => if addr + n ≤ v.env.la.r.tray then none else some (faultOf 0x0C addr [])
  | 2 =>
    let there := (palletOnCore s v.env.la.key (v.env.pl.core / 8 * 8 + bitsN addr 19 3)).isSome
    if there ∧ addr < 2 ^ 22 ∧ addr % 2 ^ 19 + n ≤ v.env.la.r.tray then none else some (faultOf 0x0C addr [])
  | 3 => if addr + n ≤ 65536 then none else some (walkFault 0x0A addr kind 0xFF 6 [])
  | _ => none

/-- The bases of an instruction: destination from A, source from B, each sized by its space. -/
def LV.copyDst (v : LV) : Nat := v.gs 1 v.f.a.toNat (if basePair v.f.spc then 2 else 1)
def LV.copySrcAddr (v : LV) : Nat := v.gs 2 v.f.b.toNat (if basePair (copySrc v.f) then 2 else 1)

/-- The checks of R265 from step 2 on. -/
def LV.copyCheck (v : LV) (s : State) (q : CopyAsk) : Option FaultInfo :=
  let span := match q.shape with | .window lay => Lay.fault lay | _ => none
  let dst := match q.shape with | .scatter _ _ => none | _ => v.rangeFault s v.f.spc.toNat q.dst q.total 5
  let src := match q.shape with
    | .window _ => none
    | .gather _ _ => none
    | _ => v.rangeFault s (copySrc v.f).toNat q.src q.total 4
  let bar := match q.bar with
    | none => none
    | some off =>
      if off % 16 ≠ 0 then some (faultOf 0x08 off [])
      else if off + 16 > v.env.la.r.tray then some (faultOf 0x0C off [])
      else if barUnset (getBar s v.env.pl.key off) then some (barFault off 2)
      else none
  let turn := match q.shape with
    | .window lay => if Lay.ilv lay ≠ 0 ∧ q.dst % (8 * Lay.unit lay) ≠ 0 then some (faultOf 0x08 q.dst []) else none
    | _ => none
  (((span.or dst).or src).or bar).or turn

/-- The destination's bounding range under the scoreboard's names (R261). -/
def LV.copyBounds (v : LV) (q : CopyAsk) : BitVec 3 × Nat × Nat :=
  let whole := match q.shape with | .scatter _ _ => true | _ => false
  match v.f.spc.toNat with
  | 1 =>
    let lo := v.env.pl.core % 8 * 2 ^ 19
    if whole then (2, lo, lo + v.env.la.r.tray) else (2, lo + q.dst, lo + q.dst + q.total)
  | 2 => if whole then (2, 0, 2 ^ 22) else (2, q.dst, q.dst + q.total)
  | n => if whole then (BitVec.ofNat 3 n, 0, 2 ^ 57) else (BitVec.ofNat 3 n, q.dst, q.dst + q.total)

/-- The start of a copy (R264): the wait of R261, the handle, the release to the engine; a copy of no bytes is done at once. -/
def LV.startCopy (v : LV) (s : State) (q : CopyAsk) : LaneRes :=
  match v.copyCheck s q with
  | some x => .fault s x
  | none =>
    let core := v.env.pl.core
    let k := freshKey s
    let b := v.copyBounds q
    let room := (s.en.copies.filter fun c => c.core == core).length < 512
    let took := if q.total = 0 then some k.2 else takeScore k.2 core v.env.pl.key b.1 b.2.1 b.2.2 k.1
    match if room then took else none with
    | none => .wait s .board
    | some s =>
      match v.release s 1 with
      | .error (s, x) => .fault s x
      | .ok (stamp, s) =>
        let h := newFuture s 1 core v.env.pl.key
        let c : Copy := {
          key := k.1
          handle := h.1
          core := core
          cid := v.env.cx.cid
          launch := v.env.la.key
          pal := v.env.pl.key
          shape := q.shape
          dspc := v.f.spc
          sspc := copySrc v.f
          dst := q.dst
          src := q.src
          total := q.total
          left := if q.total = 0 then [] else [(0, q.total)]
          bar := q.bar
          peer := (v.k 7 (peerK v.iss.run v.f)).toNat
          pc := v.iss.pc
          tid := v.t.tid
          paused := false
          stamp := stamp
          cur := []
          held := [] }
        let s := withCopies h.2 (h.2.en.copies ++ [c])
        let s := if q.total = 0 then
            match copyEnv s c with
            | some e => copyDone (copyBegin s e c) e.w c 0
            | none => s
          else s
        .ok s (markWr v.f.d.toNat h.1)

/-- A bound copy moves at most 2^24 − 1 bytes (R263). -/
def LV.askCopy (v : LV) (s : State) (q : CopyAsk) : LaneRes :=
  if q.bar.isSome && decide (2 ^ 24 ≤ q.total) then .fault s v.reservedX else v.startCopy s q

def LV.barOff (v : LV) (n : Nat) : Option Nat := if copyBar v.f then some (v.g 3 n).toNat else none

def execCpy (f : Fld) (s : State) : Out :=
  vec formCpy f s fun v s =>
    let c := f.c.toNat
    v.askCopy s ⟨.lin, v.copyDst, v.copySrcAddr, (v.g 3 c).toNat, v.barOff (c + 1)⟩

/-- cpyg and cpys: element count, size, index array, barrier. -/
def copyByIndex (o : OpForm) (f : Fld) (s : State) (shape : Nat → Nat → CopyShape) : Out :=
  vec o f s fun v s =>
    let c := f.c.toNat
    let n := (v.g 3 c).toNat
    let z := (v.g 3 (c + 1)).toNat
    if n ≥ 2 ^ 24 ∨ !([1, 2, 4, 8, 16, 32, 64, 128, 256].contains z) then .fault s v.reservedX
    else
      let idx := v.gs 3 (c + 2) 2
      if idx % 4 ≠ 0 then .fault s (faultOf 0x08 idx [])
      else v.askCopy s ⟨shape z idx, v.copyDst, v.copySrcAddr, n * z, v.barOff (c + 4)⟩

def execCpyg (f : Fld) (s : State) : Out := copyByIndex formCpyg f s .gather
def execCpys (f : Fld) (s : State) : Out := copyByIndex formCpys f s .scatter

/-- A record of n bytes read at issue as a relaxed load of the issuing thread (R265, R308): none while the load stalls. -/
def LV.loadRecord (v : LV) (s : State) (a n : Nat) : Except (State × FaultInfo) (Option (List Byte × State)) :=
  let w : LV := { v with f := { v.f with spc := 0, lit := 0, atm := 0, scope := 1 } }
  match w.check s accLoad a n true with
  | .error x => .error (s, x)
  | .ok (p, s) =>
    match w.gate s 0 a n with
    | .error _ => .ok none
    | .ok s => (w.load s p n false false).map some

/-- What a record's load that stalls leaves: the copies that it waits for (R176). -/
def LV.recordWait (v : LV) (s : State) (a n : Nat) : State := match v.gate s 0 a n with | .error s => s | .ok s => s

/-- The layout record: 24 registers, or 96 bytes at a 16-byte aligned address (R265 step 1, R267). -/
def LV.layRecord (v : LV) (s : State) : Except (State × FaultInfo) (Option (Lay × State)) :=
  let a := v.f.imm.toNat
  if v.f.lit ≠ 5 then .ok (some (BitVec.ofNat 768 (v.gs 2 v.f.b.toNat 24), s))
  else if a % 16 ≠ 0 then .error (s, faultOf 0x08 a [])
  else (v.loadRecord s a 96).map fun r => r.map fun x => (BitVec.ofNat 768 (ofLe x.1), x.2)

def execCpyw (f : Fld) (s : State) : Out :=
  vec formCpyw f s fun v s =>
    match v.layRecord s with
    | .error (s, x) => .fault s x
    | .ok none => .wait (v.recordWait s v.f.imm.toNat 96) .board
    | .ok (some (lay, s)) =>
      match Lay.fault lay with
      | some x => .fault s { x with addr := if v.f.lit = 5 then v.f.imm.toNat else 0 }   -- R288
      | none => v.askCopy s ⟨.window lay, v.copyDst, 0, Lay.image lay, v.barOff f.c.toNat⟩

end Sys2Proof.Machine
end

