-- ==== Sys2Proof/Machine/Remote.lean ====
section
/-! DEFINITION. The remote instructions (R395 to R404): replays per peer, checks at issue, requests on their way. -/

namespace Sys2Proof.Machine

/-! ## Issue (R396, R399) -/

/-- The peer, or the multicast group, that a strip names. -/
def LV.peer (v : LV) : Nat := (v.k 7 (peerK v.iss.run v.f)).toNat

/-- SCOPE core is read as dom (R395). -/
def LV.remoteScope (v : LV) : BitVec 3 := if v.f.scope = 6 then 6 else 5

def LV.remoteAddr (v : LV) : Nat := v.addr (!v.f.ord)

/-- The aperture's fault for one destination. -/
def LV.apertureAt (v : LV) (s : State) (node a n kind bit : Nat) (dcid : Option Word := none) : Option FaultInfo :=
  match aperture s v.env.cx node a n bit dcid with
  | .ok _ => none
  | .error c => some (apertureFault a kind c)

/-- A multicast group that this partition may send to (R401). -/
def LV.group (v : LV) (s : State) : Option Group :=
  s.fb.groups.find? fun g => g.num == v.peer && g.senders.contains (s.fb.node, v.env.cx.part)

/-- The checks of R396 for n bytes: access kind (R392) and its bit of PERM (R391). -/
def LV.remoteCheck (v : LV) (s : State) (n kind bit : Nat) (mcast : Bool) : Option FaultInfo :=
  let a := v.remoteAddr
  let node := v.peer
  let g := v.group s
  if (if mcast then g.isNone else !reaches s (v.agent s) v.env.pl.core node) then some (unreachableFault node)
  else if !aligned a n then some (faultOf 0x08 a [])
  else if a + n > 2 ^ 57 then some (walkFault 0x0A a kind 0xFF 6 [])
  else if v.f.atm = 2 ∨ (v.f.atm = 1 ∧ 8 < n) then some (faultOf 0x0B a [(0x28, 1, atmBytes v.f.atm), (0x29, 1, 4)])
  else if mcast then
    ((g.map (·.members)).getD []).findSome? fun m => v.apertureAt s m.1 a n kind bit (some m.2)
  else v.apertureAt s node a n kind bit

/-- Entries of a core's outstanding-transaction table in use (R216). -/
def entriesUsed (s : State) (core : Nat) : Nat := (s.fb.reqs.filter fun r => r.core == core && r.kind != .marker).length

/-- The plane that a packet takes among the working planes of its set: as load requires (R404), a free choice. -/
def LV.plane (v : LV) (s : State) (node : Nat) : Nat :=
  let ps := workingPlanes s (pathSet s (v.agent s) v.env.pl.core node)
  nthD ps (Config.sensor v.tick (v.lane + 1024) % max 1 ps.length) 0

/-- Aligned 512-byte blocks that bytes touch (R389). -/
def blocksOf (a n : Nat) : List Nat := (List.range 2).filterMap fun i =>
  if (a / 512 + i) * 512 < a + n then some (a / 512 + i) else none

/-- The data flit of a write's part in one block: that of an earlier write of the agent to the block which has not left, or a new one:
which of them is free (R389). -/
def flitFor (s : State) (agent : AgentKey) (node plane block : Nat) : Nat × State :=
  let open' := s.fb.reqs.filterMap fun q =>
    if q.agent == agent && q.node == node && q.plane == plane && unperformed q then
      (((blocksOf q.addr (reqSize q)).zip q.flits).find? fun x => x.1 == block).map (·.2)
    else none
  match open'.getLast? with
  | some f => if Config.choice s.tick (block * 16 + plane) then (f, s) else freshKey s
  | none => freshKey s

/-- The flits of a write. -/
def flitsFor (s : State) (agent : AgentKey) (node plane a n : Nat) : List Nat × State :=
  (blocksOf a n).foldl (fun r b => let x := flitFor r.2 agent node plane b; (r.1 ++ [x.1], x.2)) ([], s)

/-- Packets that leave with a request: those of its flits that carry no earlier write; one for the request of an rfop or rred (R403). -/
def packetsSent (s : State) (r : Req) : Nat :=
  if !isCounted r.kind then 0
  else if r.flits.isEmpty then 1
  else (r.flits.filter fun f => !s.fb.reqs.any fun q => q.flits.contains f).length

/-- Counts packets at their ports, and notes the peer written (R402, R403). -/
def countSent (s : State) (r : Req) : State :=
  let s := { s with fb := { s.fb with sent := countFlow s.fb.sent r (packetsSent s r) } }
  let wrote := isCounted r.kind || (match r.kind with | .flag _ _ _ => true | _ => false)
  let old := ((s.fb.wrote.find? fun w => w.1 == r.agent).map (·.2)).getD []
  if wrote && !old.contains r.node then
    { s with fb := { s.fb with wrote := putBy (fun w => w.1 == r.agent) (r.agent, old ++ [r.node]) s.fb.wrote } }
  else s

/-- The number under which a multicast group's requests are held: no node has it. -/
def groupNode (g : Nat) : Nat := 0x1000 + g

/-- The line whose root a request passes: a multicast's own, for an ordered reduction its window's base (R394, R400). The base of a
window of another node is not known here: a free choice. -/
def LV.rootLine (v : LV) (s : State) (kind : ReqKind) : Option Nat :=
  let a := v.remoteAddr
  match kind with
  | .mcast _ _ => some (a / 128)
  | .red _ _ _ _ _ (some _) =>
    if v.peer = s.fb.node then (findWin s v.env.la.key none a).map fun w => w.base / 128
    else some (Config.sensor v.tick (v.lane + 2048))
  | _ => none

/-- The unordered operations that a negative records (R363). -/
def negKind (kind : ReqKind) : Bool :=
  match kind with
  | .fop _ _ _ _ _ _ _ _ none => true
  | .red _ fl _ _ _ none => fl
  | _ => false

/-- Sends a request of a unit. `stamp` is the clock of its release, `clk` the clock before. -/
def LV.send (v : LV) (s : State) (kind : ReqKind) (bit n : Nat) (stamp : Option Nat) (clk : Nat) : State :=
  let k := freshKey s
  let s := k.2
  let agent := v.agent s
  let a := v.remoteAddr
  let dcid := match aperture s v.env.cx v.peer a n bit with | .ok e => e.dcid | .error _ => 0
  let node := match kind with | .mcast _ _ => groupNode v.peer | _ => v.peer
  let root := (v.rootLine s kind).map lineRoot
  let plane := (root.map (·.1)).getD (v.plane s node)
  let fl := match kind with | .write _ => flitsFor s agent node plane a n | _ => ([], s)
  let s := fl.2
  let neg : NegKey := ⟨1, 0, a⟩
  let r : Req := {
    key := k.1
    kind := kind
    agent := agent
    core := v.env.pl.core
    pal := v.env.pl.key
    uid := v.t.uid
    tid := v.t.tid
    pc := v.iss.pc
    node := node
    dcid := dcid
    addr := a
    plane := plane
    rel := stamp
    clk := clk
    tag := v.env.la.tag
    scope := v.remoteScope
    mode := raceMode v.env.la
    held := false
    cid := v.env.cx.cid
    uids := v.lanes.filterMap fun l => (laneThread v.env.sh l).map (·.uid)
    fatal := false
    flits := fl.1
    spine := root.map (·.2)
    ordn := sGetD v.t.ops (ordIndex neg) 0
    floor := (getAgent s agent).f
    bad := [] }
  let s := if negKind kind && (recording v.env.la || replaying v.env.la) then
      LV.toThreads { v with lanes := [v.lane] } s (bumpOrdn neg)
    else s
  let t := countSent s r
  withReqs t (t.fb.reqs ++ [r])

/-- The lanes of a peer's replay, in lane order, and the peers in increasing order. -/
def peersOf (s : State) (e : Env) (f : Fld) (cyc : Nat) (us : List (List Nat)) : List (Nat × List (List Nat)) :=
  let at' := fun (ls : List Nat) => ((viewOf s e f cyc ls).map (·.peer)).getD 0
  let ps := sortBy (fun a b => a ≤ b) (distinctN (us.map at'))
  ps.map fun p => (p, us.filter fun u => at' u == p)

/-- A remote instruction: `check` finds the faults of one unit, `send` issues its request (R399). Entries must be free for all its lanes
(R216). In a replay with a fault the lanes that R368 lets complete send theirs. -/
def remoteOp (o : OpForm) (f : Fld) (s : State) (check : LV → State → Option FaultInfo) (send : LV → State → LaneRes) : Out :=
  match envOf s s.iss.sheet with
  | none => .next s
  | some e =>
    let g := effFld f s.iss.run
    match decodeCheck o f g s.iss with
    | some x => .next (raiseDecode s e.sh x)
    | none =>
      let cyc := issueAt s e.sh
      let last := lastPass o g e.la cyc
      let ls := lanesActing s e g cyc (awakeLanes e.sh)
      let us := unitsOf g.u ls
      let full := 1024 < entriesUsed s e.pl.core + us.length
      let stop : Tally × Bool := if full then (⟨s, [], [], 0, [(ls.headD 0, .table)]⟩, true) else (Tally.start s, false)
      let r := (peersOf s e g cyc us).foldl (fun (r : Tally × Bool) p =>
        if r.2 || !r.1.flt.isEmpty then r
        else
          let units := p.2
          let c := runUnits o g cyc none e.sh.key (fun v s => match check v s with
            | some x => .fault s x
            | none => .ok s []) (Tally.start r.1.s) units
          let go := units.filter fun u => u.all fun l => c.comp.contains l
          let sent := fun (_ : Unit) => runUnits o g cyc none e.sh.key send { r.1 with s := c.s } go
          if c.flt.isEmpty && !c.waits.isEmpty then ({ r.1 with s := c.s, waits := c.waits }, true)
          else if c.flt.isEmpty then (sent (), false)
          else
            let t := sent ()
            let low := t.flt.filter fun x => x.1 / 32 ≤ c.pass
            let all := lowestPass (low ++ c.flt)
            ({ t with flt := all, pass := (all.head?.map fun x => x.1 / 32).getD c.pass }, true)) stop
      let s := timed r.1 e.sh.key cyc last f.stl.toNat (if g.u then us.length else ls.length)
      .next (finish s e.sh.key e.pl.key (maskOf ls) { r.1 with s := s } true)

/-- Releases when `rel`, then goes on with the stamp and the clock before it. -/
def LV.maybeRelease (v : LV) (s : State) (rel : Bool) (k : Option Nat → Nat → State → LaneRes) : LaneRes :=
  let clk := (getAgent s (v.agent s)).c
  if !rel then k none clk s
  else
    match v.release s v.remoteScope.toNat with
    | .error (s, x) => .fault s x
    | .ok (c, s) => k (some c) clk s

/-! ## The instructions -/

def execRld (f : Fld) (s : State) : Out :=
  let n := wBytes f.w
  remoteOp formRld f s (fun v s => v.remoteCheck s n 8 0 false) fun v s =>
    .ok (v.send s (.read n f.d.toNat (f.md.getLsbD 0)) 0 n none (getAgent s (v.agent s)).c) []

def execRst (f : Fld) (s : State) : Out :=
  let n := wBytes f.w
  remoteOp formRst f s (fun v s => v.remoteCheck s n 9 1 false) fun v s =>
    v.maybeRelease s (f.md.getLsbD 1) fun stamp clk s =>
      .ok (v.send s (.write (leBytes n (v.gs 2 f.b.toNat (wCnt f.w)))) 1 n stamp clk) []

/-- The sequence index of an ordered form. -/
def LV.seqIndex (v : LV) : Option Word := if v.f.ord then some (v.g 3 v.f.c.toNat) else none

def execRfop (f : Fld) (s : State) : Out :=
  let n := atmBytes f.atm
  let op := rfopOp f
  remoteOp formRfop f s (fun v s => v.remoteCheck s n 10 2 false) fun v s =>
    v.maybeRelease s (f.md.getLsbD 1) fun stamp clk s =>
      let b := if op < 9 then v.gs 2 f.b.toNat (atmCnt f) else 0
      let d := if op = 8 then v.gs 0 f.d.toNat (atmCnt f) else 0
      let kind := ReqKind.fop op (f.md.getLsbD 2) f.fmt n (BitVec.ofNat 128 b) (BitVec.ofNat 128 d) f.d.toNat (f.md.getLsbD 0) v.seqIndex
      .ok (v.send s kind 2 n stamp clk) []

def execRred (f : Fld) (s : State) : Out :=
  let n := atmBytes f.atm
  remoteOp formRred f s (fun v s => v.remoteCheck s n 10 2 false) fun v s =>
    v.maybeRelease s (f.md.getLsbD 1) fun stamp clk s =>
      let b := v.gs 2 f.b.toNat (atmCnt f)
      .ok (v.send s (.red (rredOp f) (f.md.getLsbD 2) f.fmt n (BitVec.ofNat 64 b) v.seqIndex) 2 n stamp clk) []

def execRmcast (f : Fld) (s : State) : Out :=
  let n := wBytes f.w
  remoteOp formRmcast f s (fun v s => v.remoteCheck s n 11 3 true) fun v s =>
    v.maybeRelease s (f.md.getLsbD 1) fun stamp clk s =>
      let ms := ((v.group s).map (·.members)).getD []
      .ok (v.send s (.mcast ms (leBytes n (v.gs 2 f.b.toNat (wCnt f.w)))) 3 n stamp clk) []

/-- A release at dom that does not wait for the agent's remote writes (R194, R195). -/
def LV.releaseDom (v : LV) (s : State) : Except (State × FaultInfo) (Nat × State) :=
  let r := releaseLocal s (v.who s) 5
  match v.races r.1 r.2 with
  | .error e => .error e
  | .ok s => .ok (bumpClock (v.toThreads s (endTasks 5)) (v.agent s))

/-- The counts that a flag carries: those of the planes of the agent's set to the peer (R403). -/
def LV.counts (v : LV) (s : State) : List (Nat × Nat) :=
  let set := pathSet s (v.agent s) v.env.pl.core v.peer
  ((List.range 16).filter fun p => bitN set p).map fun p =>
    (p, ((s.fb.sent.find? fun c => c.1 == v.agent s && c.2.1 == v.peer && c.2.2.1 == p).map (·.2.2.2)).getD 0)

/-- The peers that an agent has written since its last rfence. -/
def wrotePeers (s : State) (k : AgentKey) : List Nat := ((s.fb.wrote.find? fun w => w.1 == k).map (·.2)).getD []

/-- Markers down every plane of the set to each peer. -/
def LV.markers (v : LV) (s : State) (peers : List Nat) : State :=
  peers.foldl (fun s p =>
    (workingPlanes s (pathSet s (v.agent s) v.env.pl.core p)).foldl (fun s plane =>
      let k := freshKey s
      let r : Req := ⟨k.1, .marker, v.agent s, v.env.pl.core, v.env.pl.key, v.t.uid, v.t.tid, v.iss.pc, p, 0, 0, plane, none, 0,
        v.env.la.tag, 5, raceMode v.env.la, false, v.env.cx.cid, [], false, [], none, 0, 0, []⟩
      withReqs k.2 (k.2.fb.reqs ++ [r])) s) s

/-- A fence of an agent: markers to each peer that it has written, or, with more than 64 of them, a wait as drain's: none (R402). -/
def LV.fence (v : LV) (s : State) : Option State :=
  let k := v.agent s
  let peers := wrotePeers s k
  let busy := s.fb.reqs.any fun r => r.agent == k && r.kind != .marker
  if 64 < peers.length && busy then none
  else
    let s := if 64 < peers.length then s else v.markers s peers
    some { s with fb := { s.fb with wrote := s.fb.wrote.filter fun w => w.1 != k } }

def execRflag (f : Fld) (s : State) : Out :=
  let n := wBytes f.w
  remoteOp formRflag f s (fun v s => v.remoteCheck s n 9 1 false) fun v s =>
    let clk := (getAgent s (v.agent s)).c
    match if f.md.getLsbD 2 then some s else v.fence s with
    | none => .wait s .remote
    | some s =>
      match v.releaseDom s with
      | .error (s, x) => .fault s x
      | .ok (c, s) =>
        let v' : LV := { v with f := { v.f with scope := 5 } }
        .ok (v'.send s (.flag (leBytes n (v.gs 2 f.b.toNat (wCnt f.w))) (f.md.getLsbD 2) (v.counts s)) 1 n (some c) clk) []

/-! ## rfence and rpath (R402, R404) -/

def execRfence (f : Fld) (s : State) : Out :=
  onceOp formRfence f s fun v s =>
    match v.fence s with
    | none => .wait s .remote
    | some s =>
      match v.releaseDom s with
      | .error (s, x) => .fault s x
      | .ok (_, s) => .ok s []

/-- An agent's path sets after setting one: newest first, at most 8. -/
def putPath (s : State) (k : AgentKey) (peer mask : Nat) : State :=
  let mine := (s.fb.paths.filter fun p => p.1 == k && p.2.1 != peer)
  let rest := s.fb.paths.filter fun p => p.1 != k
  let mine := if mask = 0 then mine else ((k, peer, mask) :: mine).take 8
  { s with fb := { s.fb with paths := mine ++ rest } }

def execRpath (f : Fld) (s : State) : Out :=
  vec formRpath f s fun v s =>
    let x := (v.g 1 f.a.toNat).toNat
    let peer := (v.k 0 f.d.toNat).toNat
    let k := v.agent s
    if 65536 ≤ x ∨ 8 < popN 16 x then .fault s v.reservedX
    else
      let t := putPath s k peer x
      let leaving := fun (p : Nat) => bitN (pathSet s k v.env.pl.core peer) p && !bitN (pathSet t k v.env.pl.core peer) p
      if s.fb.reqs.any fun r => r.agent == k && r.node == peer && r.kind != .marker && leaving r.plane then .wait s .remote
      else .ok t []

end Sys2Proof.Machine
end

