-- ==== Sys2Proof/Machine/Fabric.lean ====
section
/-! DEFINITION. Events of the fabric: requests, flags and markers at their destinations, acknowledgements, failing planes, link
training, what other packages send, and a host function's accesses (R168, R193 to R195, R216, R218, R391, R393, R397, R398, R403,
R405). -/

namespace Sys2Proof.Machine

def getReq (s : State) (key : Nat) : Option Req := s.fb.reqs.find? fun r => r.key == key

/-- Performs a request at its destination when nothing that must come before it is left; holds it there otherwise. -/
def performOrHold (s : State) (key : Nat) : State :=
  match getReq s key with
  | none => s
  | some r =>
    if !unperformed r then s
    else
      let held := setReq s { r with held := true }
      if s.fb.reqs.any (comesBefore s r) then held else (performReq s r).getD held

/-- Performs a request at its destination, after what must come before it (R193, R393). -/
def arriveReq (s : State) (r : Req) : State := performOrHold (performBefore s r) r.key

/-- Performs what was held at its destination and can go on: flags whose counts are met, ordered operations in turn (R210, R403). -/
def retryHeld (s : State) : State :=
  (s.fb.reqs.filter fun r => r.held && unperformed r).foldl (fun s r => performOrHold s r.key) s

/-! ## What other packages send (R391, R393, R403, R421) -/

/-- The bit of PERM that a packet of another package needs: any of these (R391). -/
def permBits (k : RemoteKind) : List Nat :=
  match k with
  | .read _ => [0]
  | .write _ => [1, 3]
  | .flag _ _ _ => [1]
  | _ => [2]

/-- The bytes that a packet of another package names. -/
def remoteBytes (k : RemoteKind) : Nat :=
  match k with
  | .read n => n
  | .write b => b.length
  | .fop _ _ _ n _ _ _ => n
  | .red _ _ _ n _ _ => n
  | .flag b _ _ => b.length
  | .message _ b => b.length
  | _ => 0

/-- True when an aperture of this package is open to a packet of another; without one it fails with cause 3 of R392 and performs
nothing here (R397). -/
def openTo (s : State) (x : RemoteIn) : Bool :=
  let chip := idChip x.agent
  let n := remoteBytes x.kind
  s.fb.aps.any fun a => a.node == s.fb.node && a.dcid == x.dcid && (a.schip == chip || a.schip == 0xFFFF) &&
    (a.scid == x.cid || a.scid == 0xFFFFFFFF) && a.base.toNat ≤ x.addr && x.addr + n ≤ a.base.toNat + a.size.toNat &&
    (permBits x.kind).any fun b => a.perm.getLsbD b

/-- A request of another package as it stands at its destination. -/
def foreignReq (node key : Nat) (x : RemoteIn) (kind : ReqKind) : Req where
  key := key
  kind := kind
  agent := ⟨x.agent, x.launch⟩
  core := 4096
  pal := 0
  uid := 0
  tid := x.tid
  pc := 0
  node := node
  dcid := x.dcid
  addr := x.addr
  plane := x.plane
  rel := x.rel
  clk := x.clk
  tag := x.tag
  scope := x.scope
  mode := x.mode
  held := false
  cid := x.cid
  uids := []
  fatal := false
  flits := []
  spine := none
  ordn := 0
  floor := x.floor
  bad := []

/-- What a request of another package asks for; what is no such request asks for nothing. -/
def foreignKind (k : RemoteKind) : Option ReqKind :=
  match k with
  | .read n => some (.read n 0 false)
  | .write b => some (.write b)
  | .fop op fl fmt n val cmp idx => some (.fop op fl fmt n val cmp 0 false idx)
  | .red op fl fmt n val idx => some (.red op fl fmt n val idx)
  | .flag b ordered counts => some (.flag b ordered counts)
  | _ => none

/-- A message of another package, for a launch of its group here: it is appended when a context of that group owns the mailbox and has
room (R218, R421). -/
def foreignMessage (s : State) (x : RemoteIn) (box : Nat) (bytes : List Byte) : State :=
  let owner := (getLaunch s x.launch).bind fun la =>
    if launchGroup s la = 0 then none else (boxOwners s (box / 16 % 256) (box % 16)).find? fun c => c.cid == la.cid
  match owner with
  | none => s
  | some cx =>
    (sendBox s cx (boxAddr s (box / 16 % 256) (box % 16)) ⟨bytes, [⟨some (⟨x.agent, x.launch⟩, x.scope), x.rel.getD 0⟩]⟩).1

/-- An aperture entry of this package from its 32 bytes (R391). -/
def parseAperture (s : State) (part idx : Nat) (b : List Byte) : Aperture where
  part := part
  idx := idx
  node := s.fb.node
  base := BitVec.ofNat 64 (fieldB b 0 8)
  size := BitVec.ofNat 64 (fieldB b 8 8)
  dcid := BitVec.ofNat 32 (fieldB b 0x10 4)
  scid := BitVec.ofNat 32 (fieldB b 0x14 4)
  schip := fieldB b 0x18 2
  spart := fieldB b 0x1A 1
  perm := BitVec.ofNat 8 (fieldB b 0x1B 1)

/-- A request of another package's agent reaches its home at a node. -/
def takeForeign (s : State) (node : Nat) (x : RemoteIn) (kind : ReqKind) : State :=
  let n := freshKey s
  let r := foreignReq node n.1 x kind
  retryHeld (arriveReq (withReqs n.2 (n.2.fb.reqs ++ [r])) r)

/-- The access kind of a request (R392). -/
def accessKind : ReqKind → Nat
  | .read _ _ _ => 8
  | .mcast _ _ => 11
  | .fop .. => 10
  | .red .. => 10
  | _ => 9

/-- What a request of this package met at another package's home: a failure, with nothing performed there (R397), or a race, which in
report mode is only reported (R229, R230, R398). -/
def failThere (s : State) (chip key : Nat) (why : RemoteFail) : State :=
  match getReq s key with
  | none => s
  | some r =>
    if !unperformed r || r.node ≠ chip || foreign s r then s
    else match why with
      | .denied => reqFail s r (apertureFault r.addr (accessKind r.kind) 3)
      | .check info => reqFail s r ⟨0x3F, r.addr, sliceB info 0 24⟩
      | .race info =>
        let x : FaultInfo := ⟨0x18, r.addr, sliceB info 0 24⟩
        if r.mode = 1 then reqFail s r x
        else if r.mode = 0 then s
        else
          let s := arriveReq s r
          match getReq s key with
          | some q => if q.kind == .ack then setReq s { q with bad := q.bad ++ [faultData x] } else s
          | none => s

/-- A packet of another package arrives. One that names this package as its sender is none. -/
def arriveForeign (s : State) (x : RemoteIn) : State :=
  let chip := idChip x.agent
  let away := fun (part idx : Nat) (a : Aperture) => a.node == chip && a.part == part && a.idx == idx
  if chip = s.fb.node then s
  else match x.kind with
    | .message box bytes => foreignMessage s x box bytes
    | .aperture part idx e =>
      { s with fb := { s.fb with aps := putBy (away part idx) { parseAperture s part idx e with node := chip } s.fb.aps } }
    | .closed part idx => { s with fb := { s.fb with aps := s.fb.aps.filter fun a => !away part idx a } }
    | .failed key why => failThere s chip key why
    | .sqopen size first => openPeerWin s ⟨chip, x.dcid, x.addr, size, first, []⟩
    | .sqclose => ((s.fb.pwins.find? fun w => w.node == chip && w.dcid == x.dcid && w.base == x.addr).map (closePeerWin s)).getD s
    | .there node k => if node = s.fb.node then s else (foreignKind k).elim s (takeForeign s node x)
    | k => if openTo s x then (foreignKind k).elim s (takeForeign s s.fb.node x) else s

/-- REMOTE_REQUEST_ARRIVAL (R393): a request of this package reaches its destination, or one of another package reaches this one. -/
def execRemoteRequestArrival (a : Arrival) (s : State) : Out :=
  match a with
  | .foreign x => .next (arriveForeign s x)
  | .own k =>
    match getReq s k with
    | none => .next s
    | some r => .next (if unperformed r then retryHeld (arriveReq s r) else s)

/-- REMOTE_FLAG_ARRIVAL (R403): a flag is performed, or held until its counts are met. -/
def execRemoteFlagArrival (a : Arrival) (s : State) : Out :=
  match a with
  | .foreign x => match x.kind with
    | .flag _ _ _ => .next (arriveForeign s x)
    | _ => .next s
  | .own k =>
    match getReq s k with
    | none => .next s
    | some r => match r.kind with
      | .flag _ _ _ => .next (arriveReq s r)
      | _ => .next s

/-- FENCE_MARKER_ARRIVAL (R194): a marker goes when every remote write ahead of it has been performed, and stays until then. -/
def execFenceMarkerArrival (k : Nat) (s : State) : Out :=
  match getReq s k with
  | none => .next s
  | some r =>
    if r.kind != .marker then .next s
    else
      let ahead := fun (s : State) => s.fb.reqs.filter fun q =>
        q.agent == r.agent && q.node == r.node && q.key < r.key && isRemoteWrite q && !isMcast q
      let s := (ahead s).foldl arriveReq s
      .next (if (ahead s).isEmpty then delReq s r else s)

/-! ## Acknowledgements and engine faults (R397, R398) -/

/-- Reports what a request met after issue: a failure stops the context, a race does so in fault mode. -/
def reportReq (s : State) (r : Req) : State :=
  let s := setReq s { r with bad := [] }
  let pl := getPallet s r.pal
  match (pl.bind fun p => getLaunch s p.launch), getCtx s r.cid with
  | some la, some cx =>
    r.bad.foldl (fun s b =>
      let x : FaultInfo := ⟨b.1, b.2.1, b.2.2⟩
      if r.fatal || r.mode == 1 then engineFatal s la cx pl r.pc.toNat r.tid x
      else engineReport s la cx pl r.pc.toNat r.tid x) s
  | _, _ => s

/-- Every report that is due. -/
def reportReqs (s : State) : State := (s.fb.reqs.filter fun r => !r.bad.isEmpty).foldl reportReq s

/-- REMOTE_ACK_ARRIVAL (R193, R216): the acknowledgement frees its entry. -/
def execRemoteAckArrival (k : Nat) (s : State) : Out :=
  match getReq s k with
  | none => .next s
  | some r => if r.kind == .ack then .next (delReq (reportReq s r) r) else .next s

/-! ## Planes and links (R397, R403, R405) -/

/-- What the failure of a plane does to one request that is not performed. -/
def planeLost (s : State) (plane : Nat) (r : Req) : State :=
  let discarded := match r.kind with
    | .flag _ true counts => r.held && counts.any fun c => c.1 == plane
    | _ => false
  if discarded then delReq s r
  else if r.plane ≠ plane || foreign s r then s
  else if isRemoteWrite r then reqFail s r (unreachableFault r.node r.addr)
  else
    match workingPlanes s (pathSet s r.agent r.core r.node) with
    | p :: _ => setReq s { r with plane := p }
    | [] => reqFail s r (unreachableFault r.node r.addr)

/-- MORTAR_PLANE_FAILURE (R397, R403). -/
def execMortarPlaneFailure (plane : Nat) (s : State) : Out :=
  let s := { s with fb := { s.fb with planes := s.fb.planes &&& ~~~(1#16 <<< plane) } }
  let lost := s.fb.reqs.filter fun r => unperformed r && (r.node != s.fb.node || foreign s r)
  let s := lost.foldl (fun s r => planeLost s plane r) s
  .next (reportReqs (withReqs s (s.fb.reqs.filter fun r => !(r.kind == .marker && r.plane == plane))))

/-- The link-protocol version that this package supports (R405). -/
def linkVersion : Nat := 0x0100

/-- LINK_TRAINING (R405): the highest version that both sides support; without one the link stays down. -/
def execLinkTraining (port : Nat) (versions : List Nat) (s : State) : Out :=
  let v := if versions.contains linkVersion then linkVersion else 0
  let up := s.fb.planes ||| (1#16 <<< port)
  let down := s.fb.planes &&& ~~~(1#16 <<< port)
  if 16 ≤ port then .next s
  else .next { s with fb := { s.fb with vers := s.fb.vers.set port v, planes := if v = 0 then down else up } }

/-! ## A host function's access (R168, R178, R231) -/

/-- HOST_MEMORY_ACCESS (R168): a host function reads or writes the memory of a context of its own partition at its home. It is not
bound by WR or EX, is never checked for races, and is recorded with launch tag 0 (R222, R231). A read's bytes go to the host; a
refused access changes nothing. -/
def execHostMemoryAccess (fn : Nat) (cid : Word) (va : Dword) (wr : Bool) (bytes : List Byte) (s : State) : Out :=
  match getCtx s cid with
  | none => .next s
  | some cx =>
    if ((getPart s cx.part).map (·.vf)) != some fn then .next s
    else match translate s cx (accHost wr) va.toNat bytes.length with
    | .error _ => .next s
    | .ok (ps, s) =>
      if !wr then .next s
      else
        let w : Who := ⟨hostAgent s fn, 0, cx, 0, 0⟩
        .next (unitWrite (noteTexts s cid ps bytes) w 6 0 ps bytes .plain)

end Sys2Proof.Machine
end

