-- ==== Sys2Proof/Machine/Collector.lean ====
section
/-! DEFINITION. Contributions of pair threads: collectors, sequencers, and the close of the two windows of a pair launch (R343 to
R348). -/

namespace Sys2Proof.Machine

/-! ## The pair record's flags and windows (R333, R343, R347) -/

def PRec.isSelf (p : PRec) : Bool := p.flags.getLsbD 0
def PRec.isOrd (p : PRec) : Bool := p.flags.getLsbD 1
def PRec.causal (p : PRec) : Bool := p.flags.getLsbD 2
def PRec.excl (p : PRec) : Bool := p.flags.getLsbD 3

/-- The window of a role's targets: true for set B's. Two windows with one base are one: an sqclose names both, and R344 orders what
they apply (R347). -/
def PRec.winOf (p : PRec) (role : Bool) : Bool := role && p.tbbase != p.tabase

/-- The bytes that a window spans (R347). -/
def PRec.winSize (p : PRec) (setB : Bool) : Nat :=
  if setB then p.bcnt * p.tbstr
  else if p.tbbase = p.tabase then max (p.acnt * p.tastr) (p.bcnt * p.tbstr) else p.acnt * p.tastr

/-- The windows that pair launches open over their targets and that are not yet closed: (set, base, size) (R347). -/
def pairWindows (la : Launch) (closed : List (Nat × Bool)) : List (Bool × Nat × Nat) :=
  match la.p with
  | none => []
  | some p =>
    let a := if closed.contains (la.key, false) then [] else [(false, p.tabase, p.winSize false)]
    let b := if closed.contains (la.key, true) || !p.winOf true then [] else [(true, p.tbbase, p.winSize true)]
    a ++ b

/-- MODE as an effect: 1 anti, 2 sym, 3 one. -/
def pairMode (p : PRec) (md : Nat) : Nat := if md = 0 then p.mode + 1 else md

/-- The targets of a contribution of pair (i, j): role and first address (R343). -/
def pairTargets (p : PRec) (mode : Nat) (i j : Word) : List (Bool × Nat) :=
  let a := (false, pairTarget p false i.toNat)
  if mode = 3 then [a] else [a, (true, pairTarget p true j.toNat)]

/-- The values that a role receives: anti inverts the sign for j. -/
def roleVals (mode : Nat) (role : Bool) (c : List Word) : List Word :=
  if role && mode == 1 then c.map fun x => x ^^^ 0x80000000#32 else c

/-! ## Additions (R345) -/

/-- f32 addition: ne, subnormals kept, canonical NaN, no flags. -/
def addKeep (x y : Word) : Word :=
  BitVec.ofNat 32 (ff32.finish 0 false false (addFV 0 (ff32.val x.toNat) (ff32.val y.toNat))).1

/-- Adds a contribution's components to a partial's; a component not yet there is taken as it is. -/
def addComps (old : List (Nat × Word)) (c : List Word) : List (Nat × Word) :=
  c.zipIdx.foldl (fun acc x =>
    match acc.find? fun y => y.1 == x.2 with
    | some y => updIf (fun z => z.1 == x.2) (x.2, addKeep y.2 x.1) acc
    | none => acc ++ [(x.2, x.1)]) old

/-! ## Collectors (R344, R346, R348) -/

/-- A free entry of the overflow area. -/
def freeSpill (s : State) (la : Launch) (p : PRec) : Option Nat :=
  let used := (s.en.contribs.filter fun c => c.launch == la.key).filterMap (·.slot)
  (List.range (min (p.ovsize / 32) (used.length + 1))).find? fun i => !used.contains i

/-- The pair-overflow fault (R348). -/
def overflowFault : FaultInfo := faultOf 0x20 0 []

/-- What a spill writes into its entry: the format is not architectural, so the bytes are free (R348). -/
def spillBytes (tick entry : Nat) : List Byte := (List.range 32).map fun i => Config.byte tick (entry * 32 + i)

/-- Buffers an ordered contribution in the collector of a pallet's core; when it must spill is free, and no entry may be left. -/
def bufferOne (s : State) (la : Launch) (cx : Ctx) (p : PRec) (c : Contrib) : Except FaultInfo State :=
  let keep := fun (s : State) (slot : Option Nat) =>
    let s := withContribs s (s.en.contribs ++ [{ c with slot := slot, issue := s.en.sqNo }])
    { s with en := { s.en with sqNo := s.en.sqNo + 1 } }
  if Config.choice s.tick (c.addr * 2 + boolN c.role) then
    match freeSpill s la p with
    | none => .error overflowFault
    | some i =>
      let agent := ((getPallet s c.pal).map (palletAgent s)).getD (hubAgent s)
      let s' := (deviceWrite s cx agent (p.ovbase + 32 * i) (spillBytes s.tick i) .plain).getD s
      .ok (keep s' (some i))
  else .ok (keep s none)

/-- A launch that records or replays its negative: its partials go with 16 contributions or at the close, and sequencers add them in one
order, so that a replay's sums are those of the recording (R346, R365; log 107). -/
def steady (la : Launch) : Bool := recording la || replaying la

/-- Adds an unordered contribution into the partial of its target and role. The partial goes to its sequencer with 16
contributions, or when the collector needs the space: free. -/
def absorb (s : State) (launch pal addr : Nat) (role : Bool) (partner : Word) (vals : List Word) : State :=
  let same := fun (q : Partial) => q.launch == launch && q.pal == pal && q.addr == addr && q.role == role && !q.sent
  let old := (s.en.parts.find? same).getD ⟨launch, pal, addr, role, [], [], false, false⟩
  let froms := old.froms ++ [partner]
  let q := { old with
    froms := froms
    vals := addComps old.vals vals
    sent := decide (16 ≤ froms.length) || (!(getLaunch s launch).any steady && Config.choice s.tick (addr * 2 + boolN role)) }
  withParts s ((s.en.parts.filter fun q => !same q) ++ [q])

/-! ## Sequencers (R344 to R347) -/

/-- Adds one word of a partial into its target at its home. -/
def applyWord (s : State) (la : Launch) (cx : Ctx) (q : Partial) (k : Nat) (x : Word) : Except FaultInfo State :=
  match getPallet s q.pal with
  | none => .ok s
  | some pl =>
    match translate s cx accOther (q.addr + 4 * k) 4 with
    | .error f => .error f
    | .ok (ps, s) =>
      match ps.findSome? fun p => poisonCheck s p with
      | some f => .error { f with addr := q.addr + 4 * k }
      | none =>
        let who : Who := ⟨palletAgent s pl, pl.core, cx, la.tag, raceMode la⟩
        let s := settleUnit s who ps
        let old : Word := BitVec.ofNat 32 (ofLe (physRead s ps))
        .ok (unitWrite s who 4 (getAgent s who.agent).c ps (leBytes 4 (addKeep old x).toNat) .keep)

/-- Adds the words of a partial: the state, what is left, and the fault that stopped it. -/
def applyWords (s : State) (la : Launch) (cx : Ctx) (q : Partial) :
    List (Nat × Word) → State × List (Nat × Word) × Option FaultInfo
  | [] => (s, [], none)
  | (k, x) :: r =>
    match applyWord s la cx q k x with
    | .error f => (s, (k, x) :: r, some f)
    | .ok s => applyWords s la cx q r

/-- Who closes a window: the PC and the thread that an engine fault's record names. -/
structure PairCloser where
  pc  : Nat
  tid : Word

/-- A launch's end closes with PC 0 and thread identity 0xFFFF_FFFF (R347). -/
def PairCloser.ended : PairCloser := ⟨0, 0xFFFFFFFF⟩

/-- Applies one partial: it leaves the list, or stays with what is left, its fault taken (R347). Answers whether it is done. -/
def applyPartial (s : State) (la : Launch) (cx : Ctx) (c : PairCloser) (q : Partial) : State × Bool :=
  let r := applyWords s la cx q q.vals
  let put := fun (l : List Partial) => withParts r.1 ((r.1.en.parts.flatMap fun x => if x == q then l else [x]))
  match r.2.2 with
  | none =>
    let s := put []
    ({ s with en := { s.en with papp := s.en.papp ++ q.froms.map fun f => (q.launch, q.addr, q.role, f) } }, true)
  | some f =>
    let pl := getPallet s q.pal
    if f.code = 0x09 then (engineSoft (put [{ q with vals := r.2.1, paused := true }]) la cx pl c.pc c.tid f, false)
    else (engineFatal (put []) la cx pl c.pc c.tid f, false)

/-- The k-th partial on its way arrives at its sequencer (R346); while a close applies partials, they come in its order. -/
def partialArrives (s : State) (k : Nat) : State :=
  match s.en.parts[k]? with
  | none => s
  | some q =>
    let closing := s.en.wins.any fun w => w.launch == q.launch && w.phase == 2
    if !q.sent || q.paused || closing then s
    else
      match getLaunch s q.launch with
      | none => s
      | some la =>
        if steady la then s else
        match getCtx s la.cid with
        | none => s
        | some cx => (applyPartial s la cx .ended q).1

/-- SEQUENCER_PARTIAL_ARRIVAL (R346). -/
def execSequencerPartialArrival (k : Nat) (s : State) : Out := .next (partialArrives s k)

/-! ## Closing (R344, R347) -/

/-- The order of contributions at a close (R344): targets apart, rank, role i first, partner, sub-index, thread, issue. -/
def contribBefore (a b : Contrib) : Bool :=
  let key := fun (c : Contrib) => [c.addr, c.rank, boolN c.role, c.partner.toNat, c.sub.toNat, c.tid.toNat, c.issue]
  ((key a).zip (key b)).foldr (fun x r => x.1 < x.2 || (x.1 == x.2 && r)) true

/-- Forms one partial for each target, rank and role of sorted contributions. -/
def formPartials : List Contrib → List (Nat × Partial) → List (Nat × Partial)
  | [], acc => acc.reverse
  | c :: r, [] => formPartials r [(c.rank, ⟨c.launch, c.pal, c.addr, c.role, [c.partner], addComps [] c.vals, true, false⟩)]
  | c :: r, (rank, q) :: acc =>
    if q.addr = c.addr ∧ rank = c.rank ∧ q.role = c.role then
      formPartials r ((rank, { q with froms := q.froms ++ [c.partner], vals := addComps q.vals c.vals }) :: acc)
    else
      formPartials r ((c.rank, ⟨c.launch, c.pal, c.addr, c.role, [c.partner], addComps [] c.vals, true, false⟩) :: (rank, q) :: acc)

/-- Applies the partials of a closing window, in the order in which they were sent; the window is freed when none is left. -/
def applyPairWin (s : State) (la : Launch) (cx : Ctx) (p : PRec) (setB : Bool) (c : PairCloser) (w : Window) : Nat → State
  | 0 => s
  | fuel + 1 =>
    match s.en.parts.find? fun q => q.launch == la.key && p.winOf q.role == setB with
    | none => delWin s w
    | some q =>
      let r := applyPartial s la cx c q
      if r.2 then applyPairWin r.1 la cx p setB c w fuel else setWin r.1 w { w with paused := true }

/-- A pair launch's window as it closes (R347). -/
def pairWin (la : Launch) (cx : Ctx) (p : PRec) (setB : Bool) (uid : Nat) : Window :=
  ⟨la.key, none, cx.cid, if setB then p.tbbase else p.tabase, p.winSize setB, 0, [], [], [], 2, uid, false⟩

/-- The order in which a close applies the partials that have been formed: a steady launch's by target and core. -/
def partsInOrder (s : State) (la : Launch) (l : List Partial) : List Partial :=
  let core := fun (q : Partial) => ((getPallet s q.pal).map (·.core)).getD 0
  if steady la then sortBy (fun a b => a.addr < b.addr || (a.addr == b.addr && core a ≤ core b)) l else l

/-- Closes one of a pair launch's windows: every collector forms and sends its partials, the sequencers apply them. `uid` is the
closing thread, 0 at launch end. -/
def closePairWin (s : State) (la : Launch) (cx : Ctx) (p : PRec) (setB : Bool) (c : PairCloser) (uid : Nat) : State :=
  let mine := fun (x : Contrib) => x.launch == la.key && p.winOf x.role == setB
  let formed := (formPartials (sortBy contribBefore (s.en.contribs.filter mine)) []).map (·.2)
  let here := fun (q : Partial) => q.launch == la.key && p.winOf q.role == setB
  let parts := (s.en.parts.filter fun q => !here q) ++
    partsInOrder s la ((s.en.parts.filter here).map fun q => { q with sent := true }) ++ formed
  let w := pairWin la cx p setB uid
  let s := { s with en := { s.en with
    contribs := s.en.contribs.filter fun x => !mine x
    parts := parts
    pclosed := s.en.pclosed ++ [(la.key, setB)]
    wins := s.en.wins ++ [w] } }
  applyPairWin s la cx p setB c w (parts.length + 1)

/-- Goes on with a close after service. -/
def resumePairWin (s : State) (la : Launch) (cx : Ctx) (c : PairCloser) (w : Window) : State :=
  match la.p with
  | none => delWin s w
  | some p =>
    let s := withParts s (s.en.parts.map fun q => if q.launch == la.key then { q with paused := false } else q)
    let w' := { w with paused := false }
    let setB := p.winOf true && w.base == p.tbbase
    applyPairWin (setWin s w w') la cx p setB c w' (s.en.parts.length + 1)

/-- The pair window that an sqclose at an address names (R347). -/
def pairWinAt (la : Launch) (closed : List (Nat × Bool)) (a : Nat) : Option Bool :=
  ((pairWindows la closed).find? fun w => w.2.1 == a).map (·.1)

end Sys2Proof.Machine
end

