-- ==== Sys2Proof/Machine/Matcher.lean ====
section
/-! DEFINITION. The pair matcher: cells and ranges (R335, R336), the tests (R337), exclusions (R339), the walk (R338, R340), and the
creation of pair threads (R341, R354, R360). -/

namespace Sys2Proof.Machine

/-- A matcher: its pallet, launch, context and pair record. -/
structure MEnv where
  pl : Pallet
  la : Launch
  cx : Ctx
  p  : PRec
  deriving DecidableEq, Repr

def matcherEnv (s : State) (pal : Nat) : Option MEnv := do
  let pl ← getPallet s pal
  let la ← getLaunch s pl.launch
  let cx ← getCtx s la.cid
  let p ← la.p
  return ⟨pl, la, cx, p⟩

/-- A computation that reads memory, or meets a fault. -/
abbrev MRead := StateT State (Except FaultInfo)

/-- A relaxed load of the pallet agent, never checked for races (R340). -/
def mBytes (m : MEnv) (va n : Nat) : MRead (List Byte) := fun s =>
  match translate s m.cx (accMatcher.at m.pl.core 0) va n with
  | .error x => .error x
  | .ok (ps, s) =>
    match ps.findSome? fun p => poisonCheck s p with
    | some x => .error { x with addr := va }
    | none =>
      let r := loadPhys s ⟨palletAgent s m.pl, m.pl.core, m.cx, m.la.tag, 0⟩ ⟨1, false, false, false, false, 2⟩ ps
      .ok (r.bytes, r.s)

def mWord (m : MEnv) (va : Nat) : MRead Nat := do
  let b ← mBytes m va 4
  return ofLe b

def mFail {α : Type} (x : FaultInfo) : MRead α := fun _ => .error x

/-- A malformed array (R340). -/
def mBad {α : Type} (addr cause : Nat) : MRead α := mFail (protFault addr 7 10 cause)

/-! ## Cells and ranges -/

def PRec.cells (p : PRec) : Nat := p.nx * p.ny * p.nz
def MEnv.ranges (m : MEnv) : Nat := min m.p.cells (64 * m.la.pals)
def MEnv.rangeLo (m : MEnv) (q : Nat) : Nat := q * m.p.cells / m.ranges
def MEnv.rangeOf (m : MEnv) (cell : Nat) : Nat := ((cell + 1) * m.ranges - 1) / m.p.cells

/-- The rank of the range that holds a cell of set A or B. -/
def MEnv.rank (m : MEnv) (setB : Bool) (cell : Nat) : Nat :=
  m.rangeOf cell + (if setB && !m.p.isSelf then m.ranges else 0)

/-- The pallet number of a rank (R336). -/
def rankPallet (la : Launch) (rank : Nat) : Nat := genSlot la.r.seed la.pals rank

/-- The home core of a rank. -/
def rankCore (s : State) (la : Launch) (rank : Nat) : Nat :=
  ((s.cs.pallets.find? fun p => p.launch == la.key && p.num == rankPallet la rank).map (·.core)).getD 0

def MEnv.count (m : MEnv) (setB : Bool) : Nat := if setB then m.p.bcnt else m.p.acnt
def MEnv.cellBase (m : MEnv) (setB : Bool) : Nat := if setB then m.p.bcell else m.p.acell

/-- The records of a cell: the indices from its entry to the next, checked (R335, R340). -/
def cellRecords (m : MEnv) (setB : Bool) (cell : Nat) : MRead (Nat × Nat) := do
  let base := m.cellBase setB + 4 * cell
  let n := m.count setB
  let lo ← mWord m base
  if n < lo then mBad base 1
  else
    let hi ← mWord m (base + 4)
    if hi < lo ∨ n < hi then mBad (base + 4) 1
    else if cell + 1 = m.p.cells ∧ hi ≠ n then mBad (base + 4) 2
    else return (lo, hi)

/-- Coordinates within 1 of a coordinate and inside the grid. -/
def nearby (n c : Nat) : List Nat := (if c = 0 then [c, c + 1] else [c - 1, c, c + 1]).filter fun x => x < n

/-- The neighbour cells of a cell in increasing number (R337). -/
def neighbours (p : PRec) (cell : Nat) : List Nat :=
  let cx := cell % p.nx
  let cy := cell / p.nx % p.ny
  let cz := cell / p.nx / p.ny
  (nearby p.nz cz).flatMap fun z => (nearby p.ny cy).flatMap fun y => (nearby p.nx cx).map fun x => x + p.nx * (y + p.ny * z)

/-- The first record of a set at or above j in a list of cells, with its cell. -/
def recordIn (m : MEnv) (setB : Bool) (j : Nat) : List Nat → MRead (Option (Nat × Nat))
  | [] => return none
  | c :: r => do
    let w ← cellRecords m setB c
    if max j w.1 < w.2 then return some (max j w.1, c) else recordIn m setB j r

/-- The cell that holds a record. -/
def cellOf (m : MEnv) (setB : Bool) (idx : Nat) : MRead Nat := do
  let x ← recordIn m setB idx (List.range m.p.cells)
  return (x.map (·.2)).getD 0

/-- The next candidate of a record in a cell, at or above j (R338); for dot every block is a neighbour. -/
def nextCand (m : MEnv) (cell j : Nat) : MRead (Option (Nat × Nat)) :=
  recordIn m true j (if m.p.test = 4 then List.range m.p.cells else neighbours m.p cell)

/-! ## Tests (R337) -/

/-- What a pair thread's f0 to f3 hold: dx, dy, dz and s. -/
structure PairVals where
  dx : Word
  dy : Word
  dz : Word
  s  : Word
  deriving DecidableEq, Repr

def negKeep (x : Word) : Word := x ^^^ 0x80000000#32
def subKeep (x y : Word) : Word := BitVec.ofNat 32 (ff32.finish 0 false false (addFV 0 (ff32.val x.toNat) (ff32.val y.toNat).negate)).1
def mulKeep (x y : Word) : Word := BitVec.ofNat 32 (ff32.finish 0 false false (mulFV (ff32.val x.toNat) (ff32.val y.toNat))).1

/-- x ≤ y; false with a NaN. -/
def leKeep (x y : Word) : Bool :=
  let a := ff32.val x.toNat
  let b := ff32.val y.toNat
  !a.isNan && !b.isNan && leFV a b

def absKeep (x : Word) : Word := x &&& 0x7FFFFFFF#32

/-- The number of f32 values that a test reads of a position. -/
def PRec.dims (p : PRec) : Nat :=
  match p.test with
  | 0 => 3
  | 1 => 2
  | 2 => 3
  | 3 => 1
  | _ => p.dotd

def dotVals : List (Word × Word) → Option Word → Word
  | [], acc => acc.getD 0
  | (a, b) :: r, none => dotVals r (some (mulKeep a b))
  | (a, b) :: r, some x => dotVals r (some (addKeep x (mulKeep a b)))

/-- The values formed from two positions. -/
def pairVals (p : PRec) (a b : List Word) : PairVals :=
  let d := fun (k : Nat) => subKeep (nthD a k 0) (nthD b k 0)
  let sq := fun (x : Word) => mulKeep x x
  match p.test with
  | 1 => ⟨d 0, d 1, 0, addKeep (sq (d 0)) (sq (d 1))⟩
  | 3 => ⟨d 0, 0, 0, sq (d 0)⟩
  | 4 => ⟨dotVals (a.zip b) none, 0, 0, 0⟩
  | _ => ⟨d 0, d 1, d 2, addKeep (addKeep (sq (d 0)) (sq (d 1))) (sq (d 2))⟩

/-- Whether the pair passes its test. -/
def pairTest (p : PRec) (a b : List Word) (v : PairVals) : Bool :=
  match p.test with
  | 0 => leKeep v.s p.cut
  | 1 => leKeep v.s p.cut
  | 2 => leKeep (absKeep v.dx) p.hx && leKeep (absKeep v.dy) p.hy && leKeep (absKeep v.dz) p.hz
  | 3 => leKeep (absKeep v.dx) p.cut && (!p.causal || leKeep (nthD b 0 0) (nthD a 0 0))
  | _ => leKeep p.cut v.dx

/-- The position of a record. -/
def position (m : MEnv) (setB : Bool) (idx : Nat) : MRead (List Word) := do
  let a := if setB then m.p.bbase + idx * m.p.bstr + m.p.bpos else m.p.abase + idx * m.p.astr + m.p.apos
  let b ← mBytes m a (4 * m.p.dims)
  return (List.range m.p.dims).map fun k => BitVec.ofNat 32 (fieldB b (4 * k) 4)

/-! ## Exclusions (R339) -/

/-- The position in XIDX of i's entry that matches j: entries from k on, `top` the largest kept so far. -/
def exclFind (m : MEnv) (j : Nat) : Nat → Nat → Option Nat → MRead (Option Nat)
  | 0, _, _ => return none
  | n + 1, k, top => do
    let x ← mWord m (m.p.xidx + 4 * k)
    let keep := x < m.p.bcnt && (match top with | some t => t < x | none => true)
    if keep && x == j then return some k
    else exclFind m j n (k + 1) (if keep then some x else top)

/-- The position of the matching entry of i's row, if there is one. -/
def excluded (m : MEnv) (i j : Nat) : MRead (Option Nat) :=
  if !m.p.excl then return none
  else do
    let lo ← mWord m (m.p.xrow + 4 * i)
    let hi ← mWord m (m.p.xrow + 4 * i + 4)
    if hi < lo then mBad (m.p.xrow + 4 * i + 4) 3 else exclFind m j (hi - lo) lo none

/-! ## Creating pair threads (R341) -/

/-- A thread at its start: declared registers zero, tags none (R11, R12). -/
def freshThread (la : Launch) (uid : Nat) (tid : Word) : Thread where
  uid := uid
  tid := tid
  g := List.replicate la.r.gcnt 0
  gp := []
  f := List.replicate la.r.fcnt 0
  ft := List.replicate la.r.fcnt 0
  q := List.replicate 8 0
  e := List.replicate 16 0
  ret := 0
  fpf := 0
  watch := none
  ordn := 0
  hods := 0
  ops := []
  pair := none
  trap := none
  skip := false
  task := []

/-- A pair thread: g0 to g2 and f0 to f4 of R341; a register beyond the declared count does not exist. -/
def pairThread (la : Launch) (uid : Nat) (tid : Word) (q : PairInfo) : Thread :=
  let t := freshThread la uid tid
  let gs := [q.i, q.j, q.flags]
  { t with
    g := (gs ++ t.g.drop 3).take la.r.gcnt
    f := (q.vals.map (fun x => x.setWidth 64) ++ t.f.drop 5).take la.r.fcnt
    ft := (List.replicate 5 (2 : BitVec 4) ++ t.ft.drop 5).take la.r.fcnt
    pair := some q }

/-- The identity of a new pair thread and the state after it is given (R13, R360, R362): `a` the argument of H, `parent` and `ordn`
what the negative names, `agent` who acts. None while the creation waits for its turn. -/
def pairIdent (s : State) (la : Launch) (pal : Pallet) (ordered : Bool) (a : Nat) (agent : AgentKey) (parent : Word) (ordn : Nat) :
    Except FaultInfo (Option (Word × State)) :=
  if ordered then .ok (some (orderedId la.r.seed pal.num (a % 2 ^ 64), s))
  else
    let id := unorderedId pal
    match negTurn s la.key ⟨5, pal.core, parent.toNat⟩ agent parent ordn id with
    | .fault x => .error x
    | .wait => .ok none
    | .go s res => .ok (some (res.getD id, bumpSpawn s pal.key))

/-- Creates a pair thread in a pallet. -/
def createPair (s : State) (la : Launch) (pal : Nat) (tid : Word) (pc : Dword) (q : PairInfo) : State :=
  let u := freshKey s
  enterStore u.2 pal pc (pairThread la u.1 tid q) zeroK .ready

/-! ## The walk (R338) -/

/-- What one candidate leads to. -/
inductive Cand where
  | next                              -- the record has no more candidates
  | no (j : Nat)                      -- not accepted, or dropped
  | yes (j cell : Nat) (v : PairVals) (scale : Option Word)

/-- Looks at the next candidate of record i. -/
def lookCand (m : MEnv) (cell i j : Nat) : MRead Cand := do
  let c ← nextCand m cell (if m.p.isSelf then max j (i + 1) else j)
  match c with
  | none => return .next
  | some (j, cj) =>
    let a ← position m false i
    let b ← position m true j
    let v := pairVals m.p a b
    if !pairTest m.p a b v then return .no j
    else
      let x ← excluded m i j
      match x with
      | none => return .yes j cj v none
      | some k =>
        if m.p.xscl = 0 then return .no j
        else
          let w ← mWord m (m.p.xscl + 4 * k)
          return .yes j cj v (some (BitVec.ofNat 32 w))

/-- The thread state that a pair starts with. -/
def pairInfo (s : State) (m : MEnv) (i j cellI cellJ pos : Nat) (v : PairVals) (scale : Option Word) (fut : Option Word) : PairInfo :=
  let ri := m.rank false cellI
  let rj := m.rank true cellJ
  { i := BitVec.ofNat 32 i
    j := BitVec.ofNat 32 j
    flags := if scale.isSome then 1 else 0
    homeI := BitVec.ofNat 8 (rankCore s m.la ri)
    homeJ := BitVec.ofNat 8 (rankCore s m.la rj)
    pos := BitVec.ofNat 32 pos
    rankI := BitVec.ofNat 32 ri
    rankJ := BitVec.ofNat 32 rj
    vals := [v.dx, v.dy, v.dz, v.s, scale.getD 0x3F800000]
    done := 0
    fut := fut }

/-- A matcher's fault (R340): a translation fault pauses it, any other stops the context. -/
def matcherFault (s : State) (m : MEnv) (x : FaultInfo) (pause : State → State) : State :=
  let pc := m.la.r.entry.toNat
  if x.code = 0x09 then engineSoft (pause s) m.la m.cx (some m.pl) pc 0xFFFFFFFF x
  else engineFatal s m.la m.cx (some m.pl) pc 0xFFFFFFFF x

def pausedMatcher (pal : Nat) (s : State) : State :=
  match getPallet s pal with
  | some p => setPallet s { p with mwait := true }
  | none => s

def moveMatcher (s : State) (pal : Nat) (h : Pallet → Pallet) : State :=
  match getPallet s pal with
  | some p => setPallet s (h p)
  | none => s

/-- One candidate of the walk; false when the matcher cannot go on now. -/
def walkOne (s : State) (pal : Nat) : State × Bool :=
  match matcherEnv s pal with
  | none => (s, false)
  | some m =>
    let pl := m.pl
    match pl.mpos with
    | [] => (moveMatcher s pal fun p => { p with mdone := true }, false)
    | q :: rest =>
      if m.rangeLo (q + 1) ≤ pl.mcell then
        let next := rest.headD 0
        (moveMatcher s pal fun p => { p with mpos := rest, mcell := m.rangeLo next, mi := 0, mj := 0, mseq := 0 }, true)
      else
        match (cellRecords m false pl.mcell).run s with
        | .error x => (matcherFault s m x (pausedMatcher pal), false)
        | .ok ((lo, hi), s) =>
          let i := max pl.mi lo
          if hi ≤ i then (moveMatcher s pal fun p => { p with mcell := p.mcell + 1, mj := 0 }, true)
          else
            match (lookCand m pl.mcell i pl.mj).run s with
            | .error x => (matcherFault s m x (pausedMatcher pal), false)
            | .ok (.next, s) => (moveMatcher s pal fun p => { p with mi := i + 1, mj := 0 }, true)
            | .ok (.no j, s) => (moveMatcher s pal fun p => { p with mi := i, mj := j + 1 }, true)
            | .ok (.yes j cj v sc, s) =>
              if !entryRoom s pal then (s, false)
              else
                let pos := pl.mseq
                let a := 2 ^ 63 + m.rank false pl.mcell * 2 ^ 32 + pos
                match pairIdent s m.la pl m.p.isOrd a (palletAgent s pl) 0xFFFFFFFF pl.mops with
                | .error x => (matcherFault s m x id, false)
                | .ok none => (s, false)
                | .ok (some (tid, s)) =>
                  let info := pairInfo s m i j pl.mcell cj pos v sc none
                  let s := createPair s m.la pal tid m.la.r.entry info
                  (moveMatcher s pal fun p => { p with
                    mi := i
                    mj := j + 1
                    mseq := pos + 1
                    mops := p.mops + 1
                    macc := p.macc ++ [(info.i, info.j, info.pos)] }, true)

/-! ## Relaunched pairs (R354) -/

/-- The sequence position of an accepted pair, 0xFFFF_FFFF for one the matcher never accepted (R351). -/
def acceptedPos (s : State) (launch : Nat) (i j : Word) : Nat :=
  ((s.cs.pallets.filter fun p => p.launch == launch).findSome? fun p =>
    (p.macc.find? fun x => x.1 == i && x.2.1 == j).map (·.2.2.toNat)).getD 0xFFFFFFFF

/-- Everything that a relaunched pair's creation reads: cells, values and scale. -/
def readPair (m : MEnv) (i j : Nat) : MRead (Nat × Nat × PairVals × Option Word) := do
  let ci ← cellOf m false i
  let cj ← cellOf m true j
  let a ← position m false i
  let b ← position m true j
  let x ← excluded m i j
  match x with
  | some k =>
    if m.p.xscl = 0 then return (ci, cj, pairVals m.p a b, none)
    else
      let w ← mWord m (m.p.xscl + 4 * k)
      return (ci, cj, pairVals m.p a b, some (BitVec.ofNat 32 w))
  | none => return (ci, cj, pairVals m.p a b, none)

def dropRelaunch (s : State) (r : Relaunch) : State := withRelq s (s.en.relq.filter fun x => x.fut != r.fut)

def pauseRelaunch (r : Relaunch) (s : State) : State :=
  withRelq s (updIf (fun x => x.fut == r.fut) { r with paused := true } s.en.relq)

/-- Creates the thread of a relaunched pair: the pallet that holds i's range acquires the release, and the future has begun. -/
def createRelaunch (s : State) (r : Relaunch) : State :=
  match matcherEnv s r.pal with
  | none => s
  | some m =>
    match (readPair m r.i.toNat r.j.toNat).run s with
    | .error x => matcherFault s m x (pauseRelaunch r)
    | .ok ((ci, cj, v, sc), s) =>
      match s.cs.pallets.find? fun p => p.launch == m.la.key && p.num == rankPallet m.la (m.rank false ci) with
      | none => s
      | some p =>
        if !entryRoom s p.key then s
        else
          let a := r.tid.toNat * 2 ^ 32 + r.ordn
          match pairIdent s m.la p m.p.isOrd a r.agent r.tid r.ordn with
          | .error x => matcherFault s m x id
          | .ok none => s
          | .ok (some (tid, s)) =>
            let info := pairInfo s m r.i.toNat r.j.toNat ci cj (acceptedPos s m.la.key r.i r.j) v sc (some r.fut)
            let s := createPair (palletAcquire s p.key 4 [markOf r.agent 4 r.stamp]) m.la p.key tid r.pc info
            let s := match getFuture s r.fut with
              | some u => setFuture s { u with begun := true }
              | none => s
            dropRelaunch s r

/-! ## The event -/

def walkSome (s : State) (pal : Nat) : Nat → State
  | 0 => s
  | n + 1 =>
    let r := walkOne s pal
    if r.2 then walkSome r.1 pal n else r.1

/-- PAIR_MATCHER_WALK: relaunched pairs of the pallet, then up to 256 candidates (R338). The matcher goes on while its pallet's sheets
are paused for a fault of a pair thread (R349). -/
def matcherWalk (s : State) (pal : Nat) : State :=
  match getPallet s pal with
  | none => s
  | some p =>
    if p.st == .ended || p.st == .switched || p.st == .stopped then s
    else
      let s := (s.en.relq.filter fun r => r.pal == pal && !r.paused).foldl createRelaunch s
      if p.mwait || p.mdone then s else walkSome s pal 256

def execPairMatcherWalk (pal : Nat) (s : State) : Out := .next (matcherWalk s pal)

end Sys2Proof.Machine
end

