-- ==== Sys2Proof/Machine/SeqWin.lean ====
section
/-! DEFINITION. Sequence windows (R209 to R212): opening and closing. -/

namespace Sys2Proof.Machine

/-- The tray of a place, none for global memory. -/
def trayOf : Place → Option Nat
  | .tray pal _ => some pal
  | _ => none

/-- The number under which a window's region is held: the virtual address, or the tray offset. -/
def regionAddr (p : Place) (addr : Nat) : Nat :=
  match p with
  | .tray _ off => off
  | _ => addr

/-- Who closes a window: the pallet, PC and thread that an engine fault's record names. -/
structure Closer where
  pl  : Option Pallet
  pc  : Nat
  tid : Word

/-- The stamps of buffered contributions as marks. -/
def itemMarks (launch : Nat) (l : List SqItem) : List Mark :=
  l.filterMap fun x => x.stamp.map fun c => markOf ⟨x.agent, launch⟩ x.scope.toNat c

/-- Faults the ordered fetch-operations that still wait in a window at its close, with cause 7 (R209, R212): a lane's, or a request
that waits at its home. The fault is fatal, so the first of them stops the context. -/
def failWaits (s : State) (w : Window) : State :=
  w.waits.foldl (fun s x =>
    match s.fb.reqs.find? fun r => r.key == x.1 with
    | some r => reqFail s r (winFault r.addr 7)
    | none =>
      match s.cs.sheets.find? fun sh => sh.lanes.any fun l => l.2.uid == x.1 with
      | none => s
      | some sh =>
        match envOf s sh.key, sh.lanes.find? fun l => l.2.uid == x.1 with
        | some e, some l =>
          fatalRecord s e.la e.cx 0x0A (laneRecord s e sh.pc l.1 l.2 (winFault x.2.2 7) 2)
        | _, _ => s) s

/-- Applies what a closing window still buffers, in order, then faults what waits in it and frees the window; or leaves it paused by
a replayable fault, or stops the context on a fatal one with the rest discarded (R209, R211). -/
def applyWin (s : State) (la : Launch) (cx : Ctx) (c : Closer) (w : Window) : Nat → State
  | 0 => s
  | fuel + 1 =>
    match sortBy sqBefore w.buf with
    | [] => failWaits (delWin s w) w
    | x :: rest =>
      match applySq s cx la.tag (raceMode la) w x with
      | .error f =>
        if f.code = 0x09 then engineSoft (setWin s w { w with paused := true }) la cx c.pl c.pc c.tid f
        else engineFatal (delWin s w) la cx c.pl c.pc c.tid f
      | .ok s =>
        let w' := { w with buf := rest, stamp := w.stamp ++ itemMarks w.launch [x] }
        applyWin (setWin s w w') la cx c w' fuel

/-- Begins a close (R209): no operation joins the window any more. -/
def closeWin (s : State) (la : Launch) (cx : Ctx) (c : Closer) (uid : Nat) (w : Window) : State :=
  let w' := { w with phase := 1, closer := uid }
  applyWin (setWin s w w') la cx c w' (w.buf.length + 1)

/-- Goes on with a close after service. -/
def resumeWin (s : State) (la : Launch) (cx : Ctx) (c : Closer) (w : Window) : State :=
  let w' := { w with paused := false }
  applyWin (setWin s w w') la cx c w' (w.buf.length + 1)

/-! ## Turns of ordered fetch-operations (R210) -/

/-- The turn of a lane's ordered fetch-operation with index n. -/
def LV.sqTurn (v : LV) (s : State) (p : Place) (addr : Nat) (n : Word) : SqTurn :=
  Machine.sqTurn s v.env.la.key v.t.uid (trayOf p) (regionAddr p addr) addr n

/-! ## sqopen and sqclose -/

/-- The fault of an sqopen, or the place of its region (R209, R212). -/
def LV.sqRegion (v : LV) (s : State) (a size : Nat) : Except FaultInfo (Place × State) :=
  if size % 4 ≠ 0 ∨ size < 4 ∨ 65536 < size ∨ a % 4 ≠ 0 then .error (winFault a 6)
  else
    match v.place s accOther v.f.spc.toNat a (if v.f.spc = 0 then 4 else size) with
    | .error x => .error (if x.code = 0x0C then winFault a 6 else x)
    | .ok (p, s) =>
      match p with
      | .glob ps =>
        let beyond := ps.any fun q => 2 ^ pageBits q.leaf.lvl < a - q.leaf.base + size
        if beyond then .error (winFault a 6) else .ok (p, s)
      | _ => .ok (p, s)

/-- Stamps the words of a region, as a release-ordered write to them would; a page without translation keeps no record (R179,
R186). -/
def stampRegion (s : State) (cx : Ctx) (tray : Option Nat) (base size : Nat) (k : AgentKey) (eff : RelEffect) : State :=
  match tray with
  | some pal =>
    match getPallet s pal with
    | none => s
    | some p => setPallet s { p with trel := (piecesOf 7 base size).foldl (fun t q =>
        relUpdate t (q.1 / 128) (lineWords (q.1 / 128) q.1 q.2) k eff) p.trel }
  | none =>
    (piecesOf 16 base size).foldl (fun s q =>
      match translate s cx accOther q.1 q.2 with
      | .error _ => s
      | .ok (ps, s) => ps.foldl (fun s p => (piecesOf 7 p.pa p.len).foldl (fun s r =>
          foldRel (withRel s (relUpdate s.ms.rel (r.1 / 128) (lineWords (r.1 / 128) r.1 r.2) k eff)) (r.1 / 128)) s) s) s

/-- A lane's release whose object is a window's region (R179). -/
def LV.releaseRegion (v : LV) (s : State) (tray : Option Nat) (base size : Nat) : Except (State × FaultInfo) State :=
  let sc := v.f.scope.toNat
  (v.release s sc).map fun r => stampRegion r.2 v.env.cx tray base size (v.agent s) (.stamp r.1 sc)

def execSqopen (f : Fld) (s : State) : Out :=
  vec formSqopen f s fun v s =>
    let a := v.addr false
    let size := (v.g 2 v.f.b.toNat).toNat
    match v.sqRegion s a size with
    | .error x => .fault s x
    | .ok (p, s) =>
      let la := v.env.la
      let base := regionAddr p a
      let ws := openWins s la.key
      let hit := ws.any (fun w => w.tray == trayOf p && overlaps w.base w.size base size) ||
        ((trayOf p).isNone && (pairWindows la s.en.pclosed).any fun r => overlaps r.2.1 r.2.2 base size)
      if hit || 64 ≤ ws.length then .fault s (winFault a 4)
      else
        match if v.f.md.getLsbD 1 then v.releaseRegion s (trayOf p) base size else .ok s with
        | .error (s, x) => .fault s x
        | .ok s => .ok (withWins s (s.en.wins ++
            [⟨la.key, trayOf p, v.env.cx.cid, base, size, v.g 3 v.f.c.toNat, [], [], [], 0, 0, false⟩])) []

/-- The place an sqclose names. A global base is not translated: the units are, when they are applied (R211). -/
def LV.sqPlace (v : LV) (s : State) (a : Nat) : Except FaultInfo (Place × State) :=
  if v.f.spc = 0 then .ok (.glob [], s)
  else match v.check s accOther a 4 true with
    | .error x => .error (if x.code = 0x0C then winFault a 5 else x)
    | .ok r => .ok r

/-- After the contributions are applied: with ar, an acquire of their stamps, then a release into the region (R179). -/
def LV.sqDone (v : LV) (s : State) (w : Window) (marks : List Mark) : LaneRes :=
  if v.f.md.toNat % 4 = 3 then
    match v.releaseRegion (v.acquire s v.f.scope.toNat marks) w.tray w.base w.size with
    | .error (s, x) => .fault s x
    | .ok s => .ok s []
  else .ok s []

/-- A closing window of a thread. -/
def closingBy (s : State) (launch uid : Nat) : Option Window :=
  s.en.wins.find? fun w => w.launch == launch && w.phase != 0 && w.closer == uid

/-- What a close has come to: the lane is done when its window is no longer closing. -/
def LV.sqAfter (v : LV) (s : State) (w : Window) : LaneRes :=
  if (closingBy s v.env.la.key v.t.uid).isSome then .wait s .other
  else v.sqDone s w (w.stamp ++ itemMarks w.launch w.buf)

def execSqclose (f : Fld) (s : State) : Out :=
  vec formSqclose f s fun v s =>
    let la := v.env.la
    let c : Closer := ⟨some v.env.pl, v.iss.pc.toNat, v.t.tid⟩
    let pc : PairCloser := ⟨v.iss.pc.toNat, v.t.tid⟩
    match closingBy s la.key v.t.uid with
    | some w =>
      if w.paused then .wait s .other
      else v.sqAfter (if w.phase = 2 then resumePairWin s la v.env.cx pc w else resumeWin s la v.env.cx c w) w
    | none =>
      let a := v.addr true
      match v.sqPlace s a with
      | .error x => .fault s x
      | .ok (p, s) =>
        let own := (openWins s la.key).find? fun w => w.tray == trayOf p && w.base == regionAddr p a
        let pair := if (trayOf p).isNone then pairWinAt la s.en.pclosed a else none
        if own.isNone && pair.isNone then .fault s (winFault a 5)
        else
          let before := fun (s : State) (w : Window) =>
            if v.f.md.toNat % 4 = 2 then v.releaseRegion s w.tray w.base w.size else .ok s
          match own, pair, la.p with
          | some w, _, _ =>
            match before s w with
            | .error (s, x) => .fault s x
            | .ok s => v.sqAfter (closeWin s la v.env.cx c v.t.uid w) w
          | none, some setB, some q =>
            let w := pairWin la v.env.cx q setB v.t.uid
            match before s w with
            | .error (s, x) => .fault s x
            | .ok s => v.sqAfter (closePairWin s la v.env.cx q setB pc v.t.uid) w
          | none, _, _ => .ok s []

end Sys2Proof.Machine
end

