-- ==== Sys2Proof/Machine/Course.lean ====
section
/-! DEFINITION. The course table (R244, R245), generations (R251, R254), pinning (R26, R248), the course group (R246 to R250) and the
course barriers (R252, R253). -/

namespace Sys2Proof.Machine

/-! ## Finding a course -/

/-- A course and where it is held. -/
structure CourseAt where
  pal  : Nat
  slot : Nat
  c    : Course

/-- The course that a handle names for a thread of pallet p (R244). -/
def courseOf (s : State) (p : Pallet) (h : Word) : Option CourseAt :=
  let core := bitsN h.toNat 22 8
  let slot := bitsN h.toNat 0 6
  let cl := h.getLsbD 31
  match s.cs.pallets.find? fun q => q.launch == p.launch && q.core == core with
  | none => none
  | some q =>
    match sGet q.table slot with
    | none => none
    | some c =>
      if !h.getLsbD 30 && bitsN h.toNat 6 16 == sGetD q.ser slot 0 % 2 ^ 16 && cl == c.clus &&
          (if cl then core / 8 == p.core / 8 else q.key == p.key) then some ⟨q.key, slot, c⟩
      else none

def putCourse (s : State) (pal slot : Nat) (c : Course) : State :=
  match getPallet s pal with
  | none => s
  | some p => setPallet s { p with table := sPut p.table slot c }

/-- The course fault (R249): cause, member count, handle, tiles requested and free. -/
def courseFault (cause count : Nat) (h : Word) (req free : Nat) : FaultInfo :=
  faultOf 0x15 0 [(0x28, 1, cause), (0x2A, 2, if cause ≤ 2 then 0 else count), (0x2C, 4, h.toNat), (0x30, 1, req), (0x31, 1, free)]

/-! ## Generations (R251) -/

/-- What follows an event on a course: the open generation completes when every expected member has arrived. -/
def courseEvent (c : Course) : Course :=
  if c.expected.all fun m => c.arrived.contains m then
    { c with
      gen := c.gen + 1
      lastSt := c.openSt
      openSt := []
      expected := c.members
      arrived := [] }
  else c

/-- A member leaves (R254). -/
def courseLeave (c : Course) (m : Nat × Nat) : Course :=
  courseEvent { c with
    members := c.members.filter fun x => x != m
    expected := c.expected.filter fun x => x != m
    arrived := c.arrived.filter fun x => x != m
    pinAt := c.pinAt.filter fun x => x.1 != m.2 }

/-! ## Pinning (R26, R248) -/

/-- A stored thread of a pallet, by name. -/
def storedOf (s : State) (pal uid : Nat) : Option Entry := s.cs.store.find? fun e => e.pal == pal && e.thr.uid == uid

def mapStored (s : State) (pal uid : Nat) (h : Entry → Entry) : State :=
  mapStore s fun e => if e.pal == pal && e.thr.uid == uid then h e else e

/-- Tiles of the pallet's share that no pinned course holds. -/
def tilesFree (la : Launch) (p : Pallet) : Nat :=
  la.r.tiles - sumN (p.table.map fun c => if c.2.pinned then c.2.tiles.length else 0)

/-! A tile of a parked pallet or of an evicted sheet stands in a park area (R31, R379). It keeps its number until another course needs
that register, then it goes under a number from 128 up, and it takes a free register again when its pallet or sheet is restored. -/

/-- Tiles that courses of a core's pallets hold, in registers or in park areas. -/
def heldTiles (s : State) (core : Nat) : List Nat :=
  (s.cs.pallets.filter fun q => q.core == core).flatMap fun q => q.table.flatMap fun c => c.2.tiles

/-- Tile registers that courses of a core's active pallets occupy; an evicted course's stand in its park area. -/
def seatedTiles (s : State) (core : Nat) : List Nat :=
  (s.cs.pallets.filter fun q => q.core == core && q.st == .active).flatMap fun q =>
    (q.table.filter fun c => !s.cs.sheets.any fun sh => sh.pal == q.key && sh.course == some c.1 && sh.evicted).flatMap fun c => c.2.tiles

/-- Moves tile a of a core's courses to number b; register a keeps the values. -/
def retile (s : State) (core a b : Nat) : State :=
  let ren := fun (n : Nat) => if n == a then b else n
  let s := mapPallets s fun q =>
    if q.core == core then { q with table := q.table.map fun c => (c.1, { c.2 with tiles := c.2.tiles.map ren }) } else q
  let s := withTiles s (s.cs.tiles.flatMap fun t =>
    if t.core == core && t.num == a then [{ t with act := false }, { t with num := b }]
    else if t.core == core && t.num == b then [] else [t])
  { s with en := { s.en with
    mmas := s.en.mmas.map fun m => if m.core == core then { m with tile := ren m.tile } else m
    batches := s.en.batches.map fun x => { x with tiles := x.tiles.map fun t => if t.1 == core then (core, ren t.2) else t } } }

/-- The lowest number from 128 up that no course of a core has. -/
def areaTile (s : State) (core : Nat) : Nat :=
  let held := heldTiles s core
  (((List.range (held.length + 1)).map (128 + ·)).find? fun i => !held.contains i).getD 128

/-- Takes the n lowest tile registers of a core that no course occupies and `got` does not name. -/
def takeTiles (s : State) (core : Nat) : Nat → List Nat → List Nat × State
  | 0, got => (got, s)
  | n + 1, got =>
    match (List.range 128).find? fun i => !(seatedTiles s core).contains i && !got.contains i with
    | none => (got, s)
    | some i => takeTiles (if (heldTiles s core).contains i then retile s core i (areaTile s core) else s) core n (got ++ [i])

/-- A fault of a thread that waits in the spawn store, at the instruction where it waits: diverted with a handler, else fatal. -/
def faultStored (s : State) (la : Launch) (cx : Ctx) (p : Pallet) (uid : Nat) (pc : Dword) (x : FaultInfo) : State :=
  match storedOf s p.key uid with
  | none => s
  | some en =>
    let handled := la.r.handler != 0 && en.thr.trap.isNone
    let who : RecWho := ⟨pc.toNat, en.thr.tid, 0xFFFFFFFF, boolN en.thr.trap.isSome * 8 + boolN en.thr.pair.isSome * 2, p.expo, p.rwc⟩
    let x := match en.thr.pair with
      | some q => { x with info := pairInfoBytes s la q }
      | none => x
    let record := trapRecord cx who x (if handled then 1 else 2)
    if handled then
      let r := softRecord s la cx x.code record
      let c : TrapCtx := ⟨record, pc, en.pc, none, false⟩
      mapStored r.1 p.key uid fun e => { e with
        pc := la.r.handler
        thr := { e.thr with trap := some c }
        sleep := if r.2 then .ready else .trapSlot record true }
    else fatalRecord s la cx x.code record

/-- Faults of every member that waits at the pin. -/
def faultWaiting (s : State) (la : Launch) (cx : Ctx) (p : Pallet) (ws : List (Nat × Dword × Nat)) (x : FaultInfo) : State :=
  ws.foldl (fun s w => faultStored s la cx p w.1 w.2.1 x) s

/-- A fault that another thread's instruction raises in a lane: it names the instruction at which the lane's sheet stands, and a
handler returns there (R248; log 96). -/
def faultLaneAt (s : State) (key lane : Nat) (x : FaultInfo) : State :=
  match envOf s key with
  | none => s
  | some e =>
    match laneThread e.sh lane with
    | none => s
    | some t =>
      match classOf e t x with
      | .handled =>
        let record := laneRecord s e e.sh.pc lane t x 1
        let r := softRecord s e.la e.cx x.code record
        let c : TrapCtx := ⟨record, e.sh.pc, e.sh.pc, if e.sh.course.isSome then some (key, lane) else none, false⟩
        let y := divertLane r.1 e e.sh lane t c (if r.2 then .ready else .trapSlot record true)
        putSheet y.1 y.2
      | _ => fatalRecord s e.la e.cx x.code (laneRecord s e e.sh.pc lane t x 2)

/-- Faults of the members that have not arrived, but for one: where they wait, or where they run (R248). -/
def faultRest (s : State) (la : Launch) (cx : Ctx) (p : Pallet) (ms : List (Nat × Nat)) (arrived : List Nat) (self : Nat)
    (x : FaultInfo) : State :=
  (ms.filter fun m => m.2 != self && !arrived.contains m.2).foldl (fun s m =>
    match storedOf s p.key m.2 with
    | some en => faultStored s la cx p m.2 en.pc x
    | none =>
      match s.cs.sheets.find? fun sh => sh.pal == m.1 && sh.lanes.any fun l => l.2.uid == m.2 with
      | none => s
      | some sh =>
        match sh.lanes.find? fun l => l.2.uid == m.2 with
        | some l => faultLaneAt s sh.key l.1 x
        | none => s) s

/-- The verdict on a pin whose members have all arrived, or whose arrivals disagree: the fault that every member raises. -/
def pinFault (s : State) (la : Launch) (p : Pallet) (slot : Nat) (c : Course) (n : Nat) : Option FaultInfo :=
  let h := courseHandle p slot
  let imgs := c.members.filterMap fun m => (storedOf s p.key m.2).map (·.k)
  if c.members.length > 32 * la.r.depth ∨ (imgs.any fun k => k != imgs.headD []) ∨ (c.pinAt.any fun x => x.2.2 != n) then
    some (courseFault 8 c.members.length h 0 0)
  else if n > tilesFree la p then some (courseFault 9 c.members.length h n (tilesFree la p))
  else none

/-- Marks a course pinned and gives it its tiles; the sheet is formed as soon as a slot is free. -/
def pinNow (s : State) (p : Pallet) (slot : Nat) (c : Course) (n : Nat) : State :=
  let r := takeTiles s p.core n []
  putCourse r.2 p.key slot { c with pinned := true, tiles := r.1 }

/-- Decides a pin after an arrival or a leave, when every member is in the spawn store. -/
def decidePin (s : State) (la : Launch) (cx : Ctx) (pal slot : Nat) : State :=
  match getPallet s pal with
  | none => s
  | some p =>
    match sGet p.table slot with
    | none => s
    | some c =>
      if c.pinned || c.pinAt.isEmpty || !(c.members.all fun m => c.pinAt.any fun x => x.1 == m.2) then s
      else
        let n := ((c.pinAt.getLast?).map fun x => x.2.2).getD 0
        match pinFault s la p slot c n with
        | none => pinNow s p slot c n
        | some x =>
          let s := putCourse s pal slot { c with pinAt := [] }
          faultWaiting s la cx p c.pinAt x

/-- True while a pinned course's members wait for its sheet. -/
def awaitsSheet (c : Course) : Bool := c.pinned && !c.pinAt.isEmpty

/-- Forms the sheet of a course that has been pinned and whose members wait, in a slot when it is given one (R26). -/
def formPinned (s : State) (pal slot : Nat) (at? : Option Nat := none) : State :=
  match getPallet s pal with
  | none => s
  | some p =>
    match sGet p.table slot, getLaunch s p.launch with
    | some c, some la =>
      let es := c.members.filterMap fun m => storedOf s pal m.2
      let used := (s.cs.sheets.filter fun sh => sh.pal == pal && onCore sh).length
      if !awaitsSheet c || es.length != c.members.length || sheetSlots la ≤ used then s
      else
        match at?.or (chooseSlot s p.core) with
        | none => s
        | some sl =>
          let k := freshKey s
          let lanes := es.zipIdx.map fun e => (e.2, e.1.thr)
          let cols := (List.range 32).filter fun i => i < es.length
          let sh : Sheet := {
            key := k.1
            pal := pal
            slot := sl
            pc := (es.head?.map (·.pc)).getD 0
            lanes := lanes
            ks := cols.map fun i => (i, (es.head?.map (·.k)).getD zeroK)
            em := maskOf (lanes.map (·.1))
            m := List.replicate 8 0
            course := some slot
            done := 0
            run := []
            runPc := 0
            pend := []
            notBefore := s.cs.cyc
            lastIssue := s.cs.cyc
            waitAll := false
            stalled := false
            why := .none
            heldBy := []
            sleep := []
            halted := false
            qwait := none
            evicted := false }
          let s := addSheet k.2 sh
          let s := withStore s (s.cs.store.filter fun e => !(e.pal == pal && c.members.any fun m => m.2 == e.thr.uid))
          putCourse s pal slot { c with pinAt := [] }
    | _, _ => s

/-! ## Leaving -/

/-- Removes a thread from a course and decides what that completes (R248, R254). -/
def leaveCourse (s : State) (la : Launch) (cx : Ctx) (pal slot : Nat) (m : Nat × Nat) : State :=
  match (getPallet s pal).bind fun p => sGet p.table slot with
  | none => s
  | some c => decidePin (putCourse s pal slot (courseLeave c m)) la cx pal slot

/-- A free thread that ends leaves every course it belongs to (R25). -/
def leaveAll (s : State) (la : Launch) (cx : Ctx) (m : Nat × Nat) : State :=
  (s.cs.pallets.filter fun p => p.launch == la.key).foldl (fun s p =>
    (p.table.filter fun c => c.2.members.contains m).foldl (fun s c => leaveCourse s la cx p.key c.1 m) s) s

/-! ## The course group -/

/-- The thread as a member. -/
def LV.member (v : LV) : Nat × Nat := (v.env.pl.key, v.t.uid)

/-- The handle operand. -/
def LV.handle (v : LV) : Word := v.g 1 v.f.a.toNat

/-- Cause 7: not by a member of a pinned course (R27, R249). -/
def pinnedFault (v : LV) (h : Word) : Option FaultInfo :=
  match v.env.sh.course with
  | none => none
  | some c => some (courseFault 7 (((sGet v.env.pl.table c).map (·.members.length)).getD 0) h 0 0)

/-- Runs a body on the course that gA names, for a free thread. -/
def onCourse (v : LV) (s : State) (body : CourseAt → Word → LaneRes) : LaneRes :=
  let h := v.handle
  match pinnedFault v h with
  | some x => .fault s x
  | none =>
    match courseOf s v.env.pl h with
    | none => .fault s (courseFault 2 0 h 0 0)
    | some c => body c h

def execCcreate (f : Fld) (s : State) : Out :=
  vec formCcreate f s fun v s =>
    match getPallet s v.env.pl.key with
    | none => .ok s []
    | some p =>
      match lowestFree (p.table.map (·.1)) 64 with
      | none => .fault s (courseFault 1 0 0 0 0)
      | some slot =>
        let p := { p with table := sPut p.table slot ⟨f.md.getLsbD 0, [], false, [], 0, [], [], [], [], [], [], false⟩ }
        .ok (setPallet s p) [.g f.d.toNat (courseHandle p slot)]

def execCfree (f : Fld) (s : State) : Out :=
  vec formCfree f s fun v s => onCourse v s fun c h =>
    if c.c.pinned || !c.c.members.isEmpty then .fault s (courseFault 3 c.c.members.length h 0 0)
    else match getPallet s c.pal with
      | none => .ok s []
      | some p => .ok (setPallet s { p with
          table := sDel p.table c.slot
          ser := sPut p.ser c.slot ((sGetD p.ser c.slot 0 + 1) % 2 ^ 16) }) []

def execCjoin (f : Fld) (s : State) : Out :=
  vec formCjoin f s fun v s => onCourse v s fun c h =>
    if c.c.members.contains v.member then .fault s (courseFault 5 c.c.members.length h 0 0)
    else if 128 ≤ c.c.members.length then .fault s (courseFault 4 c.c.members.length h 0 0)
    else .ok (putCourse s c.pal c.slot (courseEvent { c.c with members := c.c.members ++ [v.member] })) []

def execCleave (f : Fld) (s : State) : Out :=
  vec formCleave f s fun v s => onCourse v s fun c h =>
    if !c.c.members.contains v.member then .fault s (courseFault 6 c.c.members.length h 0 0)
    else .ok (leaveCourse s v.env.la v.env.cx c.pal c.slot v.member) []

def execCid (f : Fld) (s : State) : Out :=
  vec formCid f s fun v s =>
    match courseOf s v.env.pl v.handle with
    | none => .fault s (courseFault 2 0 v.handle 0 0)
    | some c =>
      let r := (c.c.members.zipIdx.find? fun m => m.1 == v.member).map (·.2)
      .ok s [.g f.d.toNat (BitVec.ofNat 32 (r.getD 0xFFFFFFFF)), .g (f.d.toNat + 1) (BitVec.ofNat 32 c.c.members.length)]

/-- cpin: the member waits in the spawn store. The last arrival pins the course, or faults with every other member (R248). -/
def execCpin (f : Fld) (s : State) : Out :=
  vec formCpin f s fun v s => onCourse v s fun c h =>
    let count := c.c.members.length
    if c.c.clus then .fault s (courseFault 10 count h 0 0)
    else if !c.c.members.contains v.member then .fault s (courseFault 6 count h 0 0)
    else
      let n := f.md.toNat
      let before := c.c.pinAt
      let c1 := { c.c with pinAt := before ++ [(v.t.uid, v.iss.pc, n)] }
      let fail := fun (x : FaultInfo) =>
        let s := putCourse s c.pal c.slot { c.c with pinAt := [] }
        LaneRes.fault (faultWaiting s v.env.la v.env.cx v.env.pl before x) x
      if before.any fun x => x.2.1 != v.iss.pc then
        let x := courseFault 8 count h 0 0
        match fail x with
        | .fault s x => .fault (faultRest s v.env.la v.env.cx v.env.pl c.c.members (before.map (·.1)) v.t.uid x) x
        | r => r
      else
        match getSheet s v.env.sh.key with
        | none => .wait s .other
        | some sh =>
          match laneThread sh v.lane, getPallet s c.pal with
          | some t, some p =>
            let parked := departLane (putCourse s c.pal c.slot c1) sh v.lane t v.iss.next (.pin c.slot)
            if c1.members.all fun m => c1.pinAt.any fun x => x.1 == m.2 then
              match pinFault parked v.env.la p c.slot c1 n with
              | some x => fail x
              | none => .ok (pinNow parked ((getPallet parked c.pal).getD p) c.slot c1 n) []
            else if entryRoom s c.pal then .ok parked []
            else .wait s .store
          | _, _ => .wait s .other

/-- True while an mma of the course is not complete (R319). -/
def courseBusy (s : State) (pal slot : Nat) : Bool := s.en.mmas.any fun m => m.pal == pal && m.course == slot

/-- cunpin once for a pinned course; in a free thread each lane faults (R248, R259; the order of the causes: log 109). -/
def execCunpin (f : Fld) (s : State) : Out :=
  match envOf s s.iss.sheet with
  | none => .next s
  | some e =>
    match e.sh.course with
    | none =>
      vec formCunpin f s fun v s =>
        match courseOf s v.env.pl v.handle with
        | none => .fault s (courseFault 2 0 v.handle 0 0)
        | some c => .fault s (courseFault (if c.c.clus then 10 else 6) c.c.members.length v.handle 0 0)
    | some slot =>
      let occ : List Nat := e.sh.lanes.map fun l => l.1
      let rest : BitVec 128 := maskOf (occ.drop 1)
      -- a course that is still pinned keeps em, and of the done mask what it had and what its lowest lane adds
      let back := fun (o : Out) => match o with
        | .next t => match getSheet t e.sh.key with
          | some sh =>
            if sh.course.isNone then o
            else .next (setSheet t { sh with em := e.sh.em, done := if sh.done = 0 then 0 else sh.done &&& ~~~rest ||| e.sh.done })
          | none => o
        | o => o
      back <| vec formCunpin f (setSheet s { e.sh with em := maskOf occ, done := rest ||| e.sh.done })
        fun v s =>
          match courseOf s v.env.pl v.handle with
          | none => .fault s (courseFault 2 0 v.handle 0 0)
          | some c =>
            if c.c.clus then .fault s (courseFault 10 c.c.members.length v.handle 0 0)
            else if c.slot ≠ slot then .fault s (courseFault 6 c.c.members.length v.handle 0 0)
            else if courseBusy s v.env.pl.key slot then .wait s .mma
            else
              let s := putCourse s c.pal c.slot { c.c with pinned := false, tiles := [], openB := [] }
              match getSheet s v.env.sh.key with
              | none => .ok s []
              | some sh =>
                .ok (retire (setSheet s { sh with course := none, m := List.replicate 8 0 }) sh.pal (sh.lanes.length - 1)) []

/-! ## Course barriers (R252, R253) -/

/-- R252: SCOPE self is never accepted, core not on a cluster course. -/
def barScope (v : LV) (c : Course) : Option FaultInfo :=
  if v.f.scope = 0 ∨ (v.f.scope = 1 ∧ c.clus) then some (decodeFault 0x02 v.iss (v.f.len.getLsbD 1)) else none

/-- Runs a barrier body on the course that gA names, for a member. -/
def onBarrier (v : LV) (s : State) (body : CourseAt → Word → LaneRes) : LaneRes :=
  let h := v.handle
  match courseOf s v.env.pl h with
  | none => .fault s (courseFault 2 0 h 0 0)
  | some c =>
    match barScope v c.c with
    | some x => .fault s x
    | none =>
      if !c.c.members.contains v.member then .fault s (courseFault 6 c.c.members.length h 0 0) else body c h

/-- An arrival: release, stamp, mark; the generation that it joined goes to `k`. -/
def LV.arrive (v : LV) (s : State) (c : CourseAt) (h : Word) (k : State → BitVec 16 → LaneRes) : LaneRes :=
  if c.c.arrived.contains v.member then .fault s (courseFault 11 c.c.members.length h 0 0)
  else
    match v.release s v.f.scope.toNat with
    | .error (s, x) => .fault s x
    | .ok (stamp, s) =>
      match (getPallet s c.pal).bind fun p => sGet p.table c.slot with
      | none => k s c.c.gen
      | some c' =>
        k (putCourse s c.pal c.slot (courseEvent { c' with openSt := addMark c'.openSt (v.mark s v.f.scope.toNat stamp), arrived := c'.arrived ++ [v.member] }))
          c.c.gen

/-- A wait for generation g: over, or a fault, or the lane sleeps: a free thread in the spawn store, a pinned lane in its sheet. -/
def LV.await (v : LV) (s : State) (c : CourseAt) (h : Word) (g : BitVec 16) (ws : List Wr) : LaneRes :=
  match (getPallet s c.pal).bind fun p => sGet p.table c.slot with
  | none => .ok s ws
  | some c' =>
    let d := c'.gen - g
    if d = 0 then
      let sl := Sleep.cwait c.pal c.slot g v.f.scope
      match getSheet s v.env.sh.key with
      | none => .wait s .other
      | some sh =>
        if sh.course.isSome then .ok (setSheet s { sh with sleep := sPut sh.sleep v.lane sl }) ws
        else
          match laneThread sh v.lane with
          | none => .wait s .other
          | some t => if entryRoom s sh.pal then .ok (departLane s sh v.lane t v.iss.next sl) ws else .wait s .store
    else if d.toNat > 2 ^ 15 then .fault s (courseFault 12 c'.members.length h 0 0)
    else .ok (v.acquire s v.f.scope.toNat c'.lastSt) ws

def carriveBody (f : Fld) (v : LV) (s : State) : LaneRes :=
  onBarrier v s fun c h => v.arrive s c h fun s g => .ok s [.g f.d.toNat (g.setWidth 32)]

def cwaitBody (f : Fld) (v : LV) (s : State) : LaneRes :=
  onBarrier v s fun c h => v.await s c h ((v.g 2 f.b.toNat).setWidth 16) []

/-- A cbar that has arrived and found no room in the spawn store for its wait would arrive twice when it is tried again, so room
comes first (R23), unless its own arrival completes the generation or is refused, so that it does not wait. -/
def cbarBody (_f : Fld) (v : LV) (s : State) : LaneRes :=
  onBarrier v s fun c h =>
    let waits := !c.c.arrived.contains v.member && (courseEvent { c.c with arrived := c.c.arrived ++ [v.member] }).gen == c.c.gen
    if waits && v.env.sh.course.isNone && !entryRoom s v.env.sh.pal then .wait s .store
    else v.arrive s c h fun s g => v.await s c h g []

/-- Lanes in increasing order, as in R253; effects of lanes that complete stand when a later lane faults (R368). -/
def crsLanes (body : LV → State → LaneRes) (vs : List LV) (s : State) : CrsRes :=
  let r := vs.foldl (fun (r : State × List (Nat × List Wr) × List (Nat × FaultInfo)) v =>
    if r.2.2.any fun x => x.1 / 32 < v.lane / 32 then r
    else
      match body v r.1 with
      | .ok s ws => (s, r.2.1 ++ [(v.lane, ws)], r.2.2)
      | .fault s x => (s, r.2.1, r.2.2 ++ [(v.lane, x)])
      | .wait s _ => (s, r.2.1, r.2.2)) (s, [], [])
  if r.2.2.isEmpty then .ok r.1 r.2.1 else .fault r.1 r.2.1 r.2.2

/-- A course barrier: under R29 in a pinned course, lane by lane in free threads. -/
def barrierOp (o : OpForm) (f : Fld) (s : State) (body : LV → State → LaneRes) : Out :=
  match (getSheet s s.iss.sheet).bind (·.course) with
  | none => vec o f s body
  | some _ => crsWith true o f s (fun v => v.m f.c.toNat) (crsLanes body)

def execCarrive (f : Fld) (s : State) : Out := barrierOp formCarrive f s (carriveBody f)
def execCwait (f : Fld) (s : State) : Out := barrierOp formCwait f s (cwaitBody f)
def execCbar (f : Fld) (s : State) : Out := barrierOp formCbar f s (cbarBody f)

/-! ## Wakes from course barriers -/

/-- What a sleeper whose generation has completed acquires. -/
def cwaitOver (s : State) (pal slot : Nat) (g : BitVec 16) : Option (List Mark) :=
  match (getPallet s pal).bind fun p => sGet p.table slot with
  | none => some []
  | some c => if c.gen = g then none else some c.lastSt

end Sys2Proof.Machine
end

