-- ==== Sys2Proof/Machine/Moves.lean ====
section
/-! DEFINITION. Which agent moves next (R32, R33): the sheets that may issue, and the device's own choice when the agenda is empty. -/

namespace Sys2Proof.Machine

/-- A sheet may issue: its pallet is active and not halted, its context runs, none of its lanes keeps it asleep, and after STL 7
every result that it awaits has been written (R59). -/
def mayIssue (s : State) (sh : Sheet) : Bool :=
  (!sh.waitAll || sh.lanes.all fun l => (awaited s l.2.uid).isEmpty) && !sh.halted && sh.qwait.isNone && !sh.evicted && sh.sleep.isEmpty &&
  match getPallet s sh.pal with
  | none => false
  | some p =>
    p.st == .active && (!p.dbg.halt || !sh.run.isEmpty) &&
    match getLaunch s p.launch with
    | none => false
    | some la =>
      match getCtx s la.cid with
      | none => false
      | some c => c.stop.isNone && !outOf c p.core

/-- A sheet that is ready: it may issue, waits for no condition, and its next instruction is not held (R32, R59). -/
def isReady (s : State) (sh : Sheet) : Bool := mayIssue s sh && !sh.stalled && sh.notBefore ≤ s.cs.cyc

/-- The quadrant in which a sheet issues. -/
def issueQuad (s : State) (sh : Sheet) : Nat := palletCore s sh.pal * 4 + sh.slot / 8

/-- The ready sheets of a sheet's quadrant. -/
def readyBeside (s : State) (sh : Sheet) : List Sheet := s.cs.sheets.filter fun x => isReady s x && issueQuad s x == issueQuad s sh

/-- A sheet may be named to issue next: it is what its quadrant chooses among its ready sheets, itself included when its instruction
has waited (R32). -/
def issuesNext (s : State) (sh : Sheet) : Bool :=
  mayIssue s sh && (readyBeside s sh).all fun x => x.key == sh.key || (better s sh x && sh.notBefore ≤ s.cs.cyc)

/-- The sheets of a quadrant that are ready, or may be once their condition is tried again, in the order in which R32 chooses. Ready sheets
are never fused into a group (R33): DESIGN CHOICE, log 95. -/
def candidates (s : State) (quad : Nat) : List Sheet :=
  sortBy (better s) (s.cs.sheets.filter fun sh => mayIssue s sh && sh.notBefore ≤ s.cs.cyc && issueQuad s sh == quad)

/-- The quadrants in which a sheet may issue. -/
def busyQuads (s : State) : List Nat :=
  distinctN ((s.cs.sheets.filter fun sh => mayIssue s sh && sh.notBefore ≤ s.cs.cyc).map (issueQuad s))

/-- A sheet in the middle of a prefix run goes on at once: nothing separates a prefix from its instruction (R64). -/
def inRun (s : State) : Option Sheet := s.cs.sheets.find? fun sh => !sh.run.isEmpty && mayIssue s sh

end Sys2Proof.Machine
end

