-- ==== Sys2Proof/Machine/Sched.lean ====
section
/-! DEFINITION. Pallets on a core: what fits (R30, R31), parking, restoring and swapping (R31, R420), evicting sheets (R379), and the
sheet former (R21, R34). -/

namespace Sys2Proof.Machine

/-! ## What fits (R30) -/

/-- Registers in bytes, tray bytes, tiles and sheet slots. -/
structure Room where
  regs  : Nat
  tray  : Nat
  tiles : Nat
  slots : Nat
  deriving DecidableEq, Repr

def Room.add (a b : Room) : Room := ⟨a.regs + b.regs, a.tray + b.tray, a.tiles + b.tiles, a.slots + b.slots⟩
def Room.sub (a b : Room) : Room := ⟨a.regs - b.regs, a.tray - b.tray, a.tiles - b.tiles, a.slots - b.slots⟩

/-- A core holds 1 MiB of registers, 512 KiB of tray, 128 tiles and 32 sheet slots. -/
def Room.inCore (a : Room) : Bool := a.regs ≤ 1048576 && a.tray ≤ 524288 && a.tiles ≤ 128 && a.slots ≤ 32

/-- Register bytes of one sheet. -/
def sheetRegs (la : Launch) : Nat := 32 * la.r.depth * (4 * la.r.gcnt + 8 * la.r.fcnt)

/-- What a pallet reserves. -/
def palletRoom (la : Launch) : Room := ⟨sheetSlots la * sheetRegs la, la.r.tray, la.r.tiles, sheetSlots la⟩

/-- Tiles that a pinned course's sheet holds. -/
def sheetTiles (p : Pallet) (sh : Sheet) : Nat :=
  match sh.course with
  | some c => ((sGet p.table c).map (·.tiles.length)).getD 0
  | none => 0

/-- What evicting a sheet frees. -/
def sheetRoom (la : Launch) (p : Pallet) (sh : Sheet) : Room := ⟨sheetRegs la, 0, sheetTiles p sh, 1⟩

/-- What an active pallet occupies: its reservation less the slots that evicted sheets left empty and the tiles they took along. -/
def palletUse (s : State) (p : Pallet) : Room :=
  match getLaunch s p.launch with
  | none => ⟨0, 0, 0, 0⟩
  | some la =>
    let out := s.cs.sheets.filter fun sh => sh.pal == p.key && sh.evicted
    let here := (s.cs.sheets.filter fun sh => sh.pal == p.key && onCore sh).length
    let free := min out.length (sheetSlots la - here)
    (palletRoom la).sub ⟨free * sheetRegs la, 0, (out.map (sheetTiles p)).sum, free⟩

def coreUse (s : State) (core : Nat) : Room :=
  (s.cs.pallets.filter fun p => p.core == core && p.st == .active).foldl (fun r p => r.add (palletUse s p)) ⟨0, 0, 0, 0⟩

/-- True when a pallet fits in what the active pallets of its core leave free. -/
def fitsNow (s : State) (p : Pallet) : Bool := ((coreUse s p.core).add (palletUse s p)).inCore

/-! ## Sheet slots (R16, R21) -/

/-- The slot R21 chooses among free ones. -/
def chooseFrom (free : List Nat) : Option Nat :=
  let freeIn := fun (q : Nat) => (free.filter fun i => i / 8 == q).length
  match (List.range 4).filter fun q => freeIn q != 0 with
  | [] => none
  | q0 :: r =>
    let q := r.foldl (fun b q => if freeIn q > freeIn b then q else b) q0
    free.find? fun i => i / 8 == q

/-- The slot of launched sheet n: its quadrant's lowest free one, else R21's. -/
def launchSlot (free : List Nat) (n : Nat) : Option Nat := (free.find? fun i => i / 8 == n % 4).or (chooseFrom free)

/-- Gives sheets slots from a free list. A pallet that was admitted parked takes the slots of R21 too, not R16's, when it first becomes
active: DESIGN CHOICE, log 95. -/
def giveSlots (s : State) : List Sheet → List Nat → State
  | [], _ => s
  | sh :: r, free =>
    let slot := (chooseFrom free).getD sh.slot
    giveSlots (setSheet s { sh with slot := slot, lastIssue := s.cs.cyc, pend := [] }) r (free.filter fun i => i != slot)

/-! ## Parking and restoring (R31, R375) -/

def parkPallet (s : State) (pal : Nat) : State :=
  match getPallet s pal with
  | some p => setPallet s { p with st := .parked, since := s.cs.cyc }
  | none => s

/-- The tiles of a pallet's courses that stand in its park area take registers again, but for an evicted course's (R31, R379). -/
def seatTiles (s : State) (pal : Nat) : State :=
  match getPallet s pal with
  | none => s
  | some p =>
    let mine := (p.table.filter fun c => !s.cs.sheets.any fun sh => sh.pal == pal && sh.course == some c.1 && sh.evicted).flatMap
      fun c => c.2.tiles
    (mine.filter (128 ≤ ·)).foldl (fun s t =>
      match takeTiles s p.core 1 (mine.filter (· < 128)) with
      | ([], s) => s
      | (got, s) => retile s p.core t (got.getLast?.getD t)) s

/-- A parked or serviced pallet becomes active: its sheets take slots and its tiles registers. -/
def restorePallet (s : State) (pal : Nat) : State :=
  match getPallet s pal with
  | none => s
  | some p =>
    let s := giveSlots s (s.cs.sheets.filter fun sh => sh.pal == pal && onCore sh) (freeSlots s p.core)
    seatTiles (setPallet s { p with st := .active, since := s.cs.cyc }) pal

/-- True for a pallet that may become active: its context is not switched out of the core. -/
def waitsForCore (s : State) (p : Pallet) : Bool :=
  (p.st == .parked || p.st == .eligible) &&
  !((((getLaunch s p.launch).bind fun la => getCtx s la.cid).map fun c => outOf c p.core).getD true)

/-- A stall that is a long event (R31). -/
def longStall : Stall → Bool
  | .future _ => true
  | .box => true
  | .store => true
  | .ring => true
  | .mma => true
  | _ => false

/-- A sheet waits on a long event (R31): a future, a course's mma (R319), a barrier, an mwait, a message, room in the
spawn store or in a ring (R423). -/
def longWait (sh : Sheet) : Bool :=
  !sh.sleep.isEmpty || (sh.stalled && longStall sh.why)

/-- Every sheet of a pallet waits on a long event (R31); one without a sheet has no thread that waits for the sheet former. -/
def allWait (s : State) (pal : Nat) : Bool :=
  let shs := s.cs.sheets.filter fun sh => sh.pal == pal && !sh.evicted
  shs.all longWait && (!shs.isEmpty || !(s.cs.store.any fun e => e.pal == pal && e.sleep == .ready))

def quantumOver (s : State) (p : Pallet) : Bool := p.since + 2 ^ 18 ≤ s.cs.cyc

/-- A waiting pallet of a concurrent launch has waited three quanta: it takes its turn now, so that it is active once every 1 ms
(R34, R420; log 97). -/
def turnDue (s : State) (q : Pallet) : Bool :=
  q.st == .parked && (getLaunch s q.launch).any (fun la => la.r.prog == 0) && q.since + 3 * 2 ^ 18 ≤ s.cs.cyc

/-- Pallets in the order of the cycle since which they have been as they are. -/
def bySince (l : List Pallet) : List Pallet := sortBy (fun a b => a.since ≤ b.since) l

/-- Between instructions: no sheet of the pallet is inside a prefix run. -/
def atBoundary (s : State) (pal : Nat) : Bool := (s.cs.sheets.filter fun sh => sh.pal == pal).all fun sh => sh.run.isEmpty

/-- An active pallet may make way for the waiting pallet q of its core (R31, R420). -/
def mayPark (s : State) (p q : Pallet) : Bool :=
  p.st == .active && p.core == q.core && (allWait s p.key || quantumOver s p || turnDue s q) && atBoundary s p.key

/-- Parks pallets of a list, as they may make way, until q fits; none when it never does. -/
def parkUntil (s : State) (q : Pallet) : List Pallet → Option State
  | [] => if fitsNow s q then some s else none
  | p :: r => if fitsNow s q then some s else parkUntil (if mayPark s p q then parkPallet s p.key else s) q r

/-- The state in which q fits once p, and others after it where that is not enough, have made way. -/
def makeWay (s : State) (p q : Pallet) : Option State :=
  if mayPark s p q then parkUntil (parkPallet s p.key) q (bySince (s.cs.pallets.filter fun x => x.key != p.key)) else none

/-- Swaps an active pallet for a waiting one of its core. Without an active `out`, `inn` is restored when it fits. -/
def swapPallets (s : State) (out inn : Nat) : State :=
  match getPallet s inn with
  | none => s
  | some q =>
    if !waitsForCore s q then s
    else
      match getPallet s out with
      | some p =>
        if p.st == .active && p.core == q.core then
          match makeWay s p q with
          | some t => restorePallet t inn
          | none => s
        else if fitsNow s q then restorePallet s inn else s
      | none => if fitsNow s q then restorePallet s inn else s

/-- PALLET_SWAP (R31). -/
def execPalletSwap (out inn : Nat) (s : State) : Out := .next (swapPallets s out inn)

/-- The pallet that has waited longest for a core among those that would fit in place of one. -/
def replacement (s : State) (pal : Nat) : Option Pallet :=
  (getPallet s pal).bind fun p => (bySince s.cs.pallets).find? fun q => q.core == p.core && waitsForCore s q && (makeWay s p q).isSome

/-- PALLET_QUANTUM_EXPIRY (R31, R420): the pallet makes room for a waiting one. -/
def execPalletQuantumExpiry (pal : Nat) (s : State) : Out :=
  match getPallet s pal, replacement s pal with
  | some p, some q => .next (if p.st == .active && quantumOver s p then swapPallets s pal q.key else s)
  | _, _ => .next s

/-! ## Evicting and restoring sheets (R379) -/

/-- Evicts a sheet, its instructions in flight completed. -/
def evictSheet (s : State) (sh : Sheet) : State := setSheet s { sh with evicted := true, lastIssue := s.cs.cyc, pend := [] }

/-- Lowest priority first, then least recently issued. -/
def evictBefore (s : State) (a b : Sheet) : Bool :=
  sheetPrio s a < sheetPrio s b || (sheetPrio s a == sheetPrio s b && a.lastIssue ≤ b.lastIssue)

/-- Evicts sheets in order until `need` fits the core; none when it never does. -/
def evictUntil (s : State) (core : Nat) (need : Room) : List Sheet → Option State
  | [] => if ((coreUse s core).add need).inCore then some s else none
  | sh :: r => if ((coreUse s core).add need).inCore then some s else evictUntil (evictSheet s sh) core need r

/-- Makes room for a newcomer of a priority, without tray bytes being freed. -/
def evictFor (s : State) (core prio : Nat) (need : Room) : Option State :=
  if 524288 < (coreUse s core).tray + need.tray then none
  else
    let cand := s.cs.sheets.filter fun sh => !sh.evicted && sh.run.isEmpty && sheetPrio s sh < prio && !sleepsOut sh &&
      s.cs.pallets.any fun p => p.key == sh.pal && p.core == core && p.st == .active
    evictUntil s core need (sortBy (evictBefore s) cand)

/-- The sheet of a pallet that has been evicted longest, when it can be restored. -/
def restorable (s : State) (pal : Nat) : Option Sheet :=
  match getPallet s pal with
  | none => none
  | some p =>
    match getLaunch s p.launch, sortBy (fun a b => a.lastIssue ≤ b.lastIssue) (s.cs.sheets.filter fun sh => sh.pal == pal && sh.evicted) with
    | some la, sh :: _ =>
      let mine := (s.cs.sheets.filter fun x => x.pal == pal && onCore x).length
      if p.st == .active && mine < sheetSlots la && ((coreUse s p.core).add (sheetRoom la p sh)).inCore && (chooseSlot s p.core).isSome
      then some sh else none
    | _, _ => none

/-- EVICTED_SHEET_RESTORE (R379). -/
def execEvictedSheetRestore (pal : Nat) (s : State) : Out :=
  match restorable s pal with
  | some sh => .next (seatTiles (setSheet s { sh with
      evicted := false
      slot := (chooseSlot s (palletCore s pal)).getD sh.slot
      lastIssue := s.cs.cyc }) pal)
  | none => .next s

/-! ## The sheet former (R21) -/

/-- The threads that wait for a sheet at an address: oldest first, ties by identity. -/
def waiting (s : State) (pal : Nat) (pc : Dword) : List Entry :=
  sortBy (fun a b => a.since < b.since || (a.since == b.since && a.thr.tid.toNat ≤ b.thr.tid.toNat))
    (s.cs.store.filter fun e => e.pal == pal && e.pc == pc && e.sleep == .ready)

/-- Places waiting threads: (lane, entry); `col` and `n` the strip being filled and its threads, `img` its k image. -/
def placeThreads (d : Nat) : List Entry → Nat → Nat → List Word → List (Nat × Entry)
  | [], _, _, _ => []
  | e :: r, col, n, img =>
    if n < d ∧ (n = 0 ∨ e.k = img) then (col + 32 * n, e) :: placeThreads d r col (n + 1) e.k
    else if col + 1 < 32 then (col + 1, e) :: placeThreads d r (col + 1) 1 e.k
    else []

/-- A sheet of threads at an address. -/
def newSheet (key pal slot : Nat) (pc : Dword) (lanes : List (Nat × Thread)) (ks : Sparse (List Word)) (cyc : Nat) : Sheet where
  key := key
  pal := pal
  slot := slot
  pc := pc
  lanes := sortBy (fun a b => a.1 ≤ b.1) lanes
  ks := ks
  em := maskOf (lanes.map (·.1))
  m := List.replicate 8 0
  course := none
  done := 0
  run := []
  runPc := 0
  pend := []
  notBefore := 0
  lastIssue := cyc
  waitAll := false
  stalled := false
  why := .none
  heldBy := []
  sleep := []
  halted := false
  qwait := none
  evicted := false

/-- Forms a sheet at an address in a slot. -/
def formSheet (s : State) (la : Launch) (pal : Nat) (pc : Dword) (slot : Nat) : State :=
  let took := placeThreads la.r.depth ((waiting s pal pc).take (32 * la.r.depth)) 0 0 []
  let ks := took.foldl (fun t x => if x.2.k == zeroK then t else sPut t (x.1 % 32) x.2.k) ([] : Sparse (List Word))
  let u := freshKey s
  let sh := newSheet u.1 pal slot pc (took.map fun x => (x.1, x.2.thr)) ks s.cs.cyc
  let s := withStore u.2 (u.2.cs.store.filter fun e => !(took.any fun x => x.2.pal == e.pal && x.2.thr.uid == e.thr.uid))
  addSheet s sh

/-- R21's moments: enough threads wait, the oldest has waited 4,096 cycles, or no ready sheet of the quadrant has equal or higher
priority. A re-executing pallet forms sheets only when no ready sheet remains (R458). -/
def mayForm (s : State) (la : Launch) (p : Pallet) (pc : Dword) (slot : Nat) : Bool :=
  match waiting s p.key pc with
  | [] => false
  | e :: r =>
    let ready := s.cs.sheets.filter fun x => mayIssue s x && !x.stalled && palletCore s x.pal == p.core
    if p.dbg.roll then !(ready.any fun x => x.pal == p.key)
    else 32 * la.r.depth ≤ r.length + 1 || e.since + 4096 ≤ s.cs.cyc ||
      !(ready.any fun x => x.slot / 8 == slot / 8 && la.r.prio ≤ sheetPrio s x)

/-- SHEET_FORMATION (R21). An evicted sheet that can be restored comes first (R379). -/
def formAt (s : State) (pal : Nat) (pc : Dword) : State :=
  match getPallet s pal with
  | none => s
  | some p =>
    match getLaunch s p.launch, chooseSlot s p.core with
    | some la, some slot =>
      if p.st == .active && !p.dbg.halt && sheetFree s la p && (restorable s pal).isNone && mayForm s la p pc slot then
        formSheet s la pal pc slot
      else s
    | _, _ => s

def execSheetFormation (pal : Nat) (pc : Dword) (s : State) : Out := .next (formAt s pal pc)

/-- The course for whose sheet an entry waits. -/
def pinOf (s : State) (e : Entry) : Option Nat :=
  match e.sleep with
  | .pin slot => if ((getPallet s e.pal).bind fun p => sGet p.table slot).any awaitsSheet then some slot else none
  | _ => none

/-- The pallet's entry that has waited longest for a sheet of its own or of its course. -/
def oldestReady (s : State) (pal : Nat) : Option Entry :=
  (sortBy (fun a b => a.since ≤ b.since)
    (s.cs.store.filter fun e => e.pal == pal && (e.sleep == .ready || (pinOf s e).isSome))).head?

/-- The sheet of a pallet that has been evicted longest, and since when. -/
def oldestEvicted (s : State) (pal : Nat) : Option Sheet :=
  (sortBy (fun a b => a.lastIssue ≤ b.lastIssue) (s.cs.sheets.filter fun sh => sh.pal == pal && sh.evicted)).head?

/-- The least recently issued sheet of a pallet, to make way for another one of it. -/
def oldestIssued (s : State) (pal : Nat) : Option Sheet :=
  (sortBy (fun a b => a.lastIssue ≤ b.lastIssue)
    (s.cs.sheets.filter fun x => x.pal == pal && onCore x && x.run.isEmpty)).head?

/-- An evicted sheet takes the slot of another one of its pallet. -/
def rotateSheets (s : State) (p : Pallet) (la : Launch) (back out : Sheet) : State :=
  let t := evictSheet s out
  if ((coreUse t p.core).add (sheetRoom la p back)).inCore then
    seatTiles (setSheet t { back with evicted := false, slot := out.slot, lastIssue := s.cs.cyc }) p.key
  else s

/-- SPAWN_WAIT_LIMIT (R21, R34): what has waited longest, an entry or an evicted sheet, has waited 4,096 cycles: it gets a free slot, or
the least recently issued sheet of the pallet makes way. -/
def execSpawnWaitLimit (pal : Nat) (s : State) : Out :=
  match getPallet s pal with
  | none => .next s
  | some p =>
    match getLaunch s p.launch with
    | none => .next s
    | some la =>
      let ev := oldestEvicted s pal
      let evSince := (ev.map (·.lastIssue)).getD (s.cs.cyc + 1)
      let en := oldestReady s pal
      let enSince := (en.map (·.since)).getD (s.cs.cyc + 1)
      if p.st != .active || p.dbg.halt || p.dbg.roll || s.cs.cyc < min evSince enSince + 4096 then .next s
      else if evSince ≤ enSince then
        match ev, oldestIssued s pal with
        | some b, some o => if la.r.prog = 2 then .next s else .next (rotateSheets s p la b o)
        | _, _ => .next s
      else match en with
        | none => .next s
        | some e =>
          if sheetFree s la p && (chooseSlot s p.core).isSome then
            .next (match pinOf s e with | some c => formPinned s pal c | none => formAt s pal e.pc)
          else if la.r.prog = 2 then .next s
          else match oldestIssued s pal with
            | none => .next s
            | some sh => .next (match pinOf s e with
                | some c => formPinned (evictSheet s sh) pal c (some sh.slot)
                | none => formSheet (evictSheet s sh) la pal e.pc sh.slot)

end Sys2Proof.Machine
end

