-- ==== Sys2Proof/Machine/Switch.lean ====
section
/-! DEFINITION. Context slots of cores (R31) and switching contexts (R380): on request, for a slot that a core needs, and for tray bytes
that a launch of higher priority needs (R379). What the save area would hold stays in the state (log 34). -/

namespace Sys2Proof.Machine

/-! ## Slots -/

/-- The pallets that a core has admitted (R31). -/
def admittedOn (s : State) (core : Nat) : List Pallet :=
  s.cs.pallets.filter fun p => p.core == core && p.st != .ended && p.st != .switched && p.st != .stopped

/-- The context slots in use on a core. -/
def slotsUsed (s : State) (core : Nat) : List Nat :=
  s.mg.ctxs.flatMap fun c => (c.slots.filter fun x => x.1 == core).map (·.2)

/-- A context may hold a slot on a core: it has one, or one of the four is free. -/
def slotOn (s : State) (cx : Ctx) (core : Nat) : Option Nat :=
  match cx.slots.find? fun x => x.1 == core with
  | some x => some x.2
  | none => if outOf cx core then none else lowestFree (slotsUsed s core) 4

def coreTakes (s : State) (cx : Ctx) (core : Nat) : Bool := (admittedOn s core).length < 8 && (slotOn s cx core).isSome

/-! ## Switching out and in (R380) -/

/-- The pallets of a context on a core. -/
def ctxPallets (s : State) (cid : Word) (core : Nat) : List Pallet :=
  s.cs.pallets.filter fun p => p.core == core && p.st != .ended && ((getLaunch s p.launch).map (·.cid)) == some cid

/-- Mailboxes of a context slot of a core. -/
def slotBoxes (s : State) (core slot : Nat) : List Nat := (List.range 4).map fun i => s.fb.node * 4096 + core * 16 + 4 * slot + i

def isEngineOf (s : State) (core slot : Nat) (a : Agent) : Bool :=
  a.key.launch == 0 && (a.key.id == agentId s.fb.node core slot 1 || a.key.id == agentId s.fb.node core slot 2)

/-- The copies have completed or paused, every sheet is at an issue boundary, and the save area is large enough. -/
def maySwitch (s : State) (cx : Ctx) (core : Nat) : Bool :=
  (cx.slots.any fun x => x.1 == core) && !outOf cx core &&
  !(s.en.copies.any fun c => c.cid == cx.cid && c.core == core && !c.paused && ((getFuture s c.handle).map (·.begun)).getD false) &&
  (ctxPallets s cx.cid core).all (fun p => atBoundary s p.key) && saveNeed s cx.cid ≤ cx.savs.toNat

/-- Saves a context out of its slot on a core. -/
def switchOut (s : State) (cx : Ctx) (core : Nat) : State :=
  let slot := ((cx.slots.find? fun x => x.1 == core).map (·.2)).getD 0
  let boxes := slotBoxes s core slot
  let o : SwitchOut := {
    core := core
    slot := slot
    boxes := s.cs.boxes.filter fun b => boxes.contains b.1
    waits := s.cs.boxWait.filter fun b => boxes.contains b.1
    agents := s.cs.agents.filter (isEngineOf s core slot) }
  let s := { s with cs := { s.cs with
    boxes := s.cs.boxes.filter fun b => !boxes.contains b.1
    boxWait := s.cs.boxWait.filter fun b => !boxes.contains b.1
    agents := s.cs.agents.filter fun a => !isEngineOf s core slot a } }
  let mine := (ctxPallets s cx.cid core).map (·.key)
  let s := mapPallets s fun p =>
    if mine.contains p.key && (p.st == .active || p.st == .parked) then { p with st := .switched } else p
  setCtx s { cx with slots := cx.slots.filter fun x => x.1 != core, out := cx.out ++ [o] }

/-- CONTEXT_SWITCH. -/
def execContextSwitch (core : Nat) (cid : Word) (s : State) : Out :=
  match getCtx s cid with
  | none => .next s
  | some cx => .next (if maySwitch s cx core then switchOut s cx core else s)

/-- Restores a context to its slot on a core; its pallets wait to be restored there. -/
def switchIn (s : State) (cx : Ctx) (o : SwitchOut) : State :=
  let s := { s with cs := { s.cs with
    boxes := o.boxes.foldl (fun t b => sPut t b.1 b.2) s.cs.boxes
    boxWait := o.waits.foldl (fun t b => sPut t b.1 b.2) s.cs.boxWait
    agents := s.cs.agents ++ o.agents } }
  let mine := (ctxPallets s cx.cid o.core).map (·.key)
  let s := mapPallets s fun p => if mine.contains p.key && p.st == .switched then { p with st := .parked } else p
  setCtx s { cx with slots := cx.slots ++ [(o.core, o.slot)], out := cx.out.filter fun x => x.core != o.core }

/-- The highest launch priority among a context's pallets on a core. -/
def ctxPrio (s : State) (cid : Word) (core : Nat) : Nat :=
  maxN ((ctxPallets s cid core).map fun p => ((getLaunch s p.launch).map fun la => la.r.prio).getD 0)

/-- The contexts that a core may switch out, the lowest priority first. -/
def switchable (s : State) (core : Nat) : List Ctx :=
  sortBy (fun a b => ctxPrio s a.cid core ≤ ctxPrio s b.cid core) (s.mg.ctxs.filter fun c => maySwitch s c core)

/-- A core that has no free slot for a context switches another out (R380; which one: log 66). -/
def makeSlot (s : State) (cx : Ctx) (core : Nat) : State :=
  if (slotOn s cx core).isSome || outOf cx core then s
  else match (switchable s core).filter fun c => c.cid != cx.cid with
    | c :: _ => switchOut s c core
    | [] => s

/-- Room for a launch's pallet whose tray bytes do not fit: a context of lower priority whose tray frees enough is switched out (R379). -/
def switchFor (s : State) (cid : Word) (core prio : Nat) (need : Room) : Option State :=
  if (coreUse s core).tray + need.tray ≤ 524288 then none
  else (((switchable s core).filter fun c => c.cid != cid && ctxPrio s c.cid core < prio).map fun c => switchOut s c core).findSome?
    fun t => if ((coreUse t core).add need).inCore then some t else evictFor t core prio need

/-- A context has used its time in its slot when another waits for the slot: each of its pallets there has had a quantum. -/
def slotDue (s : State) (cid : Word) (core : Nat) : Bool := (ctxPallets s cid core).all fun p => p.since + 2 ^ 18 ≤ s.cs.cyc

/-- CONTEXT_RESTORE: when the slot is free, or when the context that holds it has had its time and can be switched out. -/
def execContextRestore (core : Nat) (cid : Word) (s : State) : Out :=
  match getCtx s cid with
  | none => .next s
  | some cx => match cx.out.find? fun o => o.core == core with
    | none => .next s
    | some o =>
      if !(slotsUsed s core).contains o.slot then .next (switchIn s cx o)
      else match (switchable s core).find? fun c => c.slots.contains (core, o.slot) && slotDue s c.cid core with
        | some c => .next (switchIn (switchOut s c core) cx o)
        | none => .next s

end Sys2Proof.Machine
end

