-- ==== Sys2Proof/Machine/Tasks.lean ====
section
/-! DEFINITION. Tasks and the hod (R356 to R358, R415, R422). -/

namespace Sys2Proof.Machine

/-! ## The index space (R356) -/

def ceilDiv (a b : Nat) : Nat := (a + b - 1) / b

/-- Task counts nx, ny, nz. -/
def taskCounts (r : LRec) : List Nat := (List.range 3).map fun i => ceilDiv (nthD r.idx i 0) (nthD r.step i 1)

def taskTotal (r : LRec) : Nat := (taskCounts r).foldl (· * ·) 1

/-- The coordinate triple of task t. -/
def taskTriple (r : LRec) (t : Nat) : List Nat :=
  let n := taskCounts r
  let nx := nthD n 0 1
  let ny := nthD n 1 1
  let xs := [t % nx, t / nx % ny, t / nx / ny]
  (List.range 3).map fun i => nthD xs i 0 * nthD r.step i 1

/-- The k-th task with slot(t) = pal from task t on (R357). -/
def kthTask (la : Launch) (pal : Nat) : Nat → Nat → Nat → Option Nat
  | 0, _, _ => none
  | fuel + 1, t, k =>
    if genSlot la.r.seed la.pals t = pal then
      if k = 0 then some t else kthTask la pal fuel (t + 1) (k - 1)
    else kthTask la pal fuel (t + 1) k

def slotTask (la : Launch) (pal k : Nat) : Option Nat := kthTask la pal (taskTotal la.r) 0 k

/-! ## The hod (R357, R358) -/

/-- True when the launch record sets deterministic placement. -/
def placed (la : Launch) : Bool := la.r.lfl.getLsbD 1

/-- The form that the first hod of the pallet, or of the launch, has fixed. -/
def hodForm (la : Launch) (pl : Pallet) : Option Bool := if placed la then pl.hodF else la.hodF

/-- Notes the form of a first hod. -/
def fixForm (s : State) (la : Launch) (pl : Pallet) (ord : Bool) : State :=
  if (hodForm la pl).isSome then s
  else if placed la then setPallet s { pl with hodF := some ord }
  else setLaunch s { la with hodF := some ord }

/-- Takes the lowest task that a lost core left open (R415). -/
def takeRedo (s : State) (launch : Nat) : State × Option Nat :=
  match getLaunch s launch with
  | none => (s, none)
  | some la => match sortBy (fun a b => a ≤ b) la.redo with
    | [] => (s, none)
    | t :: r => (setLaunch s { la with redo := r }, some t)

/-- The next task of an unordered hod: the pallet's next one by slot, or the lowest not yet handed out. -/
def nextTask (s : State) (la : Launch) (pl : Pallet) : State × Option Nat :=
  if placed la then
    match slotTask la pl.num pl.hodN with
    | some t => (match getPallet s pl.key with
      | some p => setPallet s { p with hodN := p.hodN + 1 }
      | none => s, some t)
    | none => takeRedo s la.key
  else
    match takeRedo s la.key with
    | (s, some t) => (s, some t)
    | (s, none) =>
      if la.hodN < taskTotal la.r then
        (match getLaunch s la.key with
          | some l => setLaunch s { l with hodN := l.hodN + 1 }
          | none => s, some la.hodN)
      else (s, none)

/-- The task that a negative gives a thread's next unordered hod: the entries of one thread were made in increasing task order. A thread
without one left takes a task that a lost core held open (R415). -/
def replayTask (s : State) (la : Launch) (cx : Ctx) (core : Nat) (agent : AgentKey) (tid : Word) : State × Option Nat :=
  let mine := (negEntries s la cx).filter fun e => fieldB e 0 1 == 2 && fieldB e 2 2 == core && fieldB e 0x10 4 == agent.id.toNat &&
    fieldB e 0x14 4 == tid.toNat && sGetD la.negSeq (negIndex ⟨2, core, fieldB e 8 8⟩) 0 == 0
  match sortBy (fun a b => a ≤ b) (mine.map fun e => fieldB e 8 8) with
  | [] => takeRedo s la.key
  | t :: _ => (bumpSeq s la.key ⟨2, core, t⟩, some t)

/-- The task that a re-executed hod of a rolled-back exposure is given again (R364, R458): the thread's lowest one not given yet. -/
def redoTask (s : State) (la : Launch) (cx : Ctx) (core : Nat) (agent : AgentKey) (tid : Word) : Option (State × Nat) :=
  match redoing s la.key agent with
  | none => none
  | some (p, n, l) =>
    let mine := (negEntries s la cx).filter fun e =>
      let k : NegKey := ⟨2, core, fieldB e 8 8⟩
      entryFor k agent e && fieldB e 0x14 4 == tid.toNat && sGetD n.negSeq (negIndex k) 0 == 0 && sGetD la.negSeq (negIndex k) 0 != 0 &&
        !l.contains (negIndex k, 0)
    match sortBy (fun a b => a ≤ b) (mine.map fun e => fieldB e 8 8) with
    | [] => none
    | t :: _ => some (setPallet s { p with redone := some (l ++ [(negIndex ⟨2, core, t⟩, 0)]) }, t)

/-- Records an unordered assignment (R363). -/
def recordTask (s : State) (la : Launch) (core : Nat) (agent : AgentKey) (tid : Word) (t : Nat) : State :=
  if recording la then
    match negTurn s la.key ⟨2, core, t⟩ agent tid 0 0 with
    | .go s _ => s
    | _ => s
  else s

/-- The task dealt to a launched thread at its next hod.ord (R358). -/
def dealtTask (s : State) (la : Launch) (pl : Pallet) (t : Thread) : State × Option Nat :=
  if t.tid.getLsbD 31 then (s, none)
  else
    match slotTask la pl.num (t.tid.toNat - pl.num * la.r.thr + la.r.thr * t.hods) with
    | some x => (s, some x)
    | none => takeRedo s la.key

/-- What a thread's hod takes. -/
def hodTask (s : State) (la : Launch) (cx : Ctx) (pl : Pallet) (agent : AgentKey) (t : Thread) (ord : Bool) : State × Option Nat :=
  if la.p.isSome then (s, none)
  else if (hodForm la pl).any fun x => x != ord then (s, none)
  else
    let s := fixForm s la pl ord
    if ord then dealtTask s la pl t
    else match redoTask s la cx pl.core agent t.tid with
    | some r => (r.1, some r.2)
    | none =>
    if replaying la then replayTask s la cx pl.core agent t.tid
    else
      let r := nextTask s ((getLaunch s la.key).getD la) ((getPallet s pl.key).getD pl)
      match r.2 with
      | some x => (recordTask r.1 la pl.core agent t.tid x, some x)
      | none => r

/-- The thread after it has received a task. -/
def tookTask (la : Launch) (ord : Bool) (x : Nat) (t : Thread) : Thread :=
  { t with
    hods := if ord then t.hods + 1 else t.hods
    task := if la.r.lfl.getLsbD 7 then t.task ++ [x] else t.task }

/-- hod (R422): with U the strip's lowest active pass takes the task, and every active pass receives it. -/
def execHod (f : Fld) (s : State) : Out :=
  vec formHod f s fun v s =>
    match getLaunch s v.env.la.key, getPallet s v.env.pl.key with
    | some la, some pl =>
      let r := hodTask s la v.env.cx pl (v.agent s) v.t v.f.ord
      match r.2 with
      | none => .ok r.1 [.q f.a.toNat 0]
      | some x =>
        let s := { v with lanes := [v.lane] }.toThreads r.1 (tookTask la v.f.ord x)
        .ok s (.q f.a.toNat 1 :: (taskTriple la.r x).zipIdx.map fun y => .g (f.d.toNat + y.2) (BitVec.ofNat 32 y.1))
    | _, _ => .ok s [.q f.a.toNat 0]

end Sys2Proof.Machine
end

