-- ==== Sys2Proof/Machine/Admit.lean ====
section
/-! DEFINITION. Launch records and pair records as bytes (R333, R416), admission (R334, R417 to R419), and the end of a launch (R24,
R179, R342, R347, R364). -/

namespace Sys2Proof.Machine

/-! ## Records (R333, R416) -/

def zeroBytes (b : List Byte) (lo n : Nat) : Bool := (sliceB b lo n).all fun x => x == 0

def parseLaunch (b : List Byte) : LRec where
  ver := fieldB b 0 2
  kind := fieldB b 2 1
  lfl := BitVec.ofNat 8 (fieldB b 3 1)
  prog := fieldB b 4 1
  depth := fieldB b 5 1
  shape := fieldB b 6 1
  thr := fieldB b 8 4
  gcnt := fieldB b 0x0C 2
  fcnt := fieldB b 0x0E 1
  tiles := fieldB b 0x0F 1
  tray := fieldB b 0x10 4
  pals := fieldB b 0x14 4
  entry := BitVec.ofNat 64 (fieldB b 0x18 8)
  handler := BitVec.ofNat 64 (fieldB b 0x20 8)
  idx := [fieldB b 0x28 4, fieldB b 0x2C 4, fieldB b 0x30 4]
  step := [fieldB b 0x34 2, fieldB b 0x36 2, fieldB b 0x38 2]
  fpt := BitVec.ofNat 8 (if bitN (fieldB b 3 1) 6 then fieldB b 0x3A 1 else 0)
  prio := fieldB b 0x3B 1
  param := BitVec.ofNat 64 (fieldB b 0x40 8)
  seed := BitVec.ofNat 64 (fieldB b 0x48 8)
  negb := BitVec.ofNat 64 (fieldB b 0x50 8)
  negs := BitVec.ofNat 64 (fieldB b 0x58 8)
  tqb := BitVec.ofNat 64 (fieldB b 0x60 8)
  tqn := fieldB b 0x68 4
  zero := zeroBytes b 7 1 && zeroBytes b 0x3C 4 && zeroBytes b 0x6C 148

def wordAt (b : List Byte) (lo : Nat) : Word := BitVec.ofNat 32 (fieldB b lo 4)

def parsePair (b : List Byte) : PRec where
  abase := fieldB b 0 8
  acnt := fieldB b 8 4
  astr := fieldB b 0x0C 2
  apos := fieldB b 0x0E 2
  acell := fieldB b 0x10 8
  bbase := fieldB b 0x18 8
  bcnt := fieldB b 0x20 4
  bstr := fieldB b 0x24 2
  bpos := fieldB b 0x26 2
  bcell := fieldB b 0x28 8
  test := fieldB b 0x30 1
  flags := BitVec.ofNat 8 (fieldB b 0x31 1)
  mode := fieldB b 0x32 1
  width := fieldB b 0x33 1
  cut := wordAt b 0x34
  csize := wordAt b 0x38
  hx := wordAt b 0x3C
  hy := wordAt b 0x40
  hz := wordAt b 0x44
  xrow := fieldB b 0x48 8
  xidx := fieldB b 0x50 8
  xscl := fieldB b 0x58 8
  tabase := fieldB b 0x60 8
  tastr := fieldB b 0x68 4
  tbstr := fieldB b 0x6C 4
  tbbase := fieldB b 0x70 8
  ovbase := fieldB b 0x78 8
  ovsize := fieldB b 0x80 8
  nx := fieldB b 0x88 4
  ny := fieldB b 0x8C 4
  nz := fieldB b 0x90 4
  dotd := fieldB b 0x94 1
  zero := fieldB b 0x31 1 < 16 && zeroBytes b 0x95 107

/-- CSIZE reaches the test's span (R334). -/
def PRec.spanOk (p : PRec) : Bool :=
  let c := ff32.val p.csize.toNat
  let sq := (mulFV c c).toFV
  let cut := ff32.val p.cut.toNat
  match p.test with
  | 0 => !sq.isNan && !cut.isNan && leFV cut sq
  | 1 => !sq.isNan && !cut.isNan && leFV cut sq
  | 2 => leKeep p.hx p.csize && leKeep p.hy p.csize && leKeep p.hz p.csize
  | 3 => leKeep p.cut p.csize
  | _ => p.csize == 0

/-- The checks of R334, and the range of a count (R333). -/
def PRec.ok (p : PRec) : Bool :=
  p.zero && 1 ≤ p.acnt && p.acnt < 2 ^ 31 && 1 ≤ p.bcnt && p.bcnt < 2 ^ 31 && p.test ≤ 4 && p.mode ≤ 2 && 1 ≤ p.width && p.width ≤ 4 &&
  p.astr % 4 == 0 && p.bstr % 4 == 0 && p.tastr % 4 == 0 && p.tbstr % 4 == 0 && p.apos % 4 == 0 && p.bpos % 4 == 0 &&
  p.apos + 4 * p.dims ≤ p.astr && p.bpos + 4 * p.dims ≤ p.bstr &&
  p.nx != 0 && p.ny != 0 && p.nz != 0 && p.cells ≤ 2 ^ 24 &&
  (p.test != 1 || p.nz == 1) && ((p.test != 3 && p.test != 4) || (p.ny == 1 && p.nz == 1)) &&
  (if p.test = 4 then 1 ≤ p.dotd && p.dotd ≤ 8 else p.dotd == 0) &&
  (!p.causal || p.test == 3) && p.spanOk &&
  (!p.isSelf || (p.bbase == p.abase && p.bcnt == p.acnt && p.bstr == p.astr && p.bpos == p.apos && p.bcell == p.acell)) &&
  p.tabase % 4 == 0 && p.tbbase % 4 == 0 && 4 * p.width ≤ p.tastr && (p.mode == 2 || (p.tbbase != 0 && 4 * p.width ≤ p.tbstr)) &&
  p.ovbase % 16 == 0 && p.ovsize % 32 == 0 && (!p.excl || (p.xrow != 0 && p.xidx != 0))

/-! ## Placement (R418) -/

/-- The working cores of a partition that whole groups of `shape` pallets can use, in order. -/
def groupCores (s : State) (p : Part) (shape : Nat) : List Nat :=
  if shape ≤ 1 then workingCores s p
  else (List.range 32).flatMap fun cl =>
    let l := (workingCores s p).filter fun c => c / 8 == cl
    l.take (l.length / shape * shape)

/-- The cores of a launch's pallets, or none when they cannot be placed. -/
def placePallets (s : State) (p : Part) (r : LRec) : Option (List Nat) :=
  let work := (workingCores s p).length
  let n := if r.pals = 0 then work else r.pals
  let cores := groupCores s p r.shape
  if n = 0 ∨ work < n ∨ n % max 1 r.shape ≠ 0 ∨ cores.length < n then none else some (cores.take n)

/-! ## The checks of R417 -/

def addrOk (a : Dword) : Bool := a.toNat % 4 == 0 && a.toNat < 2 ^ 57

def rangesOk (r : LRec) : Bool :=
  r.prog ≤ 2 && (r.depth == 1 || r.depth == 2 || r.depth == 4) && [0, 1, 2, 4, 8].contains r.shape && r.prio ≤ 3 &&
  1 ≤ r.thr && r.thr ≤ 4096 && r.gcnt ≤ 128 && r.fcnt ≤ 64 && r.tiles ≤ 16 && r.tray ≤ 524288

def indexOk (r : LRec) : Bool := r.step.all (fun x => x != 0) && taskTotal r < 2 ^ 64

def trapQueueOk (r : LRec) (cx : Ctx) : Bool :=
  let q := if r.tqb.toNat ≠ 0 then (r.tqb.toNat, r.tqn) else (cx.tqb.toNat, cx.tqn)
  q.1 != 0 && q.1 % 64 == 0 && 8 ≤ q.2 && q.2 ≤ 2 ^ 24

/-- R361; n is the launch's pallet count. -/
def negativeOk (s : State) (cx : Ctx) (r : LRec) (n : Nat) : Bool :=
  let rep := r.lfl.getLsbD 2
  let record := r.lfl.getLsbD 3
  if !rep && !record then true
  else if rep && record then false
  else if r.negb.toNat % 64 ≠ 0 ∨ r.negs.toNat < 64 ∨ r.negs.toNat % 32 ≠ 0 then false
  else if !rep then true
  else match deviceRead s cx r.negb.toNat 64 with
    | none => false
    | some h => fieldB h 2 2 % 4 == 2 && fieldB h 4 4 == n && fieldB h 8 8 == r.seed.toNat

/-- The bytes a pallet reserves in its partition's share: park area and overflow region (R419). -/
def reserveBytes (la : Launch) : Nat := parkBytes la + 4194304

/-- Bytes reserved for the pallets that a partition has admitted. -/
def reservedIn (s : State) (part : Nat) : Nat :=
  sumN (s.cs.pallets.map fun p =>
    match getLaunch s p.launch with
    | some la => if p.st != .ended && ((getCtx s la.cid).map (·.part)) == some part then reserveBytes la else 0
    | none => 0)

/-- A launch with its record, before it has a place. -/
def draftLaunch (x : Submit) (cx : Ctx) : Launch where
  key := x.key
  ident := 0
  cid := x.cid
  r := parseLaunch x.unit
  p := if x.pair then some (parsePair (x.unit.drop 256)) else none
  pals := 0
  tag := 0
  fz := cx.cfl.getLsbD 1
  eit := cx.cfl.getLsbD 2
  csb := cx.cfl.getLsbD 3
  queue := x.queue
  fut := x.fut
  flags := 0
  negN := 0
  negT := false
  negSeq := []
  hodF := none
  hodN := 0
  redo := []
  maxC := 0
  fin := none
  cimg := []

/-- The refusal code of a launch, or the cores of its pallets (R417). -/
def admitCheck (s : State) (cx : Ctx) (la : Launch) (pair : Bool) : Except Nat (List Nat) :=
  let r := la.r
  match getPart s cx.part with
  | none => .error 4
  | some p =>
    if r.ver ≠ 0x0100 ∨ r.kind ≠ (if pair then 2 else 1) ∨ !r.zero then .error 1
    else if raceMode la = 3 then .error 2
    else if !rangesOk r then .error 3
    else match placePallets s p r with
      | none => .error 4
      | some cores =>
        if !(palletRoom la).inCore then .error 5
        else if !indexOk r then .error 6
        else if !trapQueueOk r cx then .error 7
        else if !negativeOk s cx r cores.length then .error 8
        else if !((la.p.map PRec.ok).getD true) then .error 9
        else if !addrOk r.entry || !addrOk r.handler then .error 10
        else if p.msize.toNat < reservedIn s cx.part + cores.length * reserveBytes la then .error 11
        else .ok cores

/-! ## Waiting at admission -/

/-- The launch tags of a partition's running checked launches (R222). -/
def tagsUsed (s : State) (part : Nat) : List Nat :=
  (s.qs.launches.filter fun la => la.fin.isNone && ((getCtx s la.cid).map (·.part)) == some part).map (·.tag)

/-- A launch tag from 1 to 15; 0 for a launch in mode off. Checked launches of one nonzero group share theirs, which the group's lowest
node chooses: a free choice among the tags that are free here (R222, R421). -/
def freeTag (s : State) (la : Launch) (part : Nat) : Option Nat :=
  let free := ((List.range 15).map (· + 1)).filter fun t => !(tagsUsed s part).contains t
  let g := launchGroup s la
  if raceMode la = 0 then some 0
  else if g = 0 then free.head?
  else match s.qs.launches.find? fun x => x.fin.isNone && x.tag != 0 && launchGroup s x == g with
    | some x => free.find? fun t => t == x.tag
    | none => free[Config.sensor s.tick 421 % max 1 free.length]?

/-! ## Admitting -/

/-- Makes the records of a partition that carry a tag quiescent before the tag is assigned again (R222). -/
def quietTag (s : State) (p : Part) (tag : Nat) : State :=
  let here := fun (line : Nat) =>
    (p.mbase.toNat ≤ 128 * line && 128 * line < p.mbase.toNat + p.msize.toNat) ||
    (p.tbase.toNat ≤ 128 * line && 128 * line < p.tbase.toNat + p.tsize.toNat)
  if tag = 0 then s
  else
    let s := withRace s (s.ms.race.filter fun r => !(here r.1 && (unpackRace r.2).tag == tag))
    withL1 s (s.ms.l1.map fun b => if here (b.sec / 8) && (unpackRace b.race).tag == tag then { b with race := raceQuiet } else b)

/-- Memory as pages of a key slot give it in a range: units that were written under another slot hold free values (R168). -/
def decrypted (s : State) (key pa n : Nat) : Mem :=
  (s.ms.keys.filter fun k => k.2 != key && overlaps (16 * k.1) 16 pa n).foldl (fun m k =>
    memWrite m (16 * k.1) ((List.range 16).map fun i => Config.byte s.tick (16 * k.1 + i))) s.ms.mem

/-- The parameter block at launch start, page by page, as far as it is mapped (R165). -/
def constImage (s : State) (cx : Ctx) (param : Nat) : List (Nat × Nat × Mem) :=
  (piecesOf 16 param 65536).filterMap fun q =>
    match translatePiece s cx accLoad q.1 q.2 with
    | .error _ => none
    | .ok (p, _) => some (q.1 - param, q.1 - param + q.2,
        ((decrypted s (pteKey p.leaf.pte) p.pa q.2).filter fun b => p.pa ≤ b.1 && b.1 < p.pa + q.2).map fun b =>
          (b.1 - p.pa + (q.1 - param), b.2))

/-- A pallet at its start. -/
def freshPallet (s : State) (key : Nat) (la : Launch) (num core cslot psl : Nat) (st : PalSt) : Pallet where
  key := key
  launch := la.key
  num := num
  core := core
  cslot := cslot
  psl := psl
  st := st
  spawn := 0
  table := []
  ser := []
  tray := []
  bars := []
  trel := []
  expo := 0
  rwc := 0
  dbg := ⟨false, false, false, false, none, 0, 0, 24, 0, 0, 0⟩
  rbok := true
  hodF := none
  hodN := 0
  since := s.cs.cyc
  mpos := []
  mi := 0
  mj := 0
  mseq := 0
  mwait := false
  mdone := false
  mcell := 0
  mops := 0
  macc := []
  rpl := []
  trn := 0
  redone := none
  fopr := 0
  foprT := 0

/-- Threads, sheets: n fresh internal keys from a base. -/
def freshKeys (s : State) (n : Nat) : Nat × State := (s.cs.fresh, { s with cs := { s.cs with fresh := s.cs.fresh + n } })

/-- The launched threads of sheet n of a pallet (R13, R16). -/
def launchedLanes (la : Launch) (num n base : Nat) : List (Nat × Thread) :=
  let d := la.r.depth
  let per := 32 * d
  (List.range (min per (la.r.thr - n * per))).map fun i =>
    let t := n * per + i
    (i / d + 32 * (i % d), freshThread la (base + t) (BitVec.ofNat 32 (num * la.r.thr + t)))

/-- Starts the launched threads of a pallet, sheet by sheet. -/
def startSheets (s : State) (la : Launch) (p : Pallet) (uids : Nat) : Nat → Nat → List Nat → State
  | 0, _, _ => s
  | left + 1, n, free =>
    let slot := (launchSlot free n).getD 0
    let u := freshKey s
    let s := addSheet u.2 (newSheet u.1 p.key slot la.r.entry (launchedLanes la p.num n uids) [] s.cs.cyc)
    startSheets s la p uids left (n + 1) (free.filter fun i => i != slot)

/-- Gives a context a slot on a core. -/
def takeSlot (s : State) (cid : Word) (core : Nat) : State × Nat :=
  match getCtx s cid with
  | none => (s, 0)
  | some cx =>
    let slot := (slotOn s cx core).getD 0
    if cx.slots.any fun x => x.1 == core then (s, slot) else (setCtx s { cx with slots := cx.slots ++ [(core, slot)] }, slot)

/-- The lowest admission slot of a context that is free on a core (R454). -/
def freePsl (s : State) (cid : Word) (core : Nat) : Nat :=
  let used := ((admittedOn s core).filter fun p => ((getLaunch s p.launch).map (·.cid)) == some cid).map (·.psl)
  (lowestFree used 8).getD 0

/-- Ranks of set A's ranges that a pallet's matcher walks (R336, R338). -/
def matcherRanks (la : Launch) (num : Nat) : List Nat :=
  match la.p with
  | none => []
  | some p => (List.range (min p.cells (64 * la.pals))).filter fun q => rankPallet la q == num

/-- Sets a pair launch's matcher at its first range. -/
def armMatcher (la : Launch) (p : Pallet) : Pallet :=
  match la.p with
  | none => { p with mdone := true }
  | some r =>
    let ranks := matcherRanks la p.num
    { p with
      mpos := ranks
      mdone := ranks.isEmpty
      mcell := ranks.headD 0 * r.cells / min r.cells (64 * la.pals) }

/-- Admits one pallet on a core: active when it fits, when it may evict, or when a context makes room for its tray, parked otherwise
(R31, R379). -/
def admitPallet (s : State) (la : Launch) (num core stamp : Nat) : State :=
  let psl := freePsl s la.cid core
  let u := takeSlot s la.cid core
  let s := u.1
  let need := palletRoom la
  let room : Option State := if ((coreUse s core).add need).inCore then some s
    else (evictFor s core la.r.prio need).or (switchFor s la.cid core la.r.prio need)
  let k := freshKey (room.getD s)
  let p := armMatcher la (freshPallet k.2 k.1 la num core u.2 psl (if room.isSome then .active else .parked))
  let free := if room.isSome then freeSlots k.2 core else []
  let s := withPallets k.2 (k.2.cs.pallets ++ [p])
  let s :=
    if la.p.isSome then s
    else
      let b := freshKeys s la.r.thr
      startSheets b.2 la p b.1 (sheetSlots la) 0 free
  takeSnap (palletAcquire s p.key 6 (anyMark stamp)) p.key

/-- The next launch identity that no running launch has (R418). -/
def nextIdent (s : State) : Nat → Nat → Nat
  | 0, n => n
  | fuel + 1, n =>
    if s.qs.launches.any fun la => la.fin.isNone && la.ident.toNat == n then nextIdent s fuel ((n + 1) % 2 ^ 32) else n

def dropSubmit (s : State) (k : Nat) : State := withSubs s (s.qs.subs.filter fun x => x.key != k)

/-- Ends a submission with an error: its packet and its future (R417, R423). -/
def refuseSubmit (s : State) (x : Submit) (code detail : Nat) : State :=
  let s := dropSubmit s x.key
  let s := match x.queue with
    | some (q, i) => endPacket s q i code detail
    | none => s
  match x.fut with
  | some h => completeFuture s h .error 0
  | none => s

/-- True for a launch that fcancel has cancelled before its packet was accepted (R423). -/
def wasCancelled (s : State) (x : Submit) : Bool :=
  x.queue.isSome && (x.fut.bind fun h => getFuture s h).any fun u => u.st == .cancelledWhole

/-- A launch starts on its cores. -/
def startLaunch (s : State) (x : Submit) (cx : Ctx) (la : Launch) (cores : List Nat) (tag : Nat) : State :=
  let id := nextIdent s (s.qs.launches.length + 1) s.qs.nextId
  let la := { la with
    ident := BitVec.ofNat 32 id
    pals := cores.length
    tag := tag
    cimg := constImage s cx la.r.param.toNat }
  let s := dropSubmit s x.key
  let s := match getPart s cx.part with
    | some p => if (tagsUsed s p.num).contains tag then s else quietTag s p tag
    | none => s
  let s := { s with qs := { s.qs with launches := s.qs.launches ++ [la], nextId := (id + 1) % 2 ^ 32 } }
  let s := match x.fut.bind fun h => getFuture s h with
    | some u => setFuture s { u with begun := true }
    | none => s
  let s := cores.zipIdx.foldl (fun s c => admitPallet s la c.2 c.1 x.stamp) s
  if recording la then (deviceWrite s cx (hubAgent s) la.r.negb.toNat (negHeader la false) .plain).getD s else s

/-- Checks a submission, and admits it, refuses it, or lets it wait (R417). -/
def admitSub (s : State) (x : Submit) : State :=
  if wasCancelled s x then refuseSubmit s x 3 12
  else if !x.readable then refuseSubmit s x 3 13
  else
    match getCtx s x.cid with
    | none => refuseSubmit s x 3 13
    | some cx =>
      match cx.stop with
      | some code => refuseSubmit s x 4 (cx.cid.toNat + code * 2 ^ 32)
      | none =>
        let la := draftLaunch x cx
        match admitCheck s cx la x.pair with
        | .error code => refuseSubmit s x 3 code
        | .ok cores =>
          match freeTag s la cx.part with
          | none => s
          | some tag =>
            let t := cores.foldl (fun s c => makeSlot s cx c) s
            if cores.all fun c => coreTakes t cx c then startLaunch t x cx la cores tag else s

/-- LAUNCH_ADMISSION (R417). -/
def execLaunchAdmission (sub : Nat) (s : State) : Out :=
  match s.qs.subs.find? fun x => x.key == sub with
  | some x => .next (admitSub s x)
  | none => .next s

/-! ## Ending (R24, R342) -/

/-- A pallet with no thread, no pending future and, in a pair launch, nothing left to create (R24, R342). -/
def palletOver (s : State) (p : Pallet) : Bool :=
  (p.st == .active || p.st == .parked || p.st == .eligible) &&
  !(s.cs.sheets.any fun sh => sh.pal == p.key) && !(s.cs.store.any fun e => e.pal == p.key) &&
  !(s.en.futs.any fun u => u.pal == p.key && u.st == .pending) && p.mdone && !(s.en.relq.any fun r => r.launch == p.launch)

/-- The pallets of launches that are not pair launches end one by one (R24). -/
def endPallets (s : State) : State :=
  mapPallets s fun p => if palletOver s p && ((getLaunch s p.launch).map (·.p.isNone)).getD false then { p with st := .ended } else p

/-- A launch whose pallets have all ended, or for a pair launch could all end; its agents have nothing outstanding (R342, R193). -/
def launchOver (s : State) (la : Launch) : Bool :=
  let ps := s.cs.pallets.filter fun p => p.launch == la.key
  la.fin.isNone && ps.all (fun p => p.st == .ended || palletOver s p) &&
  !(s.fb.reqs.any fun r => r.agent.launch == la.key && r.kind != .marker)

/-- Closes the next window of a launch that is still open: none when no window is left. -/
def closeNext (s : State) (la : Launch) (cx : Ctx) : Option State :=
  let ended : Closer := ⟨none, 0, 0xFFFFFFFF⟩
  match s.en.wins.find? fun w => w.launch == la.key && w.phase != 0 && w.closer == 0 with
  | some w => if w.paused then none
    else some (if w.phase = 2 then resumePairWin s la cx .ended w else resumeWin s la cx ended w)
  | none =>
    match openWins s la.key with
    | w :: _ => some (closeWin s la cx ended 0 w)
    | [] =>
      match pairWindows la s.en.pclosed, la.p with
      | w :: _, some p => some (closePairWin s la cx p w.1 .ended 0)
      | _, _ => none

def closeAll (s : State) (la : Launch) (cx : Ctx) : Nat → State
  | 0 => s
  | n + 1 => match closeNext s la cx with
    | some s => closeAll s la cx n
    | none => s

/-- A record of a race found at launch end (R230): PC 0, thread identity 0xFFFF_FFFF. -/
def endRecord (cx : Ctx) (p : Pallet) (x : FaultInfo) (cls : Nat) : List Byte :=
  trapRecord cx ⟨0, 0xFFFFFFFF, 0xFFFFFFFF, 0, p.expo, p.rwc⟩ x cls

/-- The launch-end release of one pallet's agent at sys (R179, R230). -/
def endRelease (s : State) (la : Launch) (cx : Ctx) (p : Pallet) : State :=
  let w : Who := ⟨palletAgent s p, p.core, cx, la.tag, raceMode la⟩
  let r := releaseMoves s w 6
  let f := filterHits r.1 w.agent cx.cid (raceMode la) r.2
  let s := match f.2 with
    | [] => f.1
    | h :: _ =>
      if raceMode la = 1 then fatalRecord f.1 la cx 0x18 (endRecord cx p h.fault 2)
      else f.2.foldl (fun s h => (softRecord s la cx 0x18 (endRecord cx p h.fault 3)).1) f.1
  (bumpClock s w.agent).2

/-- Entries of a replayed negative that no operation has matched (R364). -/
def unperformedEntries (s : State) (la : Launch) (cx : Ctx) : Bool :=
  replaying la && decide (sumN (la.negSeq.map (·.2)) < (negEntries s la cx).length)

/-- Frees a context's slot on cores where it has no pallet left; its engines' agents there end (R31, R177). -/
def freeSlotsOf (s : State) (cid : Word) : State :=
  match getCtx s cid with
  | none => s
  | some cx =>
    let busy := fun (core : Nat) => s.cs.pallets.any fun p =>
      p.core == core && p.st != .ended && ((getLaunch s p.launch).map (·.cid)) == some cid
    let gone := cx.slots.filter fun x => !busy x.1
    let engine := fun (a : Agent) => a.key.launch == 0 && gone.any fun x =>
      a.key.id == agentId s.fb.node x.1 x.2 1 || a.key.id == agentId s.fb.node x.1 x.2 2
    let s := withAgents s (s.cs.agents.filter fun a => !engine a)
    setCtx s { cx with slots := cx.slots.filter fun x => busy x.1 }

/-- Removes what a launch's pallets held. -/
def clearPallets (s : State) (launch : Nat) : State :=
  let mine := fun (k : Nat) => s.cs.pallets.any fun p => p.key == k && p.launch == launch
  let s := { s with
    cs := { s.cs with
      sheets := s.cs.sheets.filter fun x => !mine x.pal
      store := s.cs.store.filter fun x => !mine x.pal
      snaps := s.cs.snaps.filter fun x => !mine x.1
      agents := s.cs.agents.filter fun a => a.key.launch != launch }
    en := { s.en with
      olds := s.en.olds.filter fun o => !mine o.pal
      mmas := s.en.mmas.filter fun m => !mine m.pal
      wins := s.en.wins.filter fun w => w.launch != launch
      contribs := s.en.contribs.filter fun c => c.launch != launch
      parts := s.en.parts.filter fun c => c.launch != launch
      relq := s.en.relq.filter fun c => c.launch != launch
      papp := s.en.papp.filter fun c => c.1 != launch
      pclosed := s.en.pclosed.filter fun c => c.1 != launch } }
  withPallets s (s.cs.pallets.filter fun p => p.launch != launch)

/-- DETAIL of a completion (R424). -/
def doneDetail (la : Launch) : Nat := la.flags.toNat + boolN la.negT * 256 + la.ident.toNat * 2 ^ 32

/-- The launch-end release, the negative's header and the completion. The context stops when the record of entries left over finds no
slot or is lost (R373, R374). -/
def finishLaunch (s : State) (la : Launch) (cx : Ctx) : State :=
  let ps := s.cs.pallets.filter fun p => p.launch == la.key
  let s := ps.foldl (fun s p => if ((getLaunch s la.key).bind (·.fin)).isSome then s else endRelease s la cx p) s
  match getLaunch s la.key with
  | none => s
  | some la =>
    if la.fin.isSome then s
    else if unperformedEntries s la cx then
      let q := trapQueueOf la cx
      let rec' := trapRecord cx ⟨0, 0xFFFFFFFF, 0xFFFFFFFF, 0, 0, 0⟩ (replayFault 2) 2
      match putRecord s cx q.1 q.2 0 rec' with
      | .written s => freeSlotsOf (clearPallets (failLaunch s la 4 (cx.cid.toNat + 0x0A * 2 ^ 32)) la.key) la.cid
      | .full s => stopContext (writeStat (completeStores s cx.cid) cx q.1 0x0A true) cx.cid 0x0A
      | .lost => stopContext s cx.cid 0x0A
    else
      let stamp := maxN (ps.map fun p => (getAgent s (palletAgent s p)).c)
      let s := if recording la then
          (deviceWrite s cx (hubAgent s) la.r.negb.toNat (negHeader la true) .plain).getD s
        else s
      let s := setLaunch s { la with fin := some 0, maxC := stamp }
      let s := match la.queue with
        | some (q, x) => endPacket s q x 0 (doneDetail la)
        | none => s
      let s := match la.fut with
        | some h => completeFuture s h .clean stamp
        | none => s
      freeSlotsOf (clearPallets s la.key) la.cid

/-- LAUNCH_END (R179): when all pallets are over, windows close, stores are published, and the completion is reported. -/
def endLaunch (s : State) (la : Launch) : State :=
  match getCtx s la.cid with
  | none => s
  | some cx =>
    if !launchOver s la then s
    else
      let s := closeAll s la cx (s.en.wins.length + 4)
      if s.en.wins.any fun w => w.launch == la.key then s
      else match getLaunch s la.key with
        | some la => if la.fin.isSome then s else finishLaunch s la cx
        | none => s

def execLaunchEnd (launch : Nat) (s : State) : Out :=
  match getLaunch s launch with
  | some la => .next (endLaunch s la)
  | none => .next s

end Sys2Proof.Machine
end

