-- ==== Sys2Proof/Machine/Branch.lean ====
section
/-! DEFINITION. Branches: destinations (R110 to R115, R118) and how a sheet divides (R19, R20, R116, R117). -/

namespace Sys2Proof.Machine

/-- A destination `off` words from the branch's first word (R37, R110). -/
def wordTarget (iss : Issue) (off : Dword) : Dword := iss.ipc + off * 4

/-- The 14-bit signed word offset of bits [24:11]. -/
def off14 (f : Fld) : Dword := (f.a ++ f.d).signExtend 64

/-- A label target: bits [24:11], or the literal (R110). -/
def labelTarget (iss : Issue) (f : Fld) : Dword := wordTarget iss (if f.lit = 4 then f.imm else off14 f)

/-- What a branch says: destination of a unit, how ties are broken, whether it writes ret, and whether it is taken under an
empty em (R116). -/
structure BranchOp where
  form  : OpForm
  dest  : LV → Except FaultInfo Dword
  first : Issue → Fld → Option Dword      -- brq's first target
  ind   : Bool                            -- an indirect branch: the lowest target wins a tie
  call  : Bool
  empty : Bool

/-- An indirect destination: misaligned unless its bits [1:0] are zero (R37, R113). -/
def indirect (a : Dword) : Except FaultInfo Dword := if a.extractLsb' 0 2 = 0 then .ok a else .error (faultOf 0x08 a.toNat [])

/-- Destinations of the units in the order of their lanes, and the faults of the lowest faulting pass. -/
def branchDests (b : BranchOp) (s : State) (e : Env) (f : Fld) (cyc : Nat) (us : List (List Nat)) :
    List (List Nat × LaneRes × Except FaultInfo Dword) :=
  us.filterMap fun ls =>
    (viewOf s e f cyc ls).map fun v =>
      let bad := (v.operandFault b.form).or (v.badQ b.form)
      (ls, match bad with | some x => .fault s x | none => v.block b.form s, b.dest v)

/-- The groups of R19: destination, lanes. -/
def groupBy (l : List (Nat × Dword)) : List (Dword × List Nat) :=
  l.foldl (fun gs x =>
    if gs.any fun g => g.1 == x.2 then gs.map fun g => if g.1 == x.2 then (g.1, g.2 ++ [x.1]) else g
    else gs ++ [(x.2, [x.1])]) []

/-- Order among groups of equal size: fall-through, brq's first target, the lowest address. -/
def tieRank (b : BranchOp) (iss : Issue) (f : Fld) (d : Dword) : Nat :=
  if b.ind then d.toNat
  else if d = iss.next then 0 else if b.first iss f = some d then 1 else 2

/-- The group that stays: the most threads, ties by `tieRank`. -/
def stays (b : BranchOp) (iss : Issue) (f : Fld) (gs : List (Dword × List Nat)) : Option (Dword × List Nat) :=
  gs.foldl (fun m g =>
    match m with
    | none => some g
    | some h =>
      if g.2.length > h.2.length || (g.2.length == h.2.length && tieRank b iss f g.1 < tieRank b iss f h.1) then some g
      else some h) none

/-- One departing thread: its live state goes to the spawn store under its destination (R19, R20). -/
def departOne (e : Env) (f : Fld) (s : State) (x : Nat × Dword) : State :=
  match getSheet s e.sh.key with
  | none => s
  | some sh =>
    match laneThread sh x.1 with
    | none => s
    | some t =>
      let n := liveOf e f
      let s := enterStore s sh.pal x.2 (applyLive t n.1 n.2 s.tick) (kImage sh (x.1 % 32)) .ready
      setSheet s (dropLane sh x.1)

/-- call and calli write the return address in every active lane (R118). -/
def writeRet (s : State) (key : Nat) (lanes : List Nat) (ra : Dword) : State := writeAll s key lanes none [.thr fun t => { t with ret := ra }]

/-- The branch's effect once every lane has a destination. The smaller groups always leave the sheet: a weakly parallel core may
also keep them in it under em (R34); DESIGN CHOICE, log 95. -/
def divide (b : BranchOp) (s : State) (e : Env) (f : Fld) (ds : List (Nat × Dword)) : Option State :=
  let gs := groupBy ds
  let ra := s.iss.next
  match stays b s.iss f gs with
  | none => some s
  | some g =>
    let out := ds.filter fun d => d.2 != g.1
    if !storeFits s e.la e.pl.key out.length then none
    else
      let s := if b.call then writeRet s e.sh.key (ds.map (·.1)) ra else s
      let s := out.foldl (departOne e f) s
      match getSheet s e.sh.key with
      | none => some s
      | some sh => some (putSheet s (advanceTo sh g.1))

/-- A branch executes for the whole sheet: no lane is affected before every fault of every lane has been decided. -/
def branch (b : BranchOp) (f : Fld) (s : State) : Out :=
  match envOf s s.iss.sheet with
  | none => .next s
  | some e =>
    match decodeCheck b.form f f s.iss with
    | some x => .next (raiseDecode s e.sh x)
    | none =>
      let cyc := issueAt s e.sh
      let last := cyc + (if f.u then 1 else e.la.r.depth) - 1
      let ls := awakeLanes e.sh
      let parts := maskOf ls
      let rs := branchDests b s e f cyc (unitsOf f.u ls)
      let flt := rs.filterMap fun r =>
        match r.2.1, r.2.2 with
        | .fault _ x, _ => some (r.1.headD 0, x)
        | .ok _ _, .error x => some (r.1.headD 0, x)
        | _, _ => none
      let waits := rs.filterMap fun r => match r.2.1 with | .wait _ w => some (r.1.headD 0, w) | _ => none
      let flt := lowestPass flt
      let flt := if waits.any (putsOff ((flt.headD (0, faultOf 0 0 [])).1 / 32)) then [] else flt
      let timed := fun (s : State) => afterIssue s e.sh.key cyc last f.stl.toNat rs.length
      let stall := fun (s : State) (w : Stall) =>
        match getSheet s e.sh.key with
        | some sh => Host.Outcome.next (setSheet s { sh with stalled := true, why := w, run := [], pc := s.iss.pc })
        | none => .next s
      match flt with
      | x :: r => .next (takeFaults (timed s) parts 0 (x :: r))
      | [] =>
        match waits with
        | w :: _ => stall s w.2
        | [] =>
          let s := rs.foldl (fun s r =>
            match viewOf s e f cyc r.1 with
            | some v => (match v.block b.form s with | .ok s _ => s | _ => s)
            | none => s) s
          let ds := rs.flatMap fun r => match r.2.2 with | .ok d => r.1.map fun l => (l, d) | .error _ => []
          match ds with
          | [] =>
            let dest := if b.empty then labelTarget s.iss f else s.iss.next
            .next (putSheet (timed s) (advanceTo ((getSheet (timed s) e.sh.key).getD e.sh) dest))
          | d :: _ =>
            if e.sh.course.isSome && ds.any fun x => x.2 != d.2 then
              .next (takeFaults (timed s) parts 0 (ds.map fun x => (x.1, faultOf 0x14 0 [(0x28, 1, 2), (0x2C, 1, 0xFF)])))
            else
              match divide b (timed s) e f ds with
              | some s => .next (retire s e.pl.key ds.length)
              | none => stall (timed s) .store

/-! ## The branches -/

def uncond (form : OpForm) (call : Bool) : BranchOp := ⟨form, fun v => .ok (labelTarget v.iss v.f), fun _ _ => none, false, call, true⟩
def indirectOp (form : OpForm) (call : Bool) : BranchOp :=
  ⟨form, fun v => indirect (BitVec.ofNat 64 (v.gs 2 v.f.b.toNat 2)), fun _ _ => none, true, call, false⟩

/-- R114: sense in MOD[3:2], policy for U in MOD[1:0]. -/
def brcDest (v : LV) : Except FaultInfo Dword :=
  let q := v.q 2 v.f.b.toNat
  let pol := v.f.md.toNat % 4
  let taken := if q = qU then pol == 0 else q == qOf (v.f.md.toNat / 4 % 4 == 0)
  if q = qU ∧ pol = 2 then .error (faultOf 0x31 0 [(0x2C, 1, 1)])
  else .ok (if taken then labelTarget v.iss v.f else v.iss.next)

/-- R115. -/
def brqDest (v : LV) : Except FaultInfo Dword :=
  let q := v.q 2 v.f.b.toNat
  .ok (if q = qT then wordTarget v.iss (off14 v.f) else if q = qU then wordTarget v.iss v.f.imm else v.iss.next)

def execBra (f : Fld) (s : State) : Out := branch (uncond formBra false) f s
def execBrc (f : Fld) (s : State) : Out := branch ⟨formBrc, brcDest, fun _ _ => none, false, false, false⟩ f s
def execBri (f : Fld) (s : State) : Out := branch (indirectOp formBri false) f s
def execCall (f : Fld) (s : State) : Out := branch (uncond formCall true) f s
def execCalli (f : Fld) (s : State) : Out := branch (indirectOp formCalli true) f s
def execRet (f : Fld) (s : State) : Out := branch ⟨formRet, fun v => indirect v.t.ret, fun _ _ => none, true, false, false⟩ f s
def execBrq (f : Fld) (s : State) : Out :=
  branch ⟨formBrq, brqDest, fun iss f => some (wordTarget iss (off14 f)), false, false, false⟩ f s

end Sys2Proof.Machine
end

