-- ==== Sys2Proof/Machine/Control.lean ====
section
/-! DEFINITION. Ending, yielding and spawning (R119 to R121), breakpoints, traps, soft interrupts and the return from a handler
(R122 to R124). -/

namespace Sys2Proof.Machine

/-- Takes a lane's thread out of its sheet; the sheet is freed with its last lane (R24). -/
def removeLane (s : State) (key lane : Nat) : State :=
  match getSheet s key with
  | none => s
  | some sh => putSheet s (dropLane sh lane)

/-- exit of a free thread: it leaves its courses and ends, and its sticky flags join the launch's (R25, R104, R119). In a pinned
course, and in a handler of a pinned course's lane, it raises the course fault. -/
def exitBody (v : LV) (s : State) : LaneRes :=
  let pinned := match v.env.sh.course with
    | some c => some (v.env.pl, c)
    | none => match v.t.trap.bind (·.crs) with
      | some (key, _) => (getSheet s key).bind fun sh => sh.course.map fun c => (v.env.pl, c)
      | none => none
  match pinned with
  | some (p, c) => .fault s (courseFault 7 (((sGet p.table c).map (·.members.length)).getD 0) (courseHandle p c) 0 0)
  | none =>
    let s := leaveAll s v.env.la v.env.cx v.member
    let s := match getLaunch s v.env.la.key with
      | some la => setLaunch s { la with flags := la.flags ||| v.t.fpf }
      | none => s
    .ok (removeLane (endPair s v.t) v.env.sh.key v.lane) []

def execExit (f : Fld) (s : State) : Out := vec formExit f s exitBody

/-- yield changes no value: its sheet becomes the most recently issued (R120). -/
def execYield (f : Fld) (s : State) : Out := vec formYield f s fun _ s => .ok s []

/-- spawn (R121): g[D] of the child is 0, g[D] of the parent the child's identity. -/
def execSpawn (f : Fld) (s : State) : Out :=
  vec formSpawn f s fun v s =>
    match v.create s (wordTarget v.iss f.imm) fun t => { t with
        g := t.g.set f.d.toNat 0
        gp := t.gp.filter fun i => i != f.d.toNat } with
    | (.ok s _, ident) => .ok s [.g f.d.toNat ident]
    | (r, _) => r

/-- The 14-bit code in bits [24:11]. -/
def code14 (f : Fld) : Nat := (f.a ++ f.d).toNat

def codeFault (code : Nat) (f : Fld) : FaultInfo := faultOf code 0 [(0x28, 4, code14 f)]

def execBrk (f : Fld) (s : State) : Out := vec formBrk f s fun _ s => .fault s (codeFault 0x30 f)
def execTrap (f : Fld) (s : State) : Out := vec formTrap f s fun _ s => .fault s (codeFault 0x31 f)

/-- The protection fault of a target that is not the context's; R123 names no reason bit (log 33). -/
def swiFault (target : Nat) : FaultInfo := faultOf 0x0A target [(0x28, 1, 3), (0x29, 1, 0xFF)]

/-- A queue of the context's partition. -/
def queueOfPart (s : State) (cx : Ctx) (q : Nat) : Bool := ((getPart s cx.part).map fun p => queueInPart p q).getD false

/-- swi (R123): a release at sys, then the OR is on its way to the wake register. -/
def execSwi (f : Fld) (s : State) : Out :=
  vec formSwi f s fun v s =>
    let target := v.int 2 1
    let mgmt := target == 0x1000 || target == 0x1001
    if mgmt && !isPriv v.env then .fault s (faultOf 0x04 0 [])
    else if !mgmt && !queueOfPart s v.env.cx target then .fault s (swiFault target)
    else
      match v.release s 6 with
      | .error (s, x) => .fault s x
      | .ok (_, s) => .ok (withSwis s (s.qs.swis ++ [⟨v.agent s, target, BitVec.ofNat 32 (v.int 1 1)⟩])) []

/-- tret (R124): outside a handler it is illegal; else the thread resumes after the faulting run or at it. -/
def execTret (f : Fld) (s : State) : Out :=
  vec formTret f s fun v s =>
    match v.t.trap, getSheet s v.env.sh.key with
    | some c, some sh =>
      match laneThread sh v.lane with
      | none => .wait s .other
      | some t =>
        if c.crs.isNone && !entryRoom s sh.pal then .wait s .store
        else
          let r := retHandler s sh v.lane t c (f.md.getLsbD 0)
          .ok (putSheet r.1 r.2) []
    | _, _ => .fault s (decodeFault 0x01 v.iss (v.f.len.getLsbD 1))

end Sys2Proof.Machine
end

