-- ==== Sys2Proof/Machine/Packets.lean ====
section
/-! DEFINITION. Work queues: the ring, packets and their validity (R406 to R411), starting, ending and reporting packets (R412 to
R414), completion signals, dependencies, events (R424 to R426), and the launch instruction (R423). -/

namespace Sys2Proof.Machine

/-! ## CRC-32C (R410) -/

def crcBits : Nat → Word → Word
  | 0, c => c
  | n + 1, c => crcBits n (if c.getLsbD 0 then (c >>> 1) ^^^ 0x82F63B78#32 else c >>> 1)

def crc32c (bytes : List Byte) : Word :=
  (bytes.foldl (fun c b => crcBits 8 (c ^^^ b.setWidth 32)) 0xFFFFFFFF#32) ^^^ 0xFFFFFFFF#32

/-! ## The ring (R406, R408) -/

/-- Ring entries. -/
def Queue.size (q : Queue) : Nat := 2 ^ q.logn

/-- The lap stamp of packet x (R410). -/
def Queue.lap (q : Queue) (x : Nat) : Nat := x / q.size % 65535 + 1

/-- Where packet x lies. -/
def Queue.slotAddr (q : Queue) (x : Nat) : Nat := q.rbase.toNat + 64 * (x % q.size)

def Queue.isStopped (q : Queue) : Bool := q.stat.getLsbD 31
def Queue.isLatched (q : Queue) : Bool := q.stat.getLsbD 30

/-- The host link reaches all of [a, a + n) (R426, R441). -/
def hostReach (s : State) (a n : Nat) : Bool := s.mg.holes.all fun h => !overlaps h.1 h.2 a n

/-- The 64 bytes of packet x as the ring holds them; none when the ring cannot be accessed. -/
def ringRead (s : State) (q : Queue) (x : Nat) : Option (List Byte) :=
  if q.rspc = 0 then (if hostReach s (q.slotAddr x) 64 then some (memRead s.ms.hostMem (q.slotAddr x) 64) else none)
  else (getCtx s q.cid).bind fun cx => deviceRead s cx (q.slotAddr x) 64

/-- Writes packet x into the ring, with a hub engine's release at sys (R409, R423). -/
def ringWrite (s : State) (q : Queue) (x : Nat) (bytes : List Byte) : Option State :=
  if q.rspc = 0 then
    if hostReach s (q.slotAddr x) 64 then some (withHostMem s (memWrite s.ms.hostMem (q.slotAddr x) bytes)) else none
  else (getCtx s q.cid).bind fun cx =>
    let c := hubRelease s
    deviceWrite c.2 cx (hubAgent s) (q.slotAddr x) bytes (.stamp c.1 6)

/-! ## Fields of a packet (R408, R409) -/

def pkBar (b : List Byte) : Bool := bitN (fieldB b 0 2) 0
def pkSig (b : List Byte) : Bool := bitN (fieldB b 0 2) 1
def pkDec (b : List Byte) : Bool := bitN (fieldB b 0 2) 2
def pkTag (b : List Byte) : Word := BitVec.ofNat 32 (fieldB b 4 4)
def pkKind (b : List Byte) : Nat := fieldB b 0x3B 1
def pkDefined (b : List Byte) : Bool := 1 ≤ pkKind b && pkKind b ≤ 8 && fieldB b 0x3A 1 == 1

/-- The bytes that a read finds make a valid packet x (R411). -/
def validPacket (q : Queue) (x : Nat) (b : List Byte) : Bool :=
  fieldB b 0x38 2 == q.lap x && fieldB b 0x3C 4 == (crc32c (b.take 0x38)).toNat

/-- A launch or pair-launch packet with a valid mark (R423). -/
def launchPacketBytes (q : Queue) (x : Nat) (pair : Bool) (addr : Nat) : List Byte :=
  let b := layout 64 [(0x18, 8, addr), (0x38, 2, q.lap x), (0x3A, 1, 1), (0x3B, 1, if pair then 2 else 1)]
  putB b 0x3C 4 (crc32c (b.take 0x38)).toNat

/-! ## Stopping a queue (R426) -/

/-- STAT with a stop and its error code; a latched bit stays. -/
def stopStat (old : Word) (code : Nat) (latch : Bool) : Word :=
  BitVec.ofNat 32 (2 ^ 31 + (if latch || old.getLsbD 30 then 2 ^ 30 else 0) + code % 256 * 2 ^ 16)

/-- The futures of a stopped queue that are pending end with error (R423). -/
def failFutures (s : State) (q : Queue) : State := q.futs.foldl (fun s x => completeFuture s x.2.1 .error 0) s

def stopQueue (s : State) (n code : Nat) (latch : Bool) : State :=
  match getQueue s n with
  | none => s
  | some q => failFutures (setQueue s { q with stat := stopStat q.stat code latch }) q

/-! ## Events (R424, R425) -/

/-- The partition that a queue belongs to (R406). -/
def queuePart (s : State) (q : Nat) : Option Part := s.mg.parts.find? fun p => queueInPart p q

def getRing (s : State) (part : Nat) : Option EvRing := s.qs.rings.find? fun r => r.part == part
def setRing (s : State) (r : EvRing) : State :=
  { s with qs := { s.qs with rings := putBy (fun x => x.part == r.part) r s.qs.rings } }

def hostField (s : State) (a : Nat) : Nat := ofLe (memRead s.ms.hostMem a 8)
def hostPut (s : State) (a : Nat) (bytes : List Byte) : State := withHostMem s (memWrite s.ms.hostMem a bytes)

/-- A free slot: N − (WIDX − RIDX) ≥ 1. A partition without a ring has none. -/
def ringRoom (s : State) (r : EvRing) : Bool :=
  (hostField s r.base.toNat + 2 ^ 64 - hostField s (r.base.toNat + 8)) % 2 ^ 64 < r.n

/-- The 32 bytes of an event. -/
def eventBytes (type code queue : Nat) (tag : Word) (index detail time : Nat) : List Byte :=
  layout 32 [(0, 1, type), (1, 1, code), (2, 2, queue), (4, 4, tag.toNat), (8, 8, index), (0x10, 8, detail), (0x18, 8, time)]

/-- Writes an event into the ring and tells the partition's function (R424, R438); none when no slot is free. -/
def writeEvent (s : State) (p : Part) (bytes : List Byte) : Option State :=
  match getRing s p.num with
  | none => none
  | some r =>
    if !ringRoom s r then none
    else
      let w := hostField s r.base.toNat
      let s := hostPut (hostPut s (r.base.toNat + 64 + 32 * (w % r.n)) bytes) r.base.toNat (leBytes 8 (w + 1))
      some { s with qs := { s.qs with msix := s.qs.msix ++ [(p.vf, 1)] } }

/-- OVF := OVF + 1. -/
def countOverflow (s : State) (p : Part) : State :=
  match getRing s p.num with
  | none => s
  | some r =>
    let s := setRing s { r with ovf := r.ovf + 1 }
    hostPut s (r.base.toNat + 16) (leBytes 8 (r.ovf + 1))

/-- Latches an error whose event finds no space: the queue stops with bit 30 (R425). -/
def latchError (s : State) (p : Part) (n code : Nat) : State := countOverflow (stopQueue s n code true) p

/-- Removes a reported packet and advances DONE, which STRT is never below (R414). -/
def passPacket (s : State) (n : Nat) : State :=
  match getQueue s n with
  | none => s
  | some q => setQueue s { q with
      done := q.done + 1
      strt := max q.strt (q.done + 1)
      pkts := sDel q.pkts q.done
      ended := sDel q.ended q.done
      futs := sDel q.futs q.done
      signed := q.signed.filter fun x => x != q.done }

/-- DONE advances past a packet that was never accepted and whose error is latched, so that its index is DONE − 1 (R425); ACC and STRT are
never below DONE (R414). -/
def skipPacket (s : State) (n : Nat) : State :=
  match getQueue s n with
  | none => s
  | some q => setQueue s { q with
      done := q.done + 1
      strt := max q.strt (q.done + 1)
      acc := max q.acc (q.done + 1)
      futs := sDel q.futs q.done }

/-- Reports an error at a packet that was never accepted; DONE counts accepted packets only, unless the error is latched. -/
def reportErr (s : State) (p : Part) (q : Queue) (e : Nat × Nat × Word × Nat) : Option State :=
  let drop := fun (s : State) => match getQueue s q.num with
    | some q => setQueue s { q with errs := q.errs.drop 1 }
    | none => s
  match writeEvent s p (eventBytes 2 e.2.1 q.num e.2.2.1 e.1 0 e.2.2.2) with
  | some s => some (drop s)
  | none => if q.isLatched then none else some (skipPacket (drop (latchError s p q.num e.2.1)) q.num)

/-- Reports the queue's next event: none when there is none to report or it waits for space (R414, R425). -/
def reportNext (s : State) (n : Nat) : Option State :=
  match getQueue s n, queuePart s n with
  | some q, some p =>
    if q.isLatched then none
    else match q.errs with
      | e :: _ => if e.1 = q.done then reportErr s p q e else reportPacket s p q
      | [] => reportPacket s p q
  | _, _ => none
where
  /-- The packet at DONE, once it has ended and its signals are applied. -/
  reportPacket (s : State) (p : Part) (q : Queue) : Option State :=
    match sGet q.ended q.done, q.signed.contains q.done with
    | some (code, detail, time), true =>
      let b := sGetD q.pkts q.done []
      let type := if code ≠ 0 then 2 else if pkKind b = 8 then 4 else 1
      match writeEvent s p (eventBytes type code q.num (pkTag b) q.done detail time) with
      | some s => some (passPacket s q.num)
      | none => if code = 0 then none else some (passPacket (latchError s p q.num code) q.num)
    | _, _ => none

/-- Reports what a queue can report, at most `fuel` events. -/
def reportAll (s : State) (n : Nat) : Nat → State
  | 0 => s
  | fuel + 1 => match reportNext s n with
    | some s => reportAll s n fuel
    | none => s

/-- Every report of a queue that is due. -/
def reportQueue (s : State) (n : Nat) : State :=
  match getQueue s n with
  | none => s
  | some q => reportAll s n (q.ended.length + q.errs.length)

/-- Stops a queue on an error met at the packet it would accept next. -/
def stopAtAcc (s : State) (n code : Nat) (tag : Word) : State :=
  match getQueue s n with
  | none => s
  | some q => reportQueue (stopQueue (setQueue s { q with errs := q.errs ++ [(q.acc, code, tag, s.mg.ns)] }) n code false) n

/-! ## Summaries (R425) -/

/-- Latched queues of a group of 64. -/
def latchedIn (s : State) (group : Nat) : List Nat :=
  (s.qs.queues.filter fun q => q.num / 64 == group && q.isLatched).map (·.num)

/-- Writes the summary of one group when a slot is free. -/
def summarise (s : State) (p : Part) (group : Nat) : Option State :=
  let ls := latchedIn s group
  if ls.isEmpty then some s
  else
    let bits := sumN (ls.map fun q => 2 ^ (q % 64))
    (writeEvent s p (eventBytes 3 0 (64 * group) 0 0 bits s.mg.ns)).map fun s =>
      withQueues s (s.qs.queues.map fun q => if ls.contains q.num then { q with stat := q.stat &&& 0xBFFFFFFF#32 } else q)

/-- The summaries of a partition, in increasing order of groups, while slots are free. -/
def summariseAll (s : State) (p : Part) : List Nat → State
  | [] => s
  | g :: r => match summarise s p g with
    | some s => summariseAll s p r
    | none => s

def partGroups (p : Part) : List Nat := (List.range 32).filter fun j => p.clus.getLsbD j

/-- What the device writes once event-ring space is free: summaries, then the events that waited. -/
def drainEvents (s : State) (p : Part) : State :=
  let s := summariseAll s p (partGroups p)
  ((s.qs.queues.filter fun q => queueInPart p q.num).map (·.num)).foldl reportQueue s

/-- EVENT_RING_SPACE_FREED (R425): the host writes RIDX. -/
def execEventRingSpaceFreed (part ridx : Nat) (s : State) : Out :=
  match getPart s part, getRing s part with
  | some p, some r => .next (drainEvents (hostPut s (r.base.toNat + 8) (leBytes 8 ridx)) p)
  | _, _ => .next s

/-! ## Memory operations of packets: a hub engine at pkg that releases and acquires at sys (R409) -/

/-- The physical address of a byte of a context, for naming a counter. -/
def physOf (s : State) (cx : Ctx) (va : Nat) : Option Nat :=
  match translate s cx accLoad va 1 with
  | .ok (p :: _, _) => some p.pa
  | _ => none

/-- A hub engine's write with its release at sys. -/
def hubWrite (s : State) (cx : Ctx) (va : Nat) (bytes : List Byte) : Option State :=
  let c := hubRelease s
  deviceWrite c.2 cx (hubAgent s) va bytes (.stamp c.1 6)

/-- A hub engine's read with its acquire at sys. -/
def hubRead (s : State) (cx : Ctx) (va n : Nat) : Option (List Byte × State) :=
  match deviceRead s cx va n, translate s cx accLoad va n with
  | some b, .ok (ps, _) => some (b, acquireClock s (hubAgent s) 6 (physMarks s ps))
  | _, _ => none

/-- Dependencies registered on the counter at a physical address. -/
def depsOn (s : State) (pa : Nat) : Dep → Bool := fun d =>
  !d.ready && ((getQueue s d.queue).bind fun q => (getCtx s q.cid).bind fun cx => physOf s cx d.addr.toNat) == some pa

/-- Images pushed onto the ready list, in the order of their registration. -/
def pushReady (s : State) (pa : Nat) (n : Nat) : List Dep → List Dep
  | [] => []
  | d :: r => if depsOn s pa d then { d with ready := true, order := n } :: pushReady s pa (n + 1) r else d :: pushReady s pa n r

/-- A counter that a decrement brings to 0, or that is 0 when an image registers, pushes every image registered on it (R413). -/
def readyDeps (s : State) (pa : Nat) : State :=
  withDeps s (pushReady s pa (maxN ((s.qs.deps.filter fun d => d.ready).map (·.order)) + 1) s.qs.deps)


/-- A write of, or a decrement by, an operand at a u64: none when it cannot be accessed (R409, R413). -/
def signalAt (s : State) (cid : Word) (va operand : Nat) (dec : Bool) : Option State :=
  match getCtx s cid with
  | none => none
  | some cx =>
    if va % 8 ≠ 0 then none
    else match deviceRead s cx va 8, physOf s cx va with
      | some b, some pa =>
        let new := if dec then ofLe b - operand else operand
        (hubWrite s cx va (leBytes 8 new)).map fun s => if dec && new == 0 then readyDeps s pa else s
      | _, _ => none

/-! ## Ending (R413) -/

/-- The packets whose completion signals go with packet x: images started for it, then itself. -/
def signalsOf (s : State) (q : Queue) (x : Nat) : List (List Byte) :=
  ((s.qs.deps.filter fun d => d.queue == q.num && d.index == x && d.started).map (·.image) ++ [sGetD q.pkts x []]).filter pkSig

/-- Applies one completion signal; a counter that cannot be accessed gives error 7 to a packet that has none. -/
def applySignal (x : Nat) (cid : Word) (n : Nat) (s : State) (b : List Byte) : State :=
  match signalAt s cid (fieldB b 8 8) (fieldB b 0x10 8) (pkDec b) with
  | some s => s
  | none => match getQueue s n with
    | none => s
    | some q => match sGet q.ended x with
      | some (0, d, t) => setQueue s { q with ended := sPut q.ended x (7, d, t) }
      | _ => s

/-- Packet x has ended. -/
def hasEnded (q : Queue) (x : Nat) : Bool := x < q.done || (sGet q.ended x).isSome

/-- Packets before x that have not ended. -/
def openBefore (q : Queue) (x : Nat) : List Nat := (q.pkts.map (·.1)).filter fun y => y < x && !hasEnded q y

/-- Packet x may start in queue order (R412): a packet with BAR waits for every earlier one, and any packet for an earlier wait packet. -/
def inTurn (q : Queue) (x : Nat) : Bool :=
  x == q.strt && x < q.acc &&
  (openBefore q x).all fun y => !pkBar (sGetD q.pkts x []) && pkKind (sGetD q.pkts y []) != 5

/-- Starts packets of an undefined kind whose turn has come: they ended with error 2 when they were accepted (R411, R414). -/
def startEnded (q : Queue) : Nat → Queue
  | 0 => q
  | fuel + 1 => if inTurn q q.strt && (sGet q.ended q.strt).isSome then startEnded { q with strt := q.strt + 1 } fuel else q

def startBad (s : State) (n : Nat) : State :=
  match getQueue s n with
  | none => s
  | some q => if q.ended.isEmpty then s else setQueue s (startEnded q q.ended.length)

/-- The completion engine's work for a packet that has ended: its signals once, then the events that are due. -/
def packetEnds (s : State) (n x : Nat) : State :=
  match getQueue s n with
  | none => s
  | some q =>
    if (sGet q.ended x).isNone then s
    else if q.signed.contains x then reportQueue s n
    else
      let s := (signalsOf s q x).foldl (applySignal x q.cid n) s
      let s := withDeps s (s.qs.deps.filter fun d => !(d.queue == n && d.index == x))
      match getQueue s n with
      | none => s
      | some q => startBad (reportQueue (setQueue s { q with signed := q.signed ++ [x] }) n) n

def execPacketEnd (q x : Nat) (s : State) : Out := .next (packetEnds s q x)

/-- A packet ends with an error; error 2 and error 6 stop its queue (R426). -/
def endBad (s : State) (n x code : Nat) : State :=
  let s := endPacket s n x code 0
  if code = 2 ∨ code = 6 then stopQueue s n code false else s

/-! ## Fetching (R411) -/

/-- Acceptance: the copy is kept, ACC increments, and a launch's future has begun. The packet of a cancelled launch ends at once with
error 3 and refusal code 12 (R423). -/
def acceptPacket (s : State) (q : Queue) (b : List Byte) : State :=
  let x := q.acc
  let s := setQueue s { q with acc := x + 1, pkts := sPut q.pkts x b, tries := 0 }
  let s := match (sGet q.futs x).bind fun h => getFuture s h.1 with
    | some f => match f.st with
      | .pending => setFuture s { f with begun := true }
      | .cancelledWhole => startBad (endPacket s q.num x 3 12) q.num
      | _ => s
    | none => s
  if pkDefined b then s else startBad (endBad s q.num x 2) q.num

/-- What one read of packet ACC comes to. -/
inductive Fetch where
  | idle
  | noRing
  | failed (b : List Byte)
  | valid (b : List Byte)
  deriving DecidableEq, Repr

def lookPacket (s : State) (q : Queue) : Fetch :=
  if q.isStopped || q.widx ≤ q.acc then .idle
  else match ringRead s q q.acc with
    | none => .noRing
    | some b => if validPacket q q.acc b then .valid b else .failed b

/-- One read by the fetcher: acceptance, a retry 250 ns later, or a stop after 17 reads. -/
def fetchOnce (s : State) (n : Nat) : State :=
  match getQueue s n with
  | none => s
  | some q =>
    match lookPacket s q with
    | .idle => s
    | .noRing => stopAtAcc (setQueue s { q with tries := 0 }) n 6 0
    | .valid b => acceptPacket s q b
    | .failed b =>
      if q.tries < 16 then setQueue s { q with tries := q.tries + 1, readAt := s.mg.ns }
      else stopAtAcc (setQueue s { q with tries := 0 }) n 1 (pkTag b)

def triesOf (s : State) (q : Nat) : Nat := ((getQueue s q).map (·.tries)).getD 0

/-- Device time until a queue's next read after a failed one, in ns. -/
def nextRead (s : State) (n : Nat) : Nat :=
  match getQueue s n with
  | some q => if q.tries = 0 then 0 else q.readAt + 250 - s.mg.ns
  | none => 0

/-- Device time passes (R409). -/
def passNs (s : State) (n : Nat) : State := { s with mg := { s.mg with ns := s.mg.ns + n } }

/-- PACKET_FETCH: the first read of a packet. -/
def execPacketFetch (q : Nat) (s : State) : Out := .next (if triesOf s q = 0 then fetchOnce s q else s)

/-- PACKET_REFETCH_TIMER: 250 ns after a failed read. -/
def execPacketRefetchTimer (q : Nat) (s : State) : Out :=
  .next (if triesOf s q = 0 then s else fetchOnce (passNs s (nextRead s q)) q)

/-! ## Host writes to a queue's registers (R407, R426) -/

/-- True when a function's BAR0 shows the page of a queue: the physical function sees every page, a virtual one its partition's
(R407, R438). -/
def seesQueue (s : State) (fn q : Nat) : Bool :=
  q < 2048 && (fn == 0 || ((queuePart s q).map (·.vf)) == some fn)

def execQueueDoorbell (q : QueuePage) (value : Nat) (s : State) : Out :=
  match getQueue s q.num with
  | some u => .next (if seesQueue s q.fn q.num && u.widx < value then setQueue s { u with widx := value } else s)
  | none => .next s

def execQueueRestart (q : QueuePage) (value : Word) (s : State) : Out :=
  match getQueue s q.num with
  | some u => .next (if seesQueue s q.fn q.num && value.getLsbD 31 then setQueue s { u with stat := 0, tries := 0 } else s)
  | none => .next s

/-- A queue that is not configured keeps its wake register as well (R123, R406). -/
def execQueueWakeClear (q : QueuePage) (bits : Word) (s : State) : Out :=
  if !seesQueue s q.fn q.num then .next s
  else
    match getQueue s q.num with
    | some u => .next (setQueue s { u with wake := u.wake &&& ~~~bits })
    | none => .next { s with qs := { s.qs with owake := sPut s.qs.owake q.num (sGetD s.qs.owake q.num 0 &&& ~~~bits) } }

/-! ## Starting (R412) -/

def isReadyDep (n x : Nat) (d : Dep) : Bool := d.queue == n && d.index == x && d.ready && !d.started

/-- The image that the ready list starts next: first in, first out (R413). -/
def readyHead (s : State) : Option Dep :=
  (s.qs.deps.filter fun d => d.ready && !d.started).foldl (fun a d =>
    match a with
    | none => some d
    | some b => some (if d.order < b.order then d else b)) none

/-- Starts packet x of a kind: the state with the start noted and the packet's bytes, or none when nothing of that kind may start. -/
def startOf (s : State) (n x kind : Nat) : Option (State × Queue × List Byte) :=
  match getQueue s n with
  | none => none
  | some q =>
    match (readyHead s).filter (isReadyDep n x) with
    | some d =>
      if pkKind d.image ≠ kind then none
      else some (withDeps s (updIf (isReadyDep n x) { d with started := true } s.qs.deps), q, d.image)
    | none =>
      let b := sGetD q.pkts x []
      if !inTurn q x || pkKind b != kind then none
      else
        let q' := { q with strt := x + 1 }
        some (setQueue s q', q', b)

/-- Starts packet x of a kind and does what it does; one that has already ended only starts. -/
def onStart (s : State) (n x kind : Nat) (go : State → Queue → List Byte → State) : Out :=
  match startOf s n x kind with
  | none => .next s
  | some (s, q, b) => .next (startBad (if (sGet q.ended x).isSome then s else go s q b) n)

/-- Hands a launch unit of packet x to the scheduler. -/
def submitPacket (pair : Bool) (x : Nat) (s : State) (q : Queue) (b : List Byte) : State :=
  let a := fieldB b 0x18 8
  let unit := if a % 64 = 0 then (getCtx s q.cid).bind fun cx => deviceRead s cx a (if pair then 512 else 256) else none
  let k := freshKey s
  let sub : Submit := {
    key := k.1
    cid := q.cid
    addr := BitVec.ofNat 64 a
    pair := pair
    queue := some (q.num, x)
    fut := (sGet q.futs x).map (·.1)
    stamp := ((sGet q.futs x).map (·.2)).getD 0
    readable := unit.isSome || ((getCtx s q.cid).bind (·.stop)).isSome
    unit := unit.getD [] }
  withSubs k.2 (k.2.qs.subs ++ [sub])

def execLaunchPacket (q x : Nat) (s : State) : Out := onStart s q x 1 (submitPacket false x)
def execPairLaunchPacket (q x : Nat) (s : State) : Out := onStart s q x 2 (submitPacket true x)

/-- The end of a packet whose work is done or could not be done. -/
def endOr (s : State) (n x code : Nat) (r : Option State) : State :=
  match r with
  | some s => endPacket s n x 0 0
  | none => endBad s n x code

/-- COPY_PACKET: the bytes move, and the last has landed when the packet ends. -/
def execCopyPacket (q x : Nat) (s : State) : Out :=
  onStart s q x 3 fun s u b =>
    endOr s u.num x 6 <| (getCtx s u.cid).bind fun cx =>
      (hubRead s cx (fieldB b 0x18 8) (fieldB b 0x28 8)).bind fun r => hubWrite r.2 cx (fieldB b 0x20 8) r.1

def execSignalPacket (q x : Nat) (s : State) : Out :=
  onStart s q x 4 fun s u b =>
    let op := fieldB b 0x28 1
    if 2 ≤ op then endBad s u.num x 2
    else endOr s u.num x 7 (signalAt s u.cid (fieldB b 0x18 8) (fieldB b 0x20 8) (op == 0))

/-- A wait packet's condition on the value read (R409). -/
def waitHolds (b : List Byte) (v : Nat) : Bool :=
  let x := fieldB b 0x20 8 % (if fieldB b 0x29 1 = 1 then 2 ^ 64 else 2 ^ 32)
  match fieldB b 0x28 1 with
  | 0 => v == x
  | 1 => v != x
  | 2 => x ≤ v
  | _ => v < x

def waitBytes (b : List Byte) : Nat := if fieldB b 0x29 1 = 1 then 8 else 4

def execWaitPacket (q x : Nat) (s : State) : Out :=
  onStart s q x 5 fun s u b =>
    if 3 < fieldB b 0x28 1 ∨ 1 < fieldB b 0x29 1 then endBad s u.num x 2
    else match (getCtx s u.cid).bind fun cx => deviceRead s cx (fieldB b 0x18 8) (waitBytes b) with
      | some _ => s
      | none => endBad s u.num x 6

/-- The wait that packet x has started: its own, or that of its image. -/
def startedWait (s : State) (q : Queue) (x : Nat) : Option (List Byte) :=
  if hasEnded q x then none
  else match s.qs.deps.find? fun d => d.queue == q.num && d.index == x && d.started && pkKind d.image == 5 with
    | some d => some d.image
    | none =>
      let b := sGetD q.pkts x []
      if x < q.strt && pkKind b == 5 then some b else none

/-- The value a started wait reads, and the state after its acquire. -/
def waitRead (s : State) (q : Queue) (b : List Byte) : Option (Nat × State) :=
  (getCtx s q.cid).bind fun cx => (hubRead s cx (fieldB b 0x18 8) (waitBytes b)).map fun r => (ofLe r.1, r.2)

/-- True when a started wait's condition holds, or its memory can no longer be read. -/
def waitOver (s : State) (q : Queue) (x : Nat) : Bool :=
  match startedWait s q x with
  | none => false
  | some b => match waitRead s q b with
    | some (v, _) => waitHolds b v
    | none => true

def execWaitPacketConditionMet (q x : Nat) (s : State) : Out :=
  match getQueue s q with
  | none => .next s
  | some u => match startedWait s u x with
    | none => .next s
    | some b => match waitRead s u b with
      | none => .next (endBad s q x 6)
      | some (v, t) => .next (if waitHolds b v then endPacket t q x 0 0 else s)

/-- DEPENDENCY_PACKET: registers its image on a counter; a counter that is 0 readies it at once. -/
def execDependencyPacket (q x : Nat) (s : State) : Out :=
  onStart s q x 6 fun s u b =>
    let a := fieldB b 0x18 8
    match getCtx s u.cid with
    | none => endBad s q x 7
    | some cx =>
      match if a % 8 = 0 then deviceRead s cx a 8 else none, deviceRead s cx (fieldB b 0x20 8) 64 with
      | none, _ => endBad s q x 7
      | some _, none => endBad s q x 6
      | some c, some image =>
        if !pkDefined image then endBad s q x 2
        else
          let s := withDeps s (s.qs.deps ++ [⟨q, x, BitVec.ofNat 64 a, image, false, 0, false⟩])
          if ofLe c ≠ 0 then s else match physOf s cx a with
            | some pa => readyDeps s pa
            | none => s

def execTimestampPacket (q x : Nat) (s : State) : Out :=
  onStart s q x 7 fun s u b =>
    endOr s q x 6 ((getCtx s u.cid).bind fun cx => hubWrite s cx (fieldB b 0x18 8) (leBytes 8 s.mg.ns))

def execMarkerPacket (q x : Nat) (s : State) : Out := onStart s q x 8 fun s _ _ => endPacket s q x 0 0

/-! ## Resets and losses (R414, R415, R436) -/

/-- FIRMWARE_COMPLEX_RESET: EPOCH increments, and the record and the accepted packets stay. -/
def execFirmwareComplexReset (s : State) : Out :=
  let s := withQueues s (s.qs.queues.map fun q => { q with epoch := q.epoch + 1, tries := 0 })
  .next { s with mg := { s.mg with fw := List.replicate 16 FwCore.zero } }

/-- HOST_LINK_RETRAINING: the record holds. -/
def execHostLinkRetraining (s : State) : Out := .next s

/-- Threads of a pallet. -/
def palletThreads (s : State) (pal : Nat) : List Thread :=
  ((s.cs.sheets.filter fun sh => sh.pal == pal).flatMap fun sh => sh.lanes.map (·.2)) ++
  ((s.cs.store.filter fun e => e.pal == pal).map (·.thr))

/-- Drops all that a pallet holds; it counts as ended. -/
def dropPallet (s : State) (p : Pallet) : State :=
  let s := { s with
    cs := { s.cs with
      sheets := s.cs.sheets.filter fun x => x.pal != p.key
      store := s.cs.store.filter fun x => x.pal != p.key
      snaps := sDel s.cs.snaps p.key }
    en := { s.en with
      copies := s.en.copies.filter fun c => c.pal != p.key
      board := s.en.board.filter fun c => c.pal != p.key
      futs := s.en.futs.filter fun c => c.pal != p.key
      mmas := s.en.mmas.filter fun c => c.pal != p.key
      batches := s.en.batches.filter fun c => c.pal != p.key
      wins := s.en.wins.filter fun w => w.tray != some p.key
      contribs := s.en.contribs.filter fun c => c.pal != p.key
      parts := s.en.parts.filter fun c => c.pal != p.key
      relq := s.en.relq.filter fun c => c.pal != p.key
      olds := s.en.olds.filter fun c => c.pal != p.key } }
  let s := withPosted s (s.ms.posted.filter fun x => x.agent != palletAgent s p && x.tray != some p.key)
  setPallet s { p with st := .ended, table := [], mdone := true }

/-- A launch that loses a core: error 5, or its open tasks are handed out again (R415). -/
def loseCore (core : Nat) (s : State) (la : Launch) : State :=
  let ps := s.cs.pallets.filter fun p => p.launch == la.key
  let lost := ps.filter fun p => p.core == core && p.st != .ended
  if lost.isEmpty then s
  else
    let kept := (ps.filter fun p => p.core != core).any fun p => !(palletThreads s p.key).isEmpty
    if !la.r.lfl.getLsbD 7 || !kept then
      freeSlotsOf (clearPallets (failLaunch (ps.foldl dropPallet s) la 5 0) la.key) la.cid
    else
      let tasks := lost.flatMap fun p => (palletThreads s p.key).flatMap (·.task)
      let s := setLaunch s { la with redo := sortBy (fun a b => a ≤ b) (la.redo ++ tasks) }
      freeSlotsOf (lost.foldl dropPallet s) la.cid

/-- CORE_RETIREMENT (R436): the core's L1 is lost with it. -/
def execCoreRetirement (core : Nat) (s : State) : Out :=
  if s.cs.retired.contains core then .next s
  else
    let s := { s with cs := { s.cs with retired := s.cs.retired ++ [core] } }
    let s := (s.qs.launches.filter fun la => la.fin.isNone).foldl (loseCore core) s
    .next (withL1 s (s.ms.l1.filter fun b => b.core != core))

/-! ## launch (R423) -/

/-- The protection fault of a queue outside the partition. -/
def queueFault : FaultInfo := walkFault 0x0A 0 3 0xFF 13 []

/-- A hub engine appends a launch packet; with no ring to write, the queue stops with error 6 and the future ends with error. -/
def appendLaunch (s : State) (q : Queue) (a : Nat) (h : Word) (stamp : Nat) : State :=
  let kind := (getCtx s q.cid).bind fun cx => deviceRead s cx a 256
  let pair := (kind.map fun b => fieldB b 2 1 == 2).getD false
  match ringWrite s q q.widx (launchPacketBytes q q.widx pair a) with
  | none => stopAtAcc (completeFuture s h .error 0) q.num 6 0
  | some s =>
    let s := setQueue s { q with widx := q.widx + 1, futs := sPut q.futs q.widx (h, stamp) }
    if q.isStopped then completeFuture s h .error 0 else s

/-- The record, read as a relaxed load in the issuer's own context; nothing in another. -/
def LV.readUnit (v : LV) (s : State) (own : Bool) (a : Nat) : Except (State × FaultInfo) (Option State) :=
  if !own then .ok (some s)
  else match v.loadRecord s a 256 with
    | .error x => .error x
    | .ok none => .ok none
    | .ok (some (b, s)) =>
      if fieldB b 2 1 ≠ 2 then .ok (some s) else (v.loadRecord s (a + 256) 256).map fun r => r.map (·.2)

def execLaunch (f : Fld) (s : State) : Out :=
  vec formLaunch f s fun v s =>
    let a := v.int 1 2
    let n := (v.g 2 f.b.toNat).toNat
    if a % 64 ≠ 0 then .fault s (faultOf 0x08 a [])
    else if !queueOfPart s v.env.cx n then .fault s queueFault
    else match v.readUnit s (((getQueue s n).map (·.cid)) == some v.env.cx.cid) a with
      | .error (s, x) => .fault s x
      | .ok none => .wait (v.recordWait s a 512) .board
      | .ok (some s) =>
        if ((getQueue s n).map fun q => decide (q.size ≤ q.widx - q.done)).getD false then .wait s .ring
        else
          let h := newFuture s 5 v.env.pl.core v.env.pl.key
          match v.release h.2 4 with
          | .error (s, x) => .fault s x
          | .ok (stamp, s) =>
            let s := match getQueue s n with
              | some q => appendLaunch s q a h.1 stamp
              | none => completeFuture s h.1 .error 0
            .ok s (markWr f.d.toNat h.1)

end Sys2Proof.Machine
end

