-- ==== Sys2Proof/Machine/Wakes.lean ====
section
/-! DEFINITION. What follows of itself: sleepers whose event has come (R36, R253), records that waited for trap-queue space (R374),
RESUME (R375), the watchdog's count (R381), and mwait's other ends (R215). -/

namespace Sys2Proof.Machine

/-! ## Course barriers (R253) -/

/-- A stored thread or a lane that wakes from a cwait: the acquire of its generation's stamp. -/
def wakeCwaits (s : State) : State :=
  let s := s.cs.store.foldl (fun s e =>
    match e.sleep with
    | .cwait pal slot g sc => match cwaitOver s pal slot g with
      | some st =>
        mapStore (palletAcquire s e.pal sc st) fun x =>
          if x.pal == e.pal && x.thr.uid == e.thr.uid then { x with sleep := .ready, since := s.cs.cyc } else x
      | none => s
    | _ => s) s
  s.cs.sheets.foldl (fun s sh =>
    sh.sleep.foldl (fun s x =>
      match x.2 with
      | .cwait pal slot g sc => match cwaitOver s pal slot g with
        | some st =>
          let s := palletAcquire s sh.pal sc st
          match getSheet s sh.key with
          | some sh => setSheet s { sh with sleep := sDel sh.sleep x.1, lastIssue := s.cs.cyc }
          | none => s
        | none => s
      | _ => s) s) s

/-! ## Pinned courses whose sheet can be formed (R26) -/

def formPins (s : State) : State :=
  s.cs.pallets.foldl (fun s p =>
    if p.st != .active || p.dbg.halt then s
    else (p.table.filter fun c => awaitsSheet c.2).foldl (fun s c => formPinned s p.key c.1) s) s

/-! ## Records that wait for trap-queue space (R374) -/

/-- The launch and the context of a pallet. -/
def palletEnv (s : State) (pal : Nat) : Option (Launch × Ctx) := do
  let p ← getPallet s pal
  let la ← getLaunch s p.launch
  let cx ← getCtx s la.cid
  return (la, cx)

/-- Writes a record that waited: the state once it is written or lost, none while there is no room. -/
def placeRecord (s : State) (la : Launch) (cx : Ctx) (code : Nat) (record : List Byte) : Option State :=
  let q := trapQueueOf la cx
  match putRecord s cx q.1 q.2 4 record with
  | .written s => some (countRecord s cx.cid code)
  | .full _ => none
  | .lost => some (stopContext s cx.cid code)

/-- A queue has more than four free slots. -/
def reportRoom (s : State) (la : Launch) (cx : Ctx) : Bool :=
  let q := trapQueueOf la cx
  match queueFree s cx q.1 q.2 with
  | some (free, _) => decide (4 < free)
  | none => true

/-- A sheet whose thread waits: after a dropped report it goes on; with a replayable record the pallet pauses once it is written; the
records of a halted course's breakpoint are written one by one. -/
def serveSheet (s : State) (sh : Sheet) : State :=
  match sh.qwait, palletEnv s sh.pal with
  | some [], some (la, cx) => if reportRoom s la cx then setSheet s { sh with qwait := none } else s
  | some r, some (la, cx) => match placeRecord s la cx (fieldB r 0 1) (r.take 64) with
    | some s =>
      let s := setSheet s { sh with qwait := if (r.drop 64).isEmpty then none else some (r.drop 64) }
      if fieldB r 1 1 = 0 then pausePallet s sh.pal else s
    | none => s
  | _, _ => s

/-- A thread that waits with its record: the record is written and its handler runs, or it is halted at its breakpoint. -/
def serveThread (s : State) (e : Entry) : State :=
  match e.sleep, palletEnv s e.pal with
  | .trapSlot r d, some (la, cx) => match placeRecord s la cx (fieldB r 0 1) r with
    | some s => mapStored s e.pal e.thr.uid fun x => { x with sleep := if d then .ready else .brk, since := s.cs.cyc }
    | none => s
  | _, _ => s

def serveHeld (s : State) (h : HeldRec) : State :=
  match (getLaunch s h.launch).bind fun la => (getCtx s la.cid).map fun cx => (la, cx) with
  | some (la, cx) => match placeRecord s la cx h.code h.record with
    | some s => { s with en := { s.en with qheld := s.en.qheld.filter fun x => x != h } }
    | none => s
  | none => { s with en := { s.en with qheld := s.en.qheld.filter fun x => x != h } }

/-- Everything that waits for trap-queue space and finds it. -/
def serveTrapQueues (s : State) : State :=
  let s := (s.cs.sheets.filter fun sh => sh.qwait.isSome).foldl serveSheet s
  let s := s.cs.store.foldl serveThread s
  s.en.qheld.foldl serveHeld s

/-! ## RESUME (R375) -/

/-- Makes what is paused in the launches that report to a queue eligible once. -/
def resumeQueue (s : State) (cx : Ctx) (base : Nat) : State :=
  let mine := fun (la : Launch) => la.cid == cx.cid && (trapQueueOf la cx).1 == base
  let isLa := fun (k : Nat) => s.qs.launches.any fun la => la.key == k && mine la
  let isPal := fun (k : Nat) => s.cs.pallets.any fun p => p.key == k && isLa p.launch
  let s := mapPallets s fun p =>
    if !isLa p.launch then p
    else { p with
      mwait := false
      st := if p.st == .paused then .eligible else p.st }
  { s with en := { s.en with
    copies := s.en.copies.map fun c => if isLa c.launch then { c with paused := false } else c
    mmas := s.en.mmas.map fun c => if isPal c.pal then { c with paused := false } else c
    wins := s.en.wins.map fun c => if isLa c.launch then { c with paused := false } else c
    parts := s.en.parts.map fun c => if isLa c.launch then { c with paused := false } else c
    relq := s.en.relq.map fun c => if isLa c.launch then { c with paused := false } else c } }

/-- The value of RESUME of a queue as it stands in memory. -/
def resumeWord (s : State) (cx : Ctx) (base : Nat) : Option Word :=
  (deviceRead s cx (base + 0x20) 4).map fun b => BitVec.ofNat 32 (ofLe b)

/-- Notices a change of RESUME, whoever wrote it. -/
def noticeResume (s : State) (cid : Word) (base : Nat) : State :=
  match getCtx s cid with
  | none => s
  | some cx =>
    let key : Dword := BitVec.ofNat 64 base
    let old := ((cx.resume.find? fun x => x.1 == key).map (·.2)).getD 0
    match resumeWord s cx base with
    | none => s
    | some v =>
      if v = old then s
      else resumeQueue (setCtx s { cx with resume := putBy (fun x => x.1 == key) (key, v) cx.resume }) cx base

/-- The trap queues of a context's launches. -/
def trapBases (s : State) (cx : Ctx) : List Nat :=
  distinctN ((s.qs.launches.filter fun la => la.cid == cx.cid && la.fin.isNone).map fun la => (trapQueueOf la cx).1)

/-- Notices every change of RESUME. -/
def noticeResumes (s : State) : State :=
  s.mg.ctxs.foldl (fun s cx => (trapBases s cx).foldl (fun s b => noticeResume s cx.cid b) s) s

/-- TRAP_QUEUE_RESUME (R375): the servicing software writes RESUME. -/
def execTrapQueueResume (cid : Word) (base : Dword) (value : Word) (s : State) : Out :=
  match getCtx s cid with
  | none => .next s
  | some cx => match deviceWrite s cx (hubAgent s) (base.toNat + 0x20) (leBytes 4 value.toNat) .plain with
    | none => .next s
    | some s => .next (noticeResume s cid base.toNat)

/-- TRAP_QUEUE_SPACE_FREED (R374): the consumer writes RIDX. -/
def execTrapQueueSpaceFreed (cid : Word) (base ridx : Dword) (s : State) : Out :=
  match getCtx s cid with
  | none => .next s
  | some cx => match deviceWrite s cx (hubAgent s) (base.toNat + 8) (leBytes 8 ridx.toNat) .plain with
    | none => .next s
    | some s => .next (serveTrapQueues s)

/-! ## mwait's other ends (R36, R215) -/

/-- A stored thread asleep in an mwait: where its result goes, its limit and its scope. -/
def mwaitOf (e : Entry) : Option (Nat × Word × BitVec 3) :=
  match e.sleep with
  | .mwait gd lim sc => some (gd, lim, sc)
  | _ => none

/-- The pinned sheet in which a thread sleeps. -/
def sheetOf (s : State) (uid : Nat) : Option Sheet := s.cs.sheets.find? fun sh => sh.lanes.any fun l => l.2.uid == uid

def storedAny (s : State) (uid : Nat) : Option Entry := s.cs.store.find? fun e => e.thr.uid == uid

/-- A limit of cycles that began at a cycle is over; 0 is no limit. -/
def limitOver (s : State) (lim : Word) (since : Nat) : Bool := lim != 0 && since + lim.toNat ≤ s.cs.cyc

/-- MWAIT_LIMIT_EXPIRY: the sleeper wakes with 1. -/
def execMwaitLimitExpiry (uid : Nat) (s : State) : Out :=
  match storedAny s uid with
  | some e => match mwaitOf e with
    | some (gd, lim, sc) => .next (if limitOver s lim e.since then wakeStored s e gd 1 sc else s)
    | none => .next s
  | none => match sheetOf s uid with
    | some sh => match sheetMwait sh with
      | some (_, lim) => .next (if limitOver s lim sh.lastIssue then wakeCourse s sh true else s)
      | none => .next s
    | none => .next s

/-- MWAIT_UNEXPLAINED_WAKE: the sleeper wakes with 0. -/
def execMwaitUnexplainedWake (uid : Nat) (s : State) : Out :=
  match storedAny s uid with
  | some e => match mwaitOf e with
    | some (gd, _, sc) => .next (wakeStored s e gd 0 sc)
    | none => .next s
  | none => match sheetOf s uid with
    | some sh => .next (if (sheetMwait sh).isSome then wakeCourse s sh false else s)
    | none => .next s

/-! ## The watchdog (R381) -/

/-- A thread asleep in an mwait on a line of global memory. -/
def sleepsGlobal (t : Thread) (sl : Sleep) : Bool :=
  match sl with
  | .mwait _ _ _ => (t.watch.map fun w => w.tray.isNone).getD false
  | .trapSlot _ _ => true
  | _ => false

def isRemoteCopy (c : Copy) : Bool := c.dspc == 4 || c.sspc == 4

/-- A stall that is an external wait: on the future of a remote operation, or for a message that senders on other nodes may send
(R381, R421). -/
def stallOutside (s : State) (grouped : Bool) : Stall → Bool
  | .future h => s.en.copies.any fun c => c.handle == h && isRemoteCopy c
  | .box => grouped
  | _ => false

/-- A sheet that is in an external wait. -/
def sheetOutside (s : State) (sh : Sheet) : Bool :=
  let grouped := (((getPallet s sh.pal).bind fun p => getLaunch s p.launch).map fun la => launchGroup s la != 0).getD false
  sh.qwait.isSome || (sh.sleep.any fun x => ((laneThread sh x.1).map fun t => sleepsGlobal t x.2).getD false) ||
  (sh.stalled && stallOutside s grouped sh.why)

/-- Any thread or engine operation of the context is in an external wait. -/
def externalWait (s : State) (cx : Ctx) : Bool :=
  let las := s.qs.launches.filter fun la => la.cid == cx.cid && la.fin.isNone
  let pals := s.cs.pallets.filter fun p => las.any fun la => la.key == p.launch
  let isPal := fun (k : Nat) => pals.any fun p => p.key == k
  (s.cs.store.any fun e => isPal e.pal && sleepsGlobal e.thr e.sleep) ||
  (s.cs.sheets.any fun sh => isPal sh.pal && sheetOutside s sh) ||
  (s.qs.queues.any fun q => q.cid == cx.cid && q.pkts.any fun p => (startedWait s q p.1).isSome) ||
  (s.en.qheld.any fun h => las.any fun la => la.key == h.launch) ||
  (pals.any fun p => p.st == .paused || p.mwait) ||
  (s.en.copies.any fun c => c.cid == cx.cid && c.paused) || (s.en.mmas.any fun m => m.cid == cx.cid && m.paused) ||
  (s.en.wins.any fun w => w.cid == cx.cid && w.paused) ||
  (s.en.parts.any fun w => w.paused && las.any fun la => la.key == w.launch) ||
  (s.en.relq.any fun w => w.paused && las.any fun la => la.key == w.launch)

/-- Work retired by a context's pallets, for telling whether a step retired any. -/
def retiredBy (s : State) (cid : Word) : List Word :=
  (s.cs.pallets.filter fun p => ((getLaunch s p.launch).map (·.cid)) == some cid).map (·.rwc)

/-- A context's watchdog counts: one of its pallets is active on a core, and nothing of it is in an external wait (R381). -/
def dogRuns (s : State) (c : Ctx) : Bool :=
  c.stop.isNone && (s.cs.pallets.any fun p => p.st == .active && ((getLaunch s p.launch).map (·.cid)) == some c.cid) &&
  !externalWait s c

/-- The count at which the watchdog fault is raised. -/
def dogLimit (c : Ctx) : Nat := 2 ^ (if c.wdx = 0 then 32 else c.wdx)

/-- The counts after the cycles since an earlier state. -/
def countDogs (old s : State) : State :=
  let n := s.cs.cyc - old.cs.cyc
  if n = 0 then s
  else withCtxs s (s.mg.ctxs.map fun c =>
    if retiredBy old c.cid == retiredBy s c.cid && dogRuns s c then { c with wdog := c.wdog + n } else c)

/-- The count has reached 2^WDX. -/
def dogOver (c : Ctx) : Bool := c.stop.isNone && dogLimit c ≤ c.wdog

def dogFault (c : Ctx) : FaultInfo := faultOf 0x28 0 [(0x28, 1, if c.wdx = 0 then 32 else c.wdx)]

/-- WATCHDOG_EXPIRY: a fatal record in the queue of the context's first launch that runs. -/
def execWatchdogExpiry (cid : Word) (s : State) : Out :=
  match getCtx s cid with
  | none => .next s
  | some c =>
    if !dogOver c then .next s
    else match s.qs.launches.find? fun la => la.cid == cid && la.fin.isNone with
      | none => .next (stopContext s cid 0x28)
      | some la =>
        .next (fatalRecord s la c 0x28 (trapRecord c ⟨0, 0xFFFFFFFF, 0xFFFFFFFF, 0, 0, 0⟩ (dogFault c) 2))

/-! ## Exposures and rollbacks at issue boundaries (R456, R458) -/

/-- The target of a re-executing pallet is reached. -/
def targetReached (p : Pallet) : Bool := p.dbg.roll && p.dbg.trwc != 0xFFFFFFFF && decide (p.dbg.trwc.toNat ≤ p.rwc.toNat)

/-- What one pallet's counts call for at an issue boundary. -/
def boundary (old : State) (s : State) (p : Pallet) : State :=
  if !atBoundary s p.key then s
  else if targetReached p then endRollback s p.key
  else if ((getPallet old p.key).map fun q => q.dbg.roll && q.dbg.trwc == 0xFFFFFFFF).getD false && !p.dbg.roll && p.dbg.halt then
    traceRecord s p.key 4 0xFFFFFFFF 0
  else if p.st != .ended && exposureDue p then endExposure s p.key
  else s

/-! ## After a step -/

/-- The pallets of a stopped context's launches leave their cores with their context slots: those launches have completed (R378, R31). -/
def dropStopped (s : State) : State :=
  s.qs.launches.foldl (fun s la =>
    if la.fin.isSome && s.cs.pallets.any fun p => p.launch == la.key && p.st == .stopped then
      freeSlotsOf (clearPallets s la.key) la.cid
    else s) s

/-- The old text of launches that have ended is forgotten. -/
def dropText (s : State) : State :=
  if s.ms.oldText.isEmpty then s
  else withOldText s (s.ms.oldText.filter fun x => s.qs.launches.any fun la => la.key == x.launch && la.fin.isNone)

/-- Writes the samples of a pallet that fell due since an earlier state: one every 2^s cycles (R460). -/
def sampleDue (old s : State) (p : Pallet) : State :=
  let x := 2 ^ (p.dbg.trc.toNat % 32)
  if x = 1 ∨ p.st = .ended then s
  else (List.range (s.cs.cyc / x - old.cs.cyc / x)).foldl (fun s _ => traceSample s p) s

/-! ## Power (R431, R434, R435) -/

/-- The machine check of a unit and an address (R371). -/
def machineCheck (unit addr : Nat) : FaultInfo := faultOf 0x3F 0 [(0x28, 1, unit), (0x30, 8, addr)]

/-- A machine check that no thread's instruction raises: its record goes to the queue of the context's first launch that runs. -/
def checkContext (x : FaultInfo) (s : State) (c : Ctx) : State :=
  if c.stop.isSome then s
  else match s.qs.launches.find? fun la => la.cid == c.cid && la.fin.isNone with
    | none => stopContext s c.cid 0x3F
    | some la => fatalRecord s la c 0x3F (trapRecord c ⟨0, 0xFFFFFFFF, 0xFFFFFFFF, 0, 0, 0⟩ x 2)

/-- At 115 °C every context stops with the machine check of unit 9, and the package powers down (R434). Readings are in 1/8 °C. -/
def powerDown (s : State) : State :=
  if s.mg.off || maxN s.mg.temps < 8 * 115 then s
  else
    let s := s.mg.ctxs.foldl (checkContext (machineCheck 9 0)) s
    { s with mg := { s.mg with off := true } }

/-- The owner whose heartbeat has lapsed for 2 s is none (R431). -/
def lapseOwner (s : State) : State :=
  if s.mg.owner.isSome && s.mg.beat + 2000000000 ≤ s.mg.ns then { s with mg := { s.mg with owner := none } } else s

/-- What follows a step at once. -/
def settleAll (old s : State) : State :=
  let s := wakeCwaits (wakePending (refuse s))
  let s := formPins (noticeResumes s)
  let s := serveTrapQueues (reportReqs (retryHeld s))
  let s := s.cs.pallets.foldl (boundary old) s
  let s := s.cs.pallets.foldl (sampleDue old) s
  lapseOwner (powerDown (clearMarks (dropText (dropStopped (countDogs old (endPallets s))))))

end Sys2Proof.Machine
end

