-- ==== Sys2Proof/Machine/Device.lean ====
section
/-! DEFINITION. Events of the cores and their memory: space in the spawn store (R23), evictions (R172), stores and soft interrupts
reaching their homes (R123, R184), and the fault of an undecodable word (R67). -/

namespace Sys2Proof.Machine

/-- SPAWN_STORE_SPACE_FREED (R23): stalled branches are tried again, and the matcher goes on. -/
def execSpawnStoreSpaceFreed (pal : Nat) (s : State) : Out :=
  .next (matcherWalk (mapSheets s fun sh => if sh.pal == pal then { sh with stalled := false } else sh) pal)

/-- L1_EVICTION (R172): the sectors of an L1 that hold a physical sector. -/
def execL1Eviction (core sector : Nat) (s : State) : Out :=
  .next ((s.ms.l1.filter fun b => b.core == core && b.sec == sector).foldl evictSector s)

/-- STORE_PERFORMED_AT_HOME (R184): the k-th write on its way, after the earlier ones of its L1 to its line (R183), or for a tray of
its agent to bytes that it meets. -/
def execStorePerformedAtHome (k : Nat) (s : State) : Out :=
  match s.ms.posted[k]? with
  | none => .next s
  | some p =>
    let first := (s.ms.posted.take k).filter fun q =>
      if p.tray.isNone then sameLine s p.core (p.addr / 128) q
      else q.agent == p.agent && q.tray == p.tray && overlaps q.addr q.bytes.length p.addr p.bytes.length
    let s' := (first ++ [p]).foldl performPosted s
    .next (wakePending (withPosted s' ((s.ms.posted.take k).filter (fun q => !first.contains q) ++ s.ms.posted.drop (k + 1))))

/-- SWI_WAKE_OR (R123). -/
def execSwiWakeOr (k : Nat) (s : State) : Out :=
  match s.qs.swis[k]? with
  | none => .next s
  | some x => .next (withSwis (performSwi s x) (s.qs.swis.take k ++ s.qs.swis.drop (k + 1)))

/-! ## Undecodable words (R65, R67) -/

/-- ILLEGAL_INSTRUCTION: the word `bad`, `off` bytes after the run's first, in the sheet that issues. -/
def execIllegalInstruction (bad : Word) (off : Nat) (w1 w2 : Word) (s : State) : Out := .next (raiseIllegal s bad off w1 w2)

end Sys2Proof.Machine
end

