-- ==== Sys2Proof/Machine/System.lean ====
section
/-! DEFINITION. The privileged system instructions (R445 to R449), racectl and rclk (R235 to R237). -/

namespace Sys2Proof.Machine

/-! ## Control and status registers (R446) -/

/-- The clock of a context's cores, in MHz. -/
def clockOf (s : State) (cx : Ctx) : Nat := ((getPart s cx.part).map (·.mhz)).getD s.mg.mhz

/-- Bit i of the retirement map of a partition: the i-th of its cores is retired (R436, R446). -/
def retirementMap (s : State) (p : Part) : List Bool := (partCores p).map fun c => s.cs.retired.contains c

def retiredWord (s : State) (cx : Ctx) (w : Nat) : Nat :=
  match getPart s cx.part with
  | none => 0
  | some p => sumN ((List.range 32).map fun i => boolN (nthD (retirementMap s p) (32 * w + i) false) * 2 ^ i)

/-- The value of a CSR for a context. -/
def csrValue (s : State) (cx : Ctx) (n : Nat) : Nat :=
  match n with
  | 0x00 => clockOf s cx
  | 0x01 => s.mg.pwr
  | 0x02 => maxN s.mg.temps
  | 0x03 => s.mg.eccc
  | 0x04 => retiredWord s cx cx.retsel.toNat
  | 0x05 => cx.retsel.toNat
  | _ => ((getPart s cx.part).map (·.pcap)).getD 0

/-- The context as it stands. -/
def LV.ctx (v : LV) (s : State) : Ctx := (getCtx s v.env.cx.cid).getD v.env.cx

def execCsrr (f : Fld) (s : State) : Out :=
  vec formCsrr f s fun v s => .ok s (wrG f.d.toNat (if f.w = 3 then 2 else 1) (csrValue s (v.ctx s) f.a.toNat))

def setPart (s : State) (p : Part) : State :=
  { s with mg := { s.mg with parts := updIf (fun q => q.num == p.num) p s.mg.parts } }

/-- Writes retsel or pcap. -/
def csrWrite (s : State) (cx : Ctx) (n : Nat) (x : Word) : State :=
  if n = 0x05 then setCtx s { cx with retsel := x.setWidth 3 }
  else match getPart s cx.part with
    | some p => setPart s { p with pcap := x.toNat }
    | none => s

def execCsrw (f : Fld) (s : State) : Out :=
  vec formCsrw f s fun v s => .ok (csrWrite s (v.ctx s) f.d.toNat (v.g 1 f.a.toNat)) []

/-! ## Translations and caches (R447, R448) -/

def LV.sysRsv (v : LV) : FaultInfo := decodeFault 0x02 v.iss (v.f.len.getLsbD 1)

/-- The base and the size of a range. -/
def LV.range (v : LV) : Nat × Nat := (v.gs 1 v.f.a.toNat 2, (v.g 2 v.f.b.toNat).toNat)

/-- The leaf entry of an address as the tables hold it, valid or not. -/
def rawLeaf (s : State) (va : Nat) : Nat → Nat → Option Dword
  | 0, table => some (BitVec.ofNat 64 (ofLe (memRead s.ms.mem (table + 8 * walkIndex 0 va) 8)))
  | lvl + 1, table =>
    let e : Dword := BitVec.ofNat 64 (ofLe (memRead s.ms.mem (table + 8 * walkIndex (lvl + 1) va) 8))
    if pteLeaf e || e = 0 then some e else if pteV e then rawLeaf s va lvl (pteAddr e) else none

/-- Makes the records of a page quiescent when its entry no longer maps it with RC set, and no other translation in the buffers does
(R228): the change is noticed when the translation that used the old entry is removed. An entry whose V alone is cleared, as R170's
move of a page begins, leaves them. -/
def quietCleared (cx : Ctx) (s : State) (t : Tlb) : State :=
  match rawLeaf s t.base 3 cx.root.toNat with
  | none => s
  | some e =>
    let same := fun (x : Dword) => pteRc x && pteAddr x == pteAddr t.pte
    if same e || s.ms.tlb.any fun u => same u.pte then s else quietPage s ⟨t.base, t.lvl, t.pte⟩

/-- A write on its way home that used a translation. -/
def usedLeaf (p : Posted) (t : Tlb) : Bool := p.tray.isNone && overlaps p.addr p.bytes.length (pteAddr t.pte) (2 ^ pageBits t.lvl)

/-- A block whose stores used a translation and are not yet performed at their home. -/
def usedBy (b : L1Sector) (t : Tlb) : Bool :=
  !b.dirty.isEmpty && b.cid == t.cid && overlaps (16 * b.sec) 16 (pteAddr t.pte) (2 ^ pageBits t.lvl)

/-- Notes that the move of a race-checked page has begun: its translation is removed and its entry is not valid (R170). -/
def noteMove (cx : Ctx) (s : State) (t : Tlb) : State :=
  match rawLeaf s t.base 3 cx.root.toNat with
  | some e => if pteV e || !pteRc t.pte || s.ms.moved.contains t then s else withMoved s (s.ms.moved ++ [t])
  | none => s

/-- Removes the cached translations that a test picks, once the writes that used them have been performed: those on their way, and the
dirty blocks (R447). -/
def tlbRemove (s : State) (cx : Ctx) (pick : Tlb → Bool) : State :=
  let gone := s.ms.tlb.filter pick
  let s := performPostedIf s fun p => gone.any (usedLeaf p)
  let s := (s.ms.l1.filter fun b => gone.any (usedBy b)).foldl evictSector s
  gone.foldl (fun s t => noteMove cx (quietCleared cx s t) t) (withTlb s (s.ms.tlb.filter fun t => !pick t))

/-- Removes the cached translations of a context that overlap a range. -/
def tlbDrop (s : State) (cx : Ctx) (lo n : Nat) : State :=
  tlbRemove s cx fun t => t.cid == cx.cid && overlaps t.base (2 ^ pageBits t.lvl) lo n

def tlbDropAll (s : State) (cx : Ctx) : State := tlbRemove s cx fun t => t.cid == cx.cid

def execTlbinv (f : Fld) (s : State) : Out :=
  vec formTlbinv f s fun v s =>
    if f.md.getLsbD 0 then .ok (tlbDropAll s v.env.cx) []
    else
      let r := v.range
      if r.1 % 65536 ≠ 0 ∨ r.2 % 65536 ≠ 0 then .fault s v.sysRsv
      else .ok (tlbDrop s v.env.cx r.1 r.2) []

/-- The physical bytes that the pages of a range map: (first, length). -/
def rangePages (s : State) (cx : Ctx) (lo n : Nat) : List (Nat × Nat) :=
  (piecesOf 16 lo n).filterMap fun q => match walk s cx q.1 with
    | .ok l => some (pteAddr l.pte + (q.1 - l.base), q.2)
    | .error _ => none

/-- The L1 sectors of a range on its partition's cores, whichever context holds them there: those of the pages that the range maps, and
what the context itself holds under addresses of the range (log 65). -/
def rangeSectors (s : State) (cx : Ctx) (lo n : Nat) : List L1Sector :=
  let cores := ((getPart s cx.part).map partCores).getD []
  let pages := rangePages s cx lo n
  s.ms.l1.filter fun b => cores.contains b.core &&
    ((b.cid == cx.cid && overlaps b.va 16 lo n) || pages.any fun q => overlaps (16 * b.sec) 16 q.1 q.2)

/-- Writes a sector's dirty bytes home, unchecked, and keeps it clean or drops it. Its stores are still unpublished: their check waits
as after an early eviction (R172, R230). -/
def writeBack (keep : Bool) (s : State) (b : L1Sector) : State :=
  let s := evictSector s b
  if keep then l1Put s { b with dirty := [], nor := 0 } else s

/-- The watches on lines of a range that the caches of a partition lose are woken (R36). -/
def notifyRange (s : State) (cx : Ctx) (lo n : Nat) : State :=
  let cores := ((getPart s cx.part).map partCores).getD []
  let bs := rangeSectors s cx lo n
  (distinctN (bs.map fun b => b.cid.toNat)).foldl (fun s c =>
    notifyLost s (BitVec.ofNat 32 c) cores.contains (distinctN ((bs.filter fun b => b.cid.toNat == c).map fun b => b.sec / 8))) s

/-- cwb and cinv. -/
def cacheOp (o : OpForm) (f : Fld) (s : State) (keep : Bool) : Out :=
  vec o f s fun v s =>
    let r := v.range
    if r.1 % 128 ≠ 0 ∨ r.2 % 128 ≠ 0 then .fault s v.sysRsv
    else
      let t := if keep then s else notifyRange s v.env.cx r.1 r.2
      .ok ((rangeSectors s v.env.cx r.1 r.2).foldl (writeBack keep) t) []

def execCwb (f : Fld) (s : State) : Out := cacheOp formCwb f s true
def execCinv (f : Fld) (s : State) : Out := cacheOp formCinv f s false

/-! ## halt (R449) -/

/-- A protection fault whose reason is another partition's object. -/
def partFault : FaultInfo := walkFault 0x0A 0 3 0xFF 4 []

/-- A context of the executing partition. -/
def ownContext (s : State) (cx : Ctx) (cid : Word) : Option Ctx :=
  (getCtx s cid).bind fun c => if c.part = cx.part then some c else none

/-- Stops a context without a record; STAT shows it stopped in the queues of its launches. -/
def haltContext (s : State) (c : Ctx) : State :=
  let ls := s.qs.launches.filter fun la => la.cid == c.cid && la.fin.isNone
  let s := (distinctN (ls.map fun la => (trapQueueOf la c).1)).foldl (fun s q => writeStat s c q 0 false) s
  stopContext s c.cid 0

/-- halt; the issuer of a halt of its own context stops at the instruction. -/
def execHalt (f : Fld) (s : State) : Out :=
  vec formHalt f s fun v s =>
    match ownContext s v.env.cx (v.g 1 f.a.toNat) with
    | none => .fault s partFault
    | some c => if c.cid = v.env.cx.cid then .wait (haltContext s c) .other else .ok (haltContext s c) []

/-! ## Race records (R235 to R237) -/

/-- An access to race records: the page's permissions for writing do not matter. -/
def accRecord : AccKind := accOf 3 false false false

/-- Writes a record to every line of a range whose page is race-checked. -/
def fillRecords (s : State) (cx : Ctx) (lo n : Nat) (r : BitVec 128) : Except FaultInfo State :=
  (translate s cx accRecord lo n).map fun x =>
    x.1.foldl (fun s p =>
      if pteRc p.leaf.pte then
        (piecesOf 7 p.pa p.len).foldl (fun s q => withRace s (racePut s.ms.race (q.1 / 128) r)) s
      else s) x.2

def recordsOp (o : OpForm) (f : Fld) (s : State) (r : BitVec 128) : Out :=
  vec o f s fun v s =>
    let x := v.range
    if x.1 % 128 ≠ 0 ∨ x.2 % 128 ≠ 0 ∨ x.2 < 128 ∨ 2 ^ 30 < x.2 then .fault s v.sysRsv
    else match fillRecords s v.env.cx x.1 x.2 r with
      | .error x => .fault s x
      | .ok s => .ok s []

def execRacectlClean (f : Fld) (s : State) : Out := recordsOp formRacectlClean f s 0
def execRacectlQuiet (f : Fld) (s : State) : Out := recordsOp formRacectlQuiet f s raceQuiet

def execRacectlCount (f : Fld) (s : State) : Out :=
  vec formRacectlCount f s fun v s =>
    match ownContext s v.env.cx (v.g 2 f.b.toNat) with
    | none => .fault s partFault
    | some c => .ok s (wrG f.d.toNat 2 (nthD c.race (f.md.toNat / 8 % 8) 0))

/-- What rclk reads of a line: its record at its home, a quiescent one as clean while RC is set, and quiescent on a page that is not
race-checked (R224). -/
def recordSeen (s : State) (p : Phys) : BitVec 128 :=
  let r := raceGet s.ms.race (p.pa / 128)
  if !pteRc p.leaf.pte then raceQuiet else if r.extractLsb' 125 3 = 4 then 0 else r

def execRclk (f : Fld) (s : State) : Out :=
  vec formRclk f s fun v s =>
    match v.check s accLoad (v.addr true) 1 true with
    | .error x => .fault s x
    | .ok (p, s) =>
      match p.phys with
      | [] => .ok s []
      | q :: _ => .ok s (wrG f.d.toNat 4 (recordSeen s q).toNat)

end Sys2Proof.Machine
end

