-- ==== Sys2Proof/Machine/Manage.lean ====
section
/-! DEFINITION. The firmware interface (R428 to R433, R438 to R444): each command checked, executed whole or not at all, and answered;
ownership, partitions, contexts, queues, event rings, apertures and groups. -/

namespace Sys2Proof.Machine

/-! ## Requests and responses (R439 to R441, R444) -/

/-- What a command comes to: a status that leaves everything as it was, or its effect and its response payload. -/
inductive Done where
  | bad (sts : Nat)
  | ok (s : State) (reply : List Byte)

/-- The request's data: its payload, or the buffer that an indirect payload names (R440); or status 4, or 10 for a buffer that the host
link cannot reach (R441). -/
def cmdData (s : State) (c : Cmd) : Except Nat (List Byte) :=
  if c.len ≠ c.payload.length ∨ 2 ≤ c.rfl ∨ c.rsv ≠ 0 then .error 4
  else if c.rfl = 0 then (if c.mctp || c.payload.length ≤ 240 then .ok c.payload else .error 4)
  else if c.mctp || c.payload.length != 16 then .error 4
  else
    let a := fieldB c.payload 0 8
    let n := fieldB c.payload 8 4
    if a % 64 ≠ 0 ∨ 65536 < n ∨ fieldB c.payload 12 4 ≠ 0 then .error 4
    else if !hostReach s a n then .error 10
    else .ok (memRead s.ms.hostMem a n)

/-- The 256 bytes of REQ for a command (R440). -/
def reqBytes (opc : Nat) (c : Cmd) : List Byte :=
  (layout 16 [(0, 2, c.ver), (2, 2, opc), (4, 2, c.len), (6, 2, c.rfl), (8, 4, c.tag.toNat), (12, 4, c.rsv.toNat)] ++ c.payload ++
    List.replicate 240 0).take 256

/-- The 256 bytes of RSP (R440). -/
def rspBytes (c : Cmd) (sts : Nat) (reply : List Byte) : List Byte :=
  (layout 16 [(0, 2, 0x0100), (2, 2, sts), (4, 2, reply.length), (8, 4, c.tag.toNat)] ++ reply ++ List.replicate 240 0).take 256

/-- A function's command page. -/
def pageOf (s : State) (fn : Word) : CmdPage :=
  (s.mg.pages.find? fun p => p.fn == fn).getD ⟨fn, 0, 0, false, List.replicate 256 0, List.replicate 256 0⟩

def setPage (s : State) (p : CmdPage) : State := { s with mg := { s.mg with pages := putBy (fun x => x.fn == p.fn) p s.mg.pages } }

/-- The DBELL of a request is taken: the page is not busy and the sequence number is a new one (R439). Requests over MCTP use no page. -/
def taken (s : State) (c : Cmd) : Bool := c.mctp || (!(pageOf s c.src).busy && (pageOf s c.src).dseq != c.seq)

/-- A response of more than 240 bytes goes into the buffer of an indirect request (R440). -/
def intoBuffer (s : State) (c : Cmd) (reply : List Byte) : State :=
  if c.rfl = 1 ∧ 240 < reply.length then
    hostPut s (fieldB c.payload 0 8) (reply.take (fieldB c.payload 8 4))
  else s

/-- The response is written; through a command page DSEQ follows, busy is cleared and vector 0 is raised (R438, R439). -/
def respond (s : State) (c : Cmd) (sts : Nat) (reply : List Byte) : State :=
  let s := { s with mg := { s.mg with rsp := (c.src, c.tag, sts, reply) :: s.mg.rsp } }
  if c.mctp then s
  else
    let s := setPage (intoBuffer s c reply) { pageOf s c.src with dseq := c.seq, busy := false, rsp := rspBytes c sts reply }
    { s with qs := { s.qs with msix := s.qs.msix ++ [(c.src.toNat % 65536, 0)] } }

/-- A request is written into REQ and its sequence number into DBELL: whether it is taken, and the state, busy then (R439). -/
def doorbell (s : State) (opc : Nat) (c : Cmd) : State :=
  if c.mctp then s
  else
    let p := { pageOf s c.src with req := reqBytes opc c }
    setPage s (if taken s c then { p with dbell := c.seq, busy := true } else p)

/-- The owner: none once 2 s have passed without a command of it (R431). -/
def ownerNow (s : State) : Option Word := if s.mg.beat + 2000000000 ≤ s.mg.ns then none else s.mg.owner

def isOwner (s : State) (c : Cmd) : Bool := ownerNow s == some c.src

/-- Every command of the owner restarts its heartbeat timer (R443). -/
def heartbeat (s : State) (c : Cmd) : State := if isOwner s c then { s with mg := { s.mg with beat := s.mg.ns } } else s

/-- Who may issue a command (R442). -/
inductive Issuer where
  | anyone
  | ownerOnly
  | partition (p : Option Part)

/-- R443. A partition's function is the host function that its VF names. -/
def allowed (s : State) (c : Cmd) : Issuer → Bool
  | .anyone => true
  | .ownerOnly => isOwner s c
  | .partition p => isOwner s c || (c.src.toNat / 2 ^ 24 == 1 && (p.map (·.vf)) == some (c.src.toNat % 65536))

/-- Runs a command: version, recovery, authority, form, effect (R441, R443). `served` in recovery: GETVER, NONCE and FWLOAD. A request
whose DBELL is not taken only stands in REQ. -/
def command (s : State) (opc : Nat) (c : Cmd) (served : Bool) (who : List Byte → Issuer) (size : Option Nat)
    (run : List Byte → Done) : Out :=
  let s1 := heartbeat (doorbell s opc c) c
  let fail := fun (sts : Nat) => Host.Outcome.next (respond s1 c sts [])
  if !taken s c then .next (doorbell s opc c)
  else if c.ver ≠ 0x0100 then fail 2
  else if s.mg.recovery && !served then fail 11
  else match cmdData s c with
    | .error sts => fail sts
    | .ok d =>
      if !allowed s c (who d) then fail 1
      else if (size.map fun n => d.length != n).getD false then fail 4
      else match run d with
        | .bad sts => fail sts
        | .ok t reply => .next (respond (heartbeat (doorbell t opc c) c) c 0 reply)

/-- What is published to every agent with a release at sys (R444). -/
def published (s : State) : State := (hubRelease s).2

def num (n v : Nat) : List Byte := leBytes n v

/-- Bytes lo to lo + n − 1 are zero and there. -/
def zeros (d : List Byte) (lo n : Nat) : Bool := zeroBytes d lo n

/-! ## Any master: versions, nonces, readings -/

def execGetverCmd (c : Cmd) (s : State) : Out :=
  command s 0x0001 c true (fun _ => .anyone) (some 0) fun _ =>
    .ok s ([(1, 0x01), (2, 0x0100), (3, 0x0100), (4, 0x0100), (5, 0x0100)].flatMap fun e => num 2 e.1 ++ num 2 e.2)

/-- 32 random bytes. -/
def freshNonce (s : State) : List Byte := (List.range 32).map fun i => nthD (Config.nonce s.tick) i 0

def execNonceCmd (c : Cmd) (s : State) : Out :=
  command s 0x0002 c true (fun _ => .anyone) (some 0) fun _ =>
    let n := freshNonce s
    .ok { s with mg := { s.mg with nonces := s.mg.nonces ++ [(c.src, n, s.mg.ns)] } } n

def execHealthCmd (c : Cmd) (s : State) : Out :=
  command s 0x0050 c false (fun _ => .anyone) (some 0) fun _ =>
    .ok s (num 4 s.mg.mhz ++ num 4 s.mg.pwr ++ num 4 (maxN s.mg.temps) ++ num 4 0 ++ num 8 s.mg.eccc ++ s.mg.temps.flatMap (num 4))

def execPortgetCmd (c : Cmd) (s : State) : Out :=
  command s 0x0054 c false (fun _ => .anyone) (some 0) fun _ =>
    .ok s ((List.range 16).flatMap fun i =>
      num 4 (nthD s.fb.vers i 0 % 65536 + boolN (s.fb.planes.getLsbD i) * 2 ^ 16 + boolN (s.mg.retPort.getLsbD i) * 2 ^ 17))

def execReadyCmd (c : Cmd) (s : State) : Out :=
  command s 0x0055 c false (fun _ => .anyone) (some 0) fun _ =>
    .ok s (num 4 s.mg.bringUp ++ num 4 s.mg.retHbm.toNat ++ num 4 s.mg.retLp.toNat ++ num 4 s.mg.retPort.toNat)

/-! ## Ownership (R431, R443) -/

/-- A nonce that this master read less than 10 s ago. -/
def nonceGood (s : State) (src : Word) (n : List Byte) : Bool :=
  s.mg.nonces.any fun x => x.1 == src && x.2.1 == n && s.mg.ns ≤ x.2.2 + 10000000000

/-- A claim's signature under an enrolled key. -/
def claimSigned (s : State) (d : List Byte) : Bool :=
  s.mg.ownKeys.any fun k => Config.mldsaVerify (Config.keyOf k) (d.take 36) (d.drop 36)

/-- A claim before bring-up has opened the claim procedure is refused (R437; log 79). -/
def execClaimCmd (c : Cmd) (s : State) : Out :=
  command s 0x0003 c false (fun _ => .anyone) (some 3345) fun d =>
    if s.mg.bringUp < 5 then .bad 7
    else if (ownerNow s).isSome then .bad 8
    else if !nonceGood s c.src (d.take 32) || fieldB d 32 4 != c.src.toNat || !claimSigned s d then .bad 7
    else .ok { s with mg := { s.mg with
      owner := some c.src
      beat := s.mg.ns
      nonces := s.mg.nonces.filter fun x => !(x.1 == c.src && x.2.1 == d.take 32) } } []

/-- A master identity (R442). -/
def isMaster (n : Nat) : Bool :=
  (n / 2 ^ 24 == 1 || n / 2 ^ 24 == 2) && n / 2 ^ 16 % 256 ≤ 3 && n % 2 ^ 16 ≤ 32

def execReleaseCmd (c : Cmd) (s : State) : Out :=
  command s 0x0004 c false (fun _ => .ownerOnly) (some 8) fun d =>
    if !zeros d 4 4 || !isMaster (fieldB d 0 4) then .bad 4
    else .ok { s with mg := { s.mg with owner := some (BitVec.ofNat 32 (fieldB d 0 4)), beat := s.mg.ns } } []

def execBeatCmd (c : Cmd) (s : State) : Out := command s 0x0005 c false (fun _ => .ownerOnly) (some 0) fun _ => .ok s []

/-- OWNER_HEARTBEAT_LAPSE (R431): 2 s without a command of the owner. -/
def execOwnerHeartbeatLapse (s : State) : Out := .next { s with mg := { s.mg with owner := ownerNow s } }

/-! ## Partitions (R428) -/

def parsePart (num : Nat) (d : List Byte) (mhz : Nat) : Part where
  num := num
  clus := BitVec.ofNat 32 (fieldB d 0 4)
  vf := fieldB d 4 1
  keys := fieldB d 5 1
  mbase := BitVec.ofNat 64 (fieldB d 8 8)
  msize := BitVec.ofNat 64 (fieldB d 0x10 8)
  tbase := BitVec.ofNat 64 (fieldB d 0x18 8)
  tsize := BitVec.ofNat 64 (fieldB d 0x20 8)
  cal := fieldB d 0x28 2
  pcap := fieldB d 0x2A 2
  smap := BitVec.ofNat 64 (fieldB d 0x30 8)
  mhz := mhz

def partBytes (p : Part) : List Byte :=
  layout 64 [(0, 4, p.clus.toNat), (4, 1, p.vf), (5, 1, p.keys), (8, 8, p.mbase.toNat), (0x10, 8, p.msize.toNat),
    (0x18, 8, p.tbase.toNat), (0x20, 8, p.tsize.toNat), (0x28, 2, p.cal), (0x2A, 2, p.pcap), (0x30, 8, p.smap.toNat)]

/-- The ranges of a partition's shares. -/
def shares (p : Part) : List (Nat × Nat) := [(p.mbase.toNat, p.msize.toNat), (p.tbase.toNat, p.tsize.toNat)]

def inShares (p : Part) (a : Nat) : Bool := (shares p).any fun r => r.1 ≤ a && a < r.1 + r.2

/-- Clusters or shares of two partitions overlap. -/
def partsMeet (p q : Part) : Bool :=
  p.clus &&& q.clus != 0 || (shares p).any fun r => (shares q).any fun t => overlaps r.1 r.2 t.1 t.2

/-- The package's memory: HBM4E and second tier, in bytes (R1). -/
def hbmBytes : Nat := 768 * 2 ^ 30
def tierBytes : Nat := 1152 * 2 ^ 30

/-- The shares of all partitions fit the package's memory (R1). -/
def sharesFit (ps : List Part) : Bool :=
  sumN (ps.map (·.msize.toNat)) ≤ hbmBytes && sumN (ps.map (·.tsize.toNat)) ≤ tierBytes

/-- Fields in range and reserved bytes zero. -/
def partForm (d : List Byte) (p : Part) : Bool :=
  zeros d 6 2 && zeros d 0x2C 4 && zeros d 0x38 8 && p.vf ≤ 32 && p.keys ≤ 32 && p.msize.toNat % 2 ^ 30 == 0 &&
  p.tsize.toNat % 2 ^ 30 == 0 && p.cal ≤ 1024

/-- A partition holds a context. -/
def partHeld (s : State) (n : Nat) : Bool := s.mg.ctxs.any fun c => c.part == n

def noKey (s : State) (slot : Nat) (gone : Bool) : State :=
  let z := s.mg.zeroed.filter fun x => x != slot
  { s with mg := { s.mg with zeroed := if gone then z ++ [slot] else z } }

/-- Zeroes what leaves a partition, which overwrites it in full (R435): memory, race metadata and release records of physical bytes that `leaves` names. -/
def zeroShares (s : State) (leaves : Nat → Bool) : State :=
  let s := withMem s (s.ms.mem.filter fun b => !leaves b.1)
  let s := withRace s (s.ms.race.filter fun r => !leaves (128 * r.1))
  let s := withRel s (s.ms.rel.filter fun r => !leaves (128 * r.1))
  let s := withKeys s (s.ms.keys.filter fun r => !leaves (16 * r.1))
  let s := withPoison s (s.ms.poison.filter fun r => !leaves (128 * r.1))
  withL1 s (s.ms.l1.filter fun b => !leaves (16 * b.sec))

/-- The tiles of the cores that leave (R428 zeroes the tray of what leaves; no pallet holds one there). -/
def dropPart (s : State) (p : Part) : State :=
  let s := { s with mg := { s.mg with parts := s.mg.parts.filter fun q => q.num != p.num } }
  noKey s p.num true

def execPartsetCmd (c : Cmd) (s : State) : Out :=
  command s 0x0010 c false (fun _ => .ownerOnly) (some 72) fun d =>
    let n := fieldB d 0 1
    let old := getPart s n
    let b := d.drop 8
    let p := parsePart n b ((old.map (·.mhz)).getD s.mg.mhz)
    let others := s.mg.parts.filter fun q => q.num != n
    if 32 ≤ n || !zeros d 1 7 || !partForm b p then .bad 4
    else if partHeld s n || others.any (partsMeet p) then .bad 5
    else if 1024 < p.cal + sumN (others.map (·.cal)) ∨ 32 < p.keys + sumN (others.map (·.keys)) ∨ sharesFit (p :: others) = false then .bad 6
    else
      let s := match old with
        | some q => noKey (zeroShares s fun a => inShares q a && !inShares p a) n true
        | none => s
      let s := { s with mg := { s.mg with parts := others ++ [p] } }
      .ok (published (noKey s n false)) []

def execPartdelCmd (c : Cmd) (s : State) : Out :=
  command s 0x0011 c false (fun _ => .ownerOnly) (some 8) fun d =>
    if !zeros d 1 7 then .bad 4
    else match getPart s (fieldB d 0 1) with
      | none => .bad 9
      | some p =>
        if partHeld s p.num then .bad 5
        else
          let s := dropPart (zeroShares s (inShares p)) p
          .ok (published { s with qs := { s.qs with rings := s.qs.rings.filter fun r => r.part != p.num } }) []

/-- A read-only command about one partition. -/
def aboutPart (s : State) (opc : Nat) (c : Cmd) (reply : Part → List Byte) : Out :=
  command s opc c false (fun _ => .anyone) (some 8) fun d =>
    if !zeros d 1 7 then .bad 4
    else match getPart s (fieldB d 0 1) with
      | none => .bad 9
      | some p => .ok s (reply p)

def execPartgetCmd (c : Cmd) (s : State) : Out := aboutPart s 0x0012 c partBytes

/-- The 32 bytes of a partition's retirement map. -/
def mapBytes (s : State) (p : Part) : List Byte :=
  let m := retirementMap s p
  (List.range 32).map fun i => BitVec.ofNat 8 (sumN ((List.range 8).map fun j => boolN (nthD m (8 * i + j) false) * 2 ^ j))

def execRetgetCmd (c : Cmd) (s : State) : Out := aboutPart s 0x0051 c (mapBytes s)

def execCalgetCmd (c : Cmd) (s : State) : Out := aboutPart s 0x0053 c fun p => (List.range 16).flatMap fun _ => num 2 p.cal

def execRetclrCmd (c : Cmd) (s : State) : Out :=
  command s 0x0052 c false (fun _ => .ownerOnly) (some 8) fun d =>
    let n := fieldB d 0 2
    if !zeros d 2 6 || (256 ≤ n && n != 0xFFFF) then .bad 4
    else .ok { s with cs := { s.cs with retired := if n = 0xFFFF then [] else s.cs.retired.filter fun x => x != n } } []

/-! ## Contexts (R366, R429) -/

/-- The checks of R366 on a context record, but for its partition. -/
def ctxForm (d : List Byte) : Bool :=
  let w := fieldB d 0x12 1
  fieldB d 0 2 == 0x0100 && fieldB d 2 2 < 16 && fieldB d 8 8 % 4096 == 0 && 0xFE ≤ fieldB d 0x11 1 &&
  (w == 0 || (20 ≤ w && w ≤ 40)) && zeros d 0x13 5 && zeros d 0x24 4 && fieldB d 0x28 8 % 4096 == 0 && zeros d 0x38 72

/-- Context slots 32 to 63 in use, by all contexts and by those of one partition. -/
def keySlots (s : State) (part : Option Nat) : List Nat :=
  (s.mg.ctxs.filter fun c => 32 ≤ c.keySlot && (part.map fun p => c.part == p).getD true).map (·.keySlot)

/-- The key slot that a new context receives (R429). -/
def newKeySlot (s : State) (p : Part) (key : Nat) : Option Nat :=
  if key = 0xFF then some p.num
  else if p.keys ≤ (keySlots s (some p.num)).length then none
  else ((List.range 32).map (· + 32)).find? fun i => !(keySlots s none).contains i

def parseCtx (d : List Byte) (slot : Nat) : Ctx where
  cid := BitVec.ofNat 32 (fieldB d 4 4)
  cfl := BitVec.ofNat 16 (fieldB d 2 2)
  root := BitVec.ofNat 64 (fieldB d 8 8)
  part := fieldB d 0x10 1
  keySlot := slot
  keyByte := BitVec.ofNat 8 (if fieldB d 0x11 1 = 0xFF then 0xFF else slot)
  wdx := fieldB d 0x12 1
  tqb := BitVec.ofNat 64 (fieldB d 0x18 8)
  tqn := fieldB d 0x20 4
  savb := BitVec.ofNat 64 (fieldB d 0x28 8)
  savs := BitVec.ofNat 64 (fieldB d 0x30 8)
  slots := []
  stop := none
  race := [0, 0, 0, 0, 0]
  wdog := 0
  out := []
  retsel := 0
  tqStat := []
  resume := []

def execCtxnewCmd (c : Cmd) (s : State) : Out :=
  command s 0x0020 c false (fun d => .partition (getPart s (fieldB d 0x10 1))) (some 128) fun d =>
    if !ctxForm d then .bad 4
    else match getPart s (fieldB d 0x10 1) with
      | none => .bad 9
      | some p =>
        if (getCtx s (BitVec.ofNat 32 (fieldB d 4 4))).isSome then .bad 5
        else match newKeySlot s p (fieldB d 0x11 1) with
          | none => .bad 6
          | some slot =>
            let x := parseCtx d slot
            let s := if 32 ≤ slot then noKey s slot false else s
            .ok (published (withCtxs s (s.mg.ctxs ++ [x]))) (num 4 x.cid.toNat ++ num 4 x.keyByte.toNat)

/-- Removes a context and what belongs to it: its launches end, its caches and translations are dropped, and the pallets to which it
attached a debugger lose it (R454). -/
def dropContext (s : State) (x : Ctx) : State :=
  let s := stopContext s x.cid 0
  let s := (s.qs.launches.filter fun la => la.cid == x.cid).foldl (fun s la => clearPallets s la.key) s
  let boxes := x.slots.flatMap fun c => (List.range 4).map fun i => s.fb.node * 4096 + c.1 * 16 + 4 * c.2 + i
  let s := withL1 (withMoved (withTlb s (s.ms.tlb.filter fun t => t.cid != x.cid)) (s.ms.moved.filter fun t => t.cid != x.cid)) (s.ms.l1.filter fun b => b.cid != x.cid)
  let s := { s with cs := { s.cs with
    boxes := s.cs.boxes.filter fun b => !boxes.contains b.1
    boxWait := s.cs.boxWait.filter fun b => !boxes.contains b.1 } }
  let s := mapPallets s fun p => if p.dbg.debugger == some x.cid then { p with dbg := { p.dbg with att := false, debugger := none } } else p
  withCtxs s (s.mg.ctxs.filter fun c => c.cid != x.cid)

def execCtxdelCmd (c : Cmd) (s : State) : Out :=
  let found := fun (d : List Byte) => getCtx s (BitVec.ofNat 32 (fieldB d 0 4))
  command s 0x0021 c false (fun d => .partition ((found d).bind fun x => getPart s x.part)) (some 8) fun d =>
    if !zeros d 4 4 then .bad 4
    else match found d with
      | none => .bad 9
      | some x =>
        let s := dropContext s x
        .ok (published (if 32 ≤ x.keySlot then noKey s x.keySlot true else s)) []

/-! ## Queues and event rings (R406, R424) -/

/-- A ring can be reached: host memory through the host link, device memory through the context's tables (R406, R441). -/
def ringReach (s : State) (spc cid base n : Nat) : Bool :=
  if spc = 0 then hostReach s base n
  else match getCtx s (BitVec.ofNat 32 cid) with
    | none => false
    | some cx => (translate s cx accOther base n).isOk

def execQueueSetCmd (c : Cmd) (s : State) : Out :=
  command s 0x0030 c false (fun _ => .ownerOnly) (some 40) fun d =>
    let n := fieldB d 0 2
    let b := d.drop 8
    let logn := fieldB b 8 1
    if 2048 ≤ n || !zeros d 2 6 || fieldB b 0 8 % 64 != 0 || logn < 3 || 20 < logn || 1 < fieldB b 9 1 || !zeros b 0x10 16 then
      .bad 4
    else if (getCtx s (BitVec.ofNat 32 (fieldB b 0x0C 4))).isNone then .bad 9
    else if ((getQueue s n).map fun q => q.done != q.acc).getD false then .bad 5
    else if !ringReach s (fieldB b 9 1) (fieldB b 0x0C 4) (fieldB b 0 8) (64 * 2 ^ logn) then .bad 10
    else
      let q : Queue := {
        num := n
        rbase := BitVec.ofNat 64 (fieldB b 0 8)
        logn := logn
        rspc := fieldB b 9 1
        group := fieldB b 0x0A 2
        cid := BitVec.ofNat 32 (fieldB b 0x0C 4)
        widx := 0
        acc := 0
        strt := 0
        done := 0
        stat := 0
        wake := ((getQueue s n).map (·.wake)).getD 0 ||| sGetD s.qs.owake n 0
        epoch := 0
        tries := 0
        readAt := 0
        pkts := []
        ended := []
        futs := []
        signed := []
        errs := [] }
      let s := { s with qs := { s.qs with owake := sDel s.qs.owake n } }
      .ok (published (withQueues s (putBy (fun u => u.num == n) q s.qs.queues))) []

/-- A queue reset: the futures of packets that never ran end with error. -/
def resetQueue (s : State) (q : Queue) : State :=
  let s := q.futs.foldl (fun s x => completeFuture s x.2.1 .error 0) s
  let s := withDeps s (s.qs.deps.filter fun d => d.queue != q.num)
  setQueue s { q with
    widx := 0
    acc := 0
    strt := 0
    done := 0
    stat := 0
    tries := 0
    pkts := []
    ended := []
    futs := []
    signed := []
    errs := [] }

def execQresetCmd (c : Cmd) (s : State) : Out :=
  command s 0x0031 c false (fun d => .partition (queuePart s (fieldB d 0 2))) (some 8) fun d =>
    if !zeros d 2 6 then .bad 4
    else match getQueue s (fieldB d 0 2) with
      | none => .bad 9
      | some q => if !q.isStopped || q.done != q.strt then .bad 5 else .ok (published (resetQueue s q)) []

/-- N is a power of two from 64 to 2^20. -/
def ringSize (n : Nat) : Bool := (List.range 15).any fun i => n == 2 ^ (i + 6)

def execEvsetCmd (c : Cmd) (s : State) : Out :=
  command s 0x0032 c false (fun d => .partition (getPart s (fieldB d 0 1))) (some 24) fun d =>
    if !zeros d 1 7 || !zeros d 20 4 || !ringSize (fieldB d 16 4) then .bad 4
    else match getPart s (fieldB d 0 1) with
      | none => .bad 9
      | some p =>
        if !hostReach s (fieldB d 8 8) (64 + 32 * fieldB d 16 4) then .bad 10
        else .ok (drainEvents (setRing s ⟨p.num, BitVec.ofNat 64 (fieldB d 8 8), fieldB d 16 4, 0⟩) p) []

/-! ## Apertures and groups (R391, R401) -/

def apertureForm (b : List Byte) : Bool :=
  fieldB b 0 8 % 65536 == 0 && fieldB b 0 8 < 2 ^ 57 && fieldB b 8 8 != 0 && fieldB b 8 8 % 65536 == 0 &&
  (fieldB b 0x18 2 < 384 || fieldB b 0x18 2 == 0xFFFF) && fieldB b 0x1A 1 < 32 && fieldB b 0x1B 1 < 32 && zeros b 0x1C 4

def mine (s : State) (part : Nat) (a : Aperture) : Bool := a.node == s.fb.node && a.part == part

def execApopenCmd (c : Cmd) (s : State) : Out :=
  command s 0x0040 c false (fun d => .partition (getPart s (fieldB d 0 1))) (some 40) fun d =>
    let n := fieldB d 0 1
    if !zeros d 1 7 || !apertureForm (d.drop 8) then .bad 4
    else if (getPart s n).isNone then .bad 9
    else match lowestFree ((s.fb.aps.filter (mine s n)).map (·.idx)) 64 with
      | none => .bad 6
      | some i =>
        let s := { s with fb := { s.fb with aps := s.fb.aps ++ [parseAperture s n i (d.drop 8)] } }
        .ok (published s) (num 4 i)

def execApcloseCmd (c : Cmd) (s : State) : Out :=
  command s 0x0041 c false (fun d => .partition (getPart s (fieldB d 0 1))) (some 8) fun d =>
    let hit := fun (a : Aperture) => mine s (fieldB d 0 1) a && a.idx == fieldB d 4 4
    if !zeros d 1 3 then .bad 4
    else if !(s.fb.aps.any hit) then .bad 9
    else .ok (published { s with fb := { s.fb with aps := s.fb.aps.filter fun a => !hit a } }) []

/-- Entry i of a table of 8-byte or 4-byte entries that begins at lo. -/
def entryAt (d : List Byte) (lo size i : Nat) : List Byte := sliceB d (lo + size * i) size

def execMcsetCmd (c : Cmd) (s : State) : Out :=
  command s 0x0042 c false (fun _ => .ownerOnly) none fun d =>
    let g := fieldB d 0 2
    let m := fieldB d 2 2
    let n := fieldB d 4 2
    let ms := (List.range m).map fun i => entryAt d 8 8 i
    let ss := (List.range n).map fun i => entryAt d (8 + 8 * m) 4 i
    if d.length != 8 + 8 * m + 4 * n || 4096 ≤ g || 384 < m || !zeros d 6 2 ||
      ms.any (fun e => !zeros e 2 2 || 384 ≤ fieldB e 0 2) ||
      ss.any (fun e => !zeros e 3 1 || 384 ≤ fieldB e 0 2 || 32 ≤ fieldB e 2 1) then .bad 4
    else if s.fb.groups.any fun x => x.num == g then .bad 5
    else
      let grp : Group := ⟨g, ms.map fun e => (fieldB e 0 2, BitVec.ofNat 32 (fieldB e 4 4)), ss.map fun e => (fieldB e 0 2, fieldB e 2 1)⟩
      .ok (published { s with fb := { s.fb with groups := s.fb.groups ++ [grp] } }) []

def execMcdelCmd (c : Cmd) (s : State) : Out :=
  command s 0x0043 c false (fun _ => .ownerOnly) (some 8) fun d =>
    let g := fieldB d 0 2
    if !zeros d 2 6 then .bad 4
    else if !(s.fb.groups.any fun x => x.num == g) then .bad 9
    else .ok (published { s with fb := { s.fb with groups := s.fb.groups.filter fun x => x.num != g } }) []

/-! ## Firmware images and attestation (R432) -/

/-- A signed image: the signature is its last 3,309 bytes. The empty list stands for the image that the device came with, whose bytes the
spec does not give (log 38). -/
def imageGood (img : List Byte) : Bool :=
  let n := img.length - 3309
  (img.isEmpty || 3309 ≤ img.length) && Config.mldsaVerify Config.fusedKey (Config.shake256 (img.take n)) (img.drop n)

def execFwloadCmd (c : Cmd) (s : State) : Out :=
  let who := if s.mg.recovery && c.mctp then Issuer.anyone else Issuer.ownerOnly
  command s 0x0060 c true (fun _ => who) none fun d =>
    if !d.isEmpty && imageGood d then .ok { s with mg := { s.mg with nextImg := some d } } [] else .bad 7

/-- What is reported: boot ROM, firmware stages and configuration, partition descriptors. -/
def measurements (s : State) : List Byte := Config.measure s.mg.image ++ s.mg.parts.flatMap partBytes

/-- SPDM_REQUEST: any master is answered with the measurements and a signature over the request and them. -/
def execSpdmRequest (c : Cmd) (s : State) : Out :=
  let m := measurements s
  .next (respond s { c with mctp := true } 0 (m ++ Config.mldsaSign (c.payload ++ m)))

/-- UNDEFINED_COMMAND (R441): no common version, or an operation code that is not defined. -/
def execUndefinedCommand (opc : Nat) (c : Cmd) (s : State) : Out :=
  let t := doorbell s opc c
  .next (if taken s c then respond (heartbeat t c) c (if c.ver ≠ 0x0100 then 2 else 3) [] else t)

end Sys2Proof.Machine
end

