-- ==== Sys2Proof/Machine/Health.lean ====
section
/-! DEFINITION. Reset and bring-up (R437), clock, power and temperature (R434), and memory errors (R435). -/

namespace Sys2Proof.Machine

/-! ## Reset (R432, R436, R437) -/

/-- The state after a reset that finds an image to run: what outlasts it is the retirement map, the fused and enrolled keys, what lies
outside the package, and the model's own counters. -/
def afterReset (s : State) (img : List Byte) (good : Bool) : State :=
  let r := State.reset
  { r with
    ms := { r.ms with hostMem := s.ms.hostMem }
    cs := { r.cs with retired := s.cs.retired }
    fb := { r.fb with node := s.fb.node, peers := s.fb.peers, prel := s.fb.prel, vers := s.fb.vers, planes := s.fb.planes }
    mg := { r.mg with
      ownKeys := s.mg.ownKeys
      retHbm := s.mg.retHbm
      retLp := s.mg.retLp
      retPort := s.mg.retPort
      image := img
      holes := s.mg.holes
      recovery := !good
      bringUp := boolN good }
    agenda := s.agenda
    tick := s.tick }

/-- DEVICE_RESET: the boot ROM verifies the image that is to run, the first step of bring-up; an image that fails leaves the device in
recovery. The other steps follow of themselves. -/
def execDeviceReset (s : State) : Out :=
  let img := s.mg.nextImg.getD s.mg.image
  .next (afterReset s img (imageGood img))

/-- The stacks, channels or ports that fail their training at steps 2 and 3 of bring-up and are retired (R437): a free choice. -/
def failedPart (tick : Nat) (i : Nat) : Nat := Config.sensor tick (0x4370 + i)

/-- The next step of bring-up (R437): the image is verified (R432); HBM4E and the second tier are trained and zeroed, every race record
quiescent; the host link and the Mortar links are trained; the command cores start; the claim procedure opens. -/
def bringUpStep (s : State) : State :=
  let done := fun (s : State) => { s with mg := { s.mg with bringUp := s.mg.bringUp + 1 } }
  if s.mg.recovery then s
  else match s.mg.bringUp with
    | 0 => if imageGood s.mg.image then done s else { s with mg := { s.mg with recovery := true } }
    | 1 => done { s with
      ms := { s.ms with mem := [], race := [], rel := [], keys := [] }
      mg := { s.mg with
        retHbm := s.mg.retHbm ||| BitVec.ofNat 12 (failedPart s.tick 0)
        retLp := s.mg.retLp ||| BitVec.ofNat 24 (failedPart s.tick 1) } }
    | 2 =>
      let ports := s.mg.retPort ||| BitVec.ofNat 16 (failedPart s.tick 2)
      done { s with
        fb := { s.fb with planes := s.fb.planes &&& ~~~ports }
        mg := { s.mg with retPort := ports } }
    | 3 => done { s with mg := { s.mg with fw := List.replicate 16 FwCore.zero } }
    | 4 => done s
    | _ => s

/-! ## Clock, power, temperature (R434) -/

/-- New readings of the sensors: four compute dies and the hub, package power, each partition's power. -/
def readSensors (s : State) : State :=
  { s with mg := { s.mg with
    temps := (List.range 5).map fun i => Config.sensor s.tick i
    pwr := Config.sensor s.tick 5
    ppwr := s.mg.parts.map fun p => (p.num, Config.sensor s.tick (16 + p.num)) } }

/-- A package limit is exceeded: the throttle temperature, or 3.6 kW. Readings are in 1/8 °C. -/
def overLimit (s : State) : Bool := decide (8 * s.mg.throttle < maxN s.mg.temps) || decide (3600 < s.mg.pwr)

/-- A partition draws more than its cap. -/
def overCap (s : State) (p : Part) : Bool := p.pcap != 0 && decide (p.pcap < sGetD s.mg.ppwr p.num 0)

/-- Every package reading is 5 °C, or 5 %, below its limit. -/
def underLimit (s : State) : Bool := decide (maxN s.mg.temps + 40 ≤ 8 * s.mg.throttle) && decide (100 * s.mg.pwr ≤ 95 * 3600)

def underCap (s : State) (p : Part) : Bool := p.pcap == 0 || decide (100 * sGetD s.mg.ppwr p.num 0 ≤ 95 * p.pcap)

/-- Readings as of now, with the time of the last one that was not low enough. -/
def lookSensors (s : State) : State :=
  let s := readSensors s
  if underLimit s && s.mg.parts.all (underCap s) then s else { s with mg := { s.mg with warm := s.mg.ns } }

def stepDown (mhz : Nat) : Nat := max 600 (mhz - 25)
def stepUp (mhz : Nat) : Nat := min 1100 (mhz + 25)

/-- Moves the package's clock and every partition's. -/
def moveClocks (s : State) (h : Nat → Nat) : State :=
  { s with mg := { s.mg with mhz := h s.mg.mhz, parts := s.mg.parts.map fun p => { p with mhz := h p.mhz } } }

/-- Moves one partition's clock. -/
def movePart (s : State) (p : Part) (h : Nat → Nat) : State := setPart s { p with mhz := h p.mhz }

/-- THERMAL_THROTTLE_STEP: 10 µs later, one step down while a limit is exceeded; a partition over its cap alone. -/
def execThermalThrottleStep (part : Option Nat) (s : State) : Out :=
  let s := lookSensors (passNs s 10000)
  match part with
  | none => .next (if overLimit s then moveClocks s stepDown else s)
  | some n => match getPart s n with
    | none => .next s
    | some p => .next (if overCap s p then movePart s p stepDown else s)

/-- CLOCK_RAISE_STEP: one step up once every reading has been low enough for 1 ms. -/
def execClockRaiseStep (part : Option Nat) (s : State) : Out :=
  let s := lookSensors s
  if s.mg.ns < s.mg.warm + 1000000 then .next s
  else match part with
    | none => .next (moveClocks s stepUp)
    | some n => match getPart s n with
      | none => .next s
      | some p => .next (movePart s p stepUp)

/-- OVERTEMP_SHUTDOWN: the power manager looks, and powers the package down at 115 °C. -/
def execOvertempShutdown (s : State) : Out := .next (powerDown (readSensors s))

/-! ## Memory errors (R435) -/

/-- Units whose lines are those of physical memory: L1, L2, HBM4E, second tier. -/
def lineUnit (u : Nat) : Bool := u == 3 || u == 5 || u == 6 || u == 7

/-- Poisons a physical line. -/
def poisonLine (s : State) (unit addr : Nat) : State :=
  let s := withPoison s (sPut s.ms.poison (addr / 128) (BitVec.allOnes 128))
  { s with ms := { s.ms with poisonUnit := sPut s.ms.poisonUnit (addr / 128) unit } }

/-- The context that consumes an uncorrectable error of no named memory: a free choice, or none when it is overwritten first. -/
def consumer (s : State) : Option Ctx :=
  s.mg.ctxs[Config.sensor s.tick 0x435 % (s.mg.ctxs.length + 1)]?

/-- Units whose lines have no physical address, in a core or in the fabric. -/
def markUnit (u : Nat) : Bool := u == 0 || u == 1 || u == 2 || u == 4 || u == 8

/-- ECC_ERROR: a correctable error is counted; an uncorrectable one poisons its line, and is consumed when the line is. For a unit without
physical addresses `addr` names the core (log 83). -/
def execEccError (unit addr : Nat) (correctable : Bool) (s : State) : Out :=
  if correctable then
    .next { s with mg := { s.mg with eccc := s.mg.eccc + 1, eccU := sPut s.mg.eccU unit (sGetD s.mg.eccU unit 0 + 1) } }
  else if lineUnit unit then .next (poisonLine s unit addr)
  else if markUnit unit then .next { s with ms := { s.ms with marks := (unit, addr % 256) :: s.ms.marks } }
  else match consumer s with
    | some c => .next (checkContext (machineCheck unit addr) s c)
    | none => .next s

/-- BACKGROUND_SCRUB: scrubbing rewrites a line with the data it holds. -/
def execBackgroundScrub (_line : Nat) (s : State) : Out := .next s

end Sys2Proof.Machine
end

