-- ==== Sys2Proof/Machine/Approx.lean ====
section
/-! DEFINITION. The six approximated operations (R140): correctly rounded, by computing in fixed point with growing precision until
both ends of the error interval round alike. Loops carry fuel. -/

namespace Sys2Proof.Machine

/-! ## Fixed-point series. A number x stands for x / 2^W. -/

/-- Σ zⁱ/i!, from term i on. -/
def expLoop (W z : Nat) : Nat → Nat → Nat → Nat → Nat
  | 0, _, _, acc => acc
  | fuel + 1, i, term, acc =>
    let t := term * z / 2 ^ W / i
    if t = 0 then acc else expLoop W z fuel (i + 1) t (acc + t)
def expFix (W z : Nat) : Nat := expLoop W z W 1 (2 ^ W) (2 ^ W)

/-- Σ z^(2i+1)/(2i+1). -/
def atanhLoop (W z2 : Nat) : Nat → Nat → Nat → Nat → Nat
  | 0, _, _, acc => acc
  | fuel + 1, i, term, acc =>
    let t := term * z2 / 2 ^ W
    if t = 0 then acc else atanhLoop W z2 fuel (i + 1) t (acc + t / (2 * i + 1))
def atanhFix (W z : Nat) : Nat := atanhLoop W (z * z / 2 ^ W) W 1 z z

def ln2Fix (W : Nat) : Nat := 2 * atanhFix W (2 ^ W / 3)

/-- Σ (−1)^k / ((2k+1) n^(2k+1)). -/
def atanInvLoop (n : Nat) : Nat → Nat → Nat → Int → Int
  | 0, _, _, acc => acc
  | fuel + 1, k, term, acc =>
    let t := term / (n * n)
    if t = 0 then acc
    else atanInvLoop n fuel (k + 1) t (acc + (if k % 2 = 1 then -((t / (2 * k + 1) : Nat) : Int) else (t / (2 * k + 1) : Nat)))
def atanInv (W n : Nat) : Int := atanInvLoop n W 1 (2 ^ W / n) ((2 ^ W / n : Nat) : Int)

/-- π/2 by Machin's formula, with 32 guard bits inside. -/
def halfPi (W : Nat) : Nat := ((8 * atanInv (W + 32) 5 - 2 * atanInv (W + 32) 239) / 2 ^ 32).toNat

/-- The series of sin (from r) and of cos (from 1): term i divides by d(i)·(d(i) + 1). -/
def trigLoop (W r2 : Nat) : Nat → Nat → Nat → Bool → Int → Int
  | 0, _, _, _, acc => acc
  | fuel + 1, d, term, minus, acc =>
    let t := term * r2 / 2 ^ W / (d * (d + 1))
    if t = 0 then acc else trigLoop W r2 fuel (d + 2) t (!minus) (if minus then acc - t else acc + t)
def sinFix (W r : Nat) : Nat := (trigLoop W (r * r / 2 ^ W) W 2 r true (r : Int)).toNat
def cosFix (W r : Nat) : Nat := (trigLoop W (r * r / 2 ^ W) W 1 (2 ^ W) true ((2 ^ W : Nat) : Int)).toNat

/-! ## Rounding from an interval -/

/-- An approximation: the value lies strictly between (y − 2^20)·2^e and (y + 2^20)·2^e, with this sign. -/
structure Near where
  neg : Bool
  y   : Nat
  e   : Int

/-- Rounds to nearest once both ends agree; precision doubles until then. -/
def ziv (F : FF) (fz : Bool) (approx : Nat → Near) : Nat → Nat → Nat × Exc
  | 0, w => let a := approx w; F.round 0 fz false a.neg (2 * a.y + 1) (a.e - 1)
  | fuel + 1, w =>
    let a := approx w
    if a.y ≤ 2 ^ 21 then ziv F fz approx fuel (2 * w)
    else
      let lo := F.round 0 fz false a.neg (2 * (a.y - 2 ^ 20) + 1) (a.e - 1)
      let hi := F.round 0 fz false a.neg (2 * (a.y + 2 ^ 20) - 1) (a.e - 1)
      if lo = hi then lo else ziv F fz approx fuel (2 * w)

/-! ## The operations, on numbers -/

/-- 1/√(m·2^e) for m > 0, to 70 or more bits, last bit sticky. -/
def rsqrtNum (m : Nat) (e : Int) : Nat × Int :=
  let m := if e % 2 = 0 then m else 2 * m
  let e := if e % 2 = 0 then e else e - 1
  let k := bitLen m + 80
  let x := 2 ^ (2 * k)
  let s := isqrtN (x / m)
  (2 * s + (if s * s * m = x then 0 else 1), -(e / 2) - k - 1)

/-- floor(m·2^e · 2^W) with sign. -/
def fixOf (neg : Bool) (m : Nat) (e : Int) (W : Nat) : Int :=
  let x : Nat := if 0 ≤ e + W then m * 2 ^ (e + W).toNat else m / 2 ^ (-(e + W)).toNat
  if neg then -(x : Int) - (if 0 ≤ e + W then 0 else 1) else x

/-- True when m·2^e is an integer. -/
def isIntNum (m : Nat) (e : Int) : Bool := 0 ≤ e || m % 2 ^ (-e).toNat == 0

/-- 2^a. -/
def ex2Num (F : FF) (fz neg : Bool) (m : Nat) (e : Int) : Nat × Exc :=
  if m = 0 then F.finish 0 fz false (.num false 1 0)
  else if 13 ≤ e + bitLen m then F.finish 0 fz false (.num false 1 (if neg then -9000 else 9000))
  else if isIntNum m e then
    let n := (fixOf false m e 0)
    F.finish 0 fz false (.num false 1 (if neg then -n else n))
  else
    ziv F fz (fun w =>
      let W := w + 32
      let x := fixOf neg m e W
      let n := x / (2 ^ W : Nat)
      let f := (x % (2 ^ W : Nat)).toNat
      ⟨false, expFix W (f * ln2Fix W / 2 ^ W), n - W⟩) 6 160

/-- log₂ of a positive number. -/
def lg2Num (F : FF) (fz : Bool) (m : Nat) (e : Int) : Nat × Exc :=
  let b := bitLen m
  if m = 2 ^ (b - 1) then
    let n := e + b - 1
    F.finish 0 fz false (.num (n < 0) n.natAbs 0)
  else
    let big := 2 * 4 ^ (b - 1) < m * m
    let d := if big then 2 ^ b else 2 ^ (b - 1)
    let k : Int := if big then e + b else e + b - 1
    ziv F fz (fun w =>
      let W := w + 32
      let z := (max m d - min m d) * 2 ^ W / (m + d)
      let l : Nat := 2 * atanhFix W z * 2 ^ W / ln2Fix W
      let v : Int := k * (2 ^ W : Nat) + (if m < d then -(l : Int) else l)
      ⟨v < 0, v.natAbs, -W⟩) 6 160

/-- sin or cos of a nonzero number. -/
def trigNum (F : FF) (fz cosine neg : Bool) (m : Nat) (e : Int) : Nat × Exc :=
  let top := e + bitLen m - 1
  if top ≤ -30 then
    if cosine then F.round 0 fz false false (2 ^ 100 - 1) (-100)
    else F.round 0 fz false neg (m * 2 ^ 64 - 1) (e - 64)
  else
    ziv F fz (fun w =>
      let W := w + 32
      let V := W + (max 0 (top + 8)).toNat
      let x := (fixOf false m e V).toNat
      let h := halfPi V
      let n := x / h
      let r := x % h / 2 ^ (V - W)
      let odd := n % 2 == 1
      let y := if odd != cosine then cosFix W r else sinFix W r
      let minus := if cosine then n % 4 == 1 || n % 4 == 2 else (n % 4 ≥ 2) != neg
      ⟨minus, y, -W⟩) 7 160

/-- The approximated operations by XOP: 7 frcp, 8 frsq, 9 fex2, 10 flg2, 11 fsin, 12 fcos. In f32 or f64. -/
def approxIn (op : Nat) (F : FF) (fz : Bool) (a : FV) : Nat × Exc :=
  let fin := F.finish 0 fz false
  match op, a with
  | _, .nan s => fin (.nan s)
  | 7, a => fin (divFV (.num false 1 0) a)
  | 8, .inf s => fin (if s then .nan true else .num false 0 0)
  | 8, .num s m e => if m = 0 then fin (.inf s true) else if s then fin (.nan true)
      else let q := rsqrtNum m e; fin (.num false q.1 q.2)
  | 9, .inf s => fin (if s then .num false 0 0 else .inf false false)
  | 9, .num s m e => ex2Num F fz s m e
  | 10, .inf s => fin (if s then .nan true else .inf false false)
  | 10, .num s m e => if m = 0 then fin (.inf true true) else if s then fin (.nan true) else lg2Num F fz m e
  | 11, .num s m e => if m = 0 then fin (.num s 0 0) else trigNum F fz false s m e
  | _, .num s m e => if m = 0 then fin (.num false 1 0) else trigNum F fz true s m e
  | _, .inf _ => fin (.nan true)

/-- An approximated operation of a scalar format: f16 and bf16 go through the rounded f32 result (R140). An inexact result that is
tiny in the narrow format raises underflow also where its f32 image needs no further rounding (R132). -/
def approxOp (op : Nat) (F : FF) (fz : Bool) (x : Nat) : Nat × Exc :=
  let a := F.read fz x
  if F = ff32 ∨ F = ff64 then approxIn op F fz a
  else
    let r := approxIn op ff32 false a
    let y := F.finish 0 fz false (ff32.val r.1).toXR
    let e := r.2 ||| y.2
    let m := y.1 % 2 ^ (F.eb + F.p)
    (y.1, if e &&& excInx ≠ 0 ∧ m ≠ 0 ∧ m < 2 ^ F.p then e ||| excUnf else e)

end Sys2Proof.Machine
end

