-- ==== Sys2Proof/Machine/Float.lean ====
section
/-! DEFINITION. fadd, fmul, fma, fcmp and the floating group (R135 to R141). -/

namespace Sys2Proof.Machine

/-- The image of a source under FMT, its tag checked (R129). -/
def LV.fmtSrc (v : LV) (fld : Nat) : Except FaultInfo Nat := v.fsrc fld (fmtTag v.f.fmt)

/-- The images of source fields, in order. -/
def LV.fmtSrcs (v : LV) : List Nat → Except FaultInfo (List Nat)
  | [] => .ok []
  | f :: r =>
    match v.fmtSrc f with
    | .error x => .error x
    | .ok a => (v.fmtSrcs r).map fun l => a :: l

/-- The element format in effect. -/
def LV.ff (v : LV) : FF := ffOf v.f.fmt.toNat

/-- The end of an operation whose elements are `l`: bits with exceptions (R132, R133). -/
def LV.fpElems (v : LV) (s : State) (l : List (Nat × Exc)) : LaneRes :=
  let image := packElems v.ff.bits (l.map (·.1))
  v.fpDone s (l.map (·.2)) image [.f v.f.d.toNat (BitVec.ofNat 64 image) (fmtTag v.f.fmt)]

/-- An operation on elements: `g` takes the element bits of the sources. -/
def elemOp (o : OpForm) (f : Fld) (s : State) (flds : List Nat) (g : LV → List Nat → Nat × Exc) : Out :=
  vec o f s fun v s =>
    match v.fmtSrcs flds with
    | .error x => .fault s x
    | .ok xs => v.fpElems s ((List.range (ffN f.fmt.toNat)).map fun i => g v (xs.map fun x => elemAt v.ff.bits x i))

/-- An arithmetic operation: exact result of the values read under FZ, rounded once. -/
def arithOp (o : OpForm) (f : Fld) (s : State) (flds : List Nat) (g : List FV → XR) : Out :=
  elemOp o f s flds fun v xs => v.ff.finish f.rnd.toNat v.fz false (g (xs.map fun x => v.ff.read v.fz x))

def fv (l : List FV) (i : Nat) : FV := nthD l i (.nan false)

def execFadd (f : Fld) (s : State) : Out := arithOp formFadd f s [1, 2] fun a => addFV f.rnd.toNat (fv a 0) (fv a 1)
def execFmul (f : Fld) (s : State) : Out := arithOp formFmul f s [1, 2] fun a => mulFV (fv a 0) (fv a 1)
/-- The addend is fC, or fD in the 32-bit form (R135). -/
def execFma (f : Fld) (s : State) : Out :=
  arithOp formFma f s [1, 2, if f.len.getLsbD 1 then 3 else 0] fun a => fmaFV f.rnd.toNat (fv a 0) (fv a 1) (fv a 2)

/-- fcmp (R136): U when an operand is NaN. -/
def execFcmp (f : Fld) (s : State) : Out :=
  vec formFcmp f s fun v s =>
    match v.fmtSrcs [1, 2] with
    | .error x => .fault s x
    | .ok xs =>
      let a := v.ff.read v.fz (elemAt v.ff.bits (nthD xs 0 0) 0)
      let b := v.ff.read v.fz (elemAt v.ff.bits (nthD xs 1 0) 0)
      let q := if a.isNan || b.isNan then qU else qOf (condHolds f.md.toNat (ltFV a b) (cmpFV a b == .eq))
      v.fpDone s [minMaxExc a b] qU.toNat [.q f.d.toNat q]

/-! ## The floating group (R137) -/

def minMax (o : OpForm) (f : Fld) (s : State) (big : Bool) : Out :=
  elemOp o f s [1, 2] fun v xs =>
    let a := v.ff.read v.fz (nthD xs 0 0)
    let b := v.ff.read v.fz (nthD xs 1 0)
    let r := v.ff.finish 0 v.fz false (minMaxFV big a b)
    (r.1, r.2 ||| minMaxExc a b)

def execFmin (f : Fld) (s : State) : Out := minMax formFmin f s false
def execFmax (f : Fld) (s : State) : Out := minMax formFmax f s true

/-- The bits of an element without its sign bit. -/
def FF.magBits (F : FF) (x : Nat) : Nat := x % 2 ^ (F.bits - 1)

def execFabs (f : Fld) (s : State) : Out := elemOp formFabs f s [1] fun v xs => (v.ff.magBits (nthD xs 0 0), 0)
def execFneg (f : Fld) (s : State) : Out :=
  elemOp formFneg f s [1] fun v xs => (v.ff.magBits (nthD xs 0 0) + v.ff.signBit (!v.ff.isNeg (nthD xs 0 0)), 0)
def execFcsgn (f : Fld) (s : State) : Out :=
  elemOp formFcsgn f s [1, 2] fun v xs => (v.ff.magBits (nthD xs 0 0) + v.ff.signBit (v.ff.isNeg (nthD xs 1 0)), 0)
def execFdiv (f : Fld) (s : State) : Out := arithOp formFdiv f s [1, 2] fun a => divFV (fv a 0) (fv a 1)
def execFsqrt (f : Fld) (s : State) : Out := arithOp formFsqrt f s [1] fun a => sqrtFV (fv a 0)

def approx (o : OpForm) (f : Fld) (s : State) (op : Nat) : Out :=
  elemOp o f s [1] fun v xs => approxOp op v.ff v.fz (nthD xs 0 0)

def execFrcp (f : Fld) (s : State) : Out := approx formFrcp f s 7
def execFrsq (f : Fld) (s : State) : Out := approx formFrsq f s 8
def execFex2 (f : Fld) (s : State) : Out := approx formFex2 f s 9
def execFlg2 (f : Fld) (s : State) : Out := approx formFlg2 f s 10
def execFsin (f : Fld) (s : State) : Out := approx formFsin f s 11
def execFcos (f : Fld) (s : State) : Out := approx formFcos f s 12

/-- A value rounded to an integral value of its format, keeping its sign (R137). -/
def rndElem (F : FF) (mode : Nat) (x : Bool) : FV → Nat × Exc
  | .num s m e =>
    let r := roundTo mode s m e (max e 0)
    let y := F.finish 0 false false (.num s r.1 (max e 0))
    (y.1, if x && r.2 then excInx else 0)
  | v => F.finish 0 false false v.toXR

def execFrnd (f : Fld) (s : State) : Out :=
  elemOp formFrnd f s [1] fun v xs => rndElem v.ff f.rnd.toNat (f.md.getLsbD 0) (v.ff.read v.fz (nthD xs 0 0))

/-- The class bit of fclass (R141). -/
def FF.classOf (F : FF) (x : Nat) : Nat :=
  match F.val x with
  | .nan sg => if sg then 2 ^ 8 else 2 ^ 9
  | .inf n => if n then 1 else 2 ^ 7
  | .num n m _ =>
    if m = 0 then (if n then 2 ^ 3 else 2 ^ 4)
    else if m < 2 ^ F.p then (if n then 2 ^ 2 else 2 ^ 5)
    else (if n then 2 else 2 ^ 6)

def execFclass (f : Fld) (s : State) : Out :=
  vec formFclass f s fun v s =>
    match v.fmtSrc 1 with
    | .error x => .fault s x
    | .ok x => .ok s [.g f.d.toNat (BitVec.ofNat 32 (v.ff.classOf (elemAt v.ff.bits x 0)))]

/-- A source of fsel: any tag but none; a literal is an f32 image (R47). -/
def LV.selSrc (v : LV) (fld : Nat) : Except FaultInfo (Dword × BitVec 4) :=
  if litIs v.f fld then .ok (v.f.imm.setWidth 32 |>.setWidth 64, 2) else v.fany fld

def execFsel (f : Fld) (s : State) : Out :=
  vec formFsel f s fun v s =>
    match v.selSrc 1, v.selSrc 2 with
    | .error x, _ => .fault s x
    | _, .error x => .fault s x
    | .ok a, .ok b =>
      let r := if v.q 3 f.c.toNat = qT then a else b
      .ok s [.f f.d.toNat r.1 r.2]

/-- a · 2^b. -/
def ldexpFV (a : FV) (b : Int) : XR :=
  match a with
  | .num s m e => .num s m (e + b)
  | v => v.toXR

def execFldexp (f : Fld) (s : State) : Out :=
  vec formFldexp f s fun v s =>
    match v.fmtSrc 1 with
    | .error x => .fault s x
    | .ok x =>
      let a := v.ff.read v.fz (elemAt v.ff.bits x 0)
      v.fpElems s [v.ff.finish f.rnd.toNat v.fz false (ldexpFV a (signedN 32 (v.int 2 1)))]

end Sys2Proof.Machine
end

