-- ==== Sys2Proof/Machine/Collective.lean ====
section
/-! DEFINITION. Lane exchange (R255), reductions and scans (R256, R257), match and elect (R258). -/

namespace Sys2Proof.Machine

/-- The same fault in every participating lane (R255, R257). -/
def faultEvery (s : State) (vs : List LV) (x : LV → FaultInfo) : CrsRes := .every s (vs.map fun v => (v.lane, x v))

/-! ## Exchange (R255) -/

/-- Start and length of the segment that holds rank r of n, for segment exponent z. -/
def segmentOf (z n r : Nat) : Nat × Nat :=
  if z = 0 then (0, n)
  else
    let b := r / 2 ^ z * 2 ^ z
    (b, min (2 ^ z) (n - b))

/-- The rank that a lane reads from, given position x in its segment. -/
def sourceRank (wrap : Bool) (b len r : Nat) (x : Int) : Nat :=
  if 0 ≤ x && x < len then b + x.toNat else if wrap then b + (x % len).toNat else r

/-- The results of one lane from the lane it reads. -/
def exchWrites (f : Fld) (v src : LV) : List Wr :=
  match f.md.toNat % 4 with
  | 0 => [.g f.d.toNat (src.g 1 f.a.toNat)]
  | 1 => wrG f.d.toNat 2 (src.gs 1 f.a.toNat 2)
  | _ => let x := src.fr 1 f.a.toNat; [.f v.f.d.toNat x.1 x.2]

/-- An exchange: `pos` gives position x from the lane's position, its own gB and the gB of the lowest lane of its segment. -/
def exchange (o : OpForm) (f : Fld) (s : State) (pos : (p own first : Nat) → Int) : Out :=
  crs o f s (fun v => v.m f.c.toNat) fun vs s =>
    let isF := f.md.toNat % 4 == 2
    match vs.find? fun v => isF && (v.fr 1 f.a.toNat).2 == 0 with
    | some _ => faultEvery s vs fun _ => formatFault 0xFF 0 1
    | none =>
      let n := vs.length
      let z := f.md.toNat / 8 % 8
      .ok s (vs.zipIdx.map fun x =>
        let sg := segmentOf z n x.2
        let own := (x.1.g 2 f.b.toNat).toNat
        let first := ((vs[sg.1]?).map fun v => (v.g 2 f.b.toNat).toNat).getD 0
        let r := sourceRank (f.md.getLsbD 2) sg.1 sg.2 x.2 (pos (x.2 - sg.1) own first)
        (x.1.lane, exchWrites f x.1 ((vs[r]?).getD x.1)))

def execShfl (f : Fld) (s : State) : Out := exchange formShfl f s fun _ own _ => own
def execShup (f : Fld) (s : State) : Out := exchange formShup f s fun p own _ => (p : Int) - own
def execShdn (f : Fld) (s : State) : Out := exchange formShdn f s fun p own _ => p + own
def execShxor (f : Fld) (s : State) : Out := exchange formShxor f s fun p own _ => (p ^^^ (own &&& 127) : Nat)
def execBcast (f : Fld) (s : State) : Out := exchange formBcast f s fun _ _ first => first

/-! ## Reductions and scans (R256, R257) -/

/-- Integer combination by op: add, min, max, and, or, xor. -/
def combInt (op : Nat) (sg : Bool) (w a b : Nat) : Nat :=
  let lt := if sg then signedN w a < signedN w b else a < b
  match op with
  | 0 => (a + b) % 2 ^ w
  | 1 => if lt then a else b
  | 2 => if lt then b else a
  | 3 => a &&& b
  | 4 => a ||| b
  | _ => a ^^^ b

/-- Floating combination: add, min, max, rounded to nearest. -/
def combFloat (op : Nat) (F : FF) (fz : Bool) (a b : Nat) : Nat × Exc :=
  let x := F.read fz a
  let y := F.read fz b
  let r := F.finish 0 fz false (if op = 0 then addFV 0 x y else minMaxFV (op == 2) x y)
  (r.1, if op = 0 then r.2 else r.2 ||| minMaxExc x y)

/-- One level of the tree: adjacent pairs combined, an odd last value carried up. -/
def treeLevel (c : Nat → Nat → Nat × Exc) : List Nat → List Nat × Exc
  | a :: b :: r =>
    let x := c a b
    let y := treeLevel c r
    (x.1 :: y.1, x.2 ||| y.2)
  | l => (l, 0)

/-- The tree of redux; fuel bounds the levels. -/
def treeOf (c : Nat → Nat → Nat × Exc) : Nat → List Nat → Nat × Exc
  | 0, l => (l.headD 0, 0)
  | n + 1, l =>
    match l with
    | _ :: _ :: _ =>
      let x := treeLevel c l
      let y := treeOf c n x.1
      (y.1, x.2 ||| y.2)
    | l => (l.headD 0, 0)

/-- The running results s_0, s_1, … of scan. -/
def scanFrom (c : Nat → Nat → Nat × Exc) (acc : Nat) : List Nat → List Nat × Exc
  | [] => ([], 0)
  | a :: r =>
    let x := c acc a
    let y := scanFrom c x.1 r
    (x.1 :: y.1, x.2 ||| y.2)

def scanOf (c : Nat → Nat → Nat × Exc) : List Nat → List Nat × Exc
  | [] => ([], 0)
  | a :: r => let y := scanFrom c a r; (a :: y.1, y.2)

/-- The identity that lane 0 receives under .excl. -/
def scanIdentity (f : Fld) : Nat :=
  let fl := f.md.getLsbD 4
  let w := 32 * intCnt f
  let sg := f.fmt == 0 || f.fmt == 2
  let F := ffOf f.fmt.toNat
  match f.md.toNat % 8 with
  | 1 => if fl then F.infBits else if sg then 2 ^ (w - 1) - 1 else 2 ^ w - 1
  | 2 => if fl then F.signBit true + F.infBits else if sg then 2 ^ (w - 1) else 0
  | 3 => 2 ^ w - 1
  | _ => 0

/-- The results per lane of redux or scan, and the exceptions raised anywhere. -/
def combineAll (f : Fld) (isScan : Bool) (fz : Bool) (l : List Nat) : List Nat × Exc :=
  let op := f.md.toNat % 8
  let fl := f.md.getLsbD 4
  let F := ffOf f.fmt.toNat
  let w := 32 * intCnt f
  let c := fun (a b : Nat) =>
    if fl then combFloat op F fz a b else (combInt op (f.fmt == 0 || f.fmt == 2) w a b, 0)
  if isScan then
    let r := scanOf c (if f.md.getLsbD 3 then l.dropLast else l)
    (if f.md.getLsbD 3 then (if l.isEmpty then [] else scanIdentity f :: r.1) else r.1, r.2)
  else
    let r := treeOf c 8 l
    (l.map fun _ => r.1, r.2)

/-- The end of a floating redux or scan: flags in every participating lane, a trap in all or results in all (R257). -/
def floatEvery (s : State) (f : Fld) (vs : List LV) (r : List Nat × Exc) : CrsRes :=
  match vs with
  | [] => .ok s []
  | v :: _ =>
    let m := trapMask v.env.la
    if r.2 &&& m ≠ 0 then
      let s := vs.foldl (fun s v => v.toThreads s (addFpf r.2)) s
      .every s ((vs.zip r.1).map fun x => (x.1.lane,
        faultOf 0x10 0 [(0x28, 1, (r.2 &&& m).toNat), (0x29, 1, r.2.toNat), (0x30, 8, x.2)]))
    else
      .ok s ((vs.zip r.1).map fun x => (x.1.lane,
        [.f f.d.toNat (BitVec.ofNat 64 x.2) (fmtTag f.fmt), .thr (addFpf r.2)]))

def combineOp (o : OpForm) (f : Fld) (s : State) (isScan : Bool) : Out :=
  crs o f s (fun v => v.m f.c.toNat) fun vs s =>
    if f.md.getLsbD 4 then
      let tag := fmtTag f.fmt
      match vs.find? fun v => (v.fr 1 f.a.toNat).2 != tag with
      | some v => faultEvery s vs fun _ => formatFault tag.toNat (v.fr 1 f.a.toNat).2 1
      | none =>
        let w := (ffOf f.fmt.toNat).bits
        let fz := vs.any LV.fz
        floatEvery s f vs (combineAll f isScan fz (vs.map fun v => elemAt w (v.fr 1 f.a.toNat).1.toNat 0))
    else
      let r := combineAll f isScan false (vs.map fun v => v.gs 1 f.a.toNat (intCnt f))
      .ok s ((vs.zip r.1).map fun x => (x.1.lane, wrG f.d.toNat (intCnt f) x.2))

def execRedux (f : Fld) (s : State) : Out := combineOp formRedux f s false
def execScan (f : Fld) (s : State) : Out := combineOp formScan f s true

/-! ## match and elect (R258) -/

def execMatchLanes (f : Fld) (s : State) : Out :=
  crs formMatch f s (fun v => v.m f.c.toNat) fun vs s =>
    let xs : List Nat := vs.map fun v => v.gs 1 f.a.toNat (if f.md = 1 then 2 else 1)
    let kinds := (distinctN xs).length
    .ok s (vs.zipIdx.map fun v =>
      let x := nthD xs v.2 0
      let same := xs.zipIdx.filter fun y => y.1 == x
      let leader := (same.head?.map (·.2)).getD 0
      let before := (same.filter fun y => y.2 < v.2).length
      (v.1.lane, [.g f.d.toNat (BitVec.ofNat 32 leader), .g (f.d.toNat + 1) (BitVec.ofNat 32 same.length),
        .g (f.d.toNat + 2) (BitVec.ofNat 32 before), .g (f.d.toNat + 3) (BitVec.ofNat 32 kinds)]))

def execElect (f : Fld) (s : State) : Out :=
  crs formElect f s (fun v => v.m f.c.toNat) fun vs s =>
    let k := ((vs.head?.map fun v => (v.g 2 f.b.toNat).toNat).getD 0) % max 1 vs.length
    .ok s (vs.zipIdx.map fun v => (v.1.lane, [.q f.d.toNat (qOf (v.2 == k))]))

end Sys2Proof.Machine
end

