-- ==== Sys2Proof/Machine/Convert.lean ====
section
/-! DEFINITION. The conversion group (R142 to R146) with error-feedback rounding. -/

namespace Sys2Proof.Machine

/-! ## Integers -/

/-- A value rounded to an integer under a mode and clamped to [lo, hi]: R143, R144. NaN and out-of-range values raise inv alone. -/
def toInt (mode : Nat) (lo hi : Int) : FV → Int × Exc
  | .nan _ => (0, excInv)
  | .inf s => (if s then lo else hi, excInv)
  | .num s m e =>
    let r := roundTo mode s m e 0
    let v := intOf s r.1
    if v < lo then (lo, excInv) else if hi < v then (hi, excInv) else (v, if r.2 then excInx else 0)

/-- Width, sign and range of an integer kind: s32, u32, s64, u64 (R142). -/
def kindW (kind : Nat) : Nat := if kind < 2 then 32 else 64
def kindSigned (kind : Nat) : Bool := kind % 2 == 0
def kindLo (kind : Nat) : Int := if kindSigned kind then -(2 ^ (kindW kind - 1) : Nat) else 0
def kindHi (kind : Nat) : Int := if kindSigned kind then (2 ^ (kindW kind - 1) : Nat) - 1 else (2 ^ kindW kind : Nat) - 1

/-! ## Error feedback (R146) -/

/-- One element: source value, residue position, rounding of v to bits, value of those bits. Answers bits, new position, flags. -/
def efWith (rnd : XR → Nat × Exc) (val : Nat → FV) (x : FV) (pos : Nat) : Nat × Nat × Exc :=
  let r := match ff32.val pos with | .num s m e => FV.num s m e | _ => .num false 0 0
  let v := addFV 0 x r
  let y := rnd v
  match v.toFV, val y.1 with
  | .num s m e, .num t n g =>
    let d := ff32.finish 0 false false (addNum 0 s m e (!t) n g)
    (y.1, (match ff32.val d.1 with | .inf _ => 0 | _ => d.1), y.2)
  | _, _ => (y.1, 0, y.2)

def efStep (F : FF) (fz sat : Bool) (x : FV) (pos : Nat) : Nat × Nat × Exc := efWith (F.finish 0 fz sat) F.val x pos

/-- Half `hi` of a residue register. -/
def LV.residue (v : LV) (n : Nat) (hi : Bool) : Nat := bitsN (v.e n).toNat (if hi then 32 else 0) 32

/-- The write of one half of a residue register. -/
def LV.setResidue (v : LV) (n : Nat) (hi : Bool) (x : Nat) : Wr :=
  let old := (nthD v.t.e n 0).toNat
  .e n (BitVec.ofNat 64 (if hi then old % 2 ^ 32 + x * 2 ^ 32 else old / 2 ^ 32 * 2 ^ 32 + x))

/-! ## cvt (R143) -/

/-- The element format that a tag names for a scalar source. -/
def tagFF (tag : BitVec 4) : Option FF :=
  match tag.toNat with
  | 1 => some ff64 | 2 => some ff32 | 3 => some ff16 | 4 => some ffB16 | 5 => some ffE4 | 6 => some ffE5 | _ => none

/-- A scalar source whose format its tag tells; a literal is an f64 image. -/
def LV.tagSrc (v : LV) (fld : Nat) : Except FaultInfo (FF × FV) :=
  if litIs v.f fld then .ok (ff64, ff64.read v.fz v.f.imm.toNat)
  else
    let r := v.fr fld (fieldNum v.f fld)
    match tagFF r.2 with
    | some F => .ok (F, F.read v.fz (elemAt F.bits r.1.toNat 0))
    | none => .error (formatFault 0xFE r.2 fld)

/-- The reserved-field fault of a value that is found wrong only when the instruction executes. -/
def LV.reserved (v : LV) : FaultInfo := decodeFault 0x02 v.iss (v.f.len.getLsbD 1)

/-- True when error feedback narrows: the destination is narrower than its f32 or f64 source. -/
def efNarrows (src dst : FF) : Bool := (src == ff64 && dst.bits < 64) || (src == ff32 && dst.bits < 32)

/-- cvt with FMT raw: the image with a given tag. -/
def cvtRaw (v : LV) (s : State) : LaneRes :=
  let tag : BitVec 4 := v.f.md.setWidth 4
  if litIs v.f 1 then .ok s [.f v.f.d.toNat v.f.imm tag]
  else
    match v.fany 1 with
    | .error x => .fault s x
    | .ok r => .ok s [.f v.f.d.toNat r.1 tag]

def cvtBody (f : Fld) (v : LV) (s : State) : LaneRes :=
  if f.fmt = 14 then cvtRaw v s
  else
    match v.tagSrc 1 with
    | .error x => .fault s x
    | .ok (F, a) =>
      if f.fmt = 9 ∨ f.fmt = 10 then
        let k := if f.fmt = 9 then 0 else 2
        if f.rnd = 5 then .fault s v.reserved
        else
          let r := toInt f.rnd.toNat (kindLo k) (kindHi k) a
          let image := wrapN (kindW k) r.1
          v.fpDone s [r.2] image [.f f.d.toNat (BitVec.ofNat 64 image) 13]
      else if f.rnd = 5 then
        if efNarrows F v.ff then
          let r := efStep v.ff v.fz (f.md.getLsbD 4) a (v.residue f.e.toNat (f.md.getLsbD 5))
          v.fpDone s [r.2.2] r.1 [.f f.d.toNat (BitVec.ofNat 64 r.1) (fmtTag f.fmt), v.setResidue f.e.toNat (f.md.getLsbD 5) r.2.1]
        else .fault s v.reserved
      else v.fpElems s [v.ff.finish f.rnd.toNat v.fz (f.md.getLsbD 4) a.toXR]

def execCvt (f : Fld) (s : State) : Out := vec formCvt f s (cvtBody f)

/-! ## cvti, cvtf (R144, R145) -/

def execCvti (f : Fld) (s : State) : Out :=
  vec formCvti f s fun v s =>
    match v.fmtSrc 1 with
    | .error x => .fault s x
    | .ok x =>
      let k := f.md.toNat % 4
      let r := toInt f.rnd.toNat (kindLo k) (kindHi k) (v.ff.read v.fz (elemAt v.ff.bits x 0))
      let image := wrapN (kindW k) r.1
      v.fpDone s [r.2] image (wrG f.d.toNat (kindCnt f) image)

def execCvtf (f : Fld) (s : State) : Out :=
  vec formCvtf f s fun v s =>
    let k := f.md.toNat % 4
    let x : Nat := v.int 1 (kindCnt f)
    let n : Int := if kindSigned k then signedN (kindW k) x else x
    v.fpElems s [v.ff.finish f.rnd.toNat v.fz false (.num (n < 0) n.natAbs 0)]

/-! ## pack2, unpk2 (R145) -/

/-- A source of pack2: f32, f64, or element 0 under the destination's tag. -/
def LV.packSrc (v : LV) (fld : Nat) : Except FaultInfo (FF × FV) :=
  let r := v.fr fld (fieldNum v.f fld)
  if r.2 = 1 ∨ r.2 = 2 ∨ (v.f.fmt ≠ 4 ∧ r.2 = fmtTag v.f.fmt) then v.tagSrc fld else .error (formatFault 0xFE r.2 fld)

def execPack2 (f : Fld) (s : State) : Out :=
  vec formPack2 f s fun v s =>
    match v.packSrc 1, v.packSrc 2 with
    | .error x, _ => .fault s x
    | _, .error x => .fault s x
    | .ok (F, a), .ok (G, b) =>
      if f.rnd = 5 then
        if efNarrows F v.ff && efNarrows G v.ff then
          let p := efStep v.ff v.fz false a (v.residue f.e.toNat false)
          let q := efStep v.ff v.fz false b (v.residue f.e.toNat true)
          let image := packElems v.ff.bits [p.1, q.1]
          v.fpDone s [p.2.2, q.2.2] image [.f f.d.toNat (BitVec.ofNat 64 image) (fmtTag f.fmt),
            .e f.e.toNat (BitVec.ofNat 64 (p.2.1 + q.2.1 * 2 ^ 32))]
        else .fault s v.reserved
      else
        v.fpElems s [v.ff.finish f.rnd.toNat v.fz false a.toXR, v.ff.finish f.rnd.toNat v.fz false b.toXR]

def execUnpk2 (f : Fld) (s : State) : Out :=
  vec formUnpk2 f s fun v s =>
    let r := v.fr 1 f.a.toNat
    if r.2 ≠ fmtTag f.fmt then .fault s (formatFault 0xFE r.2 1)
    else
      let a := v.ff.read v.fz (elemAt v.ff.bits r.1.toNat (boolN (f.md.getLsbD 0)))
      let y := ff32.finish 0 v.fz false a.toXR
      v.fpDone s [y.2] y.1 [.f f.d.toNat (BitVec.ofNat 64 y.1) 2]

end Sys2Proof.Machine
end

