-- ==== Sys2Proof/Machine/Narrow.lean ====
section
/-! DEFINITION. Block formats (R291 to R299) and the residue registers (R300, R302). -/

namespace Sys2Proof.Machine

/-! ## Elements (R291, R292) -/

/-- The small float of a block format: exponent and mantissa bits and bias. -/
structure DX where
  eb   : Nat
  p    : Nat
  bias : Nat
  gap  : Nat      -- the default Δ (R295)
  deriving DecidableEq, Repr

/-- DX8, DX6 and DX4 by their format codes 11, 12, 13. -/
def dxOf (fmt : Nat) : DX := match fmt with | 11 => ⟨3, 3, 3, 4⟩ | 12 => ⟨2, 2, 1, 3⟩ | _ => ⟨1, 1, 1, 3⟩

/-- Bits of an element: selector, sign, magnitude. -/
def DX.bits (d : DX) : Nat := d.eb + d.p + 2
def DX.qmin (d : DX) : Int := 1 - (d.bias : Int) - d.p
/-- The largest magnitude's code. -/
def DX.top (d : DX) : Nat := 2 ^ (d.eb + d.p) - 1
/-- Bytes of a block, L of R293. -/
def DX.len (d : DX) : Nat := 4 * d.bits

/-- The magnitude that a code stands for, with unbounded exponent: m · 2^e. -/
def DX.mag (d : DX) (code : Nat) : Nat × Int :=
  if code < 2 ^ d.p then (code, d.qmin) else (2 ^ d.p + code % 2 ^ d.p, d.qmin + (code / 2 ^ d.p : Nat) - 1)

/-- m · 2^e rounded to the element format with unbounded exponent, as a code. -/
def DX.code (d : DX) (mode : Nat) (neg : Bool) (m : Nat) (e : Int) : Nat :=
  if m = 0 then 0
  else
    let q := max (e + bitLen m - 1 - d.p) d.qmin
    let r := roundTo mode neg m e q
    ((q - d.qmin) * 2 ^ d.p + r.1).toNat

/-- The element of a code under a scale byte (R292). -/
def DX.scaled (d : DX) (neg : Bool) (code s : Nat) : FV :=
  if s = 0xFF then .nan false else let m := d.mag code; .num neg m.1 (m.2 + s - 127)

/-- Element bits decoded under the block's scales. -/
def DX.decode (d : DX) (s0 s1 x : Nat) : FV :=
  d.scaled (bitN x (d.bits - 2)) (x % 2 ^ (d.bits - 2)) (if bitN x (d.bits - 1) then s1 else s0)

/-- Element i of a block's bytes (R293). -/
def DX.elem (d : DX) (block i : Nat) : Nat := elemAt d.bits block i

/-! ## Packing (R296, R298) -/

def absFV : FV → FV | .num _ m e => .num false m e | .inf _ => .inf false | x => x

/-- S0: the smallest scale under which the largest magnitude fits. -/
def DX.scale0 (d : DX) (vs : List FV) : Nat :=
  let big := (vs.filter fun v => !v.isNan).foldl (fun a v => if ltFV a (absFV v) then absFV v else a) (.num false 0 0)
  ((List.range 255).find? fun s => leFV big (d.scaled false d.top s)).getD 254

def DX.scale1 (_d : DX) (vs : List FV) (s0 gap : Nat) : Nat := if vs.any FV.isNan then 0xFF else s0 - gap

/-- One element under one scale: its code and its error, or unavailable; the last flag is S0's overflow. -/
def DX.tryScale (d : DX) (mode : Nat) (v : FV) (s : Nat) (first : Bool) : Option (Nat × FV × Bool) :=
  match v with
  | .num neg m e =>
    let c := d.code mode neg m (e + 127 - s)
    let ovf := d.top < c
    if ovf && !first then none
    else
      let c := if ovf then d.top else c
      let err := match d.scaled neg c s with
        | .num _ n g => absFV (addNum 0 neg m e (!neg) n g).toFV
        | x => x
      some (c, err, ovf)
  | .inf _ => if first then some (d.top, .inf false, true) else none
  | .nan _ => none

/-- One element: its bits, its flags, and its decoded value. -/
def DX.pack (d : DX) (mode s0 s1 : Nat) (v : FV) : Nat × Exc × FV :=
  if v.isNan then (2 ^ (d.bits - 1), if v.snan then excInv else 0, .nan false)
  else
    let a := (d.tryScale mode v s0 true).getD (0, .num false 0 0, false)
    let b := if s1 = 0xFF then none else d.tryScale mode v s1 false
    let pick := match b with
      | some b => if ltFV b.2.1 a.2.1 then (true, b) else (false, a)
      | none => (false, a)
    let bits := boolN pick.1 * 2 ^ (d.bits - 1) + boolN v.neg * 2 ^ (d.bits - 2) + pick.2.1
    let x : Exc := (if pick.2.2.2 then excOvf ||| excInx else 0) |||
      (match pick.2.2.1 with | .num _ m _ => if m = 0 then 0 else excInx | _ => excInx)
    (bits, x, d.scaled v.neg pick.2.1 (if pick.1 then s1 else s0))

/-- A packed block. -/
structure Block where
  bytes : Nat          -- element bytes, little-endian
  s0    : Nat
  s1    : Nat
  excs  : List Exc
  pos   : List Nat     -- residue positions afterwards, under ef
  deriving DecidableEq, Repr

/-- A residue position as a summand: +0 when it is a NaN or an infinity. -/
def residueFV (x : Nat) : FV := match ff32.val x with | .num s m e => .num s m e | _ => .num false 0 0

/-- Packs 32 values. `pos` are the residue positions that ef reads; empty for any other rounding. -/
def packBlock (fmt gap mode : Nat) (xs : List FV) (pos : List Nat) : Block :=
  let d := dxOf fmt
  let vs := if pos.isEmpty then xs else xs.zipIdx.map fun x => (addFV 0 x.1 (residueFV (nthD pos x.2 0))).toFV
  let s0 := d.scale0 vs
  let s1 := d.scale1 vs s0 gap
  let es := vs.map (d.pack mode s0 s1)
  let sig := xs.map fun x => if x.snan then excInv else (0 : Exc)
  let res := fun (v : FV) (y : FV) => match v, y with
    | .num s m e, .num t n g =>
      let r := (ff32.finish 0 false false (addNum 0 s m e (!t) n g)).1
      (match ff32.val r with | .inf _ => 0 | _ => r)
    | _, _ => 0
  ⟨packElems d.bits (es.map (·.1)), s0, s1, (es.map (·.2.1)).zipWith (· ||| ·) sig,
    if pos.isEmpty then [] else vs.zipWith res (es.map (·.2.2))⟩

/-! ## dxpack and dxunpk (R295, R297, R299) -/

/-- The FP-exception bytes of a block instruction: 32 elements (R297). -/
def dxFault (m : Exc) (l : List Exc) (image : Nat) : FaultInfo :=
  let els := trapElems m l
  faultOf 0x10 0 [(0x28, 1, (excAll l &&& m).toNat), (0x29, 1, (excAll l).toNat), (0x2A, 2, els % 2 ^ 16), (0x2C, 4, els / 2 ^ 16),
    (0x30, 8, image)]

def LV.dxDone (v : LV) (s : State) (l : List Exc) (image : Nat) (ws : List Wr) : LaneRes :=
  let m := trapMask v.env.la
  if excAll l &&& m ≠ 0 then .fault (v.toThreads s (addFpf (excAll l))) (dxFault m l image)
  else .ok s (if excAll l = 0 then ws else .thr (addFpf (excAll l)) :: ws)

/-- Images of `cnt` consecutive f registers that all carry a tag. -/
def LV.fRun (v : LV) (fld n cnt : Nat) (tag : BitVec 4) : Except FaultInfo (List Nat) :=
  let rs := (List.range cnt).map fun i => v.fr fld (n + i)
  match rs.find? fun r => r.2 != tag with
  | some r => .error (formatFault tag.toNat r.2 fld)
  | none => .ok (rs.map fun r => r.1.toNat)

/-- Writes of consecutive f registers from one long image. -/
def fRunWr (n cnt x : Nat) (tag : BitVec 4) : List Wr :=
  (List.range cnt).map fun i => .f (n + i) (BitVec.ofNat 64 (x / 2 ^ (64 * i))) tag

/-- The gap Δ of MOD[3:0]. -/
def gapOf (f : Fld) : Nat := if f.md.toNat % 16 = 0 then (dxOf f.fmt.toNat).gap else f.md.toNat % 16

/-- All 32 residue positions of a lane's thread. -/
def LV.positions (v : LV) : List Nat := (List.range 32).map fun i => bitsN (v.e (i / 2)).toNat (32 * (i % 2)) 32
def setPositions (l : List Nat) : List Wr :=
  (List.range 16).map fun i => .e i (BitVec.ofNat 64 (nthD l (2 * i) 0 + nthD l (2 * i + 1) 0 * 2 ^ 32))

def execDxpack (f : Fld) (s : State) : Out :=
  vec formDxpack f s fun v s =>
    match v.fRun 1 f.a.toNat 16 14 with
    | .error x => .fault s x
    | .ok xs =>
      let ef := f.rnd == 5
      let vals := xs.flatMap fun x => [ff32.read v.fz (elemAt 32 x 0), ff32.read v.fz (elemAt 32 x 1)]
      let b := packBlock f.fmt.toNat (gapOf f) (if ef then 0 else f.rnd.toNat) vals (if ef then v.positions else [])
      let d := dxOf f.fmt.toNat
      let ws := fRunWr f.d.toNat (d.len / 8) b.bytes (fmtTag f.fmt) ++ [.g f.b.toNat (BitVec.ofNat 32 (b.s0 + 256 * b.s1))] ++
        (if ef then setPositions b.pos else [])
      v.dxDone s b.excs (b.bytes % 2 ^ 64) ws

def execDxunpk (f : Fld) (s : State) : Out :=
  vec formDxunpk f s fun v s =>
    let d := dxOf f.fmt.toNat
    match v.fRun 1 f.a.toNat (d.len / 8) (fmtTag f.fmt) with
    | .error x => .fault s x
    | .ok xs =>
      let block := packElems 64 xs
      let sc := (v.g 2 f.b.toNat).toNat
      let es := (List.range 32).map fun i =>
        ff32.finish f.rnd.toNat v.fz false (d.decode (sc % 256) (sc / 256 % 256) (d.elem block i)).toXR
      let image := packElems 32 (es.map (·.1))
      v.dxDone s (es.map (·.2)) (image % 2 ^ 64) (fRunWr f.d.toNat 16 image 14)

/-! ## Residue registers (R302) -/

def execResclr (f : Fld) (s : State) : Out := pureOp formResclr f s fun _ => [.e f.d.toNat 0]
def execResclrAll (f : Fld) (s : State) : Out := pureOp formResclrAll f s fun _ => (List.range 16).map fun i => .e i 0
def execResget (f : Fld) (s : State) : Out := pureOp formResget f s fun v => wrG f.d.toNat 2 (v.e f.a.toNat).toNat
def execResset (f : Fld) (s : State) : Out :=
  pureOp formResset f s fun v => [.e f.d.toNat (BitVec.ofNat 64 (v.gs 1 f.a.toNat 2))]

end Sys2Proof.Machine
end

