-- ==== Sys2Proof/Machine/Matrix.lean ====
section
/-! DEFINITION. The matrix unit (R305 to R319): tiles, mma at issue, its accumulation steps and summation order, its faults, and
batches. -/

namespace Sys2Proof.Machine

/-! ## Tiles (R305, R314) -/

/-- True while an mma on a tile, or a batch that holds one, is incomplete; an open batch is (R312, R318). -/
def tileBusy (s : State) (core tile : Nat) : Bool :=
  (s.en.mmas.any fun m => m.core == core && m.tile == tile) || (s.en.batches.any fun b => b.tiles.contains (core, tile)) ||
  s.cs.pallets.any fun p => p.core == core && p.table.any fun c => c.2.openB.any fun x => x.tile == tile

/-- n unpredictable bytes (R314). -/
def freeBytes (s : State) (salt n : Nat) : List Byte := (List.range n).map fun i => Config.byte s.tick (salt * 8192 + i)

/-- n bytes of a row of a tile; unpredictable while the tile is busy. -/
def tileRow (s : State) (core tile r n : Nat) : List Byte :=
  if tileBusy s core tile then freeBytes s (32 * tile + r) n else memRead (getTile s core tile).bytes (256 * r) n

/-- Makes a whole tile unpredictable. -/
def spoilTile (s : State) (core tile : Nat) : State :=
  setTile s { getTile s core tile with bytes := memWrite [] 0 (freeBytes s tile 8192) }

/-- Writes rows of a tile and its tag. On a busy tile the whole tile is unpredictable once its mma completes (R314). -/
def writeRows (s : State) (core tile : Nat) (tag : BitVec 4) (rows : List (Nat × List Byte)) : State :=
  let t := getTile s core tile
  let s' := setTile s { t with tag := tag, bytes := rows.foldl (fun m r => memWrite m (256 * r.1) r.2) t.bytes }
  if s.en.mmas.any fun m => m.core == core && m.tile == tile then
    withMmas s' (s.en.mmas.map fun m => if m.core == core && m.tile == tile then { m with trashed := true } else m)
  else if tileBusy s core tile then spoilTile s' core tile
  else s'

/-- The physical tile that a pinned course holds under a register number. -/
def LV.tile (v : LV) (n : Nat) : Nat :=
  (v.env.sh.course.bind fun c => (sGet v.env.pl.table c).map fun c => nthD c.tiles n 0).getD 0

/-- The taking-part strips with the view of each one's lowest lane of the mask, in column order (R306). -/
def stripsOf (vs : List LV) : List (Nat × LV) :=
  (List.range 32).filterMap fun r => (vs.find? fun v => v.lane % 32 == r).map fun v => (r, v)

/-! ## Operands (R307 to R311) -/

/-- Element bytes of a plain format; 0 for a block format. -/
def mmaZ (fmt : BitVec 4) : Nat := match fmt.toNat with | 0 => 4 | 1 => 8 | 2 => 2 | 3 => 2 | 7 => 1 | 8 => 1 | _ => 0

/-- Bytes of k consecutive elements, k a multiple of 32 in a block format. -/
def mmaRow (fmt : BitVec 4) (k : Nat) : Nat := if isDx fmt then k / 32 * (dxOf fmt.toNat).len else k * mmaZ fmt

/-- The pair that accumulates in an f64 tile; every other accumulates in an f32 tile (R309). -/
def wideMma (fa fb : BitVec 4) : Bool := fa == 1 && fb == 1

def mmaCols (fa fb : BitVec 4) : Nat := if wideMma fa fb then 32 else 64

/-- The K-step of a pair (R309). -/
def mmaStep (fa fb : BitVec 4) : Nat :=
  if isDx fa || isDx fb then 32 else if wideMma fa fb then 2 else if fa = 0 then 4 else 8

structure MmaAsk where
  abase : Nat
  bbase : Nat
  astr  : Nat
  bstr  : Nat
  ascl  : Nat
  bscl  : Nat
  asst  : Nat
  bsst  : Nat
  rsv   : Bool          -- a field that must be zero is not (R308)
  deriving DecidableEq, Repr

/-- The operands in registers: base, then stride in the next register. -/
def LV.mmaRegs (v : LV) : MmaAsk :=
  let one := fun (fld n : Nat) (spc : BitVec 3) => if spc = 0 then (v.gs fld n 2, (v.g fld (n + 2)).toNat)
    else ((v.g fld n).toNat, (v.g fld (n + 1)).toNat)
  let a := one 1 v.f.a.toNat v.f.spc
  let b := one 2 v.f.b.toNat (mmaBspc v.f)
  ⟨a.1, b.1, a.2, b.2, 0, 0, 0, 0, false⟩

/-- A matrix operand record (R308). -/
def mmaRecord (f : Fld) (r : List Byte) : MmaAsk :=
  let fa := isDx f.fmt
  let fb := isDx (mmaFb f)
  let u := fun (o n : Nat) => fieldB r o n
  let rsv := u 0x30 16 != 0 || (f.spc != 0 && u 4 4 != 0) || (mmaBspc f != 0 && u 12 4 != 0) ||
    (!fa && (u 0x18 8 != 0 || u 0x28 4 != 0)) || (!fb && (u 0x20 8 != 0 || u 0x2C 4 != 0)) ||
    (fa && f.spc != 0 && u 0x1C 4 != 0) || (fb && mmaBspc f != 0 && u 0x24 4 != 0)
  ⟨u 0 8, u 8 8, u 0x10 4, u 0x14 4, u 0x18 8, u 0x20 8, u 0x28 4, u 0x2C 4, rsv⟩

/-- Step 5 of R311: the first misaligned base, stride, scale base or scale stride. -/
def mmaMisaligned (q : MmaAsk) : Option Nat :=
  ([q.abase, q.bbase, q.astr, q.bstr].find? fun x => x % 16 != 0).or ([q.ascl, q.bscl, q.asst, q.bsst].find? fun x => x % 2 != 0)

/-- Step 6 of R311: the ranges that must lie in a tray: space, address, bytes. -/
def mmaRanges (f : Fld) (q : MmaAsk) (rows : List Nat) (k : Nat) : List (Nat × Nat × Nat) :=
  let fa := f.fmt
  let fb := mmaFb f
  let sa := f.spc.toNat
  let sb := (mmaBspc f).toNat
  let cols := mmaCols fa fb
  rows.map (fun r => (sa, q.abase + r * q.astr, mmaRow fa k)) ++
  (List.range k).map (fun r => (sb, q.bbase + r * q.bstr, mmaRow fb cols)) ++
  (if isDx fa then rows.map fun r => (sa, q.ascl + r * q.asst, k / 16) else []) ++
  (if isDx fb then (List.range k).map fun r => (sb, q.bscl + r * q.bsst, 4) else [])

/-- The checks of R311 from step 4, for the lowest lane of the mask. -/
def LV.mmaCheck (v : LV) (s : State) (q : MmaAsk) (rows : List Nat) (k : Nat) : Option FaultInfo :=
  if q.rsv || k == 0 || k % mmaStep v.f.fmt (mmaFb v.f) != 0 || 4096 < k then some v.reservedX
  else
    match mmaMisaligned q with
    | some a => some (faultOf 0x08 a [])
    | none => (mmaRanges v.f q rows k).findSome? fun r => if r.1 = 1 ∨ r.1 = 2 then v.rangeFault s r.1 r.2.1 r.2.2 6 else none

/-! ## mma (R312) -/

/-- The operation joins the course's open batch. -/
def LV.issueMma (v : LV) (s : State) (q : MmaAsk) (rows : List Nat) (k : Nat) : State :=
  let key := freshKey s
  let slot := v.env.sh.course.getD 0
  let tile := v.tile v.f.d.toNat
  let m : Mma := {
    key := key.1
    core := v.env.pl.core
    cid := v.env.cx.cid
    launch := v.env.la.key
    pal := v.env.pl.key
    course := slot
    tile := tile
    tnum := v.f.d.toNat
    fa := v.f.fmt
    fb := mmaFb v.f
    aspc := v.f.spc
    bspc := mmaBspc v.f
    abase := q.abase
    bbase := q.bbase
    astr := q.astr
    bstr := q.bstr
    ascl := q.ascl
    bscl := q.bscl
    asst := q.asst
    bsst := q.bsst
    kk := k
    rows := rows
    step := 0
    batch := none
    pc := v.iss.pc
    tid := v.t.tid
    since := v.env.pl.foprT
    started := false
    paused := false
    trashed := false
    stamp := v.env.pl.fopr }
  let s := key.2
  match (getPallet s v.env.pl.key).bind fun p => sGet p.table slot with
  | none => s
  | some c =>
    -- after a fatal fault of the course's pipes no later mma is performed (R316)
    let s := if c.dead then s else withMmas s (s.en.mmas ++ [m])
    putCourse s v.env.pl.key slot { c with openB := c.openB ++ [⟨key.1, tile, false, c.dead⟩] }

/-- A body that acts once for the course: completed lanes write nothing. -/
def crsOnce (vs : List LV) (s : State) : CrsRes := .ok s (vs.map fun v => (v.lane, []))

def mmaBody (f : Fld) (vs : List LV) (s : State) : CrsRes :=
  match vs with
  | [] => .ok s []
  | v :: _ =>
    let every := fun (s : State) (x : FaultInfo) => faultEvery s vs fun _ => x
    let t := getTile s v.env.pl.core (v.tile f.d.toNat)
    let need : BitVec 4 := if wideMma f.fmt (mmaFb f) then 1 else 2
    let rows := (stripsOf vs).map (·.1)
    let k := if f.lit = 3 then f.imm.toNat % 2 ^ 32 else (v.g 3 f.c.toNat).toNat
    let go := fun (s : State) (q : MmaAsk) => match v.mmaCheck s q rows k with
      | some x => every s x
      | none => crsOnce vs (v.issueMma s q rows k)
    if t.tag ≠ need then every s (formatFault need.toNat t.tag 0)
    else if f.lit ≠ 5 then go s v.mmaRegs
    else
      let a := f.imm.toNat
      if a % 16 ≠ 0 then every s (faultOf 0x08 a [])
      else
        match v.loadRecord s a 64 with
        | .error (s, x) => every s x
        | .ok none => .wait (v.recordWait s a 64) .board
        | .ok (some (r, s)) => go s (mmaRecord f r)

def execMma (f : Fld) (s : State) : Out := crs formMma f s (fun v => v.m (f.md.toNat % 8)) (mmaBody f)

/-! ## Batches (R318) -/

structure MmaEnv where
  la : Launch
  cx : Ctx
  w  : Who
  deriving DecidableEq, Repr

/-- The load pipes of a core as an accessing party for a pallet. -/
def pipeEnv (s : State) (pal : Nat) : Option MmaEnv := do
  let p ← getPallet s pal
  let la ← getLaunch s p.launch
  let cx ← getCtx s la.cid
  return ⟨la, cx, ⟨pipeAgent s p.core la.cid, p.core, cx, la.tag, raceMode la⟩⟩

/-- Completes the batches of a course that have nothing left to do and no earlier batch before them. -/
def settleBatches (s : State) (pal course : Nat) : State :=
  match pipeEnv s pal with
  | none => s
  | some e =>
    (s.en.batches.filter fun b => b.pal == pal && b.course == course).foldl (fun (r : State × Bool) b =>
      if r.2 || !b.mmas.isEmpty then (r.1, true)
      else
        let c := engineRelease r.1 e.w
        let s := completeFuture c.2 b.handle (if b.bad then .error else .clean) (max c.1 b.stamp)
        (withBatches s (s.en.batches.filter fun x => x.handle != b.handle), false)) (s, false) |>.1

def mbatchBody (f : Fld) (vs : List LV) (s : State) : CrsRes :=
  match vs with
  | [] => .ok s []
  | v :: _ =>
    let pal := v.env.pl.key
    let slot := v.env.sh.course.getD 0
    match v.release s 1 with
    | .error (s, x) => faultEvery s vs fun _ => x
    | .ok (stamp, s) =>
      match (getPallet s pal).bind fun p => sGet p.table slot with
      | none => .ok s []
      | some c =>
        let h := newFuture s 2 v.env.pl.core pal
        let mine := c.openB.map (·.key)
        let live := s.en.mmas.filter fun m => mine.contains m.key
        let b : Batch := ⟨h.1, pal, slot, live.map (·.key), c.openB.map fun x => (v.env.pl.core, x.tile), c.openB.any (·.bad), stamp⟩
        -- its mma that have not started acquire its release with fopr's (R179)
        let s := withMmas h.2 (h.2.en.mmas.map fun m =>
          if mine.contains m.key then { m with batch := some h.1, stamp := max m.stamp stamp } else m)
        let s := putCourse (withBatches s (s.en.batches ++ [b])) pal slot { c with openB := [] }
        let s := settleBatches (if c.openB.any (·.begun) then beginFuture s h.1 else s) pal slot
        .ok s (vs.map fun v => (v.lane, markWr f.d.toNat h.1))

def execMbatch (f : Fld) (s : State) : Out := crs formMbatch f s (fun v => v.m f.a.toNat) (mbatchBody f)

/-! ## Fetching operands (R310, R316, R188) -/

/-- What the pipes read of one 4-byte unit: the value at hand, or one that it held since the last fopr before the mma's issue. -/
def pipeUnit (s : State) (m : Mma) (tray : Option Nat) (addr salt : Nat) (now : List Byte) : List Byte :=
  let olds := s.en.olds.filter fun o => o.pal == m.pal && o.tray == tray && o.addr == alignDown addr 4 && m.since < o.time
  match olds.zipIdx.find? fun o => Config.choice s.tick (salt * 64 + o.2) with
  | some (o, _) => sliceB (leBytes 4 o.val.toNat) (addr % 4) now.length
  | none => now

/-- Applies `pipeUnit` to bytes at an address. -/
def pipeBytes (s : State) (m : Mma) (tray : Option Nat) (addr : Nat) (bytes : List Byte) : List Byte :=
  if s.en.olds.isEmpty then bytes
  else (piecesOf 2 addr bytes.length).flatMap fun q => pipeUnit s m tray q.1 (m.key * 65536 + q.1) (sliceB bytes (q.1 - addr) q.2)

/-- Races that the pipes find, through their filter: one in fault mode ends the fetch, others are reported (R232, R233). -/
def pipeFound (s : State) (e : MmaEnv) (m : Mma) (hits : List RaceHit) : Except (State × FaultInfo) State :=
  let f := filterHits s e.w.agent m.cid e.w.mode hits
  match f.2 with
  | [] => .ok f.1
  | h :: _ =>
    if e.w.mode = 1 then .error (f.1, h.fault)
    else .ok (f.2.foldl (fun s h => engineReport s e.la e.cx (getPallet s m.pal) m.pc.toNat m.tid h.fault) f.1)

/-- The bytes [addr, addr + n) of a space as the pipes read them. -/
def pipeRead (s : State) (e : MmaEnv) (m : Mma) (spc addr n : Nat) : Except (State × FaultInfo) (List Byte × State) :=
  match spc with
  | 0 =>
    match translate s e.cx (accPipe.at m.core 0) addr n with
    | .error x => .error (s, x)
    | .ok (ps, s) =>
      match ps.findSome? fun p => poisonCheck s p with
      | some x => .error (s, { x with addr := addr })
      | none =>
        let r := loadPhys s e.w ⟨1, false, false, false, e.w.mode != 0, 2⟩ ps
        let out := (ps.foldl (fun (a : List Byte × List Byte) p =>
          (a.1 ++ pipeBytes r.s m none p.pa (a.2.take p.len), a.2.drop p.len)) ([], r.bytes)).1
        (pipeFound r.s e m r.hits).map fun s => (out, s)
  | 1 => .ok (pipeBytes s m (some m.pal) addr (trayBytes s m.pal addr n), s)
  | _ =>
    match palletOnCore s m.launch (m.core / 8 * 8 + bitsN addr 19 3) with
    | some p => .ok (pipeBytes s m (some p.key) (addr % 2 ^ 19) (trayBytes s p.key (addr % 2 ^ 19) n), s)
    | none => .error (s, faultOf 0x0C addr [])

/-- A fetch that failed: the fault, which operand (0 A, 1 B, 2 A scales, 3 B scales) and which row. -/
structure PipeFail where
  s   : State
  x   : FaultInfo
  opn : Nat
  row : Nat

/-- Fetches one piece for each row: row number and bytes. -/
def pipeRows (s : State) (e : MmaEnv) (m : Mma) (opn spc : Nat) (rows : List Nat) (at' : Nat → Nat) (n : Nat) :
    Except PipeFail (List (Nat × List Byte) × State) :=
  rows.foldl (fun acc r =>
    match acc with
    | .error x => .error x
    | .ok (l, s) =>
      match pipeRead s e m spc (at' r) n with
      | .error (s, x) => .error ⟨s, x, opn, r⟩
      | .ok (bytes, s) => .ok (l ++ [(r, bytes)], s)) (.ok ([], s))

/-- What a step needs: A's elements of the taking-part rows, B's rows, and their scale pairs. -/
structure PipeData where
  a  : List (Nat × List Byte)
  b  : List (Nat × List Byte)
  as : List (Nat × List Byte)
  bs : List (Nat × List Byte)

/-- The k values of step s (R312). -/
def stepKs (m : Mma) (st : Nat) : List Nat := (List.range 16).map (16 * st + ·) |>.filter fun k => k < m.kk

def pipeFetch (s : State) (e : MmaEnv) (m : Mma) : Except PipeFail (PipeData × State) := do
  let ks := stepKs m m.step
  let k0 := 16 * m.step
  let wa := (dxOf m.fa.toNat).bits
  let offA := if isDx m.fa then k0 / 32 * (dxOf m.fa.toNat).len + k0 % 32 * wa / 8 else k0 * mmaZ m.fa
  let lenA := if isDx m.fa then 2 * wa else ks.length * mmaZ m.fa
  let a ← pipeRows s e m 0 m.aspc.toNat m.rows (fun r => m.abase + r * m.astr + offA) lenA
  let b ← pipeRows a.2 e m 1 m.bspc.toNat ks (fun k => m.bbase + k * m.bstr) (mmaRow m.fb (mmaCols m.fa m.fb))
  let as ← if isDx m.fa then pipeRows b.2 e m 2 m.aspc.toNat m.rows (fun r => m.ascl + r * m.asst + 2 * (k0 / 32)) 2
    else .ok ([], b.2)
  let bs ← if isDx m.fb then pipeRows as.2 e m 3 m.bspc.toNat ks (fun k => m.bscl + k * m.bsst) 4 else .ok ([], as.2)
  return (⟨a.1, b.1, as.1, bs.1⟩, bs.2)

/-! ## One step (R312, R313) -/

def rowBytes (l : List (Nat × List Byte)) (r : Nat) : List Byte := ((l.find? fun x => x.1 == r).map (·.2)).getD []

/-- Element i of a row of a plain or block format; `sc` its scale pairs, two bytes a block, `blk` the block. -/
def mmaElem (fmt : BitVec 4) (bytes sc : List Byte) (i blk : Nat) : FV :=
  if isDx fmt then
    let d := dxOf fmt.toNat
    d.decode (fieldB sc (2 * blk) 1) (fieldB sc (2 * blk + 1) 1) (elemAt d.bits (ofLe bytes) i)
  else
    let F := ffOf fmt.toNat
    F.val (fieldB bytes (i * mmaZ fmt) (mmaZ fmt))

/-- The tree of redux over exact products, each node rounded once (R313). -/
def treePass (F : FF) : List FV → List FV
  | a :: b :: r => F.val (F.finish 0 false false (addFV 0 a b)).1 :: treePass F r
  | l => l

def treeSum (F : FF) : Nat → List FV → FV
  | 0, l => l.headD (.num false 0 0)
  | n + 1, l => match l with
    | _ :: _ :: _ => treeSum F n (treePass F l)
    | l => l.headD (.num false 0 0)

/-- The new accumulator element. -/
def mmaCell (m : Mma) (d : PipeData) (r c acc : Nat) : Nat :=
  let F := if wideMma m.fa m.fb then ff64 else ff32
  let ra := rowBytes d.a r
  let sa := rowBytes d.as r
  let ps := (stepKs m m.step).map fun k =>
    let x := mmaElem m.fa ra sa (k % 16) 0
    let y := mmaElem m.fb (rowBytes d.b k) (rowBytes d.bs k) c (c / 32)
    (mulFV x y).toFV
  (F.finish 0 false false (addFV 0 (F.val acc) (treeSum F 5 ps))).1

/-- The rows of the accumulator after a step. -/
def mmaRows (s : State) (m : Mma) (d : PipeData) : List (Nat × List Byte) :=
  let z := if wideMma m.fa m.fb then 8 else 4
  let t := getTile s m.core m.tile
  m.rows.map fun r =>
    let old := memRead t.bytes (256 * r) 256
    (r, (List.range (mmaCols m.fa m.fb)).flatMap fun c => leBytes z (mmaCell m d r c (fieldB old (c * z) z)))

def mmaSteps (m : Mma) : Nat := (m.kk + 15) / 16

def setMma (s : State) (m : Mma) : State := withMmas s (updIf (fun x => x.key == m.key) m s.en.mmas)

/-- Changes the mark of an mma in its course's open batch. -/
def markOpen (s : State) (m : Mma) (h : OpenMma → OpenMma) : State :=
  match (getPallet s m.pal).bind fun p => sGet p.table m.course with
  | none => s
  | some c => putCourse s m.pal m.course { c with openB := c.openB.map fun x => if x.key == m.key then h x else x }

/-- An mma leaves the unit: its tile's progress when it had started (R315), its batch, or its mark in the open batch. -/
def dropMma (s : State) (m : Mma) (bad : Bool) : State :=
  let s := if m.started then setTile s { getTile s m.core m.tile with act := false } else s
  let s := if m.trashed then spoilTile s m.core m.tile else s
  let s := withMmas s (s.en.mmas.filter fun x => x.key != m.key)
  match m.batch with
  | some h => withBatches s (s.en.batches.map fun b =>
      if b.handle == h then { b with mmas := b.mmas.filter fun k => k != m.key, bad := b.bad || bad } else b)
  | none => markOpen s m fun x => { x with bad := x.bad || bad }

/-- The bytes of an engine fault of the pipes (R316). A fault without R168's first four bytes has no walk there: level 0xFF, no reason
(log 99). -/
def mmaFault (m : Mma) (p : PipeFail) : FaultInfo :=
  let batch := (m.batch.map (·.toNat)).getD 0
  let walk := p.x.code = 0x09 ∨ p.x.code = 0x0A
  let info := (if walk then sliceB p.x.info 0 4 else [6, 0xFF, 0, 0]) ++ layout 20 [(0, 4, batch), (4, 1, m.tnum), (5, 1, p.opn), (6, 2, m.step), (8, 2, p.row), (12, 4, m.kk)]
  { p.x with info := info }

/-- A fault met by the pipes (R316): replayable, the mma waits; fatal, it and every later mma of its course end with error. -/
def mmaFails (s : State) (e : MmaEnv) (m : Mma) (p : PipeFail) : State :=
  let pl := getPallet s m.pal
  let x := mmaFault m p
  if x.code = 0x09 then setMma (engineSoft s e.la e.cx pl m.pc.toNat m.tid x) { m with paused := true }
  else
    let s := engineKeep s e.la e.cx pl m.pc.toNat m.tid x
    let late := s.en.mmas.filter fun y => y.pal == m.pal && y.course == m.course && m.key ≤ y.key
    let s := late.foldl (fun s y => dropMma s y true) s
    let s := match (getPallet s m.pal).bind fun p => sGet p.table m.course with
      | some c => putCourse s m.pal m.course { c with dead := true }
      | none => s
    settleBatches s m.pal m.course

/-- An mma may take its next step: nothing earlier on its tile, no paused mma of its course, and its pallet runs, not halted, with
the course's sheet in its slot (R312, R316, R317, R379, R454). -/
def mmaRuns (s : State) (m : Mma) : Bool :=
  !m.paused &&
  !(s.en.mmas.any fun x => x.key < m.key &&
    ((x.core == m.core && x.tile == m.tile) || (x.paused && x.pal == m.pal && x.course == m.course))) &&
  ((getPallet s m.pal).map fun p => p.st == .active && !p.dbg.halt).getD false &&
  !(s.cs.sheets.any fun sh => sh.pal == m.pal && sh.course == some m.course && sh.evicted) &&
  ((getCtx s m.cid).map fun c => c.stop.isNone && !outOf c m.core).getD false

/-- The start of an mma: ACT set, STEPS cleared, its batch begun, what the pipes acquire (R188, R315, R318). -/
def mmaStart (s : State) (e : MmaEnv) (m : Mma) : State :=
  if m.started then s
  else
    let s := setTile s { getTile s m.core m.tile with act := true, steps := 0 }
    let s := match m.batch with | some h => beginFuture s h | none => markOpen s m fun x => { x with begun := true }
    let s := setMma s { m with started := true }
    if m.stamp = 0 then s else takeStamp (clearFilter s e.w.agent) e.w.agent m.stamp

/-- MMA_ACCUMULATION_STEP (R312): one step of an mma, all its rows together. -/
def execMmaAccumulationStep (mma : Nat) (s : State) : Out :=
  match s.en.mmas.find? fun m => m.key == mma with
  | none => .next s
  | some m =>
    match pipeEnv s m.pal with
    | none => .next s
    | some e =>
      if !mmaRuns s m then .next s
      else
        let s := mmaStart s e m
        let m := { m with started := true }
        match pipeFetch s e m with
        | .error p => .next (mmaFails p.s e m p)
        | .ok (d, s) =>
          let t := getTile s m.core m.tile
          let rows := mmaRows s m d
          let s := setTile s { t with bytes := rows.foldl (fun b r => memWrite b (256 * r.1) r.2) t.bytes, steps := m.step + 1 }
          let m := { m with step := m.step + 1 }
          if m.step < mmaSteps m then .next (setMma s m)
          else .next (settleBatches (dropMma s m false) m.pal m.course)

end Sys2Proof.Machine
end

