-- ==== Sys2Proof/Machine/Tiles.lean ====
section
/-! DEFINITION. The tile group (R320 to R324) and the residue forms of tiles (R302). -/

namespace Sys2Proof.Machine

/-- A tile instruction over the lanes of the mask register `m` (R320). -/
def tileOp (o : OpForm) (f : Fld) (s : State) (m : BitVec 7) (body : List LV → State → CrsRes) : Out :=
  crs o f s (fun v => v.m m.toNat) body

def tagOfTile (v : LV) (s : State) (n : Nat) : BitVec 4 := (getTile s v.env.pl.core (v.tile n)).tag

/-- The tag that FMT f32 or f64 gives a tile. -/
def accTag (f : Fld) : BitVec 4 := if f.fmt = 1 then 1 else 2

/-- Runs a body for a course whose mask names lanes. -/
def withLead (vs : List LV) (s : State) (body : LV → CrsRes) : CrsRes :=
  match vs with
  | [] => .ok s []
  | v :: _ => body v

/-! ## Memory forms (R321) -/

/-- The row accesses of a memory form, as the owners' lanes make them: at core scope. -/
def rowView (v : LV) : LV := { v with f := { v.f with scope := 1, lit := 0 } }

/-- The address of row r: base, and stride in field B where the form has one. -/
def rowAddr (v : LV) (strided : Bool) (r : Nat) : Nat :=
  let base := v.gs 1 v.f.a.toNat (if basePair v.f.spc then 2 else 1)
  base + (if strided then r * (v.g 2 v.f.b.toNat).toNat else 0)

/-- The first misaligned base or stride. -/
def rowMisaligned (v : LV) (strided : Bool) : Option FaultInfo :=
  let base := v.gs 1 v.f.a.toNat (if basePair v.f.spc then 2 else 1)
  let st := (v.g 2 v.f.b.toNat).toNat
  if base % 16 ≠ 0 then some (faultOf 0x08 base [])
  else if strided && st % 16 != 0 then some (faultOf 0x08 st [])
  else none

/-- A checked row. -/
structure RowAt where
  r  : Nat
  v  : LV
  a  : Nat
  p  : Place

/-- What the checks of all rows answer. -/
inductive RowsRes where
  | ok (rows : List RowAt) (s : State)
  | fault (x : FaultInfo)
  | wait (s : State)

/-- Every row is checked before anything moves (R203, R321). -/
def checkRows (k : AccKind) (strided : Bool) (n : Nat) (vs : List LV) (s : State) : RowsRes :=
  let st := stripsOf vs
  match st.findSome? fun x => rowMisaligned x.2 strided with
  | some x => .fault x
  | none =>
    st.foldl (fun acc x =>
      match acc with
      | .ok rows s =>
        let v := rowView x.2
        let a := rowAddr v strided x.1
        match v.check s k a n true with
        | .error e => .fault e
        | .ok (p, s) =>
          match v.gate s v.f.spc.toNat a n with
          | .error s => .wait s
          | .ok s => .ok (rows ++ [⟨x.1, v, a, p⟩]) s
      | r => r) (.ok [] s)

/-- Loads all rows: row numbers with their bytes. -/
def loadRows (n : Nat) (rows : List RowAt) (s : State) : Except (State × FaultInfo) (List (Nat × List Byte) × State) :=
  rows.foldl (fun acc x =>
    match acc with
    | .error e => .error e
    | .ok (l, s) => (x.v.load s x.p n false false).map fun r => (l ++ [(x.r, r.1)], r.2)) (.ok ([], s))

/-- Stores all rows. -/
def storeRows (rows : List RowAt) (bytes : Nat → List Byte) (s : State) : Except (State × FaultInfo) State :=
  rows.foldl (fun acc x =>
    match acc with
    | .error e => .error e
    | .ok s => x.v.store s x.p (bytes x.r) false) (.ok s)

/-- Runs a body on the checked rows; a fault is raised in every lane of the mask. -/
def onRows (k : AccKind) (strided : Bool) (n : Nat) (vs : List LV) (s : State) (body : List RowAt → State → CrsRes) : CrsRes :=
  match checkRows k strided n vs s with
  | .fault x => faultEvery s vs fun _ => x
  | .wait s => .wait s .board
  | .ok rows s => body rows s

/-! ## tzero, tld, tst, trow (R322) -/

def execTzero (f : Fld) (s : State) : Out :=
  tileOp formTzero f s f.c fun vs s => withLead vs s fun v =>
    crsOnce vs (writeRows s v.env.pl.core (v.tile f.d.toNat) (accTag f) ((stripsOf vs).map fun x => (x.1, List.replicate 256 0)))

def execTld (f : Fld) (s : State) : Out :=
  tileOp formTld f s f.c fun vs s => withLead vs s fun v =>
    onRows accLoad true 256 vs s fun rows s =>
      match loadRows 256 rows s with
      | .error (s, x) => faultEvery s vs fun _ => x
      | .ok (l, s) => crsOnce vs (writeRows s v.env.pl.core (v.tile f.d.toNat) (accTag f) l)

/-- Bytes of a row by tag (R305, R322). -/
def tagRow (tag : BitVec 4) : Option Nat :=
  match tag.toNat with
  | 1 => some 256 | 2 => some 256 | 3 => some 128 | 4 => some 128 | 5 => some 64 | 6 => some 64
  | 10 => some 68 | 11 => some 52 | 12 => some 36 | _ => none

/-- tst. A tag that no tile shape has, which only the debug window can set, is turned away like the tag none. -/
def execTst (f : Fld) (s : State) : Out :=
  tileOp formTst f s f.c fun vs s => withLead vs s fun v =>
    match tagRow (tagOfTile v s f.d.toNat) with
    | none => faultEvery s vs fun _ => formatFault 0xFF (tagOfTile v s f.d.toNat) 0
    | some n =>
      onRows accStore true n vs s fun rows s =>
        match storeRows rows (fun r => tileRow s v.env.pl.core (v.tile f.d.toNat) r n) s with
        | .error (s, x) => faultEvery s vs fun _ => x
        | .ok s => crsOnce vs s

/-- The registers that trow gives a lane. -/
def trowLane (f : Fld) (v : LV) (s : State) : LaneRes :=
  let n := f.md.toNat + 1
  let tile := v.tile f.a.toNat
  let tag := tagOfTile v s f.a.toNat
  let c := (v.g 2 f.b.toNat).toNat
  let row := tileRow s v.env.pl.core tile (v.lane % 32) 256
  let regs := fun (t : BitVec 4) (o : Nat) => (List.range n).map fun j => Wr.f (f.d.toNat + j) (BitVec.ofNat 64 (fieldB row (o + 8 * j) 8)) t
  if tag = 2 then
    if c % 2 ≠ 0 ∨ 64 < c + 2 * n then .fault s v.reservedX else .ok s (regs 14 (4 * c))
  else if tag = 1 then
    if 32 < c + n then .fault s v.reservedX else .ok s (regs 1 (8 * c))
  else .fault s (formatFault 0xFE tag 1)

def execTrow (f : Fld) (s : State) : Out := tileOp formTrow f s f.c (crsLanes (trowLane f))

/-! ## tcvt (R323) -/

/-- A converted row: its bytes, flags, and the residue positions it leaves. -/
structure RowCvt where
  bytes : List Byte
  exc   : Exc
  pos   : List Nat
  deriving DecidableEq, Repr

/-- Residue positions of a row of a tile; unpredictable while the tile is busy. -/
def rowPositions (s : State) (core tile r : Nat) : List Nat :=
  if tileBusy s core tile then (List.range 64).map fun c => ofLe (freeBytes s (2 ^ 20 + 64 * (32 * tile + r) + c) 4)
  else (List.range 64).map fun c => (sGetD (getTile s core tile).resid (64 * r + c) 0).toNat

/-- Converts a row of 64 f32 elements. -/
def cvtRow (f : Fld) (fz : Bool) (row : List Byte) (pos : List Nat) : RowCvt :=
  let xs := (List.range 64).map fun c => ff32.read fz (fieldB row (4 * c) 4)
  let ef := f.rnd == 5
  let mode := if ef then 0 else f.rnd.toNat
  if isDx f.fmt then
    let half := fun (h : Nat) => packBlock f.fmt.toNat (gapOf f) mode (sliceFV xs h) (if ef then sliceN pos h else [])
    let a := half 0
    let b := half 1
    let n := (dxOf f.fmt.toNat).len
    ⟨leBytes n a.bytes ++ leBytes n b.bytes ++ leBytes 4 (a.s0 + 256 * a.s1 + 65536 * b.s0 + 16777216 * b.s1),
      excAll a.excs ||| excAll b.excs, a.pos ++ b.pos⟩
  else
    let F := ffOf f.fmt.toNat
    let r := xs.zipIdx.map fun x =>
      if ef then efStep F fz false x.1 (nthD pos x.2 0)
      else let y := F.finish mode fz false x.1.toXR; (y.1, 0, y.2)
    ⟨r.flatMap fun x => leBytes (F.bits / 8) x.1, excAll (r.map fun x => x.2.2), if ef then r.map fun x => x.2.1 else []⟩
where
  sliceFV (l : List FV) (h : Nat) : List FV := (l.drop (32 * h)).take 32
  sliceN (l : List Nat) (h : Nat) : List Nat := (l.drop (32 * h)).take 32

/-- Writes residue positions of a row. -/
def putPositions (s : State) (core tile r : Nat) (pos : List Nat) : State :=
  setTile s (pos.zipIdx.foldl (fun t x => residPut t (64 * r + x.2) (BitVec.ofNat 32 x.1)) (getTile s core tile))

/-- The flags of a tile operation go to every lane of the mask; an enabled one faults there with nothing written (R323), but for one
of the unpredictable values of a busy tile, which raise no fault (R314). -/
def tileFlags (vs : List LV) (s : State) (busy : Bool) (exc : Exc) (body : State → CrsRes) : CrsRes :=
  match vs with
  | [] => .ok s []
  | v :: _ =>
    let s := if exc = 0 then s else vs.foldl (fun s v => v.toThreads s (addFpf exc)) s
    if exc &&& trapMask v.env.la ≠ 0 ∧ !busy then faultEvery s vs fun v => fpFault (trapMask v.env.la) [exc] 0
    else body s

/-- The source rows of a tcvt, converted. -/
def cvtRows (f : Fld) (vs : List LV) (s : State) (core tile : Nat) : List (Nat × RowCvt) :=
  (stripsOf vs).map fun x =>
    (x.1, cvtRow f x.2.fz (tileRow s core tile x.1 256) (if f.rnd = 5 then rowPositions s core tile x.1 else []))

def rowCvt (l : List (Nat × RowCvt)) (r : Nat) : List Byte := ((l.find? fun x => x.1 == r).map fun x => x.2.bytes).getD []

/-- Bytes of a narrow row. -/
def cvtLen (fmt : BitVec 4) : Nat := if isDx fmt then 2 * (dxOf fmt.toNat).len + 4 else 64 * ((ffOf fmt.toNat).bits / 8)

def keepPositions (s : State) (core tile : Nat) (l : List (Nat × RowCvt)) : State :=
  l.foldl (fun s x => putPositions s core tile x.1 x.2.pos) s

def tcvtBody (f : Fld) (vs : List LV) (s : State) : CrsRes :=
  withLead vs s fun v =>
    let mem := f.md.getLsbD 4
    let src := if mem then f.d.toNat else f.a.toNat
    let core := v.env.pl.core
    let tile := v.tile src
    if tagOfTile v s src ≠ 2 then faultEvery s vs fun _ => formatFault 2 (tagOfTile v s src) (if mem then 0 else 1)
    else
      let rows := cvtRows f vs s core tile
      let exc := excAll (rows.map fun x => x.2.exc)
      let busy := tileBusy s core tile
      if mem then
        onRows accStore true (cvtLen f.fmt) vs s fun at' s =>
          tileFlags vs s busy exc fun s =>
            match storeRows at' (rowCvt rows) s with
            | .error (s, x) => faultEvery s vs fun _ => x
            | .ok s => crsOnce vs (keepPositions s core tile rows)
      else
        tileFlags vs s busy exc fun s =>
          crsOnce vs (writeRows (keepPositions s core tile rows) core (v.tile f.d.toNat) (fmtTag f.fmt)
            (rows.map fun x => (x.1, x.2.bytes)))

def execTcvt (f : Fld) (s : State) : Out := tileOp formTcvt f s (if f.md.getLsbD 4 then f.c else f.b) (tcvtBody f)

/-! ## tscale (R324) -/

/-- A row times a factor for each column. -/
def scaleRow (F : FF) (fz : Bool) (row : List Byte) (k : Nat → Nat) : List Byte × Exc :=
  let z := F.bits / 8
  let r := (List.range (256 / z)).map fun c => F.finish 0 fz false (mulFV (F.read fz (fieldB row (c * z) z)) (F.read fz (k c)))
  (r.flatMap fun x => leBytes z x.1, excAll (r.map (·.2)))

def tscaleBody (f : Fld) (vs : List LV) (s : State) : CrsRes :=
  withLead vs s fun v =>
    let core := v.env.pl.core
    let tile := v.tile f.d.toNat
    let tag := tagOfTile v s f.d.toNat
    let F := if tag = 1 then ff64 else ff32
    let z := F.bits / 8
    let fin := fun (s : State) (l : List (Nat × List Byte × Exc)) =>
      tileFlags vs s (tileBusy s core tile) (excAll (l.map fun x => x.2.2)) fun s =>
        crsOnce vs (writeRows s core tile tag (l.map fun x => (x.1, x.2.1)))
    if tag ≠ 1 ∧ tag ≠ 2 then faultEvery s vs fun _ => formatFault 0xFE tag 0
    else if f.md = 1 then
      onRows accLoad false 256 vs s fun rows s =>
        match loadRows 256 rows s with
        | .error (s, x) => faultEvery s vs fun _ => x
        | .ok (l, s) => fin s (l.map fun x => (x.1, scaleRow F v.fz (tileRow s core tile x.1 256) fun c => fieldB x.2 (c * z) z))
    else
      let st := stripsOf vs
      match st.find? fun x => (x.2.fr 2 f.b.toNat).2 != tag with
      | some x => faultEvery s (vs.filter fun w => w.lane % 32 == x.1) fun _ => formatFault tag.toNat (x.2.fr 2 f.b.toNat).2 2
      | none =>
        fin s (st.map fun x => (x.1, scaleRow F v.fz (tileRow s core tile x.1 256) fun _ => (x.2.fr 2 f.b.toNat).1.toNat % 2 ^ F.bits))

def execTscale (f : Fld) (s : State) : Out := tileOp formTscale f s f.c (tscaleBody f)

/-! ## Residue tiles (R302) -/

def execResclrTile (f : Fld) (s : State) : Out :=
  tileOp formResclrTile f s f.c fun vs s => withLead vs s fun v =>
    crsOnce vs ((stripsOf vs).foldl (fun s x => putPositions s v.env.pl.core (v.tile f.d.toNat) x.1 (List.replicate 64 0)) s)

/-- The column that a strip names, or the fault of one that is odd or out of range. -/
def residColumn (v : LV) (s : State) (tile : Nat) : Option Nat :=
  let c := (v.g 2 v.f.b.toNat).toNat
  let cols := if tagOfTile v s tile = 1 then 32 else 64
  if c % 2 = 0 ∧ c < cols then some c else none

/-- Lanes of the strips whose column is refused. -/
def residFaults (vs : List LV) (s : State) (tile : Nat) : List (Nat × FaultInfo) :=
  let bad := (stripsOf vs).filter fun x => (residColumn x.2 s tile).isNone
  (vs.filter fun v => bad.any fun x => x.1 == v.lane % 32).map fun v => (v.lane, v.reservedX)

def execResgetTile (f : Fld) (s : State) : Out :=
  tileOp formResgetTile f s f.c fun vs s =>
    match residFaults vs s f.a.toNat with
    | x :: r => .fault s [] (x :: r)
    | [] =>
      .ok s (vs.map fun v =>
        let lead := ((stripsOf vs).find? fun x => x.1 == v.lane % 32).map (·.2)
        let c := (lead.bind fun l => residColumn l s f.a.toNat).getD 0
        let t := getTile s v.env.pl.core (v.tile f.a.toNat)
        let p := fun (i : Nat) => sGetD t.resid (64 * (v.lane % 32) + i) 0
        (v.lane, [.f f.d.toNat (p (c + 1) ++ p c) 14]))

def execRessetTile (f : Fld) (s : State) : Out :=
  tileOp formRessetTile f s f.c fun vs s =>
    match vs.find? fun v => (stripsOf vs).any (fun x => x.2.lane == v.lane) && (v.fr 1 f.a.toNat).2 != 14 with
    | some v => faultEvery s (vs.filter fun w => w.lane % 32 == v.lane % 32) fun _ => formatFault 14 (v.fr 1 f.a.toNat).2 1
    | none =>
      match residFaults vs s f.d.toNat with
      | x :: r => .fault s [] (x :: r)
      | [] =>
        crsOnce vs ((stripsOf vs).foldl (fun s x =>
          let v := x.2
          let c := (residColumn v s f.d.toNat).getD 0
          let y := (v.fr 1 f.a.toNat).1
          let t := getTile s v.env.pl.core (v.tile f.d.toNat)
          setTile s (residPut (residPut t (64 * x.1 + c) (y.setWidth 32)) (64 * x.1 + c + 1) (y.extractLsb' 32 32))) s)

end Sys2Proof.Machine
end

