-- ==== Sys2Proof/Machine/Xkw.lean ====
section
/-! DEFINITION. The firmware cores' extension (R427). A command core's memory is the firmware memory; a fault is a synchronous
exception that leaves rd unchanged. -/

namespace Sys2Proof.Machine

def fwCore (s : State) (core : Nat) : FwCore := nthD s.mg.fw core FwCore.zero
def setFw (s : State) (core : Nat) (c : FwCore) : State := { s with mg := { s.mg with fw := s.mg.fw.set core c } }

/-- Register r of a command core; x0 reads zero. -/
def fwReg (s : State) (core : Nat) (r : BitVec 5) : Dword := if r = 0 then 0 else nthD (fwCore s core).x r.toNat 0

/-- rd := v, unless rd is x0, and the core goes on after the instruction. -/
def fwDone (s : State) (core : Nat) (rd : BitVec 5) (v : Dword) : State :=
  let c := fwCore s core
  setFw s core { c with x := if rd = 0 then c.x else c.x.set rd.toNat v, pc := c.pc + 4, wait := false }

/-- The queues that a command core serves. -/
def servesQueue (s : State) (core q : Nat) : Bool :=
  q < 2048 && match sGet s.mg.fwq core with
    | some l => l.contains q
    | none => q % 16 == core

/-- qfetch: one read of R411 each time it executes; it stays at its place until the packet is accepted or its reads are used up. -/
def execQfetch (x : XFld) (s : State) : Out :=
  let core := s.iss.fw
  let n := (fwReg s core x.rs1).toNat
  let a := (fwReg s core x.rs2).toNat
  match if servesQueue s core n && a % 64 == 0 then getQueue s n else none with
  | none => .next (fwTrap s core 24)
  | some q =>
    let s := passNs s (nextRead s n)
    match lookPacket s q with
    | .idle => .next (fwDone s core x.rd 1)
    | .noRing => .next (fwTrap (fetchOnce s n) core 24)
    | .valid b =>
      let s := { s with mg := { s.mg with fwMem := memWrite s.mg.fwMem a b } }
      .next (fwDone (fetchOnce s n) core x.rd (if pkDefined b then 0 else 3))
    | .failed _ =>
      let t := fetchOnce s n
      .next (if q.tries < 16 then t else fwDone t core x.rd 2)

/-- bfx. -/
def execBfx (x : XFld) (s : State) : Out :=
  let core := s.iss.fw
  let v := fwReg s core x.rs1
  let c := (fwReg s core x.rs2).toNat
  let pos := bitsN c 0 6
  let len := bitsN c 8 6
  if len = 0 ∨ 64 < pos + len then .next (fwTrap s core 25)
  else .next (fwDone s core x.rd (BitVec.ofNat 64 (bitsN v.toNat pos len)))

/-- swait: the core stays at it while the u64 equals rs2. -/
def execSwait (x : XFld) (s : State) : Out :=
  let core := s.iss.fw
  let a := (fwReg s core x.rs1).toNat
  if a % 8 ≠ 0 then .next (fwTrap s core 26)
  else
    let v : Dword := BitVec.ofNat 64 (ofLe (memRead s.mg.fwMem a 8))
    if v = fwReg s core x.rs2 then .next (setFw s core { fwCore s core with wait := true })
    else .next (fwDone s core x.rd v)

/-- What a submission that is neither admitted nor waiting was refused with; a stopped context has no refusal code. -/
def refusalOf (s : State) (x : Submit) : Option Nat :=
  if wasCancelled s x then some 12
  else match getCtx s x.cid with
    | none => some 13
    | some cx =>
      if cx.stop.isSome then none
      else match admitCheck s cx (draftLaunch x cx) x.pair with
        | .error c => some c
        | .ok _ => none

/-- The submission of a launch unit in firmware memory for the queue's next packet to start. -/
def dispSubmit (s : State) (q : Queue) (a key : Nat) : Submit :=
  let unit := memRead s.mg.fwMem a 512
  let pair := fieldB unit 2 1 == 2
  { key := key
    cid := q.cid
    addr := BitVec.ofNat 64 a
    pair := pair
    queue := if q.strt < q.acc then some (q.num, q.strt) else none
    fut := if q.strt < q.acc then (sGet q.futs q.strt).map (·.1) else none
    stamp := if q.strt < q.acc then ((sGet q.futs q.strt).map (·.2)).getD 0 else 0
    readable := true
    unit := if pair then unit else unit.take 256 }

/-- disp: admission decides at once; while it must wait, the core stays at the instruction. -/
def execDisp (x : XFld) (s : State) : Out :=
  let core := s.iss.fw
  let n := (fwReg s core x.rs2).toNat
  let a := (fwReg s core x.rs1).toNat
  match if servesQueue s core n && a % 64 == 0 then getQueue s n else none with
  | none => .next (fwTrap s core 27)
  | some q =>
    let k := freshKey s
    let sub := dispSubmit s q a k.1
    let t := setQueue k.2 (if q.strt < q.acc then { q with strt := q.strt + 1 } else q)
    let t := admitSub (withSubs t (t.qs.subs ++ [sub])) sub
    match getLaunch t k.1 with
    | some la => .next (fwDone t core x.rd (la.ident.setWidth 64))
    | none =>
      if t.qs.subs.any fun y => y.key == k.1 then .next s
      else
        let code := (refusalOf s sub).map fun c => BitVec.ofNat 64 (2 ^ 63 + c)
        .next (fwDone t core x.rd (code.getD (Config.dword s.tick 0x427)))

end Sys2Proof.Machine
end

