-- ==== Sys2Proof/Machine/Auto.lean ====
section
/-! DEFINITION. The device's own choice of what moves next when the agenda is empty, and what follows a step at once. Every choice
made here is one that the spec leaves to the device; the agenda makes any other (log 6). -/

namespace Sys2Proof.Machine

/-- The state of a meaning's answer. -/
def stateOf (s : State) : Out → State
  | .next t => t
  | .fault _ => s
  | .refused _ => s

/-- The first of some moves that changes anything. -/
def firstChange (s : State) : List (State → State) → Option State
  | [] => none
  | f :: r => let t := f s; if t = s then firstChange s r else some t

/-- Packets of a queue that may start, by kind. -/
def startAny (q x : Nat) (s : State) : State :=
  [execLaunchPacket, execPairLaunchPacket, execCopyPacket, execSignalPacket, execWaitPacket, execDependencyPacket,
    execTimestampPacket, execMarkerPacket].foldl (fun t f => if t = s then stateOf s (f q x s) else t) s

/-- What one queue can do: fetch, start, notice, end. -/
def queueMoves (q : Queue) : List (State → State) :=
  let xs := distinctN (q.pkts.map (·.1))
  [fun s => stateOf s (execPacketFetch q.num s), fun s => stateOf s (execPacketRefetchTimer q.num s)] ++ xs.map (startAny q.num) ++
  xs.map (fun x s => stateOf s (execWaitPacketConditionMet q.num x s)) ++
  (q.ended.map (·.1)).map (fun x s => packetEnds s q.num x)

/-- Forming sheets and bringing back sheets and pallets. -/
def formMoves (s : State) : List (State → State) :=
  s.cs.pallets.flatMap fun p =>
    let pcs := (s.cs.store.filter fun e => e.pal == p.key && e.sleep == .ready).foldl
      (fun l e => if l.contains e.pc then l else l ++ [e.pc]) ([] : List Dword)
    (fun s => stateOf s (execEvictedSheetRestore p.key s)) :: pcs.map (fun pc s => formAt s p.key pc) ++
    [fun s => stateOf s (execSpawnWaitLimit p.key s)]

/-- Swaps for pallets that wait for their core: beside the active ones, or in place of one. -/
def swapMoves (s : State) : List (State → State) :=
  (bySince (s.cs.pallets.filter (waitsForCore s))).flatMap fun q =>
    (fun s => swapPallets s q.key q.key) ::
    ((bySince (s.cs.pallets.filter fun p => p.core == q.core && p.st == .active)).map fun p s => swapPallets s p.key q.key)

/-- Copies, matrix steps, partials and matchers. -/
def engineMoves (s : State) : List (State → State) :=
  (s.en.copies.map fun c s => stateOf s (execCopyLanding c.key ((c.left.head?.map (·.1)).getD 0) 1024 s)) ++
  (s.en.mmas.map fun m s => stateOf s (execMmaAccumulationStep m.key s)) ++
  ((List.range s.en.parts.length).map fun k s => partialArrives s k) ++
  (s.cs.pallets.map fun p s => matcherWalk s p.key)

/-- Requests, acknowledgements and markers of the fabric. -/
def fabricMoves (s : State) : List (State → State) :=
  s.fb.reqs.flatMap fun r =>
    [fun s => stateOf s (execRemoteRequestArrival (.own r.key) s), fun s => stateOf s (execRemoteAckArrival r.key s),
      fun s => stateOf s (execFenceMarkerArrival r.key s)]

/-- Writes and soft interrupts that reach their homes. -/
def homeMoves (s : State) : List (State → State) :=
  (if s.ms.posted.isEmpty then [] else [fun s => stateOf s (execStorePerformedAtHome 0 s)]) ++
  (if s.qs.swis.isEmpty then [] else [fun s => stateOf s (execSwiWakeOr 0 s)])

/-- Admissions and ends of launches; switched-out contexts come back; watchdogs and mwait limits. -/
def launchMoves (s : State) : List (State → State) :=
  (s.qs.subs.map fun x s => admitSub s x) ++
  (s.qs.launches.map fun la s => endLaunch s la) ++
  (s.mg.ctxs.flatMap fun c => (fun s => stateOf s (execWatchdogExpiry c.cid s)) ::
    c.out.map fun o s => stateOf s (execContextRestore o.core c.cid s)) ++
  (s.cs.store.map fun e s => stateOf s (execMwaitLimitExpiry e.thr.uid s)) ++
  (s.cs.sheets.filterMap fun sh => sh.lanes.head?.map fun l s => stateOf s (execMwaitLimitExpiry l.2.uid s))

/-- Everything that the device has to do beside issuing. -/
def allMoves (s : State) : List (State → State) :=
  (if s.mg.bringUp < 5 then [bringUpStep] else []) ++ formMoves s ++ homeMoves s ++ fabricMoves s ++ engineMoves s ++ (s.qs.queues.flatMap queueMoves) ++ launchMoves s ++ swapMoves s

/-- Everything that the device has to do beside issuing, each move first in its turn, so that none waits for ever (R461). -/
def deviceMoves (s : State) : List (State → State) :=
  let l := allMoves s
  let n := s.turn / 2 % max 1 l.length
  l.drop n ++ l.take n

/-- Cycles until the next limit that is known to the model; 1 when there is none. -/
def idleSpan (s : State) : Nat :=
  let limits := (s.cs.store.filterMap fun e => match e.sleep with
      | .mwait _ lim _ => if lim = 0 then none else some (e.since + lim.toNat)
      | .ready => some (e.since + 4096)
      | _ => none) ++
    (s.cs.sheets.filterMap fun sh => if sh.evicted then some (sh.lastIssue + 4096) else none) ++
    (s.cs.sheets.filterMap fun sh => (sheetMwait sh).bind fun x => if x.2 = 0 then none else some (sh.lastIssue + x.2.toNat)) ++
    (s.cs.sheets.filterMap fun sh => if mayIssue s sh then some sh.notBefore else none) ++
    (s.mg.ctxs.filterMap fun c => if dogRuns s c then some (s.cs.cyc + (dogLimit c - c.wdog)) else none)
  match limits.filter fun n => s.cs.cyc < n with
  | [] => 1
  | n :: r => r.foldl min n - s.cs.cyc

/-- Wakes, retries, counts and ends that follow a step. -/
def settle (old s : State) : State := settleAll old s

/-- What follows an instruction or an event at once (wakes: R36, R253). -/
def after (old : State) : Out → Out
  | .next s => .next (settle old s)
  | .fault r => .fault r
  | .refused r => .refused r

/-- The device's own next move, given what a sheet would do: sheets and the work beside issuing begin in turns, so that each comes to its
turn (R34, R461); when neither can do anything, cycles pass. Which kind comes first is the model's choice (log 87). -/
def autoMove (s : State) (issue : Unit → Option Out) : Out :=
  let other := fun (_ : Unit) => (firstChange s (deviceMoves s)).map fun t => after s (.next t)
  let idle := fun (_ : Unit) => after s (.next (idleCycles s (idleSpan s)))
  let first := if s.turn % 2 = 1 then other else issue
  let second := if s.turn % 2 = 1 then issue else other
  match first () with
  | some o => o
  | none => match second () with
    | some o => o
    | none => idle ()

end Sys2Proof.Machine
end

