-- ==== Sys2Proof/Machine/Bench.lean ====
section
/-! DEFINITION. Placing an instruction where the next step fetches it: at the program counter of the sheet that would issue, or,
when none would, on a bench: one context with one identity-mapped page, one launch, one pallet, one sheet with one thread. The
bench stands for what a host does before a program runs (log 6). -/

namespace Sys2Proof.Machine

/-- Bytes of words, in memory order (R4). -/
def wordBytes (ws : List Word) : List Byte := ws.flatMap fun w => leBytes 4 w.toNat

/-- A launch record of a bench: depth 1, one thread, 128 g and 64 f registers, one pallet. -/
def benchRec : LRec where
  ver := 0x0100
  kind := 0
  lfl := 0
  prog := 0
  depth := 1
  shape := 1
  thr := 1
  gcnt := 128
  fcnt := 64
  tiles := 0
  tray := 4096
  pals := 1
  entry := 0x10000
  handler := 0
  idx := [1, 1, 1]
  step := [1, 1, 1]
  fpt := 0
  prio := 3
  param := 0x30000
  seed := 0
  negb := 0
  negs := 0
  tqb := 0
  tqn := 0
  zero := true

def benchThread (uid : Nat) : Thread :=
  ⟨uid, 0, List.replicate 128 0, [], List.replicate 64 0, List.replicate 64 0, List.replicate 8 0, List.replicate 16 0,
   0, 0, none, 0, 0, [], none, none, false, []⟩

def benchSheet (key pal : Nat) (t : Thread) (pc : Dword) : Sheet :=
  ⟨key, pal, 0, pc, [(0, t)], [], 1, List.replicate 8 0, none, 0, [], 0, [], 0, 0, false, false, .none, [], [], false, none, false⟩

def DbgWords.admitted : DbgWords := ⟨false, false, false, false, none, 0, 0, 24, 0, 0, 0⟩

def benchPallet (key launch : Nat) : Pallet :=
  ⟨key, launch, 0, 0, 0, 0, .active, 0, [], [], [], [], [], 0, 0, .admitted, true, none, 0, 0, [], 0, 0, 0, false, false, 0, 0, [], [], 0, none, 0, 0⟩

def benchLaunch (key : Nat) (cid : Word) : Launch :=
  ⟨key, 0, cid, benchRec, none, 1, 0, false, false, false, none, none, 0, 0, false, [], none, 0, [], 0, none, []⟩

/-- The context of a bench: translation root 0x1000, trap queue of 8 records at 0x20000. -/
def benchCtx (cid : Word) : Ctx :=
  ⟨cid, 0, 0x1000, 0, 0, 0xFF, 32, 0x20000, 8, 0, 0, [(0, 0)], none, [0, 0, 0, 0, 0], 0, [], 0, [], []⟩

/-- Tables that map the first GiB to itself: read, write, fetch. -/
def benchTables (m : Mem) : Mem :=
  memWrite (memWrite m 0x1000 (leBytes 8 0x2001)) 0x2000 (leBytes 8 0xF)

/-- An identity that no context has. -/
def freshCid (s : State) : Word := BitVec.ofNat 32 (maxN (s.mg.ctxs.map fun c => c.cid.toNat) + 1)

/-- The bench with words at its sheet's program counter. -/
def withBench (s : State) (ws : List Word) : State :=
  let k := s.cs.fresh
  let cid := freshCid s
  { s with
    ms := { s.ms with mem := memWrite (benchTables s.ms.mem) 0x10000 (wordBytes ws), poison := [], keys := [], marks := [] }
    cs := { s.cs with
      fresh := k + 4
      pallets := s.cs.pallets ++ [benchPallet k (k + 1)]
      sheets := s.cs.sheets ++ [benchSheet (k + 2) k (benchThread (k + 3)) 0x10000] }
    qs := { s.qs with launches := s.qs.launches ++ [benchLaunch (k + 1) cid] }
    mg := { s.mg with ctxs := s.mg.ctxs ++ [benchCtx cid], off := false, recovery := false, bringUp := 5 }
    agenda := .issue (k + 2) :: s.agenda }

/-- Where a sheet's fetch of n bytes lies in physical memory. -/
def fetchPhys (s : State) (key n : Nat) : Option (List Phys) :=
  (envOf s key).bind fun e =>
    match translate s e.cx accFetch e.sh.pc.toNat n with
    | .ok (ps, _) => if ps.any fun p => (poisonCheck s p).isSome then none else some ps
    | .error _ => none

/-- Writes bytes over translated pieces. -/
def writePhys (m : Mem) (ps : List Phys) (bytes : List Byte) : Mem :=
  (ps.foldl (fun (r : Mem × List Byte) p => (memWrite r.1 p.pa (r.2.take p.len), r.2.drop p.len)) (m, bytes)).1

/-- The sheet that would issue next, when it is at the start of a run and its fetch succeeds. -/
def nextSheet (s : State) : Option (Sheet × List Phys) :=
  if s.mg.off then none
  else
    match bestOf s (s.cs.sheets.filter fun sh => issuesNext s sh) with
    | none => none
    | some sh => if (inRun s).isSome then none else (fetchPhys s sh.key 20).map fun ps => (sh, ps)

/-- The words of a Kwexis instruction placed where the next step fetches. -/
def placeWords (s : State) (ws : List Word) : State :=
  match nextSheet s with
  | some (sh, ps) =>
    { s with
      ms := { s.ms with mem := writePhys s.ms.mem ps (wordBytes ws), oldText := [], keys := [], marks := [] }
      agenda := .issue sh.key :: s.agenda }
  | none => withBench s ws

/-- A command core's word placed at command core 0's program counter. -/
def placeXkw (s : State) (w : Word) : State :=
  let c := nthD s.mg.fw 0 FwCore.zero
  { s with
    mg := { s.mg with
      off := false
      fw := s.mg.fw.set 0 { c with wait := false }
      fwMem := memWrite s.mg.fwMem c.pc.toNat (leBytes 4 w.toNat) }
    agenda := .fw 0 :: s.agenda }

end Sys2Proof.Machine
end

