-- ==== Sys2Proof/Machine/Atomic.lean ====
section
/-! DEFINITION. Fetch-operations (R204 to R207) and reductions (R208, R211). -/

namespace Sys2Proof.Machine

/-- A fetch-operation of XOP `op`: checks, its turn in its window or in a replayed negative, then the unit at its home (R206). -/
def fopBody (op : Nat) (v : LV) (s : State) : LaneRes :=
  let f := v.f
  let n := atmBytes f.atm
  let cnt := atmCnt f
  let a := v.addr (!f.ord)
  let b := if op = 9 ∨ op = 10 then 0 else v.gs 2 f.b.toNat cnt
  let d := if op = 8 then v.gs 0 f.d.toNat cnt else 0
  let fn := fun (old : Nat) => rmwValue op (f.md.getLsbD 4) f.fmt n old b d
  let go := fun (s : State) (p : Place) =>
    v.rmw s p n (f.md.getLsbD 0) (f.md.getLsbD 1) fn
  match v.check s accOther a n false with
  | .error x => .fault s x
  | .ok (p, s) =>
    match v.gate s f.spc.toNat a n with
    | .error s => .wait s .board
    | .ok s =>
      if f.ord then
        match v.sqTurn s p a (v.g 3 f.c.toNat) with
        | .fault s x => .fault s x
        | .wait s => .wait s .turn
        | .go s w =>
          match go s p with
          | .error (s, x) => .fault s x
          | .ok (old, s) => .ok (setWin s w { w with next := w.next + 1 }) (wrG f.d.toNat cnt old)
      else
        match v.turn s (unitKey s v.env a p) 0 with
        | .wait => .wait s .turn
        | .fault x => .fault s x
        | .go s _ =>
          match go s p with
          | .error (s, x) => .fault s x
          | .ok (old, s) => .ok s (wrG f.d.toNat cnt old)

def execAadd (f : Fld) (s : State) : Out := vec formAadd f s (fopBody 0)
def execAsub (f : Fld) (s : State) : Out := vec formAsub f s (fopBody 1)
def execAmin (f : Fld) (s : State) : Out := vec formAmin f s (fopBody 2)
def execAmax (f : Fld) (s : State) : Out := vec formAmax f s (fopBody 3)
def execAand (f : Fld) (s : State) : Out := vec formAand f s (fopBody 4)
def execAor (f : Fld) (s : State) : Out := vec formAor f s (fopBody 5)
def execAxor (f : Fld) (s : State) : Out := vec formAxor f s (fopBody 6)
def execAexch (f : Fld) (s : State) : Out := vec formAexch f s (fopBody 7)
def execAcas (f : Fld) (s : State) : Out := vec formAcas f s (fopBody 8)
def execAinc (f : Fld) (s : State) : Out := vec formAinc f s (fopBody 9)
def execAdec (f : Fld) (s : State) : Out := vec formAdec f s (fopBody 10)

/-- An ordered reduction joins its window's buffer and changes no memory (R211). -/
def sqAdd (op n b : Nat) (v : LV) (s : State) (p : Place) (a : Nat) : LaneRes :=
  let f := v.f
  match findWin s v.env.la.key (trayOf p) (regionAddr p a) with
  | none => .fault s (winFault a 1)
  | some w =>
    if 65536 ≤ w.buf.length then .fault s (winFault a 3)
    else
      let clk := (getAgent s (v.agent s)).c
      let r : Except (State × FaultInfo) (Option Nat × State) :=
        if f.md.getLsbD 1 then (v.release s f.scope.toNat).map fun x => (some x.1, x.2) else .ok (none, s)
      match r with
      | .error (s, x) => .fault s x
      | .ok (stamp, s) =>
        let x : SqItem := ⟨regionAddr p a, v.g 3 f.c.toNat, (v.agent s).id, s.en.sqNo, op, f.fmt, f.md.getLsbD 4,
          BitVec.ofNat 64 (b % 2 ^ (8 * n)), stamp, f.scope, clk⟩
        let s := { s with en := { s.en with sqNo := s.en.sqNo + 1 } }
        match findWin s v.env.la.key (trayOf p) (regionAddr p a) with
        | some w => .ok (setWin s w { w with buf := w.buf ++ [x] }) []
        | none => .ok s []

/-- A reduction of XOP `xop` (R208). -/
def redBody (xop : Nat) (v : LV) (s : State) : LaneRes :=
  let f := v.f
  let n := atmBytes f.atm
  let a := v.addr (!f.ord)
  let b := v.gs 2 f.b.toNat (atmCnt f)
  match v.check s accOther a n false with
  | .error x => .fault s x
  | .ok (p, s) =>
    match v.gate s f.spc.toNat a n with
    | .error s => .wait s .board
    | .ok s =>
      if f.ord then sqAdd (redOp xop) n b v s p a
      else
        let turn := if f.md.getLsbD 4 then v.turn s (unitKey s v.env a p) 0 else .go s none
        match turn with
        | .wait => .wait s .turn
        | .fault x => .fault s x
        | .go s _ =>
          match v.rmw s p n false (f.md.getLsbD 1) fun old => rmwValue (redOp xop) (f.md.getLsbD 4) f.fmt n old b 0 with
          | .error (s, x) => .fault s x
          | .ok (_, s) => .ok s []

def execRedadd (f : Fld) (s : State) : Out := vec formRedadd f s (redBody 0)
def execRedmin (f : Fld) (s : State) : Out := vec formRedmin f s (redBody 1)
def execRedmax (f : Fld) (s : State) : Out := vec formRedmax f s (redBody 2)
def execRedand (f : Fld) (s : State) : Out := vec formRedand f s (redBody 3)
def execRedor (f : Fld) (s : State) : Out := vec formRedor f s (redBody 4)
def execRedxor (f : Fld) (s : State) : Out := vec formRedxor f s (redBody 5)

end Sys2Proof.Machine
end

