-- ==== Sys2Proof/Machine/Debug.lean ====
section
/-! DEFINITION. The debug group (R453) and the debugger's events: halting, resuming, rolling back, exposures, samples (R454 to R460). -/

namespace Sys2Proof.Machine

/-- The dbgw address of dbgld and dbgst: A's pair and the literal offset. -/
def LV.dbgAddr (v : LV) : Nat := (v.gs 1 v.f.a.toNat 2 + v.off) % 2 ^ 64

def execDbgld (f : Fld) (s : State) : Out :=
  vec formDbgld f s fun v s =>
    let n := if f.w = 3 then 8 else 4
    match winReg s v.env.cx v.dbgAddr n none with
    | .value x => .ok s (wrG f.d.toNat (n / 4) (x % 2 ^ (8 * n)))
    | .moved s => .ok s []
    | .fault x => .fault s x
    | .rsv => .fault s v.windowRsv

def execDbgst (f : Fld) (s : State) : Out :=
  vec formDbgst f s fun v s =>
    let n := if f.w = 3 then 8 else 4
    match winReg s v.env.cx v.dbgAddr n (some (v.gs 2 f.b.toNat (n / 4))) with
    | .moved s => .ok s []
    | .value _ => .ok s []
    | .fault x => .fault s x
    | .rsv => .fault s v.windowRsv

/-- True when expo has its effect: its fields are as listed, the context is privileged, and lanes execute it, none of which has before. -/
def expoActs (f : Fld) (s : State) : Option Nat :=
  match envOf s s.iss.sheet with
  | none => none
  | some e =>
    let lanes := lanesActing s e (execFld formExpo f s.iss.run) (issueAt s e.sh) (awakeLanes e.sh)
    if (decodeCheck formExpo f (effFld f s.iss.run) s.iss).isNone && isPriv e && e.sh.done == 0 && !lanes.isEmpty then
      some e.pl.key
    else none

/-- expo: retires no count of its own, and ends one exposure of its pallet once every lane is past it (R456). -/
def execExpo (f : Fld) (s : State) : Out :=
  match vecWith false formExpo f s fun _ s => .ok s [] with
  | .next t => match expoActs f s with
    | some pal => .next (endExposure t pal)
    | none => .next t
  | o => o

/-! ## Events -/

/-- A write of PCTL attaches the debugger (R454). -/
def attach (s : State) (pal : Nat) : State := withDbg s pal fun d => d.attached none

/-- DEBUG_HALT: HALT is written 1 (R454). -/
def execDebugHalt (pal : Nat) (s : State) : Out := .next (haltPallet (attach s pal) pal)

/-- DEBUG_RESUME: HALT is written 0 (R454, R455). -/
def execDebugResume (pal : Nat) (s : State) : Out := .next (resumePallet (attach s pal) pal)

/-- DEBUG_ROLLBACK: ROLL is written 1; ignored when the conditions do not hold (R458). -/
def execDebugRollback (pal : Nat) (s : State) : Out :=
  match getPallet s pal with
  | some p => .next (if mayRoll p then startRollback (attach s pal) pal else attach s pal)
  | none => .next s

/-- ROLLBACK_TARGET_REACHED. -/
def execRollbackTargetReached (pal : Nat) (s : State) : Out :=
  match getPallet s pal with
  | some p => .next (if targetReached p then endRollback s pal else s)
  | none => .next s

/-- EXPOSURE_END: at the first issue boundary after the count has reached 2^EXPX (R456). -/
def execExposureEnd (pal : Nat) (s : State) : Out :=
  match getPallet s pal with
  | some p => .next (if exposureDue p then endExposure s pal else s)
  | none => .next s

/-- TRACE_SAMPLE: a sample record (R460); none while sampling is off. -/
def execTraceSample (pal : Nat) (s : State) : Out :=
  match getPallet s pal with
  | some p => .next (if p.dbg.trc.toNat % 32 = 0 then s else traceSample s p)
  | none => .next s

/-- REGISTER_WRITE: a write through the debug window to a control word of a pallet (R452, R454). -/
def execRegisterWrite (pal word : Nat) (value : Word) (s : State) : Out :=
  match getPallet s pal with
  | some p => .next (ctlWrite s p none word value.toNat)
  | none => .next s

end Sys2Proof.Machine
end

