-- ==== Sys2Proof/Machine/Futures.lean ====
section
/-! DEFINITION. The future group (R273 to R276). -/

namespace Sys2Proof.Machine

/-- The checks of causes 1 to 3 (R274), and the operation that a handle names. A kind's counter tells how old a handle is. -/
def LV.future (v : LV) (s : State) (h : Word) : Except FaultInfo Future :=
  let kind := handleKind h
  let core := v.env.pl.core
  if kind = 0 ∨ 5 < kind then .error (futFault 1 h)
  else
    match getFuture s h with
    | none => .error (futFault 2 h)
    | some u =>
      if futureCore h ≠ core ∨ u.pal ≠ v.env.pl.key then .error (futFault 2 h)
      else
        let next := sGetD s.cs.seqs (8 * core + kind) 0
        if 2 ^ 19 ≤ (next + 2 ^ 20 - 1 - futureSeq h) % 2 ^ 20 then .error (futFault 3 h) else .ok u

def LV.fHandle (v : LV) : Word := v.g 1 v.f.a.toNat

/-- Clears the mark of the handle's register. -/
def unmark (n : Nat) : Wr := .thr fun t => { t with gp := t.gp.filter fun i => i != n }

/-- What fwait and ftest write for an operation that has completed: T clean, U otherwise (R275). -/
def LV.futureEnd (v : LV) (s : State) (u : Future) : LaneRes :=
  if u.st = .cancelledPart then .fault s (futFault 4 u.handle)
  else .ok (v.acquire s 1 (anyMark u.stamp)) [.q v.f.d.toNat (if u.st = .clean then qT else qU), unmark v.f.a.toNat]

def execFwait (f : Fld) (s : State) : Out :=
  vec formFwait f s fun v s =>
    match v.future s v.fHandle with
    | .error x => .fault s x
    | .ok u => if u.st = .pending then .wait s (.future u.handle) else v.futureEnd s u

def execFtest (f : Fld) (s : State) : Out :=
  vec formFtest f s fun v s =>
    match v.future s v.fHandle with
    | .error x => .fault s x
    | .ok u => if u.st = .pending then .ok s [.q f.d.toNat qF] else v.futureEnd s u

/-- Stops an operation that has not begun (R276, R318, R353, R354, R423). A launch's packet is still accepted, and ends then. -/
def stopUnbegun (s : State) (h : Word) : State :=
  let s := withSubs s (s.qs.subs.filter fun x => !(x.fut == some h && x.queue.isNone))
  let s := withRelq s (s.en.relq.filter fun r => r.fut != h)
  match s.en.batches.find? fun b => b.handle == h with
  | none => completeFuture s h .cancelledWhole 0
  | some b =>
    let s := withMmas s (s.en.mmas.filter fun m => !b.mmas.contains m.key)
    let s := withBatches s (s.en.batches.filter fun x => x.handle != h)
    settleBatches (completeFuture s h .cancelledWhole 0) b.pal b.course

/-- fcancel of a pending operation: the result and the state. -/
def cancelOp (s : State) (u : Future) : BitVec 2 × State :=
  match s.en.copies.find? fun c => c.handle == u.handle with
  | some c =>
    match copyEnv s c with
    | some e => if u.begun then (qU, copyAbandon s e.w c .cancelledPart) else (qT, copyAbandon s e.w c .cancelledWhole)
    | none => (qF, s)
  | none => if u.begun then (qF, s) else (qT, stopUnbegun s u.handle)

def execFcancel (f : Fld) (s : State) : Out :=
  vec formFcancel f s fun v s =>
    match v.future s v.fHandle with
    | .error x => .fault s x
    | .ok u =>
      let r : BitVec 2 × State := match u.st with
        | .pending => cancelOp s u
        | .cancelledWhole => (qT, s)
        | .cancelledPart => (qU, s)
        | _ => (qF, s)
      .ok r.2 [.q f.d.toNat r.1, unmark f.a.toNat]

end Sys2Proof.Machine
end

