-- ==== Sys2Proof/Machine/Integer.lean ====
section
/-! DEFINITION. Integer singles and the integer group (R94 to R101). -/

namespace Sys2Proof.Machine

/-! ## Elements (R94) -/

/-- Element width of an integer format. -/
def intW (fmt : BitVec 4) : Nat := match fmt.toNat with | 0 => 32 | 1 => 32 | 2 => 64 | 3 => 64 | 4 => 16 | 5 => 16 | _ => 8

/-- Number of elements. -/
def intN (fmt : BitVec 4) : Nat := match fmt.toNat with | 4 => 2 | 5 => 2 | 6 => 4 | 7 => 4 | _ => 1

/-- An s format. -/
def intSigned (fmt : BitVec 4) : Bool := !fmt.getLsbD 0

/-- The value of a w-bit element. -/
def elemVal (sg : Bool) (w x : Nat) : Int := if sg then signedN w x else (x % 2 ^ w : Nat)

/-- An exact result as a w-bit element: wrapped, or clamped to the format's range with sat. -/
def elemOut (sg sat : Bool) (w : Nat) (r : Int) : Nat :=
  if sat then
    let lo : Int := if sg then -(2 ^ (w - 1) : Nat) else 0
    let hi : Int := if sg then (2 ^ (w - 1) : Nat) - 1 else (2 ^ w : Nat) - 1
    wrapN w (if r < lo then lo else if hi < r then hi else r)
  else wrapN w r

/-- The destination of an operation whose element i is `r i`. -/
def LV.elems (v : LV) (r : Nat → Nat) : List Wr :=
  let w := intW v.f.fmt
  wrG v.f.d.toNat (intCnt v.f) (sumN ((List.range (intN v.f.fmt)).map fun i => r i % 2 ^ w * 2 ^ (w * i)))

/-- Element i of an operand, as bits. -/
def LV.bitsAt (v : LV) (fld i : Nat) : Nat := bitsN (v.int fld (intCnt v.f)) (intW v.f.fmt * i) (intW v.f.fmt)

/-- Element i of an operand, as a value. -/
def LV.valAt (v : LV) (fld i : Nat) : Int := elemVal (intSigned v.f.fmt) (intW v.f.fmt) (v.bitsAt fld i)

/-- An arithmetic operation: exact result per element, wrapped or clamped. -/
def arith (o : OpForm) (f : Fld) (s : State) (r : LV → Nat → Int) : Out :=
  pureOp o f s fun v => v.elems fun i => elemOut (intSigned f.fmt) (f.md.getLsbD 0) (intW f.fmt) (r v i)

/-- A bitwise operation or a shift: result bits per element. -/
def bitwise (o : OpForm) (f : Fld) (s : State) (r : LV → Nat → Nat) : Out := pureOp o f s fun v => v.elems (r v)

/-- A shift count: element i of b, or the low word of its pair (R95). -/
def LV.count (v : LV) (i : Nat) : Nat := v.bitsAt 2 i % 2 ^ 32

/-! ## Singles (R95) -/

def execIadd (f : Fld) (s : State) : Out := arith formIadd f s fun v i => v.valAt 1 i + v.valAt 2 i
def execIsub (f : Fld) (s : State) : Out := arith formIsub f s fun v i => v.valAt 1 i - v.valAt 2 i
def execImul (f : Fld) (s : State) : Out := arith formImul f s fun v i => v.valAt 1 i * v.valAt 2 i
def execIand (f : Fld) (s : State) : Out := bitwise formIand f s fun v i => v.bitsAt 1 i &&& v.bitsAt 2 i
def execIor (f : Fld) (s : State) : Out := bitwise formIor f s fun v i => v.bitsAt 1 i ||| v.bitsAt 2 i
def execIxor (f : Fld) (s : State) : Out := bitwise formIxor f s fun v i => v.bitsAt 1 i ^^^ v.bitsAt 2 i

def shlN (w a n : Nat) : Nat := if n ≥ w then 0 else a * 2 ^ n % 2 ^ w
def shrN (w a n : Nat) : Nat := if n ≥ w then 0 else a % 2 ^ w / 2 ^ n
def sarN (w a n : Nat) : Nat := wrapN w (signedN w a / (2 ^ min n w : Nat))

def execShl (f : Fld) (s : State) : Out := bitwise formShl f s fun v i => shlN (intW f.fmt) (v.bitsAt 1 i) (v.count i)
def execShr (f : Fld) (s : State) : Out := bitwise formShr f s fun v i => shrN (intW f.fmt) (v.bitsAt 1 i) (v.count i)
def execSar (f : Fld) (s : State) : Out := bitwise formSar f s fun v i => sarN (intW f.fmt) (v.bitsAt 1 i) (v.count i)

/-- mov of 32 bits copies the register's pending mark with its value (R273). -/
def movMark (v : LV) : List Wr :=
  if intCnt v.f = 1 ∧ !litIs v.f 1 ∧ v.t.gp.contains v.f.a.toNat then
    [.thr fun t => if t.gp.contains v.f.d.toNat then t else { t with gp := v.f.d.toNat :: t.gp }]
  else []

def execMov (f : Fld) (s : State) : Out := pureOp formMov f s fun v => v.elems (v.bitsAt 1) ++ movMark v

/-- icmp (R96). -/
def execIcmp (f : Fld) (s : State) : Out :=
  pureOp formIcmp f s fun v =>
    let a := v.valAt 1 0
    let b := v.valAt 2 0
    [.q f.d.toNat (qOf (condHolds f.md.toNat (decide (a < b)) (decide (a = b))))]

/-- lea (R97). -/
def leaIndex (v : LV) : Nat :=
  if v.f.c = 0 then 0
  else
    let x := v.g 3 v.f.c.toNat
    (if v.f.fmt = 1 then x.toNat else (x.signExtend 64).toNat) * 2 ^ (v.f.md.toNat % 4)

def execLea (f : Fld) (s : State) : Out :=
  pureOp formLea f s fun v => wrG f.d.toNat 2 ((v.gs 1 f.a.toNat 2 + v.off + leaIndex v) % 2 ^ 64)

/-! ## The integer group (R98 to R101) -/

def execImad (f : Fld) (s : State) : Out := arith formImad f s fun v i => v.valAt 1 i * v.valAt 2 i + v.valAt 3 i
def execImulhi (f : Fld) (s : State) : Out :=
  bitwise formImulhi f s fun v i => wrapN (intW f.fmt) (v.valAt 1 i * v.valAt 2 i / (2 ^ intW f.fmt : Nat))

/-- R99. -/
def divElem (sg : Bool) (a b : Int) : Int := if b = 0 then -1 else if sg then a.tdiv b else a / b
def remElem (a b : Int) : Int := if b = 0 then a else a.tmod b

/-- A quotient as an element: all ones for a zero divisor, clamped only with sat. -/
def divOut (sg sat : Bool) (w : Nat) (a b : Int) : Nat :=
  if b = 0 then 2 ^ w - 1 else elemOut sg sat w (divElem sg a b)

def execIdiv (f : Fld) (s : State) : Out :=
  bitwise formIdiv f s fun v i =>
    divOut (intSigned f.fmt) (f.md.getLsbD 0) (intW f.fmt) (v.valAt 1 i) (v.valAt 2 i)
def execIrem (f : Fld) (s : State) : Out :=
  bitwise formIrem f s fun v i => wrapN (intW f.fmt) (remElem (v.valAt 1 i) (v.valAt 2 i))
def execImin (f : Fld) (s : State) : Out := arith formImin f s fun v i => min (v.valAt 1 i) (v.valAt 2 i)
def execImax (f : Fld) (s : State) : Out := arith formImax f s fun v i => max (v.valAt 1 i) (v.valAt 2 i)
def execIabs (f : Fld) (s : State) : Out := arith formIabs f s fun v i => ((v.valAt 1 i).natAbs : Int)
def execIneg (f : Fld) (s : State) : Out := arith formIneg f s fun v i => -(v.valAt 1 i)
def execInot (f : Fld) (s : State) : Out := bitwise formInot f s fun v i => 2 ^ intW f.fmt - 1 - v.bitsAt 1 i
def execPopc (f : Fld) (s : State) : Out := bitwise formPopc f s fun v i => popN (intW f.fmt) (v.bitsAt 1 i)
def execClz (f : Fld) (s : State) : Out := bitwise formClz f s fun v i => intW f.fmt - bitLen (v.bitsAt 1 i)

/-- Trailing zeros of a w-bit value. -/
def ctzN (w x : Nat) : Nat := ((List.range w).find? fun i => bitN x i).getD w
/-- Bit k moves to bit w − 1 − k. -/
def brevN (w x : Nat) : Nat := sumN ((List.range w).map fun k => if bitN x k then 2 ^ (w - 1 - k) else 0)

def execCtz (f : Fld) (s : State) : Out := bitwise formCtz f s fun v i => ctzN (intW f.fmt) (v.bitsAt 1 i)
def execBrev (f : Fld) (s : State) : Out := bitwise formBrev f s fun v i => brevN (intW f.fmt) (v.bitsAt 1 i)

/-- Position and length of a bit field, clamped to the element (R100). -/
def fieldPos (x : Nat) : Nat := bitsN x 0 8
def fieldLen (w x : Nat) : Nat := min (bitsN x 8 8) (w - fieldPos x)

def bfeN (sg : Bool) (w a x : Nat) : Nat :=
  let p := fieldPos x
  let n := fieldLen w x
  if p ≥ w ∨ n = 0 then 0
  else if sg then wrapN w (signedN n (bitsN a p n)) else bitsN a p n

def bfiN (w a b x : Nat) : Nat :=
  let p := fieldPos x
  let n := fieldLen w x
  if p ≥ w then b else b - bitsN b p n * 2 ^ p + bitsN a 0 n * 2 ^ p

def execBfe (f : Fld) (s : State) : Out :=
  bitwise formBfe f s fun v i => bfeN (intSigned f.fmt) (intW f.fmt) (v.bitsAt 1 i) (v.count i)
def execBfi (f : Fld) (s : State) : Out :=
  bitwise formBfi f s fun v i => bfiN (intW f.fmt) (v.bitsAt 1 i) (v.bitsAt 2 i) (v.bitsAt 3 i % 2 ^ 32)

def rotlN (w a n : Nat) : Nat := (a * 2 ^ (n % w) + a / 2 ^ (w - n % w)) % 2 ^ w

def execRotl (f : Fld) (s : State) : Out :=
  bitwise formRotl f s fun v i => rotlN (intW f.fmt) (v.bitsAt 1 i) (v.count i)
def execRotr (f : Fld) (s : State) : Out :=
  bitwise formRotr f s fun v i =>
    rotlN (intW f.fmt) (v.bitsAt 1 i) (intW f.fmt - v.count i % intW f.fmt)
def execIsel (f : Fld) (s : State) : Out :=
  bitwise formIsel f s fun v i => if v.q 3 f.c.toNat = qT then v.bitsAt 1 i else v.bitsAt 2 i
def execIadd3 (f : Fld) (s : State) : Out :=
  arith formIadd3 f s fun v i => v.valAt 1 i + v.valAt 2 i + v.valAt 3 i
def execSext (f : Fld) (s : State) : Out :=
  bitwise formSext f s fun v i =>
    let n := v.count i % intW f.fmt + 1
    wrapN (intW f.fmt) (signedN n (bitsN (v.bitsAt 1 i) 0 n))

/-! ## Moves between classes (R101) -/

def execMvk (f : Fld) (s : State) : Out := pureOp formMvk f s fun v => wrK f.d.toNat (intCnt f) (v.int 1 (intCnt f))
def execMkg (f : Fld) (s : State) : Out :=
  pureOp formMkg f s fun v =>
    wrG f.d.toNat (intCnt f) (if litIs f 1 then v.f.imm.toNat else v.ks 1 f.a.toNat (intCnt f))
def execMvf (f : Fld) (s : State) : Out :=
  pureOp formMvf f s fun v => [.f f.d.toNat (BitVec.ofNat 64 (v.int 1 (intCnt f))) 13]
def execMfg (f : Fld) (s : State) : Out :=
  vec formMfg f s fun v s =>
    if litIs f 1 then .ok s (wrG f.d.toNat (intCnt f) f.imm.toNat)
    else match v.fany 1 with
      | .error x => .fault s x
      | .ok r => .ok s (wrG f.d.toNat (intCnt f) r.1.toNat)

end Sys2Proof.Machine
end

