-- ==== Sys2Proof/Machine/Interval.lean ====
section
/-! DEFINITION. The interval group (R147 to R154). -/

namespace Sys2Proof.Machine

/-- A nonempty interval, or none. -/
abbrev IV := Option (FV × FV)

/-- The interval that a bound pair stands for (R147). -/
def ivOf (lo hi : FV) : IV :=
  if lo.isNan || hi.isNan || ltFV hi lo || lo == .inf false || hi == .inf true then none else some (lo, hi)

/-- Element format and register count of the width in effect. -/
def ivFF (f : Fld) : FF := if f.fmt = 1 then ff64 else ff32

/-- An interval operand (R47, R147): bounds by bits, tags checked. -/
def LV.ivSrc (v : LV) (fld : Nat) : Except FaultInfo IV :=
  let n := fieldNum v.f fld
  if v.f.fmt = 1 then
    if litIs v.f fld then let x := ff64.val v.f.imm.toNat; .ok (ivOf x x)
    else
      let a := v.fr fld n
      let b := v.fr fld (n + 1)
      if a.2 ≠ 8 then .error (formatFault 8 a.2 fld)
      else if b.2 ≠ 9 then .error (formatFault 8 b.2 fld)
      else .ok (ivOf (ff64.val a.1.toNat) (ff64.val b.1.toNat))
  else
    match v.fsrc fld 7 with
    | .error x => .error x
    | .ok x => .ok (ivOf (ff32.val (elemAt 32 x 0)) (ff32.val (elemAt 32 x 1)))

/-- A scalar operand of the width. -/
def LV.ivScalar (v : LV) (fld : Nat) : Except FaultInfo FV :=
  (v.fsrc fld (fmtTag v.f.fmt)).map fun x => (ivFF v.f).val (elemAt (ivFF v.f).bits x 0)

/-- A bound: rounded toward −∞ or +∞, a zero written as +0 (R147, R148). -/
def boundBits (F : FF) (hi : Bool) (x : XR) : Nat :=
  let b := (F.finish (if hi then 3 else 2) false false x).1
  if F.magBits b = 0 then 0 else b

/-- The smaller or larger of two bounds as bits. -/
def pickBound (F : FF) (hi : Bool) (a b : Nat) : Nat := if ltFV (F.val a) (F.val b) != hi then a else b

/-- Bound bits from candidates: the least low bound and the greatest high bound. -/
def hullBits (F : FF) (l : List XR) : Nat × Nat :=
  let lo := l.map (boundBits F false)
  let hi := l.map (boundBits F true)
  (lo.foldl (pickBound F false) (lo.headD 0), hi.foldl (pickBound F true) (hi.headD 0))

/-- The canonical empty interval (R147). -/
def emptyBits (F : FF) : Nat × Nat := (F.infBits, F.signBit true + F.infBits)

/-- What an interval operation gives: bounds as bits, none for empty. -/
abbrev IVRes := Option (Nat × Nat)

/-- The registers that an interval takes. -/
def ivWrites (f : Fld) (n : Nat) (b : Nat × Nat) : List Wr :=
  if f.fmt = 1 then [.f n (BitVec.ofNat 64 b.1) 8, .f (n + 1) (BitVec.ofNat 64 b.2) 9]
  else [.f n (BitVec.ofNat 64 (b.1 + b.2 * 2 ^ 32)) 7]

/-- The empty-interval fault (R149). -/
def emptyFault (f : Fld) (bits : Nat) (d : Nat × Nat) : FaultInfo :=
  if f.fmt = 1 then faultOf 0x11 0 [(0x28, 1, bits), (0x30, 8, d.1), (0x38, 8, d.2)]
  else faultOf 0x11 0 [(0x28, 1, bits), (0x30, 8, d.1 + d.2 * 2 ^ 32)]

/-- The trap decision of R149 and the interval result. -/
def LV.ivEnd (v : LV) (s : State) (a b : Bool) (r : IVRes) : LaneRes :=
  let d := r.getD (emptyBits (ivFF v.f))
  let bits := boolN a + 2 * boolN b + (if a || b then 0 else if r.isNone then 4 else 0)
  if v.env.la.eit && bits != 0 then .fault s (emptyFault v.f bits d) else .ok s (ivWrites v.f v.f.d.toNat d)

/-- A scalar or predicate result: only an empty operand faults. -/
def LV.ivScalarEnd (v : LV) (s : State) (a b : Bool) (image : Nat) (ws : List Wr) : LaneRes :=
  let bits := boolN a + 2 * boolN b
  if v.env.la.eit && bits != 0 then .fault s (faultOf 0x11 0 [(0x28, 1, bits), (0x30, 8, image)]) else .ok s ws

def LV.scalarWr (v : LV) (x : Nat) : List Wr := [.f v.f.d.toNat (BitVec.ofNat 64 x) (fmtTag v.f.fmt)]

/-! ## Operations on two intervals -/

def ivOp2 (o : OpForm) (f : Fld) (s : State) (g : FF → FV × FV → FV × FV → IVRes) : Out :=
  vec o f s fun v s =>
    match v.ivSrc 1, v.ivSrc 2 with
    | .error x, _ => .fault s x
    | _, .error x => .fault s x
    | .ok a, .ok b =>
      v.ivEnd s a.isNone b.isNone (match a, b with | some a, some b => g (ivFF f) a b | _, _ => none)

def ivOp1 (o : OpForm) (f : Fld) (s : State) (g : FF → FV × FV → IVRes) : Out :=
  vec o f s fun v s =>
    match v.ivSrc 1 with
    | .error x => .fault s x
    | .ok a => v.ivEnd s a.isNone false (a.bind fun a => g (ivFF f) a)

/-- A scalar result of one interval; `none` of `g` never happens, an empty operand gives `e`. -/
def ivToScalar (o : OpForm) (f : Fld) (s : State) (e : FF → Nat) (g : FF → FV × FV → Nat) : Out :=
  vec o f s fun v s =>
    match v.ivSrc 1 with
    | .error x => .fault s x
    | .ok a =>
      let x := match a with | some a => g (ivFF f) a | none => e (ivFF f)
      v.ivScalarEnd s a.isNone false x (v.scalarWr x)

/-- 0·±∞ counts as 0 (R150). -/
def mulIv (a b : FV) : XR := match mulFV a b with | .nan _ => .num false 0 0 | x => x

/-- A bound as its own bits: a bound −0 stays −0 (R150 says a1 and a2 only, R147 writes a zero bound as +0): DESIGN CHOICE,
log 100. -/
def keepBits (F : FF) (x : FV) : Nat := (F.finish 0 false false x.toXR).1
def keepBound (F : FF) (x : FV) : Nat := boundBits F false x.toXR

def zeroFV : FV := .num false 0 0
def ltZero (x : FV) : Bool := ltFV x zeroFV
def isZeroFV (x : FV) : Bool := cmpFV x zeroFV == .eq

/-- imake (R150). -/
def execImake (f : Fld) (s : State) : Out :=
  vec formImake f s fun v s =>
    match v.ivScalar 1, v.ivScalar 2 with
    | .error x, _ => .fault s x
    | _, .error x => .fault s x
    | .ok a, .ok b => v.ivEnd s false false ((ivOf a b).map fun p => (keepBound (ivFF f) p.1, keepBound (ivFF f) p.2))

def execIlo (f : Fld) (s : State) : Out := ivToScalar formIlo f s (fun F => F.infBits) fun F a => keepBits F a.1
def execIhi (f : Fld) (s : State) : Out :=
  ivToScalar formIhi f s (fun F => F.signBit true + F.infBits) fun F a => keepBits F a.2

def execIaddInterval (f : Fld) (s : State) : Out :=
  ivOp2 formIaddInterval f s fun F a b => some (boundBits F false (addFV 2 a.1 b.1), boundBits F true (addFV 3 a.2 b.2))
def execIsubInterval (f : Fld) (s : State) : Out :=
  ivOp2 formIsubInterval f s fun F a b =>
    some (boundBits F false (addFV 2 a.1 b.2.negate), boundBits F true (addFV 3 a.2 b.1.negate))
def execImulInterval (f : Fld) (s : State) : Out :=
  ivOp2 formImulInterval f s fun F a b =>
    some (hullBits F [mulIv a.1 b.1, mulIv a.1 b.2, mulIv a.2 b.1, mulIv a.2 b.2])

/-- An endpoint quotient; a quotient of two infinities is left out (R151). -/
def quot (x y : FV) : List XR := match divFV x y with | .nan _ => [] | q => [q]

/-- The hull of set-based division (R151). -/
def divIv (F : FF) (a b : FV × FV) : IVRes :=
  let negInf := F.signBit true + F.infBits
  let posInf := F.infBits
  let aHas0 := leFV a.1 zeroFV && leFV zeroFV a.2
  if !(leFV b.1 zeroFV && leFV zeroFV b.2) then
    some (hullBits F (quot a.1 b.1 ++ quot a.1 b.2 ++ quot a.2 b.1 ++ quot a.2 b.2))
  else if isZeroFV b.1 && isZeroFV b.2 then none
  else if aHas0 then some (negInf, posInf)
  else if isZeroFV b.1 then
    if ltZero a.2 then some (negInf, boundBits F true (divFV a.2 b.2)) else some (boundBits F false (divFV a.1 b.2), posInf)
  else if isZeroFV b.2 then
    if ltZero a.2 then some (boundBits F false (divFV a.2 b.1), posInf) else some (negInf, boundBits F true (divFV a.1 b.1))
  else some (negInf, posInf)

def execIdivInterval (f : Fld) (s : State) : Out := ivOp2 formIdivInterval f s divIv
def execIsqr (f : Fld) (s : State) : Out :=
  ivOp1 formIsqr f s fun F a =>
    let l := [mulFV a.1 a.1, mulFV a.2 a.2]
    some (hullBits F (if leFV a.1 zeroFV && leFV zeroFV a.2 then .num false 0 0 :: l else l))
def execIsqrt (f : Fld) (s : State) : Out :=
  ivOp1 formIsqrt f s fun F a =>
    if ltZero a.2 then none
    else some (boundBits F false (sqrtFV (if ltZero a.1 then zeroFV else a.1)), boundBits F true (sqrtFV a.2))

def minFV (a b : FV) : FV := if ltFV b a then b else a
def maxFV (a b : FV) : FV := if ltFV a b then b else a

/-- ihull never faults; with one empty operand it gives the other. -/
def execIhull (f : Fld) (s : State) : Out :=
  vec formIhull f s fun v s =>
    match v.ivSrc 1, v.ivSrc 2 with
    | .error x, _ => .fault s x
    | _, .error x => .fault s x
    | .ok a, .ok b =>
      let F := ivFF f
      let h : IV := match a, b with
        | some a, some b => some (minFV a.1 b.1, maxFV a.2 b.2)
        | some a, none => some a
        | none, b => b
      .ok s (ivWrites f f.d.toNat ((h.map fun p => (keepBound F p.1, keepBound F p.2)).getD (emptyBits F)))

def execIinter (f : Fld) (s : State) : Out :=
  ivOp2 formIinter f s fun F a b =>
    let lo := maxFV a.1 b.1
    let hi := minFV a.2 b.2
    if ltFV hi lo then none else some (keepBound F lo, keepBound F hi)

/-- imid (R152), as bits. -/
def midBits (F : FF) (a : FV × FV) : Nat :=
  match a.1, a.2 with
  | .num s m e, .num t n g =>
    match addNum 0 s m e t n g with
    | .num u k q => (F.finish 0 false false (.num u k (q - 1))).1
    | x => (F.finish 0 false false x).1
  | .inf _, .inf _ => 0
  | .inf _, _ => F.signBit true + F.maxBits
  | _, _ => F.maxBits

def execImid (f : Fld) (s : State) : Out := ivToScalar formImid f s (fun F => F.nanBits) midBits
def execIwid (f : Fld) (s : State) : Out :=
  ivToScalar formIwid f s (fun F => F.nanBits) fun F a => (F.finish 3 false false (addFV 3 a.2 a.1.negate)).1

def execIin (f : Fld) (s : State) : Out :=
  vec formIin f s fun v s =>
    match v.ivSrc 1, v.ivScalar 2 with
    | .error x, _ => .fault s x
    | _, .error x => .fault s x
    | .ok a, .ok b =>
      let q := match a with | some a => qOf (!b.isNan && leFV a.1 b && leFV b a.2) | none => qF
      v.ivScalarEnd s a.isNone false q.toNat [.q f.d.toNat q]

/-- A relation that is T, F or U from its two conditions. -/
def rel3 (t f : Bool) : BitVec 2 := if t then qT else if f then qF else qU

/-- icmp (R153). -/
def relIv (rel : Nat) (a b : IV) : BitVec 2 :=
  match a, b with
  | some a, some b =>
    let apart := ltFV a.2 b.1 || ltFV b.2 a.1
    let same := cmpFV a.1 a.2 == .eq && cmpFV b.1 b.2 == .eq && cmpFV a.1 b.1 == .eq
    match rel with
    | 0 => rel3 (ltFV a.2 b.1) (leFV b.2 a.1)
    | 1 => rel3 (leFV a.2 b.1) (ltFV b.2 a.1)
    | 2 => rel3 (ltFV b.2 a.1) (leFV a.2 b.1)
    | 3 => rel3 (leFV b.2 a.1) (ltFV a.2 b.1)
    | 4 => rel3 same apart
    | 5 => rel3 apart same
    | 6 => rel3 (leFV b.1 a.1 && leFV a.2 b.2) apart
    | _ => qOf apart
  | none, _ => if rel < 6 then qU else qT
  | some _, none => if rel < 6 then qU else if rel = 6 then qF else qT

def execIcmpInterval (f : Fld) (s : State) : Out :=
  vec formIcmpInterval f s fun v s =>
    match v.ivSrc 1, v.ivSrc 2 with
    | .error x, _ => .fault s x
    | _, .error x => .fault s x
    | .ok a, .ok b =>
      let q := relIv (f.md.toNat % 8) a b
      v.ivScalarEnd s a.isNone b.isNone q.toNat [.q f.d.toNat q]

/-! ## ibis (R154) -/

/-- Writes an interval into a thread's registers. -/
def setInterval (f : Fld) (n : Nat) (b : Nat × Nat) (t : Thread) : Thread :=
  (ivWrites f n b).foldl (fun t w =>
    match w with
    | .f i x tag => { t with f := t.f.set i x, ft := t.ft.set i tag }
    | _ => t) t

def execIbis (f : Fld) (s : State) : Out :=
  vec formIbis f s fun v s =>
    match v.ivSrc 1 with
    | .error x => .fault s x
    | .ok none => if v.env.la.eit then .fault s (faultOf 0x11 0 [(0x28, 1, 1)]) else .ok s [.g f.d.toNat 0]
    | .ok (some a) =>
      let F := ivFF f
      let m := boundBits F false (F.val (midBits F a)).toXR
      let lower := (keepBound F a.1, m)
      let upper := (m, keepBound F a.2)
      match v.create s v.iss.next fun t => setInterval f f.a.toNat upper { t with
          g := t.g.set f.d.toNat 1
          gp := t.gp.filter fun i => i != f.d.toNat } with
      | (.ok s _, _) => .ok s (.g f.d.toNat 0 :: ivWrites f f.a.toNat lower)
      | (r, _) => r

end Sys2Proof.Machine
end

