-- ==== Sys2Proof/Machine/Pairs.lean ====
section
/-! DEFINITION. The pair instructions (R350 to R354). -/

namespace Sys2Proof.Machine

/-- An instruction of a pair thread only; another thread raises the illegal-instruction fault (R350). -/
def pairOp (o : OpForm) (f : Fld) (s : State) (body : LV → PairInfo → PRec → State → LaneRes) : Out :=
  vec o f s fun v s =>
    match v.t.pair, v.env.la.p with
    | some q, some p => body v q p s
    | _, _ => .fault s (decodeFault 0x01 v.iss (v.f.len.getLsbD 1))

/-! ## pget (R351) -/

def pgetRegs (q : PairInfo) : List Word :=
  [q.i, q.j, q.flags, q.homeJ.setWidth 32 <<< 8 ||| q.homeI.setWidth 32, q.pos, q.rankI, q.rankJ, 0]

def execPget (f : Fld) (s : State) : Out :=
  pairOp formPget f s fun _ q _ s =>
    if f.md.getLsbD 0 then .ok s (q.vals.zipIdx.map fun x => .f (f.d.toNat + x.2) (x.1.setWidth 64) 2)
    else .ok s ((pgetRegs q).zipIdx.map fun x => .g (f.d.toNat + x.2) x.1)

/-! ## pret (R352) -/

/-- A closed window's fault (R347); a pret is no memory access, so its record's address is 0 (R328). -/
def closedFault : FaultInfo := protFault 0 3 10 5

/-- The contribution's values, or the fault of the first register that does not hold f32. -/
def LV.pretVals (v : LV) (a : Nat) : Nat → Nat → Except FaultInfo (List Word)
  | 0, _ => .ok []
  | n + 1, k =>
    let r := v.fr 1 (a + k)
    if r.2 ≠ 2 then .error (formatFault 2 r.2 1)
    else (LV.pretVals v a n (k + 1)).map fun l => r.1.setWidth 32 :: l

/-- Buffers an ordered contribution for each of its targets; nothing is buffered when one of them overflows (R348). -/
def LV.pretOrdered (v : LV) (s : State) (q : PairInfo) (p : PRec) (mode : Nat) (sub : Word) (c : List Word) : LaneRes :=
  let r := (pairTargets p mode q.i q.j).foldl (fun (a : Except FaultInfo State) t =>
    match a with
    | .error x => .error x
    | .ok s' =>
      let k : Contrib := {
        launch := v.env.la.key
        pal := v.env.pl.key
        addr := t.2
        role := t.1
        rank := q.rankI.toNat
        partner := if t.1 then q.i else q.j
        sub := sub
        tid := v.t.tid
        issue := 0
        vals := roleVals mode t.1 c
        slot := none }
      bufferOne s' v.env.la v.env.cx p k) (.ok s)
  match r with
  | .error x => .fault s x
  | .ok s => .ok (v.toThreads s fun t => { t with pair := t.pair.map fun q => { q with done := q.done + 1 } }) []

/-- Adds an unordered contribution into the partial of each target, each in its recorded turn (R346, R363). -/
def LV.pretPlain (v : LV) (s : State) (q : PairInfo) (p : PRec) (mode : Nat) (c : List Word) : LaneRes :=
  let r := (pairTargets p mode q.i q.j).foldl (fun (a : Turn) t =>
    match a with
    | .go s' _ =>
      let th := ((getSheet s' v.env.sh.key).bind fun sh => laneThread sh v.lane).getD v.t
      match { v with t := th }.turn s' ⟨4, v.env.pl.core, t.2⟩ 0 with
      | .go s' _ => .go (absorb s' v.env.la.key v.env.pl.key t.2 t.1 (if t.1 then q.i else q.j) (roleVals mode t.1 c)) none
      | x => x
    | x => x) (.go s none)
  match r with
  | .go s' _ => .ok s' []
  | .wait => .wait s .turn
  | .fault x => .fault s x

def execPret (f : Fld) (s : State) : Out :=
  pairOp formPret f s fun v q p s =>
    let md := v.f.md.toNat
    let mode := pairMode p (md % 4)
    let wf := md / 4 % 8
    let w := if wf = 0 then p.width else wf
    let a := v.f.a.toNat
    if w > p.width ∨ wf > 4 ∨ (mode ≠ 3 ∧ p.mode = 2) then .fault s v.reservedX
    else if a + w - 1 ≥ v.env.la.r.fcnt then .fault s (faultOf 0x03 0 [(0x28, 1, 1), (0x29, 1, a)])
    else
      match LV.pretVals v a w 0 with
      | .error x => .fault s x
      | .ok c =>
        match (pairTargets p mode q.i q.j).find? fun t => s.en.pclosed.contains (v.env.la.key, p.winOf t.1) with
        | some _ => .fault s closedFault
        | none =>
          if v.f.ord || p.isOrd then
            v.pretOrdered s q p mode (if v.f.ord then v.g 3 v.f.c.toNat else BitVec.ofNat 32 q.done) c
          else v.pretPlain s q p mode c

/-! ## plaunch (R353) -/

def execPlaunch (f : Fld) (s : State) : Out :=
  vec formPlaunch f s fun v s =>
    let a := v.int 1 2
    if a % 64 ≠ 0 then .fault s (faultOf 0x08 a [])
    else
      match v.loadRecord s a 512 with
      | .error (s, x) => .fault s x
      | .ok none => .wait (v.recordWait s a 512) .board
      | .ok (some (unit, s)) =>
        let h := newFuture s 3 v.env.pl.core v.env.pl.key
        match v.release h.2 4 with
        | .error (s, x) => .fault s x
        | .ok (stamp, s) =>
          let k := freshKey s
          let sub : Submit := ⟨k.1, v.env.cx.cid, BitVec.ofNat 64 a, true, none, some h.1, stamp, true, unit⟩
          .ok (withSubs k.2 (k.2.qs.subs ++ [sub])) (markWr v.f.d.toNat h.1)

/-! ## prelaunch (R354) -/

def execPrelaunch (f : Fld) (s : State) : Out :=
  pairOp formPrelaunch f s fun v _ p s =>
    let i := v.g 1 v.f.a.toNat
    let j := v.g 2 v.f.b.toNat
    if p.acnt ≤ i.toNat ∨ p.bcnt ≤ j.toNat ∨ (p.isSelf ∧ j ≤ i) then .fault s (protFault 0 3 10 4)
    else
      let h := newFuture s 4 v.env.pl.core v.env.pl.key
      match v.release h.2 4 with
      | .error (s, x) => .fault s x
      | .ok (stamp, s) =>
        let key := ordIndex ⟨5, 0, v.t.tid.toNat⟩
        let r : Relaunch := {
          launch := v.env.la.key
          pal := v.env.pl.key
          i := i
          j := j
          pc := if v.f.lit = 3 then wordTarget v.iss v.f.imm else v.env.la.r.entry
          fut := h.1
          tid := v.t.tid
          ordn := if p.isOrd then v.t.ordn.toNat else sGetD v.t.ops key 0
          agent := v.agent s
          stamp := stamp
          paused := false }
        let bump := fun (t : Thread) =>
          if p.isOrd then { t with ordn := t.ordn + 1 }
          else if recording v.env.la || replaying v.env.la then bumpOrdn ⟨5, 0, t.tid.toNat⟩ t else t
        .ok (v.toThreads (withRelq s (s.en.relq ++ [r])) bump) (markWr v.f.d.toNat h.1)

end Sys2Proof.Machine
end

