-- ==== Sys2Proof/Machine/Predicate.lean ====
section
/-! DEFINITION. Predicate instructions (R106, R107), mask instructions (R108) and vote (R109). -/

namespace Sys2Proof.Machine

/-! ## Predicates -/

def qOp2 (o : OpForm) (f : Fld) (s : State) (g : BitVec 2 → BitVec 2 → BitVec 2) : Out :=
  pureOp o f s fun v => [.q f.d.toNat (g (v.q 1 f.a.toNat) (v.q 2 f.b.toNat))]
def qOp1 (o : OpForm) (f : Fld) (s : State) (g : BitVec 2 → BitVec 2) : Out :=
  pureOp o f s fun v => [.q f.d.toNat (g (v.q 1 f.a.toNat))]

def execQand (f : Fld) (s : State) : Out := qOp2 formQand f s kand
def execQor (f : Fld) (s : State) : Out := qOp2 formQor f s kor
def execQxor (f : Fld) (s : State) : Out := qOp2 formQxor f s kxor
def execQnot (f : Fld) (s : State) : Out := qOp1 formQnot f s knot
def execQmov (f : Fld) (s : State) : Out := qOp1 formQmov f s id
def execQset (f : Fld) (s : State) : Out := pureOp formQset f s fun _ => [.q f.d.toNat (f.a.setWidth 2)]
def execQdef (f : Fld) (s : State) : Out :=
  qOp1 formQdef f s fun q => if q = qU then qOf (f.md.getLsbD 0) else q

/-! ## Masks: once for the course (R108) -/

/-- The course's lanes (R26). -/
def courseLanes (sh : Sheet) : BitVec 128 := maskOf (sh.lanes.map (·.1))

def setM (sh : Sheet) (n : Nat) (x : BitVec 128) : Sheet := { sh with m := sh.m.set n x }

/-- A g register of every lane active in em. -/
def setActiveG (sh : Sheet) (n : Nat) (x : Word) : Sheet :=
  (lanesOf sh.em).foldl (fun sh l => writeLane sh none l (.g n x)) sh

/-- mfromq: a lane whose qA holds 11 faults before this (R105). -/
def execMfromq (f : Fld) (s : State) : Out :=
  maskOp formMfromq f s fun v sh =>
    let ls := (sh.lanes.filter fun l => sh.em.getLsbD l.1 &&
      senseHolds (f.md.toNat % 4) (({ v with lane := l.1, t := l.2 } : LV).q 1 f.a.toNat)).map (·.1)
    setM sh f.d.toNat (maskOf ls)
def execMset (f : Fld) (s : State) : Out :=
  maskOp formMset f s fun v sh => { sh with em := v.m f.a.toNat &&& courseLanes sh }
def execMget (f : Fld) (s : State) : Out := maskOp formMget f s fun _ sh => setM sh f.d.toNat sh.em
def execMand (f : Fld) (s : State) : Out :=
  maskOp formMand f s fun v sh => setM sh f.d.toNat (v.m f.a.toNat &&& v.m f.b.toNat)
def execMor (f : Fld) (s : State) : Out :=
  maskOp formMor f s fun v sh => setM sh f.d.toNat (v.m f.a.toNat ||| v.m f.b.toNat)
def execMnot (f : Fld) (s : State) : Out :=
  maskOp formMnot f s fun v sh => setM sh f.d.toNat (~~~(v.m f.a.toNat) &&& courseLanes sh)
def execMpop (f : Fld) (s : State) : Out :=
  maskOp formMpop f s fun v sh => setActiveG sh f.d.toNat (BitVec.ofNat 32 (lanesOf (v.m f.a.toNat)).length)
def execMfirst (f : Fld) (s : State) : Out :=
  maskOp formMfirst f s fun v sh =>
    setActiveG sh f.d.toNat (match (lanesOf (v.m f.a.toNat)).head? with
      | some l => BitVec.ofNat 32 l
      | none => 0xFFFFFFFF)

/-! ## vote (R109) -/

/-- Combines the lanes' values: all, any, eq. -/
def voteOf (mode : Nat) (qs : List (BitVec 2)) : BitVec 2 :=
  match mode with
  | 0 => qs.foldl kand qT
  | 1 => qs.foldl kor qF
  | _ => qOf (qs.all fun q => q == qs.headD 0)

def execVote (f : Fld) (s : State) : Out :=
  crs formVote f s (fun v => v.m f.b.toNat) fun vs s =>
    let r := voteOf f.md.toNat (vs.map fun v => v.q 1 f.a.toNat)
    .ok s (vs.map fun v => (v.lane, [.q f.d.toNat r]))

end Sys2Proof.Machine
end

