-- ==== Sys2Proof/Machine/Prefix.lean ====
section
/-! DEFINITION. The prefix family (R61 to R64): a prefix joins the sheet's run, and the instruction that ends the run reads it. -/

namespace Sys2Proof.Machine

/-- A prefix of kind k. A reserved value in it is reported with the run's instruction, after every illegal-instruction case of the run
(R61, R69). -/
def prefixOp (k : Nat) (f : Fld) (s : State) : Out :=
  match getSheet s s.iss.sheet with
  | none => .next s
  | some sh =>
    if f.len ≠ 0 ∨ 2 ≤ sh.run.length ∨ runHas sh.run (BitVec.ofNat 7 k) then .next (raiseDecode s sh (decodeFault 0x01 s.iss false))
    else
      let p : RunPart := ⟨BitVec.ofNat 7 k, f.a, if wfPrefix k f then none else some s.iss.w0⟩
      .next (setSheet s { sh with run := sh.run ++ [p], runPc := s.iss.pc, pc := s.iss.next })

/-- NOP: no effect. -/
def execNop (f : Fld) (s : State) : Out := prefixOp 0 f s
/-- NORACE (R238). -/
def execNorace (f : Fld) (s : State) : Out := prefixOp 1 f s
def execAtom (f : Fld) (s : State) : Out := prefixOp 2 f s
def execPeer (f : Fld) (s : State) : Out := prefixOp 3 f s
def execOrd (f : Fld) (s : State) : Out := prefixOp 4 f s
def execScope (f : Fld) (s : State) : Out := prefixOp 5 f s

end Sys2Proof.Machine
end

