-- ==== Sys2Proof/Machine/Dispatch.lean ====
section
/-! DEFINITION. One arm for each constructor of Instr, each a direct call of its meaning. -/

namespace Sys2Proof.Machine

def exec (i : Instr) (s : State) : Host.Outcome State Fault Refusal :=
  match i with
  | .nop f => Sys2Proof.Machine.execNop f s
  | .norace f => Sys2Proof.Machine.execNorace f s
  | .atom f => Sys2Proof.Machine.execAtom f s
  | .peer f => Sys2Proof.Machine.execPeer f s
  | .ord f => Sys2Proof.Machine.execOrd f s
  | .scope f => Sys2Proof.Machine.execScope f s
  | .iadd f => Sys2Proof.Machine.execIadd f s
  | .isub f => Sys2Proof.Machine.execIsub f s
  | .imul f => Sys2Proof.Machine.execImul f s
  | .iand f => Sys2Proof.Machine.execIand f s
  | .ior f => Sys2Proof.Machine.execIor f s
  | .ixor f => Sys2Proof.Machine.execIxor f s
  | .shl f => Sys2Proof.Machine.execShl f s
  | .shr f => Sys2Proof.Machine.execShr f s
  | .sar f => Sys2Proof.Machine.execSar f s
  | .mov f => Sys2Proof.Machine.execMov f s
  | .icmp f => Sys2Proof.Machine.execIcmp f s
  | .lea f => Sys2Proof.Machine.execLea f s
  | .imad f => Sys2Proof.Machine.execImad f s
  | .imulhi f => Sys2Proof.Machine.execImulhi f s
  | .idiv f => Sys2Proof.Machine.execIdiv f s
  | .irem f => Sys2Proof.Machine.execIrem f s
  | .imin f => Sys2Proof.Machine.execImin f s
  | .imax f => Sys2Proof.Machine.execImax f s
  | .iabs f => Sys2Proof.Machine.execIabs f s
  | .ineg f => Sys2Proof.Machine.execIneg f s
  | .inot f => Sys2Proof.Machine.execInot f s
  | .popc f => Sys2Proof.Machine.execPopc f s
  | .clz f => Sys2Proof.Machine.execClz f s
  | .ctz f => Sys2Proof.Machine.execCtz f s
  | .brev f => Sys2Proof.Machine.execBrev f s
  | .bfe f => Sys2Proof.Machine.execBfe f s
  | .bfi f => Sys2Proof.Machine.execBfi f s
  | .rotl f => Sys2Proof.Machine.execRotl f s
  | .rotr f => Sys2Proof.Machine.execRotr f s
  | .isel f => Sys2Proof.Machine.execIsel f s
  | .iadd3 f => Sys2Proof.Machine.execIadd3 f s
  | .sext f => Sys2Proof.Machine.execSext f s
  | .mvk f => Sys2Proof.Machine.execMvk f s
  | .mkg f => Sys2Proof.Machine.execMkg f s
  | .mvf f => Sys2Proof.Machine.execMvf f s
  | .mfg f => Sys2Proof.Machine.execMfg f s
  | .srd f => Sys2Proof.Machine.execSrd f s
  | .swr f => Sys2Proof.Machine.execSwr f s
  | .fadd f => Sys2Proof.Machine.execFadd f s
  | .fmul f => Sys2Proof.Machine.execFmul f s
  | .fma f => Sys2Proof.Machine.execFma f s
  | .fcmp f => Sys2Proof.Machine.execFcmp f s
  | .fmin f => Sys2Proof.Machine.execFmin f s
  | .fmax f => Sys2Proof.Machine.execFmax f s
  | .fabs f => Sys2Proof.Machine.execFabs f s
  | .fneg f => Sys2Proof.Machine.execFneg f s
  | .fcsgn f => Sys2Proof.Machine.execFcsgn f s
  | .fdiv f => Sys2Proof.Machine.execFdiv f s
  | .fsqrt f => Sys2Proof.Machine.execFsqrt f s
  | .frcp f => Sys2Proof.Machine.execFrcp f s
  | .frsq f => Sys2Proof.Machine.execFrsq f s
  | .fex2 f => Sys2Proof.Machine.execFex2 f s
  | .flg2 f => Sys2Proof.Machine.execFlg2 f s
  | .fsin f => Sys2Proof.Machine.execFsin f s
  | .fcos f => Sys2Proof.Machine.execFcos f s
  | .frnd f => Sys2Proof.Machine.execFrnd f s
  | .fclass f => Sys2Proof.Machine.execFclass f s
  | .fsel f => Sys2Proof.Machine.execFsel f s
  | .fldexp f => Sys2Proof.Machine.execFldexp f s
  | .cvt f => Sys2Proof.Machine.execCvt f s
  | .cvti f => Sys2Proof.Machine.execCvti f s
  | .cvtf f => Sys2Proof.Machine.execCvtf f s
  | .pack2 f => Sys2Proof.Machine.execPack2 f s
  | .unpk2 f => Sys2Proof.Machine.execUnpk2 f s
  | .imake f => Sys2Proof.Machine.execImake f s
  | .ilo f => Sys2Proof.Machine.execIlo f s
  | .ihi f => Sys2Proof.Machine.execIhi f s
  | .iaddInterval f => Sys2Proof.Machine.execIaddInterval f s
  | .isubInterval f => Sys2Proof.Machine.execIsubInterval f s
  | .imulInterval f => Sys2Proof.Machine.execImulInterval f s
  | .idivInterval f => Sys2Proof.Machine.execIdivInterval f s
  | .isqr f => Sys2Proof.Machine.execIsqr f s
  | .isqrt f => Sys2Proof.Machine.execIsqrt f s
  | .ihull f => Sys2Proof.Machine.execIhull f s
  | .iinter f => Sys2Proof.Machine.execIinter f s
  | .imid f => Sys2Proof.Machine.execImid f s
  | .iwid f => Sys2Proof.Machine.execIwid f s
  | .iin f => Sys2Proof.Machine.execIin f s
  | .icmpInterval f => Sys2Proof.Machine.execIcmpInterval f s
  | .ibis f => Sys2Proof.Machine.execIbis f s
  | .qand f => Sys2Proof.Machine.execQand f s
  | .qor f => Sys2Proof.Machine.execQor f s
  | .qnot f => Sys2Proof.Machine.execQnot f s
  | .qxor f => Sys2Proof.Machine.execQxor f s
  | .qmov f => Sys2Proof.Machine.execQmov f s
  | .qset f => Sys2Proof.Machine.execQset f s
  | .qdef f => Sys2Proof.Machine.execQdef f s
  | .mfromq f => Sys2Proof.Machine.execMfromq f s
  | .mset f => Sys2Proof.Machine.execMset f s
  | .mget f => Sys2Proof.Machine.execMget f s
  | .mand f => Sys2Proof.Machine.execMand f s
  | .mor f => Sys2Proof.Machine.execMor f s
  | .mnot f => Sys2Proof.Machine.execMnot f s
  | .mpop f => Sys2Proof.Machine.execMpop f s
  | .mfirst f => Sys2Proof.Machine.execMfirst f s
  | .vote f => Sys2Proof.Machine.execVote f s
  | .bra f => Sys2Proof.Machine.execBra f s
  | .brc f => Sys2Proof.Machine.execBrc f s
  | .bri f => Sys2Proof.Machine.execBri f s
  | .call f => Sys2Proof.Machine.execCall f s
  | .calli f => Sys2Proof.Machine.execCalli f s
  | .ret f => Sys2Proof.Machine.execRet f s
  | .brq f => Sys2Proof.Machine.execBrq f s
  | .exit f => Sys2Proof.Machine.execExit f s
  | .yield f => Sys2Proof.Machine.execYield f s
  | .spawn f => Sys2Proof.Machine.execSpawn f s
  | .brk f => Sys2Proof.Machine.execBrk f s
  | .trap f => Sys2Proof.Machine.execTrap f s
  | .swi f => Sys2Proof.Machine.execSwi f s
  | .tret f => Sys2Proof.Machine.execTret f s
  | .ccreate f => Sys2Proof.Machine.execCcreate f s
  | .cfree f => Sys2Proof.Machine.execCfree f s
  | .cjoin f => Sys2Proof.Machine.execCjoin f s
  | .cleave f => Sys2Proof.Machine.execCleave f s
  | .cpin f => Sys2Proof.Machine.execCpin f s
  | .cunpin f => Sys2Proof.Machine.execCunpin f s
  | .cid f => Sys2Proof.Machine.execCid f s
  | .cbar f => Sys2Proof.Machine.execCbar f s
  | .carrive f => Sys2Proof.Machine.execCarrive f s
  | .cwait f => Sys2Proof.Machine.execCwait f s
  | .shfl f => Sys2Proof.Machine.execShfl f s
  | .shup f => Sys2Proof.Machine.execShup f s
  | .shdn f => Sys2Proof.Machine.execShdn f s
  | .shxor f => Sys2Proof.Machine.execShxor f s
  | .bcast f => Sys2Proof.Machine.execBcast f s
  | .redux f => Sys2Proof.Machine.execRedux f s
  | .scan f => Sys2Proof.Machine.execScan f s
  | .matchLanes f => Sys2Proof.Machine.execMatchLanes f s
  | .elect f => Sys2Proof.Machine.execElect f s
  | .ld f => Sys2Proof.Machine.execLd f s
  | .ldp f => Sys2Proof.Machine.execLdp f s
  | .st f => Sys2Proof.Machine.execSt f s
  | .ldf f => Sys2Proof.Machine.execLdf f s
  | .ldk f => Sys2Proof.Machine.execLdk f s
  | .stf f => Sys2Proof.Machine.execStf f s
  | .aadd f => Sys2Proof.Machine.execAadd f s
  | .asub f => Sys2Proof.Machine.execAsub f s
  | .amin f => Sys2Proof.Machine.execAmin f s
  | .amax f => Sys2Proof.Machine.execAmax f s
  | .aand f => Sys2Proof.Machine.execAand f s
  | .aor f => Sys2Proof.Machine.execAor f s
  | .axor f => Sys2Proof.Machine.execAxor f s
  | .aexch f => Sys2Proof.Machine.execAexch f s
  | .acas f => Sys2Proof.Machine.execAcas f s
  | .ainc f => Sys2Proof.Machine.execAinc f s
  | .adec f => Sys2Proof.Machine.execAdec f s
  | .redadd f => Sys2Proof.Machine.execRedadd f s
  | .redmin f => Sys2Proof.Machine.execRedmin f s
  | .redmax f => Sys2Proof.Machine.execRedmax f s
  | .redand f => Sys2Proof.Machine.execRedand f s
  | .redor f => Sys2Proof.Machine.execRedor f s
  | .redxor f => Sys2Proof.Machine.execRedxor f s
  | .sqopen f => Sys2Proof.Machine.execSqopen f s
  | .sqclose f => Sys2Proof.Machine.execSqclose f s
  | .rel f => Sys2Proof.Machine.execRel f s
  | .acq f => Sys2Proof.Machine.execAcq f s
  | .fopr f => Sys2Proof.Machine.execFopr f s
  | .feng f => Sys2Proof.Machine.execFeng f s
  | .monitor f => Sys2Proof.Machine.execMonitor f s
  | .mwait f => Sys2Proof.Machine.execMwait f s
  | .drain f => Sys2Proof.Machine.execDrain f s
  | .mbsend f => Sys2Proof.Machine.execMbsend f s
  | .mbrecv f => Sys2Proof.Machine.execMbrecv f s
  | .mbpoll f => Sys2Proof.Machine.execMbpoll f s
  | .cpy f => Sys2Proof.Machine.execCpy f s
  | .cpyw f => Sys2Proof.Machine.execCpyw f s
  | .cpyg f => Sys2Proof.Machine.execCpyg f s
  | .cpys f => Sys2Proof.Machine.execCpys f s
  | .fwait f => Sys2Proof.Machine.execFwait f s
  | .ftest f => Sys2Proof.Machine.execFtest f s
  | .fcancel f => Sys2Proof.Machine.execFcancel f s
  | .xinit f => Sys2Proof.Machine.execXinit f s
  | .xexpect f => Sys2Proof.Machine.execXexpect f s
  | .xarrive f => Sys2Proof.Machine.execXarrive f s
  | .xwait f => Sys2Proof.Machine.execXwait f s
  | .hod f => Sys2Proof.Machine.execHod f s
  | .launch f => Sys2Proof.Machine.execLaunch f s
  | .mma f => Sys2Proof.Machine.execMma f s
  | .tzero f => Sys2Proof.Machine.execTzero f s
  | .tld f => Sys2Proof.Machine.execTld f s
  | .tst f => Sys2Proof.Machine.execTst f s
  | .trow f => Sys2Proof.Machine.execTrow f s
  | .tcvt f => Sys2Proof.Machine.execTcvt f s
  | .tscale f => Sys2Proof.Machine.execTscale f s
  | .mbatch f => Sys2Proof.Machine.execMbatch f s
  | .dxpack f => Sys2Proof.Machine.execDxpack f s
  | .dxunpk f => Sys2Proof.Machine.execDxunpk f s
  | .resclr f => Sys2Proof.Machine.execResclr f s
  | .resclrAll f => Sys2Proof.Machine.execResclrAll f s
  | .resget f => Sys2Proof.Machine.execResget f s
  | .resset f => Sys2Proof.Machine.execResset f s
  | .resclrTile f => Sys2Proof.Machine.execResclrTile f s
  | .resgetTile f => Sys2Proof.Machine.execResgetTile f s
  | .ressetTile f => Sys2Proof.Machine.execRessetTile f s
  | .pget f => Sys2Proof.Machine.execPget f s
  | .pret f => Sys2Proof.Machine.execPret f s
  | .plaunch f => Sys2Proof.Machine.execPlaunch f s
  | .prelaunch f => Sys2Proof.Machine.execPrelaunch f s
  | .rld f => Sys2Proof.Machine.execRld f s
  | .rst f => Sys2Proof.Machine.execRst f s
  | .rfop f => Sys2Proof.Machine.execRfop f s
  | .rred f => Sys2Proof.Machine.execRred f s
  | .rmcast f => Sys2Proof.Machine.execRmcast f s
  | .rfence f => Sys2Proof.Machine.execRfence f s
  | .rflag f => Sys2Proof.Machine.execRflag f s
  | .rpath f => Sys2Proof.Machine.execRpath f s
  | .csrr f => Sys2Proof.Machine.execCsrr f s
  | .csrw f => Sys2Proof.Machine.execCsrw f s
  | .tlbinv f => Sys2Proof.Machine.execTlbinv f s
  | .cinv f => Sys2Proof.Machine.execCinv f s
  | .cwb f => Sys2Proof.Machine.execCwb f s
  | .halt f => Sys2Proof.Machine.execHalt f s
  | .racectlClean f => Sys2Proof.Machine.execRacectlClean f s
  | .racectlQuiet f => Sys2Proof.Machine.execRacectlQuiet f s
  | .racectlCount f => Sys2Proof.Machine.execRacectlCount f s
  | .rclk f => Sys2Proof.Machine.execRclk f s
  | .dbgld f => Sys2Proof.Machine.execDbgld f s
  | .dbgst f => Sys2Proof.Machine.execDbgst f s
  | .expo f => Sys2Proof.Machine.execExpo f s
  | .qfetch x => Sys2Proof.Machine.execQfetch x s
  | .bfx x => Sys2Proof.Machine.execBfx x s
  | .swait x => Sys2Proof.Machine.execSwait x s
  | .disp x => Sys2Proof.Machine.execDisp x s
  | .sheetFormation pal pc => Sys2Proof.Machine.execSheetFormation pal pc s
  | .spawnWaitLimit pal => Sys2Proof.Machine.execSpawnWaitLimit pal s
  | .spawnStoreSpaceFreed pal => Sys2Proof.Machine.execSpawnStoreSpaceFreed pal s
  | .palletSwap out inn => Sys2Proof.Machine.execPalletSwap out inn s
  | .palletQuantumExpiry pal => Sys2Proof.Machine.execPalletQuantumExpiry pal s
  | .launchAdmission sub => Sys2Proof.Machine.execLaunchAdmission sub s
  | .evictedSheetRestore pal => Sys2Proof.Machine.execEvictedSheetRestore pal s
  | .launchEnd launch => Sys2Proof.Machine.execLaunchEnd launch s
  | .contextSwitch core cid => Sys2Proof.Machine.execContextSwitch core cid s
  | .contextRestore core cid => Sys2Proof.Machine.execContextRestore core cid s
  | .l1Eviction core sector => Sys2Proof.Machine.execL1Eviction core sector s
  | .storePerformedAtHome k => Sys2Proof.Machine.execStorePerformedAtHome k s
  | .mwaitLimitExpiry uid => Sys2Proof.Machine.execMwaitLimitExpiry uid s
  | .mwaitUnexplainedWake uid => Sys2Proof.Machine.execMwaitUnexplainedWake uid s
  | .swiWakeOr k => Sys2Proof.Machine.execSwiWakeOr k s
  | .copyLanding copy lo n => Sys2Proof.Machine.execCopyLanding copy lo n s
  | .copyEngineFault copy code => Sys2Proof.Machine.execCopyEngineFault copy code s
  | .mmaAccumulationStep mma => Sys2Proof.Machine.execMmaAccumulationStep mma s
  | .pairMatcherWalk pal => Sys2Proof.Machine.execPairMatcherWalk pal s
  | .sequencerPartialArrival k => Sys2Proof.Machine.execSequencerPartialArrival k s
  | .remoteRequestArrival k => Sys2Proof.Machine.execRemoteRequestArrival k s
  | .remoteAckArrival k => Sys2Proof.Machine.execRemoteAckArrival k s
  | .remoteFlagArrival k => Sys2Proof.Machine.execRemoteFlagArrival k s
  | .fenceMarkerArrival k => Sys2Proof.Machine.execFenceMarkerArrival k s
  | .hostMemoryAccess fn cid va wr bytes => Sys2Proof.Machine.execHostMemoryAccess fn cid va wr bytes s
  | .mortarPlaneFailure plane => Sys2Proof.Machine.execMortarPlaneFailure plane s
  | .linkTraining port versions => Sys2Proof.Machine.execLinkTraining port versions s
  | .hostLinkRetraining => Sys2Proof.Machine.execHostLinkRetraining s
  | .trapQueueResume cid base value => Sys2Proof.Machine.execTrapQueueResume cid base value s
  | .trapQueueSpaceFreed cid base ridx => Sys2Proof.Machine.execTrapQueueSpaceFreed cid base ridx s
  | .watchdogExpiry cid => Sys2Proof.Machine.execWatchdogExpiry cid s
  | .queueDoorbell q value => Sys2Proof.Machine.execQueueDoorbell q value s
  | .queueRestart q value => Sys2Proof.Machine.execQueueRestart q value s
  | .queueWakeClear q bits => Sys2Proof.Machine.execQueueWakeClear q bits s
  | .packetFetch q => Sys2Proof.Machine.execPacketFetch q s
  | .packetRefetchTimer q => Sys2Proof.Machine.execPacketRefetchTimer q s
  | .launchPacket q x => Sys2Proof.Machine.execLaunchPacket q x s
  | .pairLaunchPacket q x => Sys2Proof.Machine.execPairLaunchPacket q x s
  | .copyPacket q x => Sys2Proof.Machine.execCopyPacket q x s
  | .signalPacket q x => Sys2Proof.Machine.execSignalPacket q x s
  | .waitPacket q x => Sys2Proof.Machine.execWaitPacket q x s
  | .waitPacketConditionMet q x => Sys2Proof.Machine.execWaitPacketConditionMet q x s
  | .dependencyPacket q x => Sys2Proof.Machine.execDependencyPacket q x s
  | .timestampPacket q x => Sys2Proof.Machine.execTimestampPacket q x s
  | .markerPacket q x => Sys2Proof.Machine.execMarkerPacket q x s
  | .packetEnd q x => Sys2Proof.Machine.execPacketEnd q x s
  | .eventRingSpaceFreed part ridx => Sys2Proof.Machine.execEventRingSpaceFreed part ridx s
  | .firmwareComplexReset => Sys2Proof.Machine.execFirmwareComplexReset s
  | .coreRetirement core => Sys2Proof.Machine.execCoreRetirement core s
  | .getverCmd c => Sys2Proof.Machine.execGetverCmd c s
  | .nonceCmd c => Sys2Proof.Machine.execNonceCmd c s
  | .claimCmd c => Sys2Proof.Machine.execClaimCmd c s
  | .releaseCmd c => Sys2Proof.Machine.execReleaseCmd c s
  | .beatCmd c => Sys2Proof.Machine.execBeatCmd c s
  | .partsetCmd c => Sys2Proof.Machine.execPartsetCmd c s
  | .partdelCmd c => Sys2Proof.Machine.execPartdelCmd c s
  | .partgetCmd c => Sys2Proof.Machine.execPartgetCmd c s
  | .ctxnewCmd c => Sys2Proof.Machine.execCtxnewCmd c s
  | .ctxdelCmd c => Sys2Proof.Machine.execCtxdelCmd c s
  | .queueSetCmd c => Sys2Proof.Machine.execQueueSetCmd c s
  | .qresetCmd c => Sys2Proof.Machine.execQresetCmd c s
  | .evsetCmd c => Sys2Proof.Machine.execEvsetCmd c s
  | .apopenCmd c => Sys2Proof.Machine.execApopenCmd c s
  | .apcloseCmd c => Sys2Proof.Machine.execApcloseCmd c s
  | .mcsetCmd c => Sys2Proof.Machine.execMcsetCmd c s
  | .mcdelCmd c => Sys2Proof.Machine.execMcdelCmd c s
  | .healthCmd c => Sys2Proof.Machine.execHealthCmd c s
  | .retgetCmd c => Sys2Proof.Machine.execRetgetCmd c s
  | .retclrCmd c => Sys2Proof.Machine.execRetclrCmd c s
  | .calgetCmd c => Sys2Proof.Machine.execCalgetCmd c s
  | .portgetCmd c => Sys2Proof.Machine.execPortgetCmd c s
  | .readyCmd c => Sys2Proof.Machine.execReadyCmd c s
  | .fwloadCmd c => Sys2Proof.Machine.execFwloadCmd c s
  | .ownerHeartbeatLapse => Sys2Proof.Machine.execOwnerHeartbeatLapse s
  | .spdmRequest c => Sys2Proof.Machine.execSpdmRequest c s
  | .deviceReset => Sys2Proof.Machine.execDeviceReset s
  | .thermalThrottleStep part => Sys2Proof.Machine.execThermalThrottleStep part s
  | .clockRaiseStep part => Sys2Proof.Machine.execClockRaiseStep part s
  | .overtempShutdown => Sys2Proof.Machine.execOvertempShutdown s
  | .eccError unit addr correctable => Sys2Proof.Machine.execEccError unit addr correctable s
  | .backgroundScrub line => Sys2Proof.Machine.execBackgroundScrub line s
  | .debugHalt pal => Sys2Proof.Machine.execDebugHalt pal s
  | .debugResume pal => Sys2Proof.Machine.execDebugResume pal s
  | .debugRollback pal => Sys2Proof.Machine.execDebugRollback pal s
  | .rollbackTargetReached pal => Sys2Proof.Machine.execRollbackTargetReached pal s
  | .exposureEnd pal => Sys2Proof.Machine.execExposureEnd pal s
  | .traceSample pal => Sys2Proof.Machine.execTraceSample pal s
  | .registerWrite pal word value => Sys2Proof.Machine.execRegisterWrite pal word value s
  | .illegalInstruction bad off w1 w2 => Sys2Proof.Machine.execIllegalInstruction bad off w1 w2 s
  | .undefinedCommand opc c => Sys2Proof.Machine.execUndefinedCommand opc c s

end Sys2Proof.Machine
end

