-- ==== Sys2Proof/Machine/Step.lean ====
section
/-! DEFINITION. One step of the machine: the next move of the agenda, or, when it is empty, the device's own next move (R32). -/

namespace Sys2Proof.Machine

/-- Every step advances the model's counter, to which the free values are applied, and device time by one ns (log 6). -/
def ticked (s : State) : State := { s with tick := s.tick + 1, mg := { s.mg with ns := s.mg.ns + 1 } }

/-- A sheet issues: fetch, decode, execute. -/
def stepSheet (s : State) (key : Nat) : Out :=
  match fetchSheet s key with
  | .done t => after s (.next t)
  | .run i t => after s (exec i t)

/-- A command core executes one instruction (R427). -/
def stepCore (s : State) (core : Nat) : Out :=
  let w := fwWord s core
  match decodeXkw w with
  | some i => after s (exec i { s with iss := fwIssue s core })
  | none => if w.extractLsb' 0 7 = 0x0B#7 then after s (.next (fwTrap s core 2)) else .refused .baseRiscv

/-- A sheet's next instruction. One that waits is tried again, which counts as nothing while its sheet stays as it is (R32, R34). -/
def tryIssue (s : State) (sh : Sheet) : Option Out :=
  let o := stepSheet s sh.key
  match sh.stalled, o with
  | true, .next t => if getSheet t sh.key = some sh then none else some o
  | _, _ => some o

/-- What a quadrant issues: the first sheet in R32's order whose instruction does anything. -/
def quadIssue (s : State) (quad : Nat) : Option (Sheet × Out) :=
  (candidates s quad).findSome? fun sh => (tryIssue s sh).map fun o => (sh, o)

/-- What the quadrants issue next: of their choices, that of the sheet that has gone longest since its last issue. -/
def sheetIssue (s : State) : Option Out :=
  ((sortBy (fun (a b : Sheet × Out) => a.1.lastIssue < b.1.lastIssue || (a.1.lastIssue == b.1.lastIssue && a.1.slot ≤ b.1.slot))
    ((busyQuads s).filterMap (quadIssue s))).head?).map (·.2)

/-- The move that comes next: a sheet in a prefix run goes on (R64), then the agenda, then the device's own choice. -/
def stepMove (s : State) : Out :=
  match inRun s with
  | some sh => stepSheet s sh.key
  | none =>
    match s.agenda with
    | .event i :: r => after s (exec i { s with agenda := r })
    | .issue k :: r => match getSheet s k with
      | some sh => if issuesNext s sh then stepSheet { s with agenda := r } k else .next { s with agenda := r }
      | none => .next { s with agenda := r }
    | .fw c :: r => stepCore { s with agenda := r } c
    | [] =>
      let s := { s with turn := s.turn + 1 }
      autoMove s fun _ => sheetIssue s

/-- A reset is the move that comes next. -/
def resetNext (s : State) : Bool :=
  match s.agenda with
  | .event i :: _ => i.isReset
  | _ => false

/-- One step. A package that has powered itself down does nothing more until it is reset (R434). -/
def step (s : State) : Out := if s.mg.off && !resetNext s then .fault .poweredDown else stepMove (ticked s)

/-- The instruction whose bits are w, placed where the next step fetches and runs it (log 6). -/
def State.withFetchWord (s : State) (nbits w : Nat) : State :=
  let ws := tableWords (w % 2 ^ nbits)
  match decodeWords ws with
  | .ok _ _ => placeWords s ws
  | _ =>
    match decodeXkw (BitVec.ofNat 32 (w % 2 ^ nbits)) with
    | some _ => placeXkw s (BitVec.ofNat 32 (w % 2 ^ nbits))
    | none => placeWords s ws

end Sys2Proof.Machine
end

