-- ==== Sys2Proof/Safety.lean ====
section
/-! DEFINITION. What counts as a safe step and a safe run, and the words in which the statements are made: when an instruction
executes in one lane without a fault or a wait (R69, R203), and what it leaves when it completes (R59, R64, R369). -/

namespace Sys2Proof

open Sys2Proof.Machine

/-- The step answers a next state. -/
def StepSafe (s : State) : Prop := ∃ t, step s = .next t

/-- k steps, each answering a next state. -/
def RunSafe : Nat → State → Prop
  | 0, _ => True
  | n + 1, s => ∃ t, step s = .next t ∧ RunSafe n t

/-! ## When an instruction executes -/

/-- The lanes in which an instruction acts: occupied, active in em, awake, not done, passed by the guard (R15, R58, R369). -/
def actLanes (o : OpForm) (f : Fld) (s : State) (e : Env) : List Nat :=
  lanesActing s e (execFld o f s.iss.run) (issueAt s e.sh) (awakeLanes e.sh)

/-- No check that comes before an instruction's own effect stops the unit v (R69): no guard, privilege, class, membership, stall-count
or thread fault, no tile that the course does not hold, no predicate 11, and no operand still awaited. -/
structure Clear (o : OpForm) (s : State) (v : LV) : Prop where
  guard : v.unitGuard = none
  ops   : v.operandFault o = none
  tiles : v.tileFault o = none
  preds : v.badQ o = none
  block : v.block o s = .ok s []

/-- The instruction (o, f) of the issuing sheet decodes without a fault and acts in exactly one lane, l, with the view v, and nothing
stops it there. -/
structure Solo (o : OpForm) (f : Fld) (s : State) (e : Env) (l : Nat) (v : LV) : Prop where
  env   : envOf s s.iss.sheet = some e
  dec   : decodeCheck o f (effFld f s.iss.run) s.iss = none
  acts  : actLanes o f s e = [l]
  view  : viewOf s e (execFld o f s.iss.run) (issueAt s e.sh) [l] = some v
  clear : Clear o s v

/-! ## What it leaves -/

/-- The thread in a lane of a sheet. -/
def threadAt (s : State) (sheet lane : Nat) : Option Thread := (getSheet s sheet).bind fun sh => laneThread sh lane

/-- The sheet of e has gone on past the instruction (R64): its program counter is at the next instruction, the prefix run and the done
mask are clear, lane l holds the thread th with no exemption from race checks left over (R229), every other lane holds what it held
and no lane is added, the k registers are ks, and the sheet's masks are as they were. -/
structure WentOnK (s t : State) (e : Env) (l : Nat) (th : Thread) (ks : Sparse (List Word)) : Prop where
  sheet : ∃ sh, getSheet t e.sh.key = some sh ∧ sh.pc = s.iss.next ∧ sh.run = [] ∧ sh.done = 0 ∧ sh.em = e.sh.em ∧
    sh.m = e.sh.m ∧ sh.course = e.sh.course ∧ sh.sleep = e.sh.sleep ∧ sh.ks = ks
  here  : threadAt t e.sh.key l = some (endSkip th)
  others : ∀ k, k ≠ l → threadAt t e.sh.key k = laneThread e.sh k

/-- The same for an instruction that writes no k register. -/
def WentOn (s t : State) (e : Env) (l : Nat) (th : Thread) : Prop := WentOnK s t e l th e.sh.ks

/-- Everything outside one sheet, the issue-time accounts and a context's watchdog is as it was: every byte of memory, every other
sheet, the spawn store, courses, tiles, mailboxes, clocks, engines, requests, queues and launches. -/
structure OnlySheet (s t : State) (key : Nat) : Prop where
  ms     : t.ms = s.ms
  en     : t.en = s.en
  fb     : t.fb = s.fb
  qs     : t.qs = s.qs
  store  : t.cs.store = s.cs.store
  tiles  : t.cs.tiles = s.cs.tiles
  boxes  : t.cs.boxes = s.cs.boxes
  agents : t.cs.agents = s.cs.agents
  sheets : ∀ k, k ≠ key → getSheet t k = getSheet s k
  courses : ∀ k, (getPallet t k).map (fun p => (p.table, p.ser, p.tray, p.bars, p.st)) =
    (getPallet s k).map (fun p => (p.table, p.ser, p.tray, p.bars, p.st))
  parts  : t.mg.parts = s.mg.parts
  ctxs   : ∀ c, (getCtx t c).map (fun x => { x with wdog := 0 }) = (getCtx s c).map (fun x => { x with wdog := 0 })

/-- g[n], g[n+1], … := the cnt words of x, lowest first; their pending marks go (R59, R273). -/
def putG : (n cnt x : Nat) → Thread → Thread
  | _, 0, _, t => t
  | n, cnt + 1, x, t => putG (n + 1) cnt (x / 2 ^ 32) { t with
      g := t.g.set n (BitVec.ofNat 32 x)
      gp := t.gp.filter fun j => j != n }

/-- f[n] := x with a tag (R127). -/
def putF (n : Nat) (x : Dword) (tag : BitVec 4) (t : Thread) : Thread := { t with f := t.f.set n x, ft := t.ft.set n tag }

/-- q[n] := x. -/
def putQ (n : Nat) (x : BitVec 2) (t : Thread) : Thread := { t with q := t.q.set n x }

/-! ## Integer results in terms of the elements (R94 to R100) -/

/-- Element i of an operand (R94). -/
def srcElem (v : LV) (fld i : Nat) : BitVec (intW v.f.fmt) :=
  BitVec.ofNat _ (v.int fld (intCnt v.f) / 2 ^ (intW v.f.fmt * i))

/-- The value of an element: two's complement in an s format, unsigned in a u format (R94). -/
def elemInt {w : Nat} (sg : Bool) (x : BitVec w) : Int := if sg then x.toInt else x.toNat

/-- An exact result as an element: wrapped, or with sat clamped to the element's range (R94). -/
def narrow (sg sat : Bool) (w : Nat) (r : Int) : BitVec w :=
  let lo : Int := if sg then -2 ^ (w - 1) else 0
  let hi : Int := if sg then 2 ^ (w - 1) - 1 else 2 ^ w - 1
  BitVec.ofInt w (if sat then max lo (min hi r) else r)

/-- The exact result per element of the operations that R95, R98 and R99 give by arithmetic, from the values of the elements a, b, c of
an operand width w. -/
inductive ArithRow : Instr → OpForm → Fld → (Bool → Nat → Int → Int → Int → Int) → Prop
  | iadd (f : Fld) : ArithRow (.iadd f) formIadd f (fun _ _ a b _ => a + b)
  | isub (f : Fld) : ArithRow (.isub f) formIsub f (fun _ _ a b _ => a - b)
  | imul (f : Fld) : ArithRow (.imul f) formImul f (fun _ _ a b _ => a * b)
  | imad (f : Fld) : ArithRow (.imad f) formImad f (fun _ _ a b c => a * b + c)
  | imulhi (f : Fld) : ArithRow (.imulhi f) formImulhi f (fun _ w a b _ => a * b / 2 ^ w)
  | idiv (f : Fld) : ArithRow (.idiv f) formIdiv f (fun sg w a b _ => if b = 0 then (if sg then -1 else 2 ^ w - 1) else a.tdiv b)
  | irem (f : Fld) : ArithRow (.irem f) formIrem f (fun _ _ a b _ => if b = 0 then a else a - b * a.tdiv b)
  | imin (f : Fld) : ArithRow (.imin f) formImin f (fun _ _ a b _ => min a b)
  | imax (f : Fld) : ArithRow (.imax f) formImax f (fun _ _ a b _ => max a b)
  | iabs (f : Fld) : ArithRow (.iabs f) formIabs f (fun _ _ a _ _ => |a|)
  | ineg (f : Fld) : ArithRow (.ineg f) formIneg f (fun _ _ a _ _ => -a)
  | iadd3 (f : Fld) : ArithRow (.iadd3 f) formIadd3 f (fun _ _ a b c => a + b + c)

/-- Position and length of a bit field, from bits [7:0] and [15:8] of its operand, clamped to the element (R100). -/
def fieldOf {w : Nat} (x : BitVec w) : Nat × Nat :=
  ((x.extractLsb' 0 8).toNat, min (x.extractLsb' 8 8).toNat (w - (x.extractLsb' 0 8).toNat))

/-- The result per element of the operations that R95, R98 and R100 give by bits, from the elements a, b, c of width w and, for isel,
the predicate qC. Counts and positions come from the low 32 bits of their operand. -/
inductive BitsRow : Instr → OpForm → Fld → (Bool → (w : Nat) → BitVec w → BitVec w → BitVec w → BitVec 2 → BitVec w) → Prop
  | iand (f : Fld) : BitsRow (.iand f) formIand f (fun _ _ a b _ _ => a &&& b)
  | ior (f : Fld) : BitsRow (.ior f) formIor f (fun _ _ a b _ _ => a ||| b)
  | ixor (f : Fld) : BitsRow (.ixor f) formIxor f (fun _ _ a b _ _ => a ^^^ b)
  | inot (f : Fld) : BitsRow (.inot f) formInot f (fun _ _ a _ _ _ => ~~~a)
  | shl (f : Fld) : BitsRow (.shl f) formShl f (fun _ _ a b _ _ => a <<< (b.toNat % 2 ^ 32))
  | shr (f : Fld) : BitsRow (.shr f) formShr f (fun _ _ a b _ _ => a >>> (b.toNat % 2 ^ 32))
  | sar (f : Fld) : BitsRow (.sar f) formSar f (fun _ _ a b _ _ => a.sshiftRight (b.toNat % 2 ^ 32))
  | popc (f : Fld) : BitsRow (.popc f) formPopc f (fun _ w a _ _ _ => BitVec.ofNat w ((List.range w).countP fun k => a.getLsbD k))
  | clz (f : Fld) : BitsRow (.clz f) formClz f (fun _ w a _ _ _ =>
      BitVec.ofNat w (((List.range w).find? fun k => a.getLsbD (w - 1 - k)).getD w))
  | ctz (f : Fld) : BitsRow (.ctz f) formCtz f (fun _ w a _ _ _ => BitVec.ofNat w (((List.range w).find? fun k => a.getLsbD k).getD w))
  | brev (f : Fld) : BitsRow (.brev f) formBrev f (fun _ _ a _ _ _ => a.reverse)
  | bfe (f : Fld) : BitsRow (.bfe f) formBfe f (fun sg w a b _ _ =>
      let p := fieldOf b
      if w ≤ p.1 then 0 else if sg then (a.extractLsb' p.1 p.2).signExtend w else (a.extractLsb' p.1 p.2).setWidth w)
  | bfi (f : Fld) : BitsRow (.bfi f) formBfi f (fun _ w a b c _ =>
      let p := fieldOf c
      let mask := ((BitVec.allOnes p.2).setWidth w) <<< p.1
      if w ≤ p.1 then b else (b &&& ~~~mask) ||| ((a <<< p.1) &&& mask))
  | rotl (f : Fld) : BitsRow (.rotl f) formRotl f (fun _ _ a b _ _ => a.rotateLeft (b.toNat % 2 ^ 32))
  | rotr (f : Fld) : BitsRow (.rotr f) formRotr f (fun _ _ a b _ _ => a.rotateRight (b.toNat % 2 ^ 32))
  | isel (f : Fld) : BitsRow (.isel f) formIsel f (fun _ _ a b _ q => if q = qT then a else b)
  | sext (f : Fld) : BitsRow (.sext f) formSext f (fun _ w a b _ _ => (a.setWidth (b.toNat % 2 ^ 32 % w + 1)).signExtend w)

/-- k[n], k[n+1], … of column c := the cnt words of x (R101). -/
def putK (c : Nat) : (n cnt x : Nat) → Sparse (List Word) → Sparse (List Word)
  | _, 0, _, t => t
  | n, cnt + 1, x, t => putK c (n + 1) cnt (x / 2 ^ 32) (sPut t c ((sGetD t c zeroK).set n (BitVec.ofNat 32 x)))

/-! ## Instructions of one lane -/

/-- Instruction i completes in lane l: the lane's thread becomes th, the k registers ks, and outside the sheet the state is s1. -/
def EndsK (i : Instr) (s s1 : State) (e : Env) (l : Nat) (th : Thread) (ks : Sparse (List Word)) : Prop :=
  ∃ t, exec i s = .next t ∧ WentOnK s t e l th ks ∧ OnlySheet s1 t e.sh.key

/-- The same for an instruction that writes no k register. -/
def Ends (i : Instr) (s s1 : State) (e : Env) (l : Nat) (th : Thread) : Prop := EndsK i s s1 e l th e.sh.ks

/-- The six conditions (R96, R136) on integers. -/
def condOf (c : Nat) (a b : Int) : Bool :=
  match c with
  | 0 => a = b
  | 1 => a ≠ b
  | 2 => a < b
  | 3 => a ≤ b
  | 4 => b < a
  | _ => b ≤ a

/-- Marks g[n] pending (R273). -/
def markG (n : Nat) (t : Thread) : Thread := { t with gp := if t.gp.contains n then t.gp else n :: t.gp }

/-- The special registers (R103): number and value for the executing thread. -/
inductive SpecialReg (v : LV) (s : State) : Nat → Nat → Prop
  | tid : SpecialReg v s 0x00 v.t.tid.toNat
  | lane : SpecialReg v s 0x01 v.lane
  | col : SpecialReg v s 0x02 (v.lane % 32)
  | pass : SpecialReg v s 0x03 (v.lane / 32)
  | sheet : SpecialReg v s 0x04 v.env.sh.slot
  | noCourse : v.env.sh.course = none → SpecialReg v s 0x05 (2 ^ 32 - 1)
  | course (c : Nat) (x : Course) : v.env.sh.course = some c → sGet v.env.pl.table c = some x →
      SpecialReg v s 0x05 (((if x.clus then 2 ^ 31 else 0) + v.env.pl.core % 256 * 2 ^ 22 +
        sGetD v.env.pl.ser c 0 % 2 ^ 16 * 2 ^ 6 + c % 64) % 2 ^ 32)
  | core : SpecialReg v s 0x06 v.env.pl.core
  | clus : SpecialReg v s 0x07 (v.env.pl.core / 8)
  | die : SpecialReg v s 0x08 (v.env.pl.core / 64)
  | chip : SpecialReg v s 0x09 s.fb.node
  | ctx : SpecialReg v s 0x0A v.env.cx.cid.toNat
  | launch : SpecialReg v s 0x0B v.env.la.ident.toNat
  | pallet : SpecialReg v s 0x0C v.env.pl.num
  | nthr : SpecialReg v s 0x0D v.env.la.r.thr
  | cyc : SpecialReg v s 0x0E (v.cyc % 2 ^ 64)
  | ret : SpecialReg v s 0x0F v.t.ret.toNat
  | expo : SpecialReg v s 0x10 (v.env.pl.expo.toNat + 2 ^ 32 * v.env.pl.rwc.toNat)
  | clk : SpecialReg v s 0x11 ((getAgent s (palletAgent s v.env.pl)).c % 2 ^ 48)
  | flr : SpecialReg v s 0x12 ((getAgent s (palletAgent s v.env.pl)).f % 2 ^ 48)
  | fpf : SpecialReg v s 0x13 v.t.fpf.toNat
  | seed : SpecialReg v s 0x14 v.env.la.r.seed.toNat
  | trec (n : Nat) (c : TrapCtx) : n < 16 → v.t.trap = some c → SpecialReg v s (0x40 + n) (fieldB c.info (4 * n) 4)
  | noTrec (n : Nat) : n < 16 → v.t.trap = none → SpecialReg v s (0x40 + n) 0

/-- The prefix kinds (R62). -/
inductive PrefixRow : Instr → Nat → Fld → Prop
  | nop (f : Fld) : PrefixRow (.nop f) 0 f
  | norace (f : Fld) : PrefixRow (.norace f) 1 f
  | atom (f : Fld) : PrefixRow (.atom f) 2 f
  | peer (f : Fld) : PrefixRow (.peer f) 3 f
  | ord (f : Fld) : PrefixRow (.ord f) 4 f
  | scope (f : Fld) : PrefixRow (.scope f) 5 f

/-- t is s but for the sheets of the cores. -/
def OnlySheets (s t : State) : Prop := t = { s with cs := { s.cs with sheets := t.cs.sheets } }

/-! ## Floating operands and results (R129 to R137) -/

/-- The image of a floating source: the literal, or the register's 64 bits (R47). -/
def fImage (v : LV) (fld : Nat) : Nat := if litIs v.f fld then v.f.imm.toNat else (v.fr fld (fieldNum v.f fld)).1.toNat

/-- A floating source can be read under the tag: it is a literal, or its register carries the tag (R129). -/
def fTagged (v : LV) (tag : BitVec 4) (fld : Nat) : Prop := litIs v.f fld = true ∨ (v.fr fld (fieldNum v.f fld)).2 = tag

/-- The thread after a floating result: the register, its tag, and the sticky flags raised (R104, R132). -/
def putFlags (x : Exc) (t : Thread) : Thread := { t with fpf := t.fpf ||| x }

/-- The arithmetic operations that round one exact result: source fields and the exact result under a rounding mode (R135, R137). fma's
addend is fC, or fD in the 32-bit form. -/
inductive FloatRow : Instr → OpForm → Fld → List Nat → (Nat → FV → FV → FV → XR) → Prop
  | fadd (f : Fld) : FloatRow (.fadd f) formFadd f [1, 2] (fun m a b _ => addFV m a b)
  | fmul (f : Fld) : FloatRow (.fmul f) formFmul f [1, 2] (fun _ a b _ => mulFV a b)
  | fma (f : Fld) : FloatRow (.fma f) formFma f [1, 2, if f.len.getLsbD 1 then 3 else 0] (fun m a b c => fmaFV m a b c)
  | fdiv (f : Fld) : FloatRow (.fdiv f) formFdiv f [1, 2] (fun _ a b _ => divFV a b)
  | fsqrt (f : Fld) : FloatRow (.fsqrt f) formFsqrt f [1] (fun _ a _ _ => sqrtFV a)

/-- The operations on element bits: sources, and the result's bits and exceptions from the sources' bits (R137, R138, R140). -/
inductive FloatBitsRow : Instr → OpForm → Fld → List Nat → (FF → Bool → Nat → Nat → Nat × Exc) → Prop
  | fabs (f : Fld) : FloatBitsRow (.fabs f) formFabs f [1] (fun F _ a _ => (a % 2 ^ (F.bits - 1), 0))
  | fneg (f : Fld) : FloatBitsRow (.fneg f) formFneg f [1] (fun F _ a _ => (a % 2 ^ (F.bits - 1) + F.signBit (!F.isNeg a), 0))
  | fcsgn (f : Fld) : FloatBitsRow (.fcsgn f) formFcsgn f [1, 2] (fun F _ a b => (a % 2 ^ (F.bits - 1) + F.signBit (F.isNeg b), 0))
  | fmin (f : Fld) : FloatBitsRow (.fmin f) formFmin f [1, 2] (fun F z a b =>
      let r := F.finish 0 z false (minMaxFV false (F.read z a) (F.read z b))
      (r.1, r.2 ||| minMaxExc (F.read z a) (F.read z b)))
  | fmax (f : Fld) : FloatBitsRow (.fmax f) formFmax f [1, 2] (fun F z a b =>
      let r := F.finish 0 z false (minMaxFV true (F.read z a) (F.read z b))
      (r.1, r.2 ||| minMaxExc (F.read z a) (F.read z b)))
  | frnd (f : Fld) : FloatBitsRow (.frnd f) formFrnd f [1] (fun F z a _ => rndElem F f.rnd.toNat (f.md.getLsbD 0) (F.read z a))
  | frcp (f : Fld) : FloatBitsRow (.frcp f) formFrcp f [1] (fun F z a _ => approxOp 7 F z a)
  | frsq (f : Fld) : FloatBitsRow (.frsq f) formFrsq f [1] (fun F z a _ => approxOp 8 F z a)
  | fex2 (f : Fld) : FloatBitsRow (.fex2 f) formFex2 f [1] (fun F z a _ => approxOp 9 F z a)
  | flg2 (f : Fld) : FloatBitsRow (.flg2 f) formFlg2 f [1] (fun F z a _ => approxOp 10 F z a)
  | fsin (f : Fld) : FloatBitsRow (.fsin f) formFsin f [1] (fun F z a _ => approxOp 11 F z a)
  | fcos (f : Fld) : FloatBitsRow (.fcos f) formFcos f [1] (fun F z a _ => approxOp 12 F z a)

/-- A scalar source whose format its tag tells, with its format and value; a literal is an f64 image (R143). -/
inductive FloatScalar (v : LV) (fld : Nat) : FF → FV → Prop
  | lit : litIs v.f fld = true → FloatScalar v fld ff64 (ff64.read v.fz v.f.imm.toNat)
  | reg (F : FF) : litIs v.f fld = false → tagFF (v.fr fld (fieldNum v.f fld)).2 = some F →
      FloatScalar v fld F (F.read v.fz (elemAt F.bits (v.fr fld (fieldNum v.f fld)).1.toNat 0))

/-- The instructions of which each lane's result is a function of its own operands: when a lane's operands are in order, and what the
lane that reads them makes of a thread (R94 to R101, R106, R129 to R140). -/
inductive LaneLocal : Instr → OpForm → Fld → (LV → Prop) → (LV → Thread → Thread) → Prop
  | arith (i : Instr) (o : OpForm) (f : Fld) (r : Bool → Nat → Int → Int → Int → Int) : ArithRow i o f r →
      LaneLocal i o f (fun _ => True) fun v => putG v.f.d.toNat (intCnt v.f) (sumN ((List.range (intN v.f.fmt)).map fun k =>
        (narrow (intSigned v.f.fmt) (v.f.md.getLsbD 0) (intW v.f.fmt) (r (intSigned v.f.fmt) (intW v.f.fmt)
          (elemInt (intSigned v.f.fmt) (srcElem v 1 k)) (elemInt (intSigned v.f.fmt) (srcElem v 2 k))
          (elemInt (intSigned v.f.fmt) (srcElem v 3 k)))).toNat * 2 ^ (intW v.f.fmt * k)))
  | bits (i : Instr) (o : OpForm) (f : Fld) (r : Bool → (w : Nat) → BitVec w → BitVec w → BitVec w → BitVec 2 → BitVec w) :
      BitsRow i o f r →
      LaneLocal i o f (fun _ => True) fun v => putG v.f.d.toNat (intCnt v.f) (sumN ((List.range (intN v.f.fmt)).map fun k =>
        (r (intSigned v.f.fmt) (intW v.f.fmt) (srcElem v 1 k) (srcElem v 2 k) (srcElem v 3 k) (v.q 3 v.f.c.toNat)).toNat *
          2 ^ (intW v.f.fmt * k)))
  | icmp (f : Fld) : LaneLocal (.icmp f) formIcmp f (fun _ => True) fun v =>
      putQ f.d.toNat (if condOf f.md.toNat (elemInt (intSigned f.fmt) (srcElem v 1 0)) (elemInt (intSigned f.fmt) (srcElem v 2 0)) then qT
        else qF)
  | mov (f : Fld) : LaneLocal (.mov f) formMov f (fun _ => True) fun v t =>
      (if intCnt f = 1 ∧ litIs f 1 = false ∧ v.t.gp.contains f.a.toNat then markG f.d.toNat else id)
        (putG f.d.toNat (intCnt f) (v.int 1 (intCnt f)) t)
  | mkg (f : Fld) : LaneLocal (.mkg f) formMkg f (fun _ => True) fun v =>
      putG f.d.toNat (intCnt f) (if litIs f 1 then f.imm.toNat else v.ks 1 f.a.toNat (intCnt f))
  | mvf (f : Fld) : LaneLocal (.mvf f) formMvf f (fun _ => True) fun v => putF f.d.toNat (BitVec.ofNat 64 (v.int 1 (intCnt f))) 13
  | qand (f : Fld) : LaneLocal (.qand f) formQand f (fun _ => True) fun v => putQ f.d.toNat
      (let a := v.q 1 f.a.toNat; let b := v.q 2 f.b.toNat
       if a = qF ∨ b = qF then qF else if a = qT ∧ b = qT then qT else qU)
  | qor (f : Fld) : LaneLocal (.qor f) formQor f (fun _ => True) fun v => putQ f.d.toNat
      (let a := v.q 1 f.a.toNat; let b := v.q 2 f.b.toNat
       if a = qT ∨ b = qT then qT else if a = qF ∧ b = qF then qF else qU)
  | qxor (f : Fld) : LaneLocal (.qxor f) formQxor f (fun _ => True) fun v => putQ f.d.toNat
      (let a := v.q 1 f.a.toNat; let b := v.q 2 f.b.toNat
       if a = qU ∨ b = qU then qU else if a = b then qF else qT)
  | qnot (f : Fld) : LaneLocal (.qnot f) formQnot f (fun _ => True) fun v => putQ f.d.toNat
      (let a := v.q 1 f.a.toNat; if a = qF then qT else if a = qT then qF else qU)
  | float (i : Instr) (o : OpForm) (f : Fld) (flds : List Nat) (r : Nat → FV → FV → FV → XR)
      (y : LV → List (Nat × Exc)) : FloatRow i o f flds r →
      (∀ v, y v = (List.range (ffN f.fmt.toNat)).map fun k => (ffOf f.fmt.toNat).finish f.rnd.toNat v.fz false
        (let src := fun n => (ffOf f.fmt.toNat).read v.fz (elemAt (ffOf f.fmt.toNat).bits (fImage v n) k)
         r f.rnd.toNat (src (flds.getD 0 1)) (src (flds.getD 1 2)) (src (flds.getD 2 3)))) →
      LaneLocal i o f (fun v => (∀ n ∈ flds, fTagged v (fmtTag f.fmt) n) ∧ excAll ((y v).map (·.2)) &&& trapMask v.env.la = 0)
        fun v t => putF f.d.toNat (BitVec.ofNat 64 (packElems (ffOf f.fmt.toNat).bits ((y v).map (·.1)))) (fmtTag f.fmt)
          (putFlags (excAll ((y v).map (·.2))) t)
  | floatBits (i : Instr) (o : OpForm) (f : Fld) (flds : List Nat) (r : FF → Bool → Nat → Nat → Nat × Exc)
      (y : LV → List (Nat × Exc)) : FloatBitsRow i o f flds r →
      (∀ v, y v = (List.range (ffN f.fmt.toNat)).map fun k => r (ffOf f.fmt.toNat) v.fz
        (elemAt (ffOf f.fmt.toNat).bits (fImage v 1) k) (elemAt (ffOf f.fmt.toNat).bits (fImage v 2) k)) →
      LaneLocal i o f (fun v => (∀ n ∈ flds, fTagged v (fmtTag f.fmt) n) ∧ excAll ((y v).map (·.2)) &&& trapMask v.env.la = 0)
        fun v t => putF f.d.toNat (BitVec.ofNat 64 (packElems (ffOf f.fmt.toNat).bits ((y v).map (·.1)))) (fmtTag f.fmt)
          (putFlags (excAll ((y v).map (·.2))) t)

/-- The instruction (o, f) of the issuing sheet decodes without a fault and acts in the lanes ls. The units in which it executes are the
lanes themselves, or with U the strips (R17); the unit whose first lane is l has the view `view l`, and nothing stops it there. -/
structure Several (o : OpForm) (f : Fld) (s : State) (e : Env) (ls : List Nat) (view : Nat → LV) : Prop where
  env   : envOf s s.iss.sheet = some e
  dec   : decodeCheck o f (effFld f s.iss.run) s.iss = none
  acts  : actLanes o f s e = ls
  acting : ls ≠ []
  once  : ls.Nodup
  views : ∀ u ∈ unitsOf (execFld o f s.iss.run).u ls,
    viewOf s e (execFld o f s.iss.run) (issueAt s e.sh) u = some (view (u.headD 0)) ∧ Clear o s (view (u.headD 0))

/-- Sets half h of residue register n (R146). -/
def putE (n h x : Nat) (t : Thread) : Thread :=
  { t with e := t.e.set n (BitVec.ofNat 64 (if h = 0 then (nthD t.e n 0).toNat / 2 ^ 32 * 2 ^ 32 + x
      else (nthD t.e n 0).toNat % 2 ^ 32 + x * 2 ^ 32)) }

/-! ## Intervals (R147 to R154) -/

/-- An interval source carries the tags of its width (R147). -/
def ivTagged (v : LV) (fld : Nat) : Prop :=
  litIs v.f fld = true ∨
  if v.f.fmt = 1 then (v.fr fld (fieldNum v.f fld)).2 = 8 ∧ (v.fr fld (fieldNum v.f fld + 1)).2 = 9
  else (v.fr fld (fieldNum v.f fld)).2 = 7

/-- The interval that a source stands for; none is the empty interval (R147). -/
def ivValue (v : LV) (fld : Nat) : IV :=
  if v.f.fmt = 1 then
    if litIs v.f fld then ivOf (ff64.val v.f.imm.toNat) (ff64.val v.f.imm.toNat)
    else ivOf (ff64.val (v.fr fld (fieldNum v.f fld)).1.toNat) (ff64.val (v.fr fld (fieldNum v.f fld + 1)).1.toNat)
  else ivOf (ff32.val (elemAt 32 (fImage v fld) 0)) (ff32.val (elemAt 32 (fImage v fld) 1))

/-- Writes an interval: one register of two f32 bounds, or a pair of f64 bounds (R147). -/
def putIv (f : Fld) (n lo hi : Nat) (t : Thread) : Thread :=
  if f.fmt = 1 then putF (n + 1) (BitVec.ofNat 64 hi) 9 (putF n (BitVec.ofNat 64 lo) 8 t)
  else putF n (BitVec.ofNat 64 (lo + hi * 2 ^ 32)) 7 t

/-- The operations on two nonempty intervals: bounds of the result, none for empty (R150, R151). -/
inductive IvTwoRow : Instr → OpForm → Fld → (FF → FV × FV → FV × FV → Option (Nat × Nat)) → Prop
  | iadd (f : Fld) : IvTwoRow (.iaddInterval f) formIaddInterval f
      (fun F a b => some (boundBits F false (addFV 2 a.1 b.1), boundBits F true (addFV 3 a.2 b.2)))
  | isub (f : Fld) : IvTwoRow (.isubInterval f) formIsubInterval f
      (fun F a b => some (boundBits F false (addFV 2 a.1 b.2.negate), boundBits F true (addFV 3 a.2 b.1.negate)))
  | imul (f : Fld) : IvTwoRow (.imulInterval f) formImulInterval f
      (fun F a b => some (hullBits F [mulIv a.1 b.1, mulIv a.1 b.2, mulIv a.2 b.1, mulIv a.2 b.2]))
  | idiv (f : Fld) : IvTwoRow (.idivInterval f) formIdivInterval f divIv
  | iinter (f : Fld) : IvTwoRow (.iinter f) formIinter f (fun F a b =>
      if ltFV (minFV a.2 b.2) (maxFV a.1 b.1) then none else some (keepBound F (maxFV a.1 b.1), keepBound F (minFV a.2 b.2)))

/-- The operations on one nonempty interval. -/
inductive IvOneRow : Instr → OpForm → Fld → (FF → FV × FV → Option (Nat × Nat)) → Prop
  | isqr (f : Fld) : IvOneRow (.isqr f) formIsqr f (fun F a =>
      some (hullBits F (if leFV a.1 zeroFV && leFV zeroFV a.2 then [.num false 0 0, mulFV a.1 a.1, mulFV a.2 a.2]
        else [mulFV a.1 a.1, mulFV a.2 a.2])))
  | isqrt (f : Fld) : IvOneRow (.isqrt f) formIsqrt f (fun F a =>
      if ltZero a.2 then none
      else some (boundBits F false (sqrtFV (if ltZero a.1 then zeroFV else a.1)), boundBits F true (sqrtFV a.2)))

/-- The operations from an interval to a scalar: bits for the empty interval, and for a nonempty one (R150, R152). -/
inductive IvScalarRow : Instr → OpForm → Fld → (FF → Nat) → (FF → FV × FV → Nat) → Prop
  | ilo (f : Fld) : IvScalarRow (.ilo f) formIlo f (fun F => F.infBits) (fun F a => (F.finish 0 false false a.1.toXR).1)
  | ihi (f : Fld) : IvScalarRow (.ihi f) formIhi f (fun F => F.signBit true + F.infBits) (fun F a => (F.finish 0 false false a.2.toXR).1)
  | imid (f : Fld) : IvScalarRow (.imid f) formImid f (fun F => F.nanBits) midBits
  | iwid (f : Fld) : IvScalarRow (.iwid f) formIwid f (fun F => F.nanBits) (fun F a => (F.finish 3 false false (addFV 3 a.2 a.1.negate)).1)

/-! ## Masks and collectives of a pinned course (R29, R108, R109, R255 to R258) -/

/-- A mask instruction (o, f) can execute: nothing stops it, and v is the view of the lowest lane that executes it, or of the lowest
lane when em is empty. -/
structure MaskReady (o : OpForm) (f : Fld) (s : State) (e : Env) (v : LV) : Prop where
  env   : envOf s s.iss.sheet = some e
  dec   : decodeCheck o f f s.iss = none
  views : ∃ r, viewsOf s e f (issueAt s e.sh) (if (awakeLanes e.sh).isEmpty then (e.sh.lanes.map (·.1)).take 1
      else awakeLanes e.sh) = v :: r ∧
    maskFaults o (awakeLanes e.sh).isEmpty (v :: r) = [] ∧ ∀ w ∈ v :: r, w.interlock o s = false

/-- The instruction completes for the whole course: em becomes em, the masks m, and each lane's thread what h makes of it. -/
def MaskEnds (i : Instr) (s : State) (e : Env) (em : BitVec 128) (m : List (BitVec 128)) (h : Nat → Thread → Thread) : Prop :=
  ∃ t, exec i s = .next t ∧ OnlySheet s t e.sh.key ∧
    (∃ sh, getSheet t e.sh.key = some sh ∧ sh.pc = s.iss.next ∧ sh.run = [] ∧ sh.done = 0 ∧ sh.em = em ∧ sh.m = m ∧
      sh.course = e.sh.course ∧ sh.sleep = e.sh.sleep ∧ sh.ks = e.sh.ks) ∧
    ∀ k, threadAt t e.sh.key k = (laneThread e.sh k).map (h k)

/-- The course's lanes (R26). -/
def lanesMask (sh : Sheet) : BitVec 128 := maskOf (sh.lanes.map (·.1))

/-- An instruction of a pinned course executes under the membership mask m (R29): its lanes are all of m, no check stops one, no member
has executed it yet, and ins are the views of the lanes in m, in increasing order. -/
structure Joined (o : OpForm) (f : Fld) (s : State) (e : Env) (m : BitVec 128) (ins : List LV) : Prop where
  env   : envOf s s.iss.sheet = some e
  dec   : decodeCheck o (effFld f s.iss.run) (effFld f s.iss.run) s.iss = none
  fresh : e.sh.done = 0
  views : ∃ ls vs, lanesActing s e (effFld f s.iss.run) (issueAt s e.sh)
      ((e.sh.lanes.map (·.1)).filter fun l => e.sh.em.getLsbD l) = ls ∧
    viewsOf s e (effFld f s.iss.run) (issueAt s e.sh) ls = vs ∧ vs ≠ [] ∧ (∀ v ∈ vs, Clear o s v) ∧
    (∀ k, m.getLsbD k = true → k ∈ ls) ∧ ins = vs.filter fun v => m.getLsbD v.lane

/-- The membership mask that a field names: all ones outside a pinned course (R248). -/
def maskNamed (e : Env) (n : Nat) : BitVec 128 := if e.sh.course.isNone then BitVec.allOnes 128 else nthD e.sh.m n 0

/-- The instruction completes for the course: the participant of rank r becomes res r v, every other lane is as it was. -/
def CrsEnds (i : Instr) (s : State) (e : Env) (ins : List LV) (res : Nat → LV → Thread) : Prop :=
  ∃ t, exec i s = .next t ∧ OnlySheet s t e.sh.key ∧
    (∃ sh, getSheet t e.sh.key = some sh ∧ sh.pc = s.iss.next ∧ sh.run = [] ∧ sh.done = 0 ∧ sh.em = e.sh.em ∧ sh.m = e.sh.m ∧
      sh.course = e.sh.course ∧ sh.sleep = e.sh.sleep ∧ sh.ks = e.sh.ks) ∧
    (∀ r v, ins[r]? = some v → threadAt t e.sh.key v.lane = some (endSkip (res r v))) ∧
    (∀ k, (∀ v ∈ ins, v.lane ≠ k) → threadAt t e.sh.key k = laneThread e.sh k)

/-- One level of the tree of R256: adjacent values are joined, and an odd last one goes up as it is. -/
inductive TreeLevel {α : Type} (c : α → α → α) : List α → List α → Prop
  | none : TreeLevel c [] []
  | odd (a : α) : TreeLevel c [a] [a]
  | pair (a b : α) (l m : List α) : TreeLevel c l m → TreeLevel c (a :: b :: l) (c a b :: m)

/-- The value that the tree of R256 leaves of a list: level upon level until one is left. -/
inductive TreeTo {α : Type} (c : α → α → α) : List α → α → Prop
  | one (a : α) : TreeTo c [a] a
  | more (a b x : α) (l m : List α) : TreeLevel c (a :: b :: l) m → TreeTo c m x → TreeTo c (a :: b :: l) x

/-- The running results s_0 = v_0, s_k = s_(k-1) op v_k of R256. -/
def runningOf {α : Type} (c : α → α → α) : List α → List α
  | [] => []
  | a :: l => l.scanl c a

/-- The integer joins of R256, and the additions, minima, maxima and bit operations of R208 and R400: add, min, max, and, or, xor. -/
def joinInt (op : Nat) (sg : Bool) {w : Nat} (a b : BitVec w) : BitVec w :=
  match op with
  | 0 => a + b
  | 1 => if elemInt sg b < elemInt sg a then b else a
  | 2 => if elemInt sg a < elemInt sg b then b else a
  | 3 => a &&& b
  | 4 => a ||| b
  | _ => a ^^^ b

/-- The floating joins of R257, each rounded to nearest even, with the exceptions raised so far. -/
def joinFloat (op : Nat) (F : FF) (fz : Bool) (a b : Nat × Exc) : Nat × Exc :=
  let x := F.read fz a.1
  let y := F.read fz b.1
  let r := F.finish 0 fz false (if op = 0 then addFV 0 x y else minMaxFV (op == 2) x y)
  (r.1, a.2 ||| b.2 ||| r.2 ||| (if op = 0 then 0 else minMaxExc x y))

/-- What .excl gives the first lane (R256): an integer, or the bits of a floating value. -/
def identInt (op : Nat) (sg : Bool) (w : Nat) : Nat :=
  match op with
  | 1 => if sg then 2 ^ (w - 1) - 1 else 2 ^ w - 1
  | 2 => if sg then 2 ^ (w - 1) else 0
  | 3 => 2 ^ w - 1
  | _ => 0
def identFloat (op : Nat) (F : FF) : Nat := if op = 1 then F.infBits else if op = 2 then F.signBit true + F.infBits else 0

/-- The exchanges: position from the lane's position, its own gB, and gB of the lowest lane of its segment (R255). -/
inductive ExchRow : Instr → OpForm → Fld → (Nat → Nat → Nat → Int) → Prop
  | shfl (f : Fld) : ExchRow (.shfl f) formShfl f (fun _ own _ => own)
  | shup (f : Fld) : ExchRow (.shup f) formShup f (fun p own _ => (p : Int) - own)
  | shdn (f : Fld) : ExchRow (.shdn f) formShdn f (fun p own _ => (p : Int) + own)
  | shxor (f : Fld) : ExchRow (.shxor f) formShxor f (fun p own _ => ((p ^^^ (own &&& 127) : Nat) : Int))
  | bcast (f : Fld) : ExchRow (.bcast f) formBcast f (fun _ _ first => first)

/-- The rank whose value the lane of rank r takes, of n lanes (R255). -/
def exchFrom (f : Fld) (pos : Nat → Nat → Nat → Int) (b : List Nat) (r : Nat) : Nat :=
  let z := f.md.toNat / 8 % 8
  let lo := if z = 0 then 0 else r / 2 ^ z * 2 ^ z
  let len := if z = 0 then b.length else min (2 ^ z) (b.length - lo)
  let x := pos (r - lo) (nthD b r 0) (nthD b lo 0)
  if 0 ≤ x ∧ x < len then lo + x.toNat else if f.md.getLsbD 2 then lo + (x % len).toNat else r

/-! ## Branches (R110 to R118) -/

/-- A label: the first word's address plus 4 times the literal, or the signed 14-bit offset of bits [24:11] (R37, R110). -/
def labelOf (iss : Issue) (f : Fld) : Dword := iss.ipc + 4 * (if f.lit = 4 then f.imm else (f.a ++ f.d).signExtend 64)

/-- Where a unit's lanes go: the branch, whether it is a call, and the destination (R113 to R115). -/
inductive BranchTo : Instr → OpForm → Fld → Bool → LV → Dword → Prop
  | bra (f : Fld) (v : LV) : BranchTo (.bra f) formBra f false v (labelOf v.iss f)
  | call (f : Fld) (v : LV) : BranchTo (.call f) formCall f true v (labelOf v.iss f)
  | bri (f : Fld) (v : LV) : v.gs 2 f.b.toNat 2 % 4 = 0 → BranchTo (.bri f) formBri f false v (BitVec.ofNat 64 (v.gs 2 f.b.toNat 2))
  | calli (f : Fld) (v : LV) : v.gs 2 f.b.toNat 2 % 4 = 0 →
      BranchTo (.calli f) formCalli f true v (BitVec.ofNat 64 (v.gs 2 f.b.toNat 2))
  | ret (f : Fld) (v : LV) : v.t.ret.toNat % 4 = 0 → BranchTo (.ret f) formRet f false v v.t.ret
  | brcTrue (f : Fld) (v : LV) : v.q 2 f.b.toNat = (if f.md.toNat / 4 % 4 = 0 then qT else qF) →
      BranchTo (.brc f) formBrc f false v (labelOf v.iss f)
  | brcFalse (f : Fld) (v : LV) : v.q 2 f.b.toNat = (if f.md.toNat / 4 % 4 = 0 then qF else qT) →
      BranchTo (.brc f) formBrc f false v v.iss.next
  | brcUTaken (f : Fld) (v : LV) : v.q 2 f.b.toNat = qU → f.md.toNat % 4 = 0 → BranchTo (.brc f) formBrc f false v (labelOf v.iss f)
  | brcUFall (f : Fld) (v : LV) : v.q 2 f.b.toNat = qU → f.md.toNat % 4 = 1 → BranchTo (.brc f) formBrc f false v v.iss.next
  | brqT (f : Fld) (v : LV) : v.q 2 f.b.toNat = qT →
      BranchTo (.brq f) formBrq f false v (v.iss.ipc + 4 * (f.a ++ f.d).signExtend 64)
  | brqU (f : Fld) (v : LV) : v.q 2 f.b.toNat = qU → BranchTo (.brq f) formBrq f false v (v.iss.ipc + 4 * f.imm)
  | brqF (f : Fld) (v : LV) : v.q 2 f.b.toNat = qF → BranchTo (.brq f) formBrq f false v v.iss.next

/-- A branch can execute: nothing stops it in any lane, and lane l of the sheet goes to `dest l` (R17, R116). -/
structure BranchReady (i : Instr) (o : OpForm) (f : Fld) (call : Bool) (s : State) (e : Env) (dest : Nat → Dword) : Prop where
  env  : envOf s s.iss.sheet = some e
  dec  : decodeCheck o f f s.iss = none
  acts : awakeLanes e.sh ≠ []
  free : e.sh.course = none
  each : ∀ ls ∈ unitsOf f.u (awakeLanes e.sh), ∃ v d, viewOf s e f (issueAt s e.sh) ls = some v ∧ v.operandFault o = none ∧
    v.badQ o = none ∧ v.block o s = .ok s [] ∧ BranchTo i o f call v d ∧ ∀ l ∈ ls, dest l = d

/-- How many of the sheet's lanes go to d. -/
def goTo (e : Env) (dest : Nat → Dword) (d : Dword) : Nat := (awakeLanes e.sh).countP fun l => dest l = d

/-! ## Instructions that act on the rest of the machine -/

/-- From s the instruction brings the machine to s1 and then ends in lane l of the sheet of e, which gives t (R59, R64): the lane's thread
is what w makes of it, the column's k registers what kw makes of them, the sheet is at the next instruction, and everything else is as
in s1. -/
structure ActsK (s s1 t : State) (e : Env) (l : Nat) (w : Thread → Thread) (kw : Sparse (List Word) → Sparse (List Word)) : Prop where
  sheet  : ∃ a b, getSheet s1 e.sh.key = some a ∧ getSheet t e.sh.key = some b ∧ b.pc = s.iss.next ∧ b.run = [] ∧ b.done = 0 ∧
    b.em = a.em ∧ b.m = a.m ∧ b.course = a.course ∧ b.sleep = a.sleep ∧ b.ks = kw a.ks
  here   : threadAt t e.sh.key l = (threadAt s1 e.sh.key l).map fun th => endSkip (w th)
  others : ∀ k, k ≠ l → threadAt t e.sh.key k = threadAt s1 e.sh.key k
  only   : OnlySheet s1 t e.sh.key

def Acts (s s1 t : State) (e : Env) (l : Nat) (w : Thread → Thread) : Prop := ActsK s s1 t e l w id

/-- exec i s answers a next state that s1, the state in which the instruction's own effect has happened, leads to. -/
def Does (i : Instr) (s s1 : State) (e : Env) (l : Nat) (w : Thread → Thread) : Prop := ∃ t, exec i s = .next t ∧ Acts s s1 t e l w

/-- The registers of a thread that a program sees. -/
def regsOf (t : Thread) : Word × List Word × List Nat × List Dword × List (BitVec 4) × List (BitVec 2) × List Dword × BitVec 5 × Dword :=
  (t.tid, t.g, t.gp, t.f, t.ft, t.q, t.e, t.fpf, t.ret)

/-- A release into a window's region comes when b holds (R179, R180): it gives s', and no race of its own stops it. -/
def ReleasedInto (b : Bool) (v : LV) (s s' : State) (tray : Option Nat) (base size : Nat) : Prop :=
  if b then v.releaseRegion s tray base size = .ok s' else s' = s

/-- The residue registers take 32 positions, two each, the lower first (R300). -/
def putResidues (l : List Nat) (t : Thread) : Thread :=
  { t with e := (List.range 16).foldl (fun e i => e.set i (BitVec.ofNat 64 (nthD l (2 * i) 0 + nthD l (2 * i + 1) 0 * 2 ^ 32))) t.e }

/-- Byte a of a pallet's tray. -/
def trayByte (s : State) (pal a : Nat) : Option Byte := (getPallet s pal).map fun p => memGet p.tray a

/-- The byte that a core's plain load of a context gives at a physical address: its L1 copy, else the home (R183, R200). -/
def byteSeen (s : State) (core : Nat) (cid : Word) (a : Nat) : Byte :=
  match l1Find s core cid (a / 16) with
  | some b => if b.valid.getLsbD (a % 16) then b.data.extractLsb' (8 * (a % 16)) 8 else memGet s.ms.mem a
  | none => memGet s.ms.mem a

/-- The loads (R199 to R202): bytes, whether ldp, whether unaligned is allowed, and what a value does to the thread. -/
inductive LoadRow : Instr → OpForm → Fld → Nat → Bool → Bool → (Nat → Thread → Thread) → Prop
  | ld (f : Fld) : LoadRow (.ld f) formLd f (wBytes f.w) false (f.md.getLsbD 2) (fun x => putG f.d.toNat (wCnt f.w)
      (if wBytes f.w < 4 ∧ f.md.getLsbD 3 then wrapN 32 (signedN (8 * wBytes f.w) x) else x))
  | ldp (f : Fld) : LoadRow (.ldp f) formLdp f (wBytes f.w) true (f.md.getLsbD 2) (fun x => putG f.d.toNat (wCnt f.w)
      (if wBytes f.w < 4 ∧ f.md.getLsbD 3 then wrapN 32 (signedN (8 * wBytes f.w) x) else x))
  | ldf (f : Fld) : LoadRow (.ldf f) formLdf f (ldfBytes f.fmt) false (f.md.getLsbD 2) (fun x =>
      if f.fmt = 10 then fun t => putF (f.d.toNat + 1) (BitVec.ofNat 64 (x / 2 ^ 64)) 9 (putF f.d.toNat (BitVec.ofNat 64 x) 8 t)
      else putF f.d.toNat (BitVec.ofNat 64 x) (fmtTag f.fmt))

/-- The stores (R201): the bytes stored. -/
inductive StoreRow : Instr → OpForm → Fld → LV → List Byte → Prop
  | st (f : Fld) (v : LV) : StoreRow (.st f) formSt f v (leBytes (wBytes f.w) (v.gs 2 f.b.toNat (wCnt f.w)))
  | stf (f : Fld) (v : LV) : f.fmt ≠ 14 → f.fmt ≠ 10 → (v.fr 2 f.b.toNat).2 = fmtTag f.fmt →
      StoreRow (.stf f) formStf f v (leBytes (ldfBytes f.fmt) (v.fr 2 f.b.toNat).1.toNat)
  | stfRaw (f : Fld) (v : LV) : f.fmt = 14 → (v.fr 2 f.b.toNat).2 ≠ 0 →
      StoreRow (.stf f) formStf f v (leBytes (ldfBytes f.fmt) (v.fr 2 f.b.toNat).1.toNat)
  | stfPair (f : Fld) (v : LV) : f.fmt = 10 → (v.fr 2 f.b.toNat).2 = 8 → (v.fr 2 (f.b.toNat + 1)).2 = 9 →
      StoreRow (.stf f) formStf f v (leBytes (ldfBytes f.fmt) ((v.fr 2 f.b.toNat).1.toNat + 2 ^ 64 * (v.fr 2 (f.b.toNat + 1)).1.toNat))

/-- The fetch-operations on integers of w bits: the new value from the old one, gB and gD; none leaves the unit as it is (R205). -/
inductive FetchRow : Instr → OpForm → Fld → ((w : Nat) → (signed : Bool) → BitVec w → BitVec w → BitVec w → Option (BitVec w)) → Prop
  | aadd (f : Fld) : FetchRow (.aadd f) formAadd f (fun _ _ o b _ => some (o + b))
  | asub (f : Fld) : FetchRow (.asub f) formAsub f (fun _ _ o b _ => some (o - b))
  | amin (f : Fld) : FetchRow (.amin f) formAmin f (fun _ sg o b _ => some (if elemInt sg o < elemInt sg b then o else b))
  | amax (f : Fld) : FetchRow (.amax f) formAmax f (fun _ sg o b _ => some (if elemInt sg o < elemInt sg b then b else o))
  | aand (f : Fld) : FetchRow (.aand f) formAand f (fun _ _ o b _ => some (o &&& b))
  | aor (f : Fld) : FetchRow (.aor f) formAor f (fun _ _ o b _ => some (o ||| b))
  | axor (f : Fld) : FetchRow (.axor f) formAxor f (fun _ _ o b _ => some (o ^^^ b))
  | aexch (f : Fld) : FetchRow (.aexch f) formAexch f (fun _ _ _ b _ => some b)
  | acas (f : Fld) : FetchRow (.acas f) formAcas f (fun _ _ o b d => if o = d then some b else none)
  | ainc (f : Fld) : FetchRow (.ainc f) formAinc f (fun _ _ o _ _ => some (o + 1))
  | adec (f : Fld) : FetchRow (.adec f) formAdec f (fun _ _ o _ _ => some (o - 1))

/-- The reductions on integers (R208). -/
inductive ReduceRow : Instr → OpForm → Fld → ((w : Nat) → (signed : Bool) → BitVec w → BitVec w → BitVec w) → Prop
  | redadd (f : Fld) : ReduceRow (.redadd f) formRedadd f (fun _ _ o b => o + b)
  | redmin (f : Fld) : ReduceRow (.redmin f) formRedmin f (fun _ sg o b => if elemInt sg o < elemInt sg b then o else b)
  | redmax (f : Fld) : ReduceRow (.redmax f) formRedmax f (fun _ sg o b => if elemInt sg o < elemInt sg b then b else o)
  | redand (f : Fld) : ReduceRow (.redand f) formRedand f (fun _ _ o b => o &&& b)
  | redor (f : Fld) : ReduceRow (.redor f) formRedor f (fun _ _ o b => o ||| b)
  | redxor (f : Fld) : ReduceRow (.redxor f) formRedxor f (fun _ _ o b => o ^^^ b)

/-- An access of n bytes by view v to its own pallet's tray at offset a that nothing stops (R162, R176, R191): aligned or allowed not to
be, inside the tray, clear of copies, with no store of its own on its way there; the tray's bytes are in the canonical form. -/
structure OwnTray (v : LV) (s : State) (a n : Nat) (mis : Bool) : Prop where
  spc    : v.f.spc = 1
  al     : mis = true ∨ a % min n 16 = 0
  range  : a + n ≤ v.env.la.r.tray
  board  : boardHits s v.env.pl 1 a n = []
  held   : v.env.sh.heldBy = []
  posted : ∀ p ∈ s.ms.posted, p.agent ≠ palletAgent s v.env.pl
  canon  : Mem.wf v.env.pl.tray = true

/-- A copy instruction's request (R262, R263): shape, destination, source, bytes, bound barrier; s1 is the state after the layout
record has been read. -/
inductive CopyRow : Instr → OpForm → Fld → LV → State → CopyAsk → State → Prop
  | cpy (f : Fld) (v : LV) (s : State) : CopyRow (.cpy f) formCpy f v s
      ⟨.lin, v.copyDst, v.copySrcAddr, (v.g 3 f.c.toNat).toNat, v.barOff (f.c.toNat + 1)⟩ s
  | cpyg (f : Fld) (v : LV) (s : State) : (v.g 3 f.c.toNat).toNat < 2 ^ 24 →
      (v.g 3 (f.c.toNat + 1)).toNat ∈ [1, 2, 4, 8, 16, 32, 64, 128, 256] → v.gs 3 (f.c.toNat + 2) 2 % 4 = 0 →
      CopyRow (.cpyg f) formCpyg f v s ⟨.gather (v.g 3 (f.c.toNat + 1)).toNat (v.gs 3 (f.c.toNat + 2) 2), v.copyDst, v.copySrcAddr,
        (v.g 3 f.c.toNat).toNat * (v.g 3 (f.c.toNat + 1)).toNat, v.barOff (f.c.toNat + 4)⟩ s
  | cpys (f : Fld) (v : LV) (s : State) : (v.g 3 f.c.toNat).toNat < 2 ^ 24 →
      (v.g 3 (f.c.toNat + 1)).toNat ∈ [1, 2, 4, 8, 16, 32, 64, 128, 256] → v.gs 3 (f.c.toNat + 2) 2 % 4 = 0 →
      CopyRow (.cpys f) formCpys f v s ⟨.scatter (v.g 3 (f.c.toNat + 1)).toNat (v.gs 3 (f.c.toNat + 2) 2), v.copyDst, v.copySrcAddr,
        (v.g 3 f.c.toNat).toNat * (v.g 3 (f.c.toNat + 1)).toNat, v.barOff (f.c.toNat + 4)⟩ s
  | cpyw (f : Fld) (v : LV) (s s1 : State) (lay : Lay) : v.layRecord s = .ok (some (lay, s1)) → Lay.fault lay = none →
      CopyRow (.cpyw f) formCpyw f v s ⟨.window lay, v.copyDst, 0, Lay.image lay, v.barOff f.c.toNat⟩ s1

/-- A future's final state (R272). -/
def futSt (s : State) (h : Word) : Option OpSt := (getFuture s h).map (·.st)

/-- The index value of element i of a copy: used before and kept, or read now (R263). -/
inductive IndexOf (s : State) (e : CopyEnv) (c : Copy) (idx i : Nat) : Nat → State → Copy → Prop
  | kept (x : Nat) : sGet c.cur i = some x → IndexOf s e c idx i x s c
  | read (b : List Byte) (s1 : State) : sGet c.cur i = none → copyRead s e c 0 (idx + 4 * i) 4 = .ok (b, s1) →
      IndexOf s e c idx i (ofLe b) s1 { c with cur := sPut c.cur i (ofLe b) }

/-- Image bytes [o, o + n) of a copy that lie together in its source and in its destination: where they go, what they are, the state in
which they have been read, and the copy with the index that this took (R260, R263, R269, R270). -/
inductive CopyPiece (s : State) (e : CopyEnv) (c : Copy) (o n : Nat) : Nat → List Byte → State → Copy → Prop
  | lin (b : List Byte) (s1 : State) : c.shape = .lin → (c.src + o) % 4 = 0 → copyRead s e c c.sspc.toNat (c.src + o) n = .ok (b, s1) →
      CopyPiece s e c o n (c.dst + o) b s1 c
  | gather (size idx x : Nat) (b : List Byte) (s0 s1 : State) (c1 : Copy) : c.shape = .gather size idx →
      IndexOf s e c idx (o / size) x s0 c1 → o % size + n ≤ size → (c.src + x * size + o % size) % 4 = 0 →
      copyRead s0 e c1 c.sspc.toNat (c.src + x * size + o % size) n = .ok (b, s1) → CopyPiece s e c o n (c.dst + o) b s1 c1
  | scatter (size idx x : Nat) (b : List Byte) (s0 s1 : State) (c1 : Copy) : c.shape = .scatter size idx →
      IndexOf s e c idx (o / size) x s0 c1 → o % size + n ≤ size → (c.src + o) % 4 = 0 →
      copyRead s0 e c1 c.sspc.toNat (c.src + o) n = .ok (b, s1) → CopyPiece s e c o n (c.dst + x * size + o % size) b s1 c1
  | window (lay : Lay) (a run : Nat) (b : List Byte) (s1 : State) : c.shape = .window lay → Lay.source lay o = (.mem a, run) →
      n ≤ run → n ≤ (Lay.place lay o).2 → a % 4 = 0 → copyRead s e c c.sspc.toNat a n = .ok (b, s1) →
      CopyPiece s e c o n (c.dst + (Lay.place lay o).1) b s1 c
  | fill (lay : Lay) (l : List Byte) (run : Nat) : c.shape = .window lay → Lay.source lay o = (.bytes l, run) → n ≤ run →
      n ≤ l.length → n ≤ (Lay.place lay o).2 → CopyPiece s e c o n (c.dst + (Lay.place lay o).1) (l.take n) s c

/-- A copy may land [o, o + n), whole aligned words of one line of its destination: it runs, has begun, holds nothing read ahead, and these
bytes are among the one range that has not landed (R260, R276). -/
structure Landing (s : State) (c : Copy) (e : CopyEnv) (o n dst : Nat) (b : List Byte) (s1 : State) (c1 : Copy) : Prop where
  copy  : getCopy s c.key = some c ∧ copyEnv s c = some e ∧ copyRuns s c = true ∧ c.held = []
  begun : ∃ u, getFuture s c.handle = some u ∧ u.begun = true
  left  : ∃ a m, c.left = [(a, m)] ∧ a ≤ o ∧ o + n ≤ a + m
  size  : 0 < n ∧ n % 4 = 0 ∧ dst % 4 = 0 ∧ dst % 128 + n ≤ 128 ∧ o + n ≤ c.total ∧ b.length = n
  piece : CopyPiece s e c o n dst b s1 c1
  ready : barBad s c = none
  after : getCopy s1 c.key = some c ∧ ∃ u, getFuture s1 c.handle = some u ∧ u.st = .pending

/-- What has become of the copy and its future: bytes are left, or it is done (R260, R276). -/
def CopyGoesOn (t : State) (c c1 : Copy) (o n : Nat) : Prop :=
  (cutRange c.left o n ≠ [] → getCopy t c.key = some { c1 with left := cutRange c.left o n }) ∧
  (cutRange c.left o n = [] → getCopy t c.key = none ∧ futSt t c.handle = some .clean)

/-- Every thread of a pallet that waits for generation g of an object goes on, with r in the predicate that it named (R280). -/
structure Woken (s t : State) (pal off g : Nat) (r : BitVec 2) : Prop where
  store : ∀ x ∈ s.cs.store, ∀ h qd sc, x.pal = pal → x.sleep = .xwait off h qd sc → h.toNat = g →
    ∃ y ∈ t.cs.store, y.thr.uid = x.thr.uid ∧ y.sleep = .ready ∧ y.thr.q = x.thr.q.set qd r
  lanes : ∀ k sh l h qd sc th, getSheet s k = some sh → sh.pal = pal → sGet sh.sleep l = some (.xwait off h qd sc) → h.toNat = g →
    laneThread sh l = some th →
    ∃ u th', getSheet t k = some u ∧ sGet u.sleep l = none ∧ laneThread u l = some th' ∧ th'.q = th.q.set qd r

/-- No two threads of the spawn store, no two sheets, and no two sleepers of one sheet have one number. -/
def SleepersApart (s : State) : Prop :=
  (s.cs.store.map (·.thr.uid)).Nodup ∧ (s.cs.sheets.map (·.key)).Nodup ∧ ∀ sh ∈ s.cs.sheets, (sh.sleep.map (·.1)).Nodup

/-- A barrier object whose open generation has completed (R280). -/
def nextGen (b : Bar) : Bar :=
  { b with lpois := b.pois, pois := false, arr := b.narr, narr := 0, expb := 0, land := 0, gen := (b.gen + 1) % 256 }

/-- f[n], f[n+1], … := the cnt 64-bit parts of x, lowest first, each with the tag (R299). -/
def putFs (tag : BitVec 4) : (n cnt x : Nat) → Thread → Thread
  | _, 0, _, t => t
  | n, cnt + 1, x, t => putFs tag (n + 1) cnt (x / 2 ^ 64) (putF n (BitVec.ofNat 64 x) tag t)

/-- An instruction of a pinned course brings the machine to s1 and ends: the participant of rank r becomes what w makes of it, every
other lane is as in s1, and so is everything outside the sheet. -/
def CrsDoes (i : Instr) (s s1 : State) (e : Env) (ins : List LV) (w : Nat → LV → Thread → Thread) : Prop :=
  ∃ t, exec i s = .next t ∧ OnlySheet s1 t e.sh.key ∧
    (∃ a b, getSheet s1 e.sh.key = some a ∧ getSheet t e.sh.key = some b ∧ b.pc = s.iss.next ∧ b.run = [] ∧ b.done = 0 ∧
      b.em = a.em ∧ b.m = a.m ∧ b.course = a.course ∧ b.sleep = a.sleep ∧ b.ks = a.ks) ∧
    (∀ r v, ins[r]? = some v → threadAt t e.sh.key v.lane = (threadAt s1 e.sh.key v.lane).map fun th => endSkip (w r v th)) ∧
    (∀ k, (∀ v ∈ ins, v.lane ≠ k) → threadAt t e.sh.key k = threadAt s1 e.sh.key k)

/-- Byte i of row r of a tile (R305). -/
def tileByte (s : State) (core num r i : Nat) : Byte := memGet (getTile s core num).bytes (256 * r + i)

/-- The remote instructions that send a request (R395 to R403): bytes, access kind, bit of PERM, multicast, whether a release comes
first, and what is sent. -/
inductive RemoteRow : Instr → OpForm → Fld → LV → Nat → Nat → Nat → Bool → Bool → State → ReqKind → Prop
  | rld (f : Fld) (v : LV) (s : State) : RemoteRow (.rld f) formRld f v (wBytes f.w) 8 0 false false s
      (.read (wBytes f.w) f.d.toNat (f.md.getLsbD 0))
  | rst (f : Fld) (v : LV) (s : State) : RemoteRow (.rst f) formRst f v (wBytes f.w) 9 1 false (f.md.getLsbD 1) s
      (.write (leBytes (wBytes f.w) (v.gs 2 f.b.toNat (wCnt f.w))))
  | rfop (f : Fld) (v : LV) (s : State) : RemoteRow (.rfop f) formRfop f v (atmBytes f.atm) 10 2 false (f.md.getLsbD 1) s
      (.fop (rfopOp f) (f.md.getLsbD 2) f.fmt (atmBytes f.atm)
        (BitVec.ofNat 128 (if rfopOp f < 9 then v.gs 2 f.b.toNat (atmCnt f) else 0))
        (BitVec.ofNat 128 (if rfopOp f = 8 then v.gs 0 f.d.toNat (atmCnt f) else 0)) f.d.toNat (f.md.getLsbD 0) v.seqIndex)
  | rred (f : Fld) (v : LV) (s : State) : RemoteRow (.rred f) formRred f v (atmBytes f.atm) 10 2 false (f.md.getLsbD 1) s
      (.red (rredOp f) (f.md.getLsbD 2) f.fmt (atmBytes f.atm) (BitVec.ofNat 64 (v.gs 2 f.b.toNat (atmCnt f))) v.seqIndex)
  | rmcast (f : Fld) (v : LV) (s : State) (g : Group) : v.group s = some g →
      RemoteRow (.rmcast f) formRmcast f v (wBytes f.w) 11 3 true (f.md.getLsbD 1) s
        (.mcast g.members (leBytes (wBytes f.w) (v.gs 2 f.b.toNat (wCnt f.w))))

/-- The fetch-operations of R400 on integers of w bits: the new value from the old one, the operand and the comparison value; none leaves
the unit as it is. -/
def fopInt (op : Nat) (sg : Bool) {w : Nat} (o b d : BitVec w) : Option (BitVec w) :=
  match op with
  | 0 => some (o + b)
  | 1 => some (o - b)
  | 2 => some (if elemInt sg o < elemInt sg b then o else b)
  | 3 => some (if elemInt sg o < elemInt sg b then b else o)
  | 4 => some (o &&& b)
  | 5 => some (o ||| b)
  | 6 => some (o ^^^ b)
  | 7 => some b
  | 8 => if o = d then some b else none
  | 9 => some (o + 1)
  | _ => some (o - 1)

/-- The threads with the numbers ids have become what w makes of them in their registers; every other thread has kept its registers. -/
structure Gave (s t : State) (ids : List Nat) (w : Thread → Thread) : Prop where
  lanes : ∀ k l th, threadAt s k l = some th →
    ∃ u, threadAt t k l = some u ∧ regsOf u = regsOf (if th.uid ∈ ids then w th else th)
  store : (t.cs.store.map fun x => regsOf x.thr) = s.cs.store.map fun x => regsOf (if x.thr.uid ∈ ids then w x.thr else x.thr)

/-- A multicast performed at its members in order, from s to t, with the races that it met (R401). -/
inductive CastTo (r : Req) (b : List Byte) : State → List (Nat × Word) → List RaceHit → State → Prop
  | none (s : State) : CastTo r b s [] [] s
  | one (s s1 t : State) (m : Nat × Word) (l : List (Nat × Word)) (h h' : List RaceHit) :
      reqWrite s r m.1 m.2 11 b (reqEff r .plain) true = .ok (s1, h) → CastTo r b s1 l h' t → CastTo r b s (m :: l) (h ++ h') t

/-- The state in which lane l has passed the checks of a remote instruction (R396, R229). -/
def checkedIn (s : State) (e : Env) (l : Nat) : State := writeAll s e.sh.key [l] none [.thr endSkip]

/-! ## Tiles and matrix operations (R302, R312, R320 to R324) -/

/-- A tile can be written and read back: no mma or batch has it in use (R314), and its bytes are in the canonical form. -/
def TileFree (s : State) (core num : Nat) : Prop := tileBusy s core num = false ∧ Mem.wf (getTile s core num).bytes = true

/-- Rows with distinct numbers and n bytes each. -/
def RowsFit (n : Nat) (l : List (Nat × List Byte)) : Prop := (l.map (·.1)).Nodup ∧ ∀ x ∈ l, x.2.length = n

/-- From s to t the rows l of a tile are written, low bytes first, and its tag is set; its other bytes and every other tile are as they
were. -/
structure TileRows (s t : State) (core num : Nat) (tag : BitVec 4) (l : List (Nat × List Byte)) : Prop where
  tag    : (getTile t core num).tag = tag
  here   : ∀ x ∈ l, ∀ i, i < x.2.length → tileByte t core num x.1 i = nthD x.2 i 0
  rest   : ∀ r i, i < 256 → (∀ x ∈ l, x.1 = r → x.2.length ≤ i) → tileByte t core num r i = tileByte s core num r i
  others : ∀ c k, ¬ (c = core ∧ k = num) →
    (getTile t c k).tag = (getTile s c k).tag ∧ (getTile t c k).bytes = (getTile s c k).bytes

/-- An issued mma (R312): its tile, formats, operands, K and rows; nothing of it has been done. -/
structure MmaIs (v : LV) (q : MmaAsk) (rows : List Nat) (k : Nat) (m : Mma) : Prop where
  place : m.core = v.env.pl.core ∧ m.pal = v.env.pl.key ∧ m.tile = v.tile v.f.d.toNat ∧ some m.course = v.env.sh.course
  forms : m.fa = v.f.fmt ∧ m.fb = mmaFb v.f ∧ m.aspc = v.f.spc ∧ m.bspc = mmaBspc v.f
  bases : m.abase = q.abase ∧ m.bbase = q.bbase ∧ m.astr = q.astr ∧ m.bstr = q.bstr
  scales : m.ascl = q.ascl ∧ m.bscl = q.bscl ∧ m.asst = q.asst ∧ m.bsst = q.bsst
  size  : m.kk = k ∧ m.rows = rows
  fresh : m.step = 0 ∧ m.batch = none ∧ m.started = false

/-- The even column that a strip's gB names, read in the strip's lowest lane (R302). -/
def colOf (ins : List LV) (f : Fld) (r : Nat) : Nat :=
  (((stripsOf ins).find? fun x => x.1 == r).map fun x => (x.2.g 2 f.b.toNat).toNat).getD 0

/-- A residue position of a tile. -/
def residAt (s : State) (core num r c : Nat) : Word := sGetD (getTile s core num).resid (64 * r + c) 0

/-! ## Command cores (R427) -/

/-- A command core's instruction brings the machine to s1 and ends: rd holds v unless it is x0, the core is at the next instruction. -/
def FwDoes (i : Instr) (s s1 : State) (x : XFld) (v : Dword) : Prop :=
  ∃ t, exec i s = .next t ∧ t = { s1 with mg := { s1.mg with fw := t.mg.fw } } ∧
    (let c := fwCore s1 s.iss.fw
     fwCore t s.iss.fw = { c with x := if x.rd = 0 then c.x else c.x.set x.rd.toNat v, pc := c.pc + 4, wait := false }) ∧
    ∀ k, k ≠ s.iss.fw → fwCore t k = fwCore s1 k

/-- A command core's instruction brings the machine to s1 and takes the synchronous exception of a cause; no register changes. -/
def FwTraps (i : Instr) (s s1 : State) (cause : Nat) : Prop :=
  ∃ t, exec i s = .next t ∧ t = { s1 with mg := { s1.mg with fw := t.mg.fw } } ∧
    (let c := fwCore s1 s.iss.fw
     fwCore t s.iss.fw = { c with mcause := BitVec.ofNat 64 cause, mepc := c.pc, pc := c.mtvec })

/-! ## System registers (R446) -/

/-- The control and status registers: number and value for the executing context. -/
inductive CsrRow (s : State) (e : Env) : Nat → Nat → Prop
  | clk (p : Part) : getPart s e.cx.part = some p → CsrRow s e 0x00 p.mhz
  | pwr : CsrRow s e 0x01 s.mg.pwr
  | tmax : CsrRow s e 0x02 (maxN s.mg.temps)
  | eccc : CsrRow s e 0x03 s.mg.eccc
  | ret (p : Part) : getPart s e.cx.part = some p → CsrRow s e 0x04 (sumN ((List.range 32).map fun i =>
      boolN (nthD (retirementMap s p) (32 * e.cx.retsel.toNat + i) false) * 2 ^ i))
  | retsel : CsrRow s e 0x05 e.cx.retsel.toNat
  | pcap (p : Part) : getPart s e.cx.part = some p → CsrRow s e 0x10 p.pcap

/-! ## Events and commands -/

/-- The event or command answers a next state of which `post` holds. -/
def Yields (i : Instr) (s : State) (post : State → Prop) : Prop := ∃ t, exec i s = .next t ∧ post t

/-- A pallet has a launch and may form one more sheet in a slot: it is active, not halted, not re-executing, has no evicted sheet that
could come back first, a place for a sheet, and its core has a free slot (R21, R379). -/
structure FormReady (s : State) (pal : Nat) (p : Pallet) (la : Launch) (slot : Nat) : Prop where
  pallet : getPallet s pal = some p
  launch : getLaunch s p.launch = some la
  active : p.st = .active
  going  : p.dbg.halt = false ∧ p.dbg.roll = false
  whole  : restorable s pal = none
  room   : (s.cs.sheets.countP fun sh => sh.pal = pal ∧ onCore sh = true) < sheetSlots la
  slot   : chooseSlot s p.core = some slot
  depth  : 0 < la.r.depth

/-- A new sheet of a pallet at an address in a slot, made of threads that waited there in the spawn store, e's in lane 0; they are in the
store no longer (R16, R21). -/
def Formed (s t : State) (pal : Nat) (pc : Dword) (slot : Nat) (e : Entry) : Prop :=
  ∃ sh, t.cs.sheets = s.cs.sheets ++ [sh] ∧ sh.pal = pal ∧ sh.pc = pc ∧ sh.slot = slot ∧ (0, e.thr) ∈ sh.lanes ∧
    (∀ x ∈ sh.lanes, ∃ w ∈ s.cs.store, w.pal = pal ∧ w.pc = pc ∧ w.sleep = .ready ∧ w.thr = x.2) ∧
    ∀ w ∈ t.cs.store, w ∈ s.cs.store ∧ (w.pal ≠ pal ∨ w.thr.uid ≠ e.thr.uid)

/-- Packet x of queue n has ended with a code and a detail, at a time (R413). -/
def EndsWith (t : State) (n x code detail time : Nat) : Prop :=
  (getQueue t n).bind (fun q => sGet q.ended x) = some (code, detail, time)

/-- The packet b of a kind is packet x of queue n and the next to start: it is in turn, neither it nor the one after it has ended, and no
dependency image replaces it (R412). -/
structure PacketTurn (s : State) (n x kind : Nat) (q : Queue) (b : List Byte) : Prop where
  queue : getQueue s n = some q
  alone : ∀ d ∈ s.qs.deps, d.queue = n → d.index ≠ x
  bytes : sGet q.pkts x = some b
  kind  : pkKind b = kind
  next  : x = q.strt ∧ x < q.acc
  turn  : ∀ y ∈ q.pkts, y.1 < x → hasEnded q y.1 = true ∨ (pkBar b = false ∧ pkKind (sGetD q.pkts y.1 []) ≠ 5)
  going : sGet q.ended x = none
  after : sGet q.ended (x + 1) = none

/-- The state in which packet x of queue q has started (R412). -/
def startedAt (s : State) (q : Queue) (x : Nat) : State := setQueue s { q with strt := x + 1 }

/-- A packet is done with a memory state m: it has started and ended without error. -/
def PacketDone (i : Instr) (s m : State) (n x : Nat) (q : Queue) : Prop :=
  Yields i s fun t => t.ms = m.ms ∧ EndsWith t n x 0 0 m.mg.ns ∧ (getQueue t n).map (·.strt) = some (x + 1) ∧
    t.cs.sheets = m.cs.sheets ∧ (getQueue t n).map (·.acc) = some q.acc

/-- The answer to a command: a response with its tag, a status and a payload, for its master; through a command page the response stands in
RSP, DSEQ follows, busy is clear and vector 0 is raised (R438 to R441). -/
def Answered (s t : State) (c : Cmd) (sts : Nat) (reply : List Byte) : Prop :=
  t.mg.rsp = (c.src, c.tag, sts, reply) :: s.mg.rsp ∧
  (c.mctp = false → (pageOf t c.src).dseq = c.seq ∧ (pageOf t c.src).busy = false ∧
    (reply.length ≤ 240 → (pageOf t c.src).rsp =
      leBytes 2 0x0100 ++ leBytes 2 sts ++ leBytes 2 reply.length ++ leBytes 2 0 ++ leBytes 4 c.tag.toNat ++ leBytes 4 0 ++ reply ++
        List.replicate (240 - reply.length) 0) ∧
    (c.src.toNat % 65536, 0) ∈ t.qs.msix)

/-- Nothing but the answer and the owner's timer has changed (R441, R443). -/
def OnlyAnswer (s t : State) : Prop :=
  t = { s with
    mg := { s.mg with rsp := t.mg.rsp, pages := t.mg.pages, beat := t.mg.beat }
    qs := { s.qs with msix := t.qs.msix } }

/-- The commands of R442, and whether recovery serves them. -/
inductive CmdIs : Instr → Cmd → Bool → Prop
  | getver (c : Cmd) : CmdIs (.getverCmd c) c true
  | nonce (c : Cmd) : CmdIs (.nonceCmd c) c true
  | claim (c : Cmd) : CmdIs (.claimCmd c) c false
  | release (c : Cmd) : CmdIs (.releaseCmd c) c false
  | beat (c : Cmd) : CmdIs (.beatCmd c) c false
  | partset (c : Cmd) : CmdIs (.partsetCmd c) c false
  | partdel (c : Cmd) : CmdIs (.partdelCmd c) c false
  | partget (c : Cmd) : CmdIs (.partgetCmd c) c false
  | ctxnew (c : Cmd) : CmdIs (.ctxnewCmd c) c false
  | ctxdel (c : Cmd) : CmdIs (.ctxdelCmd c) c false
  | queueSet (c : Cmd) : CmdIs (.queueSetCmd c) c false
  | qreset (c : Cmd) : CmdIs (.qresetCmd c) c false
  | evset (c : Cmd) : CmdIs (.evsetCmd c) c false
  | apopen (c : Cmd) : CmdIs (.apopenCmd c) c false
  | apclose (c : Cmd) : CmdIs (.apcloseCmd c) c false
  | mcset (c : Cmd) : CmdIs (.mcsetCmd c) c false
  | mcdel (c : Cmd) : CmdIs (.mcdelCmd c) c false
  | health (c : Cmd) : CmdIs (.healthCmd c) c false
  | retget (c : Cmd) : CmdIs (.retgetCmd c) c false
  | retclr (c : Cmd) : CmdIs (.retclrCmd c) c false
  | calget (c : Cmd) : CmdIs (.calgetCmd c) c false
  | portget (c : Cmd) : CmdIs (.portgetCmd c) c false
  | ready (c : Cmd) : CmdIs (.readyCmd c) c false
  | fwload (c : Cmd) : CmdIs (.fwloadCmd c) c true

/-- The commands that only read, with the length of their data and their answer (R442). -/
inductive ReadRow (s : State) (d : List Byte) : Instr → Cmd → Nat → List Byte → Prop
  | getver (c : Cmd) : ReadRow s d (.getverCmd c) c 0
      (leBytes 2 1 ++ leBytes 2 1 ++ leBytes 2 2 ++ leBytes 2 0x100 ++ leBytes 2 3 ++ leBytes 2 0x100 ++
        leBytes 2 4 ++ leBytes 2 0x100 ++ leBytes 2 5 ++ leBytes 2 0x100)
  | health (c : Cmd) : ReadRow s d (.healthCmd c) c 0
      (leBytes 4 s.mg.mhz ++ leBytes 4 s.mg.pwr ++ leBytes 4 (maxN s.mg.temps) ++ leBytes 4 0 ++ leBytes 8 s.mg.eccc ++
        s.mg.temps.flatMap (leBytes 4))
  | portget (c : Cmd) : ReadRow s d (.portgetCmd c) c 0
      ((List.range 16).flatMap fun i => leBytes 4 (nthD s.fb.vers i 0 % 65536 + boolN (s.fb.planes.getLsbD i) * 2 ^ 16 +
        boolN (s.mg.retPort.getLsbD i) * 2 ^ 17))
  | ready (c : Cmd) : ReadRow s d (.readyCmd c) c 0
      (leBytes 4 s.mg.bringUp ++ leBytes 4 s.mg.retHbm.toNat ++ leBytes 4 s.mg.retLp.toNat ++ leBytes 4 s.mg.retPort.toNat)
  | partget (c : Cmd) (p : Part) : getPart s (fieldB d 0 1) = some p → zeroBytes d 1 7 = true →
      ReadRow s d (.partgetCmd c) c 8 (partBytes p)
  | retget (c : Cmd) (p : Part) : getPart s (fieldB d 0 1) = some p → zeroBytes d 1 7 = true →
      ReadRow s d (.retgetCmd c) c 8 (mapBytes s p)
  | calget (c : Cmd) (p : Part) : getPart s (fieldB d 0 1) = some p → zeroBytes d 1 7 = true →
      ReadRow s d (.calgetCmd c) c 8 ((List.range 16).flatMap fun _ => leBytes 2 p.cal)

/-- The commands that change something: who may issue them, the length of their data, their answer, and what holds after them (R428 to
R432, R442). The last argument is a condition on the request's data and the state. -/
inductive ActRow (s : State) (d : List Byte) : Instr → Cmd → Issuer → Nat → List Byte → (State → Prop) → Prop
  | nonce (c : Cmd) : ActRow s d (.nonceCmd c) c .anyone 0 (freshNonce s) fun t =>
      t.mg.nonces = s.mg.nonces ++ [(c.src, freshNonce s, s.mg.ns)] ∧ (freshNonce s).length = 32
  | claim (c : Cmd) (time : Nat) : ownerNow s = none → s.mg.bringUp = 5 → (c.src, d.take 32, time) ∈ s.mg.nonces → s.mg.ns ≤ time + 10000000000 →
      fieldB d 32 4 = c.src.toNat → (∃ k ∈ s.mg.ownKeys, Config.mldsaVerify (Config.keyOf k) (d.take 36) (d.drop 36) = true) →
      ActRow s d (.claimCmd c) c .anyone 3345 [] fun t => t.mg.owner = some c.src ∧ t.mg.beat = s.mg.ns
  | release (c : Cmd) : zeroBytes d 4 4 = true → isMaster (fieldB d 0 4) = true →
      ActRow s d (.releaseCmd c) c .ownerOnly 8 [] fun t => t.mg.owner = some (BitVec.ofNat 32 (fieldB d 0 4)) ∧ t.mg.beat = s.mg.ns
  | beat (c : Cmd) : ActRow s d (.beatCmd c) c .ownerOnly 0 [] fun t => t.mg.beat = s.mg.ns ∧ t.mg.owner = s.mg.owner
  | partset (c : Cmd) (p : Part) :
      p = parsePart (fieldB d 0 1) (d.drop 8) (((getPart s (fieldB d 0 1)).map (·.mhz)).getD s.mg.mhz) →
      fieldB d 0 1 < 32 → zeroBytes d 1 7 = true → partForm (d.drop 8) p = true → partHeld s p.num = false →
      (∀ q ∈ s.mg.parts, q.num ≠ p.num → partsMeet p q = false) →
      p.cal + sumN ((s.mg.parts.filter fun q => q.num != p.num).map (·.cal)) ≤ 1024 →
      p.keys + sumN ((s.mg.parts.filter fun q => q.num != p.num).map (·.keys)) ≤ 32 →
      sumN ((p :: s.mg.parts.filter fun q => q.num != p.num).map (·.msize.toNat)) ≤ 768 * 2 ^ 30 →
      sumN ((p :: s.mg.parts.filter fun q => q.num != p.num).map (·.tsize.toNat)) ≤ 1152 * 2 ^ 30 →
      ActRow s d (.partsetCmd c) c .ownerOnly 72 [] fun t => getPart t p.num = some p ∧
        ∀ k, k ≠ p.num → getPart t k = getPart s k
  | partdel (c : Cmd) (p : Part) : zeroBytes d 1 7 = true → getPart s (fieldB d 0 1) = some p → partHeld s p.num = false →
      ActRow s d (.partdelCmd c) c .ownerOnly 8 [] fun t => getPart t p.num = none ∧ (∀ k, k ≠ p.num → getPart t k = getPart s k) ∧
        (∀ x ∈ t.ms.mem, inShares p x.1 = false) ∧ ∀ r ∈ t.qs.rings, r.part ≠ p.num
  | ctxnew (c : Cmd) (p : Part) (slot : Nat) : ctxForm d = true → getPart s (fieldB d 0x10 1) = some p →
      getCtx s (BitVec.ofNat 32 (fieldB d 4 4)) = none → newKeySlot s p (fieldB d 0x11 1) = some slot →
      ActRow s d (.ctxnewCmd c) c (.partition (some p)) 128
        (leBytes 4 (fieldB d 4 4) ++ leBytes 4 (if fieldB d 0x11 1 = 0xFF then 0xFF else slot % 256)) fun t =>
          getCtx t (BitVec.ofNat 32 (fieldB d 4 4)) = some (parseCtx d slot)
  | ctxdel (c : Cmd) (x : Ctx) : zeroBytes d 4 4 = true → getCtx s (BitVec.ofNat 32 (fieldB d 0 4)) = some x →
      ActRow s d (.ctxdelCmd c) c (.partition (getPart s x.part)) 8 [] fun t => getCtx t x.cid = none ∧
        (∀ b ∈ t.ms.l1, b.cid ≠ x.cid) ∧ ∀ b ∈ t.ms.tlb, b.cid ≠ x.cid
  | queueSet (c : Cmd) : fieldB d 0 2 < 2048 → zeroBytes d 2 6 = true → fieldB d 8 8 % 64 = 0 → 3 ≤ fieldB d 0x10 1 →
      fieldB d 0x10 1 ≤ 20 → fieldB d 0x11 1 ≤ 1 → zeroBytes d 0x18 16 = true →
      (getCtx s (BitVec.ofNat 32 (fieldB d 0x14 4))).isSome = true →
      ringReach s (fieldB d 0x11 1) (fieldB d 0x14 4) (fieldB d 8 8) (64 * 2 ^ fieldB d 0x10 1) = true →
      (∀ q, getQueue s (fieldB d 0 2) = some q → q.done = q.acc) →
      ActRow s d (.queueSetCmd c) c .ownerOnly 40 [] fun t => ∃ q, getQueue t (fieldB d 0 2) = some q ∧
        q.wake = (((getQueue s (fieldB d 0 2)).map (·.wake)).getD 0 ||| sGetD s.qs.owake (fieldB d 0 2) 0) ∧ q.rbase = BitVec.ofNat 64 (fieldB d 8 8) ∧ q.logn = fieldB d 0x10 1 ∧ q.rspc = fieldB d 0x11 1 ∧ q.group = fieldB d 0x12 2 ∧
        q.cid = BitVec.ofNat 32 (fieldB d 0x14 4) ∧ q.widx = 0 ∧ q.acc = 0 ∧ q.strt = 0 ∧ q.done = 0 ∧ q.stat = 0 ∧ q.epoch = 0
  | qreset (c : Cmd) (q : Queue) : zeroBytes d 2 6 = true → getQueue s (fieldB d 0 2) = some q → q.stat.getLsbD 31 = true →
      q.done = q.strt →
      ActRow s d (.qresetCmd c) c (.partition (queuePart s (fieldB d 0 2))) 8 [] fun t => ∃ u, getQueue t q.num = some u ∧
        u.widx = 0 ∧ u.acc = 0 ∧ u.strt = 0 ∧ u.done = 0 ∧ u.stat = 0 ∧ u.epoch = q.epoch
  | evset (c : Cmd) (p : Part) (k : Nat) : zeroBytes d 1 7 = true → zeroBytes d 20 4 = true → fieldB d 16 4 = 2 ^ k → 6 ≤ k → k ≤ 20 →
      getPart s (fieldB d 0 1) = some p → hostReach s (fieldB d 8 8) (64 + 32 * 2 ^ k) = true →
      ActRow s d (.evsetCmd c) c (.partition (some p)) 24 [] fun t => ∃ r, getRing t p.num = some r ∧
        r.base = BitVec.ofNat 64 (fieldB d 8 8) ∧ r.n = 2 ^ k
  | apopen (c : Cmd) (i : Nat) (p : Part) : zeroBytes d 1 7 = true → apertureForm (d.drop 8) = true →
      getPart s (fieldB d 0 1) = some p →
      lowestFree ((s.fb.aps.filter fun a => a.node == s.fb.node && a.part == fieldB d 0 1).map (·.idx)) 64 = some i →
      ActRow s d (.apopenCmd c) c (.partition (some p)) 40 (leBytes 4 i) fun t =>
        t.fb.aps = s.fb.aps ++ [parseAperture s (fieldB d 0 1) i (d.drop 8)]
  | apclose (c : Cmd) (a : Aperture) : zeroBytes d 1 3 = true → a ∈ s.fb.aps → a.node = s.fb.node → a.part = fieldB d 0 1 →
      a.idx = fieldB d 4 4 →
      ActRow s d (.apcloseCmd c) c (.partition (getPart s (fieldB d 0 1))) 8 [] fun t =>
        ∀ b, b ∈ t.fb.aps ↔ b ∈ s.fb.aps ∧ ¬ (b.node = s.fb.node ∧ b.part = fieldB d 0 1 ∧ b.idx = fieldB d 4 4)
  | mcset (c : Cmd) (ms : List (Nat × Word)) (ss : List (Nat × Nat)) : fieldB d 0 2 < 4096 → fieldB d 2 2 ≤ 384 →
      zeroBytes d 6 2 = true → ms.length = fieldB d 2 2 → ss.length = fieldB d 4 2 →
      (∀ i x, ms[i]? = some x → x.1 = fieldB d (8 + 8 * i) 2 ∧ fieldB d (8 + 8 * i + 2) 2 = 0 ∧
        x.2 = BitVec.ofNat 32 (fieldB d (8 + 8 * i + 4) 4) ∧ x.1 < 384) →
      (∀ i x, ss[i]? = some x → x.1 = fieldB d (8 + 8 * ms.length + 4 * i) 2 ∧ x.2 = fieldB d (8 + 8 * ms.length + 4 * i + 2) 1 ∧
        fieldB d (8 + 8 * ms.length + 4 * i + 3) 1 = 0 ∧ x.1 < 384 ∧ x.2 < 32) →
      (∀ g ∈ s.fb.groups, g.num ≠ fieldB d 0 2) →
      ActRow s d (.mcsetCmd c) c .ownerOnly (8 + 8 * ms.length + 4 * ss.length) [] fun t =>
        t.fb.groups = s.fb.groups ++ [⟨fieldB d 0 2, ms, ss⟩]
  | mcdel (c : Cmd) (g : Group) : zeroBytes d 2 6 = true → g ∈ s.fb.groups → g.num = fieldB d 0 2 →
      ActRow s d (.mcdelCmd c) c .ownerOnly 8 [] fun t => ∀ x, x ∈ t.fb.groups ↔ x ∈ s.fb.groups ∧ x.num ≠ fieldB d 0 2
  | retclr (c : Cmd) : zeroBytes d 2 6 = true → (fieldB d 0 2 < 256 ∨ fieldB d 0 2 = 0xFFFF) →
      ActRow s d (.retclrCmd c) c .ownerOnly 8 [] fun t =>
        ∀ k, k ∈ t.cs.retired ↔ k ∈ s.cs.retired ∧ fieldB d 0 2 ≠ 0xFFFF ∧ k ≠ fieldB d 0 2
  | fwload (c : Cmd) : d ≠ [] → imageGood d = true →
      ActRow s d (.fwloadCmd c) c .ownerOnly d.length [] fun t => t.mg.nextImg = some d ∧ t.mg.image = s.mg.image

/-- Commands whose own checks fail, with the length of their data and the status they end with (R431, R441, R442). -/
inductive FailRow (s : State) (d : List Byte) : Instr → Cmd → Issuer → Nat → Nat → Prop
  | claimOwned (c : Cmd) : s.mg.bringUp = 5 → (ownerNow s).isSome = true → FailRow s d (.claimCmd c) c .anyone 3345 8
  | claimRefused (c : Cmd) : s.mg.bringUp = 5 → ownerNow s = none →
      (nonceGood s c.src (d.take 32) = false ∨ fieldB d 32 4 ≠ c.src.toNat ∨
        ∀ k ∈ s.mg.ownKeys, Config.mldsaVerify (Config.keyOf k) (d.take 36) (d.drop 36) = false) →
      FailRow s d (.claimCmd c) c .anyone 3345 7
  | partdelNone (c : Cmd) : zeroBytes d 1 7 = true → getPart s (fieldB d 0 1) = none → FailRow s d (.partdelCmd c) c .ownerOnly 8 9
  | partdelHeld (c : Cmd) (p : Part) : zeroBytes d 1 7 = true → getPart s (fieldB d 0 1) = some p → partHeld s p.num = true →
      FailRow s d (.partdelCmd c) c .ownerOnly 8 5
  | partgetNone (c : Cmd) : zeroBytes d 1 7 = true → getPart s (fieldB d 0 1) = none → FailRow s d (.partgetCmd c) c .anyone 8 9
  | retgetNone (c : Cmd) : zeroBytes d 1 7 = true → getPart s (fieldB d 0 1) = none → FailRow s d (.retgetCmd c) c .anyone 8 9
  | calgetNone (c : Cmd) : zeroBytes d 1 7 = true → getPart s (fieldB d 0 1) = none → FailRow s d (.calgetCmd c) c .anyone 8 9
  | ctxdelNone (c : Cmd) : zeroBytes d 4 4 = true → getCtx s (BitVec.ofNat 32 (fieldB d 0 4)) = none →
      FailRow s d (.ctxdelCmd c) c .ownerOnly 8 9
  | qresetNone (c : Cmd) : zeroBytes d 2 6 = true → getQueue s (fieldB d 0 2) = none → FailRow s d (.qresetCmd c) c .ownerOnly 8 9
  | qresetBusy (c : Cmd) (q : Queue) : zeroBytes d 2 6 = true → getQueue s (fieldB d 0 2) = some q →
      (q.stat.getLsbD 31 = false ∨ q.done ≠ q.strt) → FailRow s d (.qresetCmd c) c .ownerOnly 8 5
  | queueSetNone (c : Cmd) : fieldB d 0 2 < 2048 → zeroBytes d 2 6 = true → fieldB d 8 8 % 64 = 0 → 3 ≤ fieldB d 0x10 1 →
      fieldB d 0x10 1 ≤ 20 → fieldB d 0x11 1 ≤ 1 → zeroBytes d 0x18 16 = true →
      getCtx s (BitVec.ofNat 32 (fieldB d 0x14 4)) = none → FailRow s d (.queueSetCmd c) c .ownerOnly 40 9
  | apcloseNone (c : Cmd) : zeroBytes d 1 3 = true →
      (∀ a ∈ s.fb.aps, ¬ (a.node = s.fb.node ∧ a.part = fieldB d 0 1 ∧ a.idx = fieldB d 4 4)) →
      FailRow s d (.apcloseCmd c) c .ownerOnly 8 9
  | mcdelNone (c : Cmd) : zeroBytes d 2 6 = true → (∀ g ∈ s.fb.groups, g.num ≠ fieldB d 0 2) →
      FailRow s d (.mcdelCmd c) c .ownerOnly 8 9
  | fwloadBad (c : Cmd) : (d = [] ∨ imageGood d = false) → FailRow s d (.fwloadCmd c) c .ownerOnly d.length 7

/-! ## Canonical memory, words and steps -/

/-- Every byte memory that instructions reach is in canonical form: physical, host, firmware and peers' memory, the trays, the tiles, and
what is kept of trays and tiles for a rollback. -/
structure Canonical (s : State) : Prop where
  mem   : Mem.wf s.ms.mem = true
  host  : Mem.wf s.ms.hostMem = true
  fw    : Mem.wf s.mg.fwMem = true
  peers : ∀ p ∈ s.fb.peers, Mem.wf p.2.2 = true
  trays : ∀ p ∈ s.cs.pallets, Mem.wf p.tray = true
  tiles : ∀ t ∈ s.cs.tiles, Mem.wf t.bytes = true
  snaps : ∀ n ∈ s.cs.snaps, Mem.wf n.2.pal.tray = true ∧ ∀ t ∈ n.2.tiles, Mem.wf t.bytes = true

/-- The fields of a 32-bit form whose named fields are zero (R48). -/
def plainFld : Fld := fldShort 0 0 0 0

end Sys2Proof
end

