-- ==== Sys2Proof/Certificates/Slice0/Obligations.lean ====
section
/-! DEFINITION. The statements. -/

open Sys2Proof Sys2Proof.Machine

/-- R94, R95, R98, R99: each element of the destination holds the exact result of the elements of the sources, wrapped or clamped; the
other registers, the other lanes and everything outside the sheet are as they were. -/
def Obligations.IntegerArithmetic : Prop :=
  ∀ i o f r s e l v, ArithRow i o f r → Solo o f s e l v →
    ∃ t x, exec i s = .next t ∧ WentOn s t e l (putG v.f.d.toNat (intCnt v.f) x v.t) ∧ OnlySheet s t e.sh.key ∧
      ∀ k, k < intN v.f.fmt → BitVec.ofNat (intW v.f.fmt) (x / 2 ^ (intW v.f.fmt * k)) =
        narrow (intSigned v.f.fmt) (v.f.md.getLsbD 0) (intW v.f.fmt) (r (intSigned v.f.fmt) (intW v.f.fmt)
          (elemInt (intSigned v.f.fmt) (srcElem v 1 k)) (elemInt (intSigned v.f.fmt) (srcElem v 2 k))
          (elemInt (intSigned v.f.fmt) (srcElem v 3 k)))

/-- R95, R98, R100: the same for the operations by bits; isel reads qC. -/
def Obligations.IntegerBits : Prop :=
  ∀ i o f r s e l v, BitsRow i o f r → Solo o f s e l v →
    ∃ t x, exec i s = .next t ∧ WentOn s t e l (putG v.f.d.toNat (intCnt v.f) x v.t) ∧ OnlySheet s t e.sh.key ∧
      ∀ k, k < intN v.f.fmt → BitVec.ofNat (intW v.f.fmt) (x / 2 ^ (intW v.f.fmt * k)) =
        r (intSigned v.f.fmt) (intW v.f.fmt) (srcElem v 1 k) (srcElem v 2 k) (srcElem v 3 k) (v.q 3 v.f.c.toNat)

/-- R96, R97: icmp: the condition holds of the sources' values, or not; qD is T or F. lea: base pair, literal offset and scaled index,
modulo 2^64. -/
def Obligations.CompareAndAddress : Prop :=
  (∀ f s e l v, Solo formIcmp f s e l v →
    Ends (.icmp f) s s e l (putQ f.d.toNat (if condOf f.md.toNat (elemInt (intSigned f.fmt) (srcElem v 1 0))
      (elemInt (intSigned f.fmt) (srcElem v 2 0)) then qT else qF) v.t)) ∧
  (∀ f s e l v, Solo formLea f s e l v →
    Ends (.lea f) s s e l (putG f.d.toNat 2 ((v.gs 1 f.a.toNat 2 + (if f.lit = 4 then f.imm.toNat else 0) +
      (if f.c = 0 then 0 else (if f.fmt = 1 then (v.g 3 f.c.toNat).toNat else ((v.g 3 f.c.toNat).signExtend 64).toNat) *
        2 ^ (f.md.toNat % 4))) % 2 ^ 64) v.t))

/-- R101, R273: the moves. A 32-bit mov of a pending handle marks its destination; mvk writes the column's k registers; mvf gives tag
raw; mfg takes every tag but none. -/
def Obligations.RegisterMoves : Prop :=
  (∀ f s e l v, Solo formMov f s e l v →
    Ends (.mov f) s s e l ((if intCnt f = 1 ∧ litIs f 1 = false ∧ v.t.gp.contains f.a.toNat then markG f.d.toNat else id)
      (putG f.d.toNat (intCnt f) (v.int 1 (intCnt f)) v.t))) ∧
  (∀ f s e l v, Solo formMvk f s e l v →
    EndsK (.mvk f) s s e l v.t (putK (l % 32) f.d.toNat (intCnt f) (v.int 1 (intCnt f)) e.sh.ks)) ∧
  (∀ f s e l v, Solo formMkg f s e l v →
    Ends (.mkg f) s s e l (putG f.d.toNat (intCnt f) (if litIs f 1 then f.imm.toNat else v.ks 1 f.a.toNat (intCnt f)) v.t)) ∧
  (∀ f s e l v, Solo formMvf f s e l v → Ends (.mvf f) s s e l (putF f.d.toNat (BitVec.ofNat 64 (v.int 1 (intCnt f))) 13 v.t)) ∧
  (∀ f s e l v, Solo formMfg f s e l v → litIs f 1 = true ∨ (v.fr 1 f.a.toNat).2 ≠ 0 →
    Ends (.mfg f) s s e l (putG f.d.toNat (intCnt f) (fImage v 1) v.t))

/-- R102, R103: srd gives a special register, 32 bits or a pair; swr sets ret or fpf.
The model's choices here: log 24. -/
def Obligations.SpecialRegisters : Prop :=
  (∀ f s e l v x, Solo formSrd f s e l v → SpecialReg v s f.a.toNat x →
    Ends (.srd f) s s e l (putG f.d.toNat (if f.w = 3 then 2 else 1) x v.t)) ∧
  (∀ f s e l v, Solo formSwr f s e l v →
    Ends (.swr f) s s e l (if f.d.toNat = 0x0F then { v.t with ret := BitVec.ofNat 64 (v.gs 1 f.a.toNat (if f.w = 3 then 2 else 1)) }
      else { v.t with fpf := BitVec.ofNat 5 (v.gs 1 f.a.toNat (if f.w = 3 then 2 else 1)) }))

/-- R61 to R64: a prefix of a new kind, with at most one before it, joins the run; the program counter moves on and nothing else
changes. One with a reserved field joins too, its word noted: its fault comes when the run ends, behind the run's illegal cases.
The model's choices here: log 10. -/
def Obligations.PrefixJoinsRun : Prop :=
  ∀ i k f s sh, PrefixRow i k f → getSheet s s.iss.sheet = some sh → f.len = 0 → sh.run.length < 2 →
    runHas sh.run (BitVec.ofNat 7 k) = false →
    ∃ t, exec i s = .next t ∧ OnlySheets s t ∧ (∀ n, n ≠ sh.key → getSheet t n = getSheet s n) ∧
      getSheet t sh.key = some { sh with
        run := sh.run ++ [⟨BitVec.ofNat 7 k, f.a, if wfPrefix k f then none else some s.iss.w0⟩]
        runPc := s.iss.pc
        pc := s.iss.next }

/-- R129 to R135: fadd, fmul, fma, fdiv and fsqrt round the exact result of each element once; the register takes the format's tag, and
the exceptions that do not trap set their sticky flags. -/
def Obligations.FloatArithmetic : Prop :=
  ∀ i o f flds r s e l v, FloatRow i o f flds r → Solo o f s e l v → (∀ n ∈ flds, fTagged v (fmtTag f.fmt) n) →
    let F := ffOf f.fmt.toNat
    let src := fun n k => F.read v.fz (elemAt F.bits (fImage v n) k)
    let y := (List.range (ffN f.fmt.toNat)).map fun k => F.finish f.rnd.toNat v.fz false
      (r f.rnd.toNat (src (flds.getD 0 1) k) (src (flds.getD 1 2) k) (src (flds.getD 2 3) k))
    excAll (y.map (·.2)) &&& trapMask v.env.la = 0 →
    Ends i s s e l (putF f.d.toNat (BitVec.ofNat 64 (packElems F.bits (y.map (·.1)))) (fmtTag f.fmt)
      (putFlags (excAll (y.map (·.2))) v.t))

/-- R137, R138, R140: the same for the operations on element bits, minimum and maximum, rounding to an integral value and the six
approximated operations.
The model's choices here: log 25, 26. -/
def Obligations.FloatElements : Prop :=
  ∀ i o f flds r s e l v, FloatBitsRow i o f flds r → Solo o f s e l v → (∀ n ∈ flds, fTagged v (fmtTag f.fmt) n) →
    let F := ffOf f.fmt.toNat
    let y := (List.range (ffN f.fmt.toNat)).map fun k => r F v.fz (elemAt F.bits (fImage v 1) k) (elemAt F.bits (fImage v 2) k)
    excAll (y.map (·.2)) &&& trapMask v.env.la = 0 →
    Ends i s s e l (putF f.d.toNat (BitVec.ofNat 64 (packElems F.bits (y.map (·.1)))) (fmtTag f.fmt)
      (putFlags (excAll (y.map (·.2))) v.t))

/-- R136, R137, R141: fcmp gives U when a source is NaN; fclass gives one bit; fsel copies image and tag; fldexp rounds a·2^b. -/
def Obligations.FloatCompareSelect : Prop :=
  (∀ f s e l v, Solo formFcmp f s e l v → fTagged v (fmtTag f.fmt) 1 → fTagged v (fmtTag f.fmt) 2 →
    let F := ffOf f.fmt.toNat
    let a := F.read v.fz (elemAt F.bits (fImage v 1) 0)
    let b := F.read v.fz (elemAt F.bits (fImage v 2) 0)
    minMaxExc a b &&& trapMask v.env.la = 0 →
    Ends (.fcmp f) s s e l (putQ f.d.toNat (if a.isNan || b.isNan then qU else
      if condHolds f.md.toNat (ltFV a b) (cmpFV a b == .eq) then qT else qF) (putFlags (minMaxExc a b) v.t))) ∧
  (∀ f s e l v, Solo formFclass f s e l v → fTagged v (fmtTag f.fmt) 1 →
    Ends (.fclass f) s s e l (putG f.d.toNat 1 ((ffOf f.fmt.toNat).classOf (elemAt (ffOf f.fmt.toNat).bits (fImage v 1) 0)) v.t)) ∧
  (∀ f s e l v, Solo formFsel f s e l v →
    (∀ n ∈ [1, 2], litIs f n = true ∨ (v.fr n (fieldNum f n)).2 ≠ 0) →
    let n := if v.q 3 f.c.toNat = qT then 1 else 2
    Ends (.fsel f) s s e l (if litIs f n then putF f.d.toNat (BitVec.ofNat 64 (f.imm.toNat % 2 ^ 32)) 2 v.t
      else putF f.d.toNat (v.fr n (fieldNum f n)).1 (v.fr n (fieldNum f n)).2 v.t)) ∧
  (∀ f s e l v, Solo formFldexp f s e l v → fTagged v (fmtTag f.fmt) 1 →
    let F := ffOf f.fmt.toNat
    let y := F.finish f.rnd.toNat v.fz false (match F.read v.fz (elemAt F.bits (fImage v 1) 0) with
      | .num n m x => .num n m (x + signedN 32 (v.int 2 1))
      | .inf n => .inf n false
      | .nan q => .nan q)
    y.2 &&& trapMask v.env.la = 0 →
    Ends (.fldexp f) s s e l (putF f.d.toNat (BitVec.ofNat 64 (y.1 % 2 ^ F.bits)) (fmtTag f.fmt) (putFlags y.2 v.t)))

/-- R142 to R145: cvt to a floating format, to an integer held in an f register and of a raw image; cvti and cvtf; each rounds the
source's value once. -/
def Obligations.Conversions : Prop :=
  (∀ f s e l v F a, Solo formCvt f s e l v → f.fmt ≠ 14 → f.fmt ≠ 9 → f.fmt ≠ 10 → f.rnd ≠ 5 → FloatScalar v 1 F a →
    let y := (ffOf f.fmt.toNat).finish f.rnd.toNat v.fz (f.md.getLsbD 4) a.toXR
    y.2 &&& trapMask v.env.la = 0 →
    Ends (.cvt f) s s e l (putF f.d.toNat (BitVec.ofNat 64 (y.1 % 2 ^ (ffOf f.fmt.toNat).bits)) (fmtTag f.fmt) (putFlags y.2 v.t))) ∧
  (∀ f s e l v F a, Solo formCvt f s e l v → f.fmt = 9 ∨ f.fmt = 10 → f.rnd ≠ 5 → FloatScalar v 1 F a →
    let w := if f.fmt = 9 then 32 else 64
    let y := toInt f.rnd.toNat (-2 ^ (w - 1)) (2 ^ (w - 1) - 1) a
    y.2 &&& trapMask v.env.la = 0 →
    Ends (.cvt f) s s e l (putF f.d.toNat ((BitVec.ofInt w y.1).setWidth 64) 13 (putFlags y.2 v.t))) ∧
  (∀ f s e l v, Solo formCvt f s e l v → f.fmt = 14 → litIs f 1 = true ∨ (v.fr 1 f.a.toNat).2 ≠ 0 →
    Ends (.cvt f) s s e l (putF f.d.toNat (BitVec.ofNat 64 (fImage v 1)) (f.md.setWidth 4) v.t)) ∧
  (∀ f s e l v, Solo formCvti f s e l v → fTagged v (fmtTag f.fmt) 1 →
    let F := ffOf f.fmt.toNat
    let w := if f.md.toNat % 4 < 2 then 32 else 64
    let sg := f.md.toNat % 2 = 0
    let y := toInt f.rnd.toNat (if sg then -2 ^ (w - 1) else 0) (if sg then 2 ^ (w - 1) - 1 else 2 ^ w - 1)
      (F.read v.fz (elemAt F.bits (fImage v 1) 0))
    y.2 &&& trapMask v.env.la = 0 →
    Ends (.cvti f) s s e l (putG f.d.toNat (w / 32) (BitVec.ofInt w y.1).toNat (putFlags y.2 v.t))) ∧
  (∀ f s e l v, Solo formCvtf f s e l v →
    let w := if f.md.toNat % 4 < 2 then 32 else 64
    let x : BitVec w := BitVec.ofNat w (v.int 1 (w / 32))
    let n := elemInt (f.md.toNat % 2 = 0) x
    let y := (ffOf f.fmt.toNat).finish f.rnd.toNat v.fz false (.num (n < 0) n.natAbs 0)
    y.2 &&& trapMask v.env.la = 0 →
    Ends (.cvtf f) s s e l (putF f.d.toNat (BitVec.ofNat 64 (y.1 % 2 ^ (ffOf f.fmt.toNat).bits)) (fmtTag f.fmt) (putFlags y.2 v.t)))

/-- R145, R146: pack2 rounds two scalars into one register, unpk2 widens one element to f32; with error feedback each rounds the sum of
source and residue and keeps what the rounding lost.
The model's choices here: log 29. -/
def Obligations.PackAndErrorFeedback : Prop :=
  (∀ f s e l v F a G b, Solo formPack2 f s e l v → f.rnd ≠ 5 → FloatScalar v 1 F a → FloatScalar v 2 G b →
    (∀ n ∈ [1, 2], (v.fr n (fieldNum f n)).2 = 1 ∨ (v.fr n (fieldNum f n)).2 = 2 ∨
      (f.fmt ≠ 4 ∧ (v.fr n (fieldNum f n)).2 = fmtTag f.fmt)) →
    let D := ffOf f.fmt.toNat
    let y := D.finish f.rnd.toNat v.fz false a.toXR
    let z := D.finish f.rnd.toNat v.fz false b.toXR
    (y.2 ||| z.2) &&& trapMask v.env.la = 0 →
    Ends (.pack2 f) s s e l (putF f.d.toNat (BitVec.ofNat 64 (packElems D.bits [y.1, z.1])) (fmtTag f.fmt)
      (putFlags (y.2 ||| z.2) v.t))) ∧
  (∀ f s e l v F a G b, Solo formPack2 f s e l v → f.rnd = 5 → FloatScalar v 1 F a → FloatScalar v 2 G b →
    (∀ n ∈ [1, 2], (v.fr n (fieldNum f n)).2 = 1 ∨ (v.fr n (fieldNum f n)).2 = 2 ∨
      (f.fmt ≠ 4 ∧ (v.fr n (fieldNum f n)).2 = fmtTag f.fmt)) →
    efNarrows F (ffOf f.fmt.toNat) = true → efNarrows G (ffOf f.fmt.toNat) = true →
    let D := ffOf f.fmt.toNat
    let y := efWith (D.finish 0 v.fz false) D.val a (bitsN (v.e f.e.toNat).toNat 0 32)
    let z := efWith (D.finish 0 v.fz false) D.val b (bitsN (v.e f.e.toNat).toNat 32 32)
    (y.2.2 ||| z.2.2) &&& trapMask v.env.la = 0 →
    Ends (.pack2 f) s s e l { putF f.d.toNat (BitVec.ofNat 64 (packElems D.bits [y.1, z.1])) (fmtTag f.fmt)
        (putFlags (y.2.2 ||| z.2.2) v.t) with
      e := v.t.e.set f.e.toNat (BitVec.ofNat 64 (y.2.1 + z.2.1 * 2 ^ 32)) }) ∧
  (∀ f s e l v, Solo formUnpk2 f s e l v → (v.fr 1 f.a.toNat).2 = fmtTag f.fmt →
    let F := ffOf f.fmt.toNat
    let y := ff32.finish 0 v.fz false (F.read v.fz (elemAt F.bits (v.fr 1 f.a.toNat).1.toNat (if f.md.getLsbD 0 then 1 else 0))).toXR
    y.2 &&& trapMask v.env.la = 0 →
    Ends (.unpk2 f) s s e l (putF f.d.toNat (BitVec.ofNat 64 y.1) 2 (putFlags y.2 v.t))) ∧
  (∀ f s e l v F a, Solo formCvt f s e l v → f.fmt ≠ 14 → f.fmt ≠ 9 → f.fmt ≠ 10 → f.rnd = 5 → FloatScalar v 1 F a →
    efNarrows F (ffOf f.fmt.toNat) = true →
    let D := ffOf f.fmt.toNat
    let h := if f.md.getLsbD 5 then 1 else 0
    let y := efWith (D.finish 0 v.fz (f.md.getLsbD 4)) D.val a (bitsN (v.e f.e.toNat).toNat (32 * h) 32)
    y.2.2 &&& trapMask v.env.la = 0 →
    Ends (.cvt f) s s e l (putE f.e.toNat h y.2.1 (putF f.d.toNat (BitVec.ofNat 64 y.1) (fmtTag f.fmt) (putFlags y.2.2 v.t))))

/-- R149 to R151: the interval operations on intervals. An empty operand or result is no fault unless the launch asks for one.
R147, R150, R152, R153: an interval from two scalars; scalars and predicates from intervals.
The model's choices here: log 100. -/
def Obligations.IntervalArithmetic : Prop :=
  (∀ i o f r s e l v, IvTwoRow i o f r → Solo o f s e l v → ivTagged v 1 → ivTagged v 2 →
    let d := match ivValue v 1, ivValue v 2 with
      | some a, some b => r (ivFF f) a b
      | _, _ => none
    v.env.la.eit = false ∨ d.isSome = true →
    let b := d.getD (emptyBits (ivFF f))
    Ends i s s e l (putIv f f.d.toNat b.1 b.2 v.t)) ∧
  (∀ i o f r s e l v, IvOneRow i o f r → Solo o f s e l v → ivTagged v 1 →
    let d := (ivValue v 1).bind (r (ivFF f))
    v.env.la.eit = false ∨ d.isSome = true →
    let b := d.getD (emptyBits (ivFF f))
    Ends i s s e l (putIv f f.d.toNat b.1 b.2 v.t)) ∧
  (∀ f s e l v, Solo formIhull f s e l v → ivTagged v 1 → ivTagged v 2 →
    let F := ivFF f
    let b := match ivValue v 1, ivValue v 2 with
      | some a, some b => (keepBound F (minFV a.1 b.1), keepBound F (maxFV a.2 b.2))
      | some a, none => (keepBound F a.1, keepBound F a.2)
      | none, some b => (keepBound F b.1, keepBound F b.2)
      | none, none => emptyBits F
    Ends (.ihull f) s s e l (putIv f f.d.toNat b.1 b.2 v.t)) ∧
  (∀ f s e l v, Solo formImake f s e l v → fTagged v (fmtTag f.fmt) 1 → fTagged v (fmtTag f.fmt) 2 →
    let F := ivFF f
    let d := (ivOf (F.val (elemAt F.bits (fImage v 1) 0)) (F.val (elemAt F.bits (fImage v 2) 0))).map
      fun p => (keepBound F p.1, keepBound F p.2)
    v.env.la.eit = false ∨ d.isSome = true →
    let b := d.getD (emptyBits F)
    Ends (.imake f) s s e l (putIv f f.d.toNat b.1 b.2 v.t)) ∧
  (∀ i o f z r s e l v, IvScalarRow i o f z r → Solo o f s e l v → ivTagged v 1 →
    v.env.la.eit = false ∨ (ivValue v 1).isSome = true →
    Ends i s s e l (putF f.d.toNat (BitVec.ofNat 64 (((ivValue v 1).map (r (ivFF f))).getD (z (ivFF f)))) (fmtTag f.fmt) v.t)) ∧
  (∀ f s e l v, Solo formIin f s e l v → ivTagged v 1 → fTagged v (fmtTag f.fmt) 2 →
    v.env.la.eit = false ∨ (ivValue v 1).isSome = true →
    let x := (ivFF f).val (elemAt (ivFF f).bits (fImage v 2) 0)
    Ends (.iin f) s s e l (putQ f.d.toNat (match ivValue v 1 with
      | some a => if x.isNan = false ∧ leFV a.1 x ∧ leFV x a.2 then qT else qF
      | none => qF) v.t)) ∧
  (∀ f s e l v, Solo formIcmpInterval f s e l v → ivTagged v 1 → ivTagged v 2 →
    v.env.la.eit = false ∨ (ivValue v 1).isSome = true ∧ (ivValue v 2).isSome = true →
    Ends (.icmpInterval f) s s e l (putQ f.d.toNat (relIv (f.md.toNat % 8) (ivValue v 1) (ivValue v 2)) v.t))

/-- R106: the predicate operations in Kleene's logic.
R108: the mask instructions. They execute once for the course, em empty or not. -/
def Obligations.PredicatesAndMasks : Prop :=
  (∀ f s e l v, Solo formQand f s e l v → Ends (.qand f) s s e l (putQ f.d.toNat
    (let a := v.q 1 f.a.toNat; let b := v.q 2 f.b.toNat
     if a = qF ∨ b = qF then qF else if a = qT ∧ b = qT then qT else qU) v.t)) ∧
  (∀ f s e l v, Solo formQor f s e l v → Ends (.qor f) s s e l (putQ f.d.toNat
    (let a := v.q 1 f.a.toNat; let b := v.q 2 f.b.toNat
     if a = qT ∨ b = qT then qT else if a = qF ∧ b = qF then qF else qU) v.t)) ∧
  (∀ f s e l v, Solo formQxor f s e l v → Ends (.qxor f) s s e l (putQ f.d.toNat
    (let a := v.q 1 f.a.toNat; let b := v.q 2 f.b.toNat
     if a = qU ∨ b = qU then qU else if a = b then qF else qT) v.t)) ∧
  (∀ f s e l v, Solo formQnot f s e l v → Ends (.qnot f) s s e l (putQ f.d.toNat
    (let a := v.q 1 f.a.toNat; if a = qF then qT else if a = qT then qF else qU) v.t)) ∧
  (∀ f s e l v, Solo formQmov f s e l v → Ends (.qmov f) s s e l (putQ f.d.toNat (v.q 1 f.a.toNat) v.t)) ∧
  (∀ f s e l v, Solo formQset f s e l v → Ends (.qset f) s s e l (putQ f.d.toNat (f.a.setWidth 2) v.t)) ∧
  (∀ f s e l v, Solo formQdef f s e l v → Ends (.qdef f) s s e l (putQ f.d.toNat
    (let a := v.q 1 f.a.toNat; if a = qU then (if f.md.getLsbD 0 then qT else qF) else a) v.t)) ∧
  (∀ f s e v, MaskReady formMfromq f s e v → MaskEnds (.mfromq f) s e e.sh.em
    (e.sh.m.set f.d.toNat (maskOf ((e.sh.lanes.filter fun l => e.sh.em.getLsbD l.1 &&
      senseHolds (f.md.toNat % 4) (({ v with lane := l.1, t := l.2 } : LV).q 1 f.a.toNat)).map (·.1)))) fun _ => id) ∧
  (∀ f s e v, MaskReady formMset f s e v → MaskEnds (.mset f) s e (maskNamed e f.a.toNat &&& lanesMask e.sh) e.sh.m fun _ => id) ∧
  (∀ f s e v, MaskReady formMget f s e v → MaskEnds (.mget f) s e e.sh.em (e.sh.m.set f.d.toNat e.sh.em) fun _ => id) ∧
  (∀ f s e v, MaskReady formMand f s e v → MaskEnds (.mand f) s e e.sh.em
    (e.sh.m.set f.d.toNat (maskNamed e f.a.toNat &&& maskNamed e f.b.toNat)) fun _ => id) ∧
  (∀ f s e v, MaskReady formMor f s e v → MaskEnds (.mor f) s e e.sh.em
    (e.sh.m.set f.d.toNat (maskNamed e f.a.toNat ||| maskNamed e f.b.toNat)) fun _ => id) ∧
  (∀ f s e v, MaskReady formMnot f s e v → MaskEnds (.mnot f) s e e.sh.em
    (e.sh.m.set f.d.toNat (~~~maskNamed e f.a.toNat &&& lanesMask e.sh)) fun _ => id) ∧
  (∀ f s e v, MaskReady formMpop f s e v → MaskEnds (.mpop f) s e e.sh.em e.sh.m fun k =>
    if e.sh.em.getLsbD k then putG f.d.toNat 1 ((List.range 128).countP fun i => (maskNamed e f.a.toNat).getLsbD i) else id) ∧
  (∀ f s e v, MaskReady formMfirst f s e v → MaskEnds (.mfirst f) s e e.sh.em e.sh.m fun k =>
    if e.sh.em.getLsbD k then putG f.d.toNat 1 (((List.range 128).find? fun i => (maskNamed e f.a.toNat).getLsbD i).getD (2 ^ 32 - 1))
    else id)

/-- R109: vote combines the predicate of every lane of its membership mask and writes the result to each of them. -/
def Obligations.Vote : Prop :=
  ∀ f s e ins, Joined formVote f s e (maskNamed e f.b.toNat) ins →
    let qs := ins.map fun v => v.q 1 f.a.toNat
    CrsEnds (.vote f) s e ins fun _ v => putQ f.d.toNat
      (if f.md.toNat = 0 then (if qF ∈ qs then qF else if ∀ q ∈ qs, q = qT then qT else qU)
       else if f.md.toNat = 1 then (if qT ∈ qs then qT else if ∀ q ∈ qs, q = qF then qF else qU)
       else if ∀ q ∈ qs, ∀ r ∈ qs, q = r then qT else qF) v.t

/-- R255: an exchange gives each participating lane the source of the lane at the rank that the table names, all read before any is
written. -/
def Obligations.Exchange : Prop :=
  ∀ i o f pos s e ins, ExchRow i o f pos → Joined o f s e (maskNamed e f.c.toNat) ins →
    (f.md.toNat % 4 = 2 → ∀ v ∈ ins, (v.fr 1 f.a.toNat).2 ≠ 0) →
    CrsEnds i s e ins fun r v =>
      let w := (ins[exchFrom f pos (ins.map fun v => (v.g 2 f.b.toNat).toNat) r]?).getD v
      if f.md.toNat % 4 = 0 then putG f.d.toNat 1 (w.g 1 f.a.toNat).toNat v.t
      else if f.md.toNat % 4 = 1 then putG f.d.toNat 2 (w.gs 1 f.a.toNat 2) v.t
      else putF f.d.toNat (w.fr 1 f.a.toNat).1 (w.fr 1 f.a.toNat).2 v.t

/-- R256 to R258: redux gives every participant the tree's result, scan the running results, of integers or of
rounded floating values; match finds the equal sets; elect picks one lane. -/
def Obligations.Collectives : Prop :=
  (∀ f s e ins, Joined formRedux f s e (maskNamed e f.c.toNat) ins → f.md.getLsbD 4 = false → ins.length ≤ 128 →
    let w := 32 * intCnt f
    ∀ x : BitVec w, (ins ≠ [] → TreeTo (joinInt (f.md.toNat % 8) (intSigned f.fmt))
        (ins.map fun v => BitVec.ofNat w (v.gs 1 f.a.toNat (intCnt f))) x) →
      CrsEnds (.redux f) s e ins fun _ v => putG f.d.toNat (intCnt f) x.toNat v.t) ∧
  (∀ f s e ins, Joined formScan f s e (maskNamed e f.c.toNat) ins → f.md.getLsbD 4 = false →
    let w := 32 * intCnt f
    let ys := runningOf (joinInt (f.md.toNat % 8) (intSigned f.fmt)) (ins.map fun v => BitVec.ofNat w (v.gs 1 f.a.toNat (intCnt f)))
    CrsEnds (.scan f) s e ins fun r v => putG f.d.toNat (intCnt f)
      (if f.md.getLsbD 3 then (if r = 0 then identInt (f.md.toNat % 8) (intSigned f.fmt) w else (nthD ys (r - 1) 0).toNat)
       else (nthD ys r 0).toNat) v.t) ∧
  (∀ f s e ins, Joined formRedux f s e (maskNamed e f.c.toNat) ins → f.md.getLsbD 4 = true → ins.length ≤ 128 →
    (∀ v ∈ ins, (v.fr 1 f.a.toNat).2 = fmtTag f.fmt) →
    let F := ffOf f.fmt.toNat
    ∀ x : Nat × Exc, (ins ≠ [] → TreeTo (joinFloat (f.md.toNat % 8) F (ins.any LV.fz))
        (ins.map fun v => (elemAt F.bits (v.fr 1 f.a.toNat).1.toNat 0, 0)) x) →
      (∀ v ∈ ins, x.2 &&& trapMask v.env.la = 0) →
      CrsEnds (.redux f) s e ins fun _ v => putF f.d.toNat (BitVec.ofNat 64 x.1) (fmtTag f.fmt) (putFlags x.2 v.t)) ∧
  (∀ f s e ins, Joined formScan f s e (maskNamed e f.c.toNat) ins → f.md.getLsbD 4 = true →
    (∀ v ∈ ins, (v.fr 1 f.a.toNat).2 = fmtTag f.fmt) →
    let F := ffOf f.fmt.toNat
    let xs : List (Nat × Exc) := ins.map fun v => (elemAt F.bits (v.fr 1 f.a.toNat).1.toNat 0, 0)
    let ys := runningOf (joinFloat (f.md.toNat % 8) F (ins.any LV.fz)) (if f.md.getLsbD 3 then xs.dropLast else xs)
    let all := excAll (ys.map (·.2))
    (∀ v ∈ ins, all &&& trapMask v.env.la = 0) →
    CrsEnds (.scan f) s e ins fun r v => putF f.d.toNat (BitVec.ofNat 64
      (if f.md.getLsbD 3 then (if r = 0 then identFloat (f.md.toNat % 8) F else (nthD ys (r - 1) (0, 0)).1) else (nthD ys r (0, 0)).1))
      (fmtTag f.fmt) (putFlags all v.t)) ∧
  (∀ f s e ins, Joined formMatch f s e (maskNamed e f.c.toNat) ins →
    let x := fun (v : LV) => v.gs 1 f.a.toNat (if f.md = 1 then 2 else 1)
    CrsEnds (.matchLanes f) s e ins fun r v =>
      let same := (List.range ins.length).filter fun k => (ins[k]?).map x == some (x v)
      putG (f.d.toNat + 3) 1 (ins.map x).dedup.length (putG (f.d.toNat + 2) 1 (same.countP fun k => k < r)
        (putG (f.d.toNat + 1) 1 same.length (putG f.d.toNat 1 (same.headD 0) v.t)))) ∧
  (∀ f s e ins, Joined formElect f s e (maskNamed e f.c.toNat) ins →
    CrsEnds (.elect f) s e ins fun r w =>
      putQ f.d.toNat (if some r = ins.head?.map (fun v => (v.g 2 f.b.toNat).toNat % ins.length) then qT else qF) w.t)

/-- R16, R19, R110 to R118: a branch whose lanes all go to one place takes the sheet there, a call leaving the return address in ret; when
the lanes go to different places a group of the greatest size stays and every other thread waits in the spawn store at its own
destination.
The model's choices here: log 15, 95. -/
def Obligations.Branching : Prop :=
  (∀ i o f call s e dest d, BranchReady i o f call s e dest → (∀ l ∈ awakeLanes e.sh, dest l = d) →
    ∃ t, exec i s = .next t ∧ OnlySheet s t e.sh.key ∧
      (∃ sh, getSheet t e.sh.key = some sh ∧ sh.pc = d ∧ sh.run = [] ∧ sh.done = 0 ∧ sh.em = e.sh.em ∧ sh.ks = e.sh.ks) ∧
      ∀ k, threadAt t e.sh.key k = (laneThread e.sh k).map fun th =>
        if call = true ∧ k ∈ awakeLanes e.sh then { th with ret := s.iss.next } else th) ∧
  (∀ i o f call s e dest, BranchReady i o f call s e dest →
    storeFits s e.la e.pl.key (awakeLanes e.sh).length = true →
    ∃ t d, exec i s = .next t ∧ (∃ l ∈ awakeLanes e.sh, dest l = d) ∧ (∀ d', goTo e dest d' ≤ goTo e dest d) ∧
      (∃ sh, getSheet t e.sh.key = some sh ∧ sh.pc = d) ∧
      ∀ l ∈ awakeLanes e.sh, ∀ th, laneThread e.sh l = some th →
        if dest l = d then (threadAt t e.sh.key l).map (·.g) = some th.g
        else threadAt t e.sh.key l = none ∧ ∃ n ∈ t.cs.store, n.thr.uid = th.uid ∧ n.pc = dest l) ∧
  (∀ f s e, envOf s s.iss.sheet = some e → e.sh.lanes ≠ [] → awakeLanes e.sh = [] →
    (decodeCheck formBra f f s.iss = none → ∃ t sh, exec (.bra f) s = .next t ∧ getSheet t e.sh.key = some sh ∧
      sh.pc = labelOf s.iss f) ∧
    (decodeCheck formCall f f s.iss = none → ∃ t sh, exec (.call f) s = .next t ∧ getSheet t e.sh.key = some sh ∧
      sh.pc = labelOf s.iss f) ∧
    (decodeCheck formBrc f f s.iss = none → ∃ t sh, exec (.brc f) s = .next t ∧ getSheet t e.sh.key = some sh ∧
      sh.pc = s.iss.next))

/-- R20, R121, R154: spawn creates a thread that waits in the spawn store at the label with 0 in gD, and the parent's gD receives its
identity; ibis keeps the lower half, and creates a thread that goes on with the upper half and 1 in gD; of the empty interval it creates
none.
The model's choices here: log 13. -/
def Obligations.SpawnAndBisect : Prop :=
  (∀ f s e l v, Solo formSpawn f s e l v → entryRoom s e.sh.pal = true → f.ord = false → recording e.la = false → replaying e.la = false →
    f.d.toNat < v.t.g.length →
    ∃ t, exec (.spawn f) s = .next t ∧ WentOn s t e l (putG f.d.toNat 1 (unorderedId e.pl).toNat v.t) ∧
      ∃ n ∈ t.cs.store, n.pal = e.sh.pal ∧ n.pc = s.iss.ipc + 4 * f.imm ∧ n.thr.tid = unorderedId e.pl ∧
        nthD n.thr.g f.d.toNat 1 = 0 ∧ n.thr.uid = s.cs.fresh ∧ n.sleep = .ready) ∧
  (∀ f s e l v a, Solo formIbis f s e l v → ivTagged v 1 → litIs f 1 = false → ivValue v 1 = some a → entryRoom s e.sh.pal = true →
    v.f.ord = false → recording e.la = false → replaying e.la = false → f.d.toNat < v.t.g.length →
    f.a.toNat + (if f.fmt = 1 then 1 else 0) < v.t.f.length →
    let F := ivFF f
    let m := boundBits F false (F.val (midBits F a)).toXR
    let put := fun lo hi => if f.fmt = 1 then lo else lo + hi * 2 ^ 32
    ∃ t, exec (.ibis f) s = .next t ∧ WentOn s t e l (putIv f f.a.toNat (keepBound F a.1) m (putG f.d.toNat 1 0 v.t)) ∧
      ∃ n ∈ t.cs.store, n.pal = e.sh.pal ∧ n.pc = s.iss.next ∧ n.thr.tid = unorderedId e.pl ∧ nthD n.thr.g f.d.toNat 0 = 1 ∧
        n.thr.uid = s.cs.fresh ∧ n.sleep = .ready ∧ nthD n.thr.f f.a.toNat 0 = BitVec.ofNat 64 (put m (keepBound F a.2)) ∧
        (f.fmt = 1 → nthD n.thr.f (f.a.toNat + 1) 0 = BitVec.ofNat 64 (keepBound F a.2))) ∧
  (∀ f s e l v, Solo formIbis f s e l v → ivTagged v 1 → ivValue v 1 = none → e.la.eit = false →
    Ends (.ibis f) s s e l (putG f.d.toNat 1 0 v.t))

/-- R25, R104, R119, R120: exit of a free thread takes it out of its sheet and gives its sticky flags to the launch; yield changes nothing. -/
def Obligations.ExitAndYield : Prop :=
  (∀ f s e l v, Solo formExit f s e l v → e.sh.course = none → v.t.trap = none → v.t.pair = none →
    (∀ p ∈ s.cs.pallets, ∀ c ∈ p.table, (e.pl.key, v.t.uid) ∉ c.2.members) →
    ∃ t la, exec (.exit f) s = .next t ∧ threadAt t e.sh.key l = none ∧
      (∀ k, k ≠ l → (threadAt t e.sh.key k).map regsOf = (laneThread e.sh k).map regsOf) ∧
      getLaunch t e.la.key = some la ∧ la.flags = e.la.flags ||| v.t.fpf ∧ t.ms = s.ms) ∧
  (∀ f s e l v, Solo formYield f s e l v → Ends (.yield f) s s e l v.t)

/-- R122, R370, R376: trap with a handler: the thread leaves its sheet and waits in the store to run from the handler's address with
the registers it has; its trap context holds where it stopped, where it goes on, and the record with the instruction's code. -/
def Obligations.TrapEntersHandler : Prop :=
  ∀ f s e l v, Solo formTrap f s e l v → e.sh.course = none → v.t.trap = none → v.t.pair = none → e.la.r.handler ≠ 0 →
    ∃ t n c, exec (.trap f) s = .next t ∧ threadAt t e.sh.key l = none ∧
      n ∈ t.cs.store ∧ n.thr.uid = v.t.uid ∧ n.pc = e.la.r.handler ∧ n.thr.trap = some c ∧
      c.pc = s.iss.pc ∧ c.next = s.iss.next ∧ (n.thr.g, n.thr.f, n.thr.ft, n.thr.q, n.thr.e) = (v.t.g, v.t.f, v.t.ft, v.t.q, v.t.e) ∧
      fieldB c.info 0 1 = 0x31 ∧ fieldB c.info 8 8 = s.iss.pc.toNat ∧ fieldB c.info 0x10 4 = v.t.tid.toNat ∧
      fieldB c.info 0x28 4 = (f.a ++ f.d).toNat

/-- R122, R378, R455: trap without a handler, and brk with no debugger attached, are fatal: the context stops with the fault's code;
brk with a debugger attached parks the free thread at the next instruction, where it waits with its record first when the trap queue has
no room for it (R374) or cannot be written (R373).
R123: swi releases at sys and sends the OR to the wake register of a queue of the partition, or of the management with privilege.
The model's choices here: log 33. -/
def Obligations.FatalTrapsAndInterrupts : Prop :=
  (∀ f s e l v, Solo formTrap f s e l v → e.la.r.handler = 0 → e.cx.stop = none →
    ∃ t x, exec (.trap f) s = .next t ∧ getCtx t e.la.cid = some x ∧ x.stop = some 0x31) ∧
  (∀ f s e l v, Solo formBrk f s e l v → e.pl.dbg.att = false → e.cx.stop = none →
    ∃ t x, exec (.brk f) s = .next t ∧ getCtx t e.la.cid = some x ∧ x.stop = some 0x30) ∧
  (∀ f s e l v, Solo formBrk f s e l v → e.sh.course = none → v.t.trap = none → e.pl.dbg.att = true →
    ∃ t n, exec (.brk f) s = .next t ∧ threadAt t e.sh.key l = none ∧ n ∈ t.cs.store ∧ n.thr = v.t ∧ n.pc = s.iss.next ∧
      (n.sleep = .brk ∨ (∃ r, n.sleep = .trapSlot r false ∧ fieldB r 0 1 = 0x30) ∧
        (reportRoom s e.la e.cx = false ∨ ((getCtx t e.la.cid).bind (·.stop)).isSome = true))) ∧
  (∀ f s e l v c s1, Solo formSwi f s e l v →
    (if v.int 2 1 = 0x1000 ∨ v.int 2 1 = 0x1001 then e.cx.cfl.getLsbD 0 = true else queueOfPart s e.cx (v.int 2 1) = true) →
    v.release s 6 = .ok (c, s1) →
    Does (.swi f) s (withSwis s1 (s1.qs.swis ++ [⟨palletAgent s1 e.pl, v.int 2 1, BitVec.ofNat 32 (v.int 1 1)⟩])) e l id)

/-- R124, R376: tret of a free thread's handler: the thread waits in the store with the registers it has, after the faulting run, or at it
with .re, and is no handler any more; the handler of a pinned course's lane gives the lane back to the course's sheet, where it has
executed the run or, with .re, has not; outside a handler tret raises the illegal-instruction fault.
The model's choices here: log 100. -/
def Obligations.TrapReturn : Prop :=
  (∀ f s e l v c, Solo formTret f s e l v → v.t.trap = some c → c.crs = none → entryRoom s e.sh.pal = true →
    ∃ t n, exec (.tret f) s = .next t ∧ threadAt t e.sh.key l = none ∧ n ∈ t.cs.store ∧ n.thr.uid = v.t.uid ∧ n.thr.trap = none ∧
      n.pc = (if f.md.getLsbD 0 then c.pc else c.next) ∧ regsOf n.thr = regsOf v.t) ∧
  (∀ f s e l v c key ln cs, Solo formTret f s e l v → v.t.trap = some c → c.crs = some (key, ln) → key ≠ e.sh.key →
    getSheet s key = some cs → (laneThread cs ln).isSome = true →
    ∃ t sh, exec (.tret f) s = .next t ∧ threadAt t e.sh.key l = none ∧ getSheet t key = some sh ∧ sh.pc = cs.pc ∧ sh.em = cs.em ∧
      laneThread sh ln = some { v.t with trap := none, skip := f.md.getLsbD 0 && c.once } ∧
      sh.done = (if f.md.getLsbD 0 then cs.done else cs.done ||| (1#128 <<< ln))) ∧
  (∀ f s e l v, envOf s s.iss.sheet = some e → decodeCheck formTret f (effFld f s.iss.run) s.iss = none →
    actLanes formTret f s e = [l] → viewOf s e (execFld formTret f s.iss.run) (issueAt s e.sh) [l] = some v →
    v.unitGuard = none → (∀ r ∈ usesOf formTret v.f v.iss.run, classBad v.env r = false) → v.earlyFault formTret = none →
    v.t.trap = none → e.la.r.handler = 0 → e.cx.stop = none →
    ∃ t x, exec (.tret f) s = .next t ∧ getCtx t e.la.cid = some x ∧ x.stop = some 0x01)

/-- R244 to R250: the course group in a free thread.
The model's choices here: log 16. -/
def Obligations.CourseGroup : Prop :=
  (∀ f s e l v slot, Solo formCcreate f s e l v → slot < 64 → (∀ k, k < slot → (sGet e.pl.table k).isSome = true) →
    sGet e.pl.table slot = none →
    let p := { e.pl with table := sPut e.pl.table slot ⟨f.md.getLsbD 0, [], false, [], 0, [], [], [], [], [], [], false⟩ }
    Ends (.ccreate f) s (setPallet s p) e l (putG f.d.toNat 1 (courseHandle p slot).toNat v.t)) ∧
  (∀ f s e l v c p, Solo formCfree f s e l v → e.sh.course = none → courseOf s e.pl (v.g 1 f.a.toNat) = some c →
    c.c.pinned = false → c.c.members = [] → getPallet s c.pal = some p →
    Ends (.cfree f) s (setPallet s { p with
      table := sDel p.table c.slot
      ser := sPut p.ser c.slot ((sGetD p.ser c.slot 0 + 1) % 2 ^ 16) }) e l v.t) ∧
  (∀ f s e l v c, Solo formCjoin f s e l v → e.sh.course = none → courseOf s e.pl (v.g 1 f.a.toNat) = some c →
    (e.pl.key, v.t.uid) ∉ c.c.members → c.c.members.length < 128 →
    Ends (.cjoin f) s (putCourse s c.pal c.slot (courseEvent { c.c with members := c.c.members ++ [(e.pl.key, v.t.uid)] })) e l v.t) ∧
  (∀ f s e l v c, Solo formCleave f s e l v → e.sh.course = none → courseOf s e.pl (v.g 1 f.a.toNat) = some c →
    (e.pl.key, v.t.uid) ∈ c.c.members → c.c.pinAt = [] → ((getPallet s c.pal).bind fun p => sGet p.table c.slot) = some c.c →
    Ends (.cleave f) s (putCourse s c.pal c.slot (courseLeave c.c (e.pl.key, v.t.uid))) e l v.t) ∧
  (∀ f s e l v c, Solo formCid f s e l v → courseOf s e.pl (v.g 1 f.a.toNat) = some c →
    Ends (.cid f) s s e l (putG (f.d.toNat + 1) 1 c.c.members.length (putG f.d.toNat 1
      ((c.c.members.findIdx? fun m => m == (e.pl.key, v.t.uid)).getD (2 ^ 32 - 1)) v.t)))

/-- R26, R248: at cpin a member waits in the spawn store after the instruction; the last one to come pins the course with its tiles; cunpin
makes the course's threads free, every lane active.
R251 to R253: carrive releases, joins the open generation and returns its number; cwait and cbar go on once it has completed, with an
acquire of the arrivals' stamps, and sleep before.
The model's choices here: log 18. -/
def Obligations.CoursePinningAndBarriers : Prop :=
  (∀ f s e l v c, Solo formCpin f s e l v → e.sh.course = none → courseOf s e.pl (v.g 1 f.a.toNat) = some c → c.c.clus = false →
    (e.pl.key, v.t.uid) ∈ c.c.members → (∀ x ∈ c.c.pinAt, x.2.1 = s.iss.pc) →
    (∃ m ∈ c.c.members, m.2 ≠ v.t.uid ∧ ∀ x ∈ c.c.pinAt, x.1 ≠ m.2) → entryRoom s e.pl.key = true →
    ∃ t n, exec (.cpin f) s = .next t ∧ threadAt t e.sh.key l = none ∧ n ∈ t.cs.store ∧ n.thr = v.t ∧ n.pc = s.iss.next ∧
      n.sleep = .pin c.slot ∧ (((getPallet t e.pl.key).bind fun p => sGet p.table c.slot).map (·.pinAt)) =
        some (c.c.pinAt ++ [(v.t.uid, s.iss.pc, f.md.toNat)])) ∧
  (∀ f s e l v c, Solo formCpin f s e l v → e.sh.course = none → courseOf s e.pl (v.g 1 f.a.toNat) = some c → c.c.clus = false →
    (e.pl.key, v.t.uid) ∈ c.c.members → c.c.members.length ≤ 32 * e.la.r.depth → storedOf s e.pl.key v.t.uid = none →
    (∀ m ∈ c.c.members, m ≠ (e.pl.key, v.t.uid) → (∃ x ∈ c.c.pinAt, x.1 = m.2) ∧
      ∃ n, storedOf s e.pl.key m.2 = some n ∧ n.k = kImage e.sh (l % 32)) →
    (∀ x ∈ c.c.pinAt, x.2.1 = s.iss.pc ∧ x.2.2 = f.md.toNat) → f.md.toNat ≤ tilesFree e.la e.pl →
    f.md.toNat ≤ ((List.range 128).filter fun i => !(seatedTiles s e.pl.core).contains i).length → c.c.pinned = false → c.c.tiles = [] → 0 < e.la.r.depth →
    ∃ t x, exec (.cpin f) s = .next t ∧ ((getPallet t e.pl.key).bind fun p => sGet p.table c.slot) = some x ∧ x.pinned = true ∧
      x.tiles.length = f.md.toNat ∧ x.members = c.c.members ∧ (∀ m ∈ x.members, ∃ y ∈ x.pinAt, y.1 = m.2) ∧
      threadAt t e.sh.key l = none) ∧
  (∀ f s e l v c slot k, getSheet s s.iss.sheet = some c → c.course = some slot → c.done = 0 →
    Solo formCunpin f (setSheet s { c with em := lanesMask c, done := maskOf ((c.lanes.map (·.1)).drop 1) }) e l v →
    courseOf s e.pl (v.g 1 f.a.toNat) = some k → k.slot = slot → k.c.clus = false →
    courseBusy s e.pl.key slot = false →
    ∃ t sh y, exec (.cunpin f) s = .next t ∧ getSheet t e.sh.key = some sh ∧ sh.pc = s.iss.next ∧ sh.course = none ∧
      sh.em = lanesMask c ∧ ((getPallet t k.pal).bind fun p => sGet p.table slot) = some y ∧ y.pinned = false ∧ y.tiles = []) ∧
  (∀ f s e l v c r s1 x, Solo formCarrive f s e l v → e.sh.course = none → courseOf s e.pl (v.g 1 f.a.toNat) = some c →
    barScope v c.c = none → (e.pl.key, v.t.uid) ∈ c.c.members → (e.pl.key, v.t.uid) ∉ c.c.arrived →
    v.release s v.f.scope.toNat = .ok (r, s1) → ((getPallet s1 c.pal).bind fun p => sGet p.table c.slot) = some x →
    Does (.carrive f) s (putCourse s1 c.pal c.slot (courseEvent { x with
      openSt := addMark x.openSt (v.mark s1 v.f.scope.toNat r)
      arrived := x.arrived ++ [(e.pl.key, v.t.uid)] })) e l (putG f.d.toNat 1 c.c.gen.toNat)) ∧
  (∀ f s e l v c, Solo formCwait f s e l v → e.sh.course = none → courseOf s e.pl (v.g 1 f.a.toNat) = some c →
    barScope v c.c = none → (e.pl.key, v.t.uid) ∈ c.c.members → ((getPallet s c.pal).bind fun p => sGet p.table c.slot) = some c.c →
    let d := (c.c.gen - (v.g 2 f.b.toNat).setWidth 16).toNat
    (0 < d → d ≤ 2 ^ 15 → Does (.cwait f) s (v.acquire s v.f.scope.toNat c.c.lastSt) e l id) ∧
    (d = 0 → entryRoom s e.sh.pal = true → ∃ t n, exec (.cwait f) s = .next t ∧ threadAt t e.sh.key l = none ∧
      n ∈ t.cs.store ∧ n.thr = v.t ∧ n.pc = s.iss.next ∧
      n.sleep = .cwait c.pal c.slot ((v.g 2 f.b.toNat).setWidth 16) v.f.scope)) ∧
  (∀ f s e l v c r s1 x, Solo formCbar f s e l v → e.sh.course = none → courseOf s e.pl (v.g 1 f.a.toNat) = some c →
    barScope v c.c = none → (e.pl.key, v.t.uid) ∈ c.c.members → (e.pl.key, v.t.uid) ∉ c.c.arrived → entryRoom s e.sh.pal = true →
    v.release s v.f.scope.toNat = .ok (r, s1) → ((getPallet s1 c.pal).bind fun p => sGet p.table c.slot) = some x → x.gen = c.c.gen →
    (∀ m ∈ x.expected, m ∈ x.arrived ∨ m = (e.pl.key, v.t.uid)) →
    Does (.cbar f) s (v.acquire (putCourse s1 c.pal c.slot (courseEvent { x with
      openSt := addMark x.openSt (v.mark s1 v.f.scope.toNat r)
      arrived := x.arrived ++ [(e.pl.key, v.t.uid)] })) v.f.scope.toNat (addMark x.openSt (v.mark s1 v.f.scope.toNat r))) e l id)

/-- R199 to R203: a load that passes its checks gives the bytes that the access reads, as its registers hold them.
The model's choices here: log 40, 90. -/
def Obligations.Loads : Prop :=
  (∀ i o f n ldp mis w s e l v p s1 s2 bytes s3, LoadRow i o f n ldp mis w → Solo o f s e l v → v.f.spc ≠ 5 →
    v.check s accLoad (v.addr true) n mis = .ok (p, s1) → v.gate s1 v.f.spc.toNat (v.addr true) n = .ok s2 →
    v.load s2 p n (f.md.getLsbD 0) ldp = .ok (bytes, s3) →
    Does i s s3 e l fun t => w (ofLe bytes) { t with skip := false }) ∧
  (∀ f s e l v p s1 s2 bytes s3, Solo formLdk f s e l v → v.f.spc ≠ 5 →
    v.check s accLoad (v.addr true) (wBytes f.w) false = .ok (p, s1) →
    v.gate s1 v.f.spc.toNat (v.addr true) (wBytes f.w) = .ok s2 →
    v.load s2 p (wBytes f.w) (f.md.getLsbD 0) false = .ok (bytes, s3) →
    ∃ t, exec (.ldk f) s = .next t ∧
      ActsK s s3 t e l (fun t => { t with skip := false }) (putK (l % 32) f.d.toNat (wCnt f.w) (ofLe bytes))) ∧
  (∀ i o f n ldp mis w s e l v x, LoadRow i o f n ldp mis w → Solo o f s e l v → v.f.spc = 5 →
    winLoad s e.cx (v.addr true) n = .value x → Ends i s s e l (w x v.t))

/-- R162, R175, R199: a load from the pallet's own tray gives the bytes at its address, lowest first, and changes nothing else.
R164, R175: a store to the pallet's own tray changes the bytes at its address and no other byte of memory or of any tray.
R204 to R207: a fetch-operation on a unit of the pallet's own tray gives the old value and leaves the new one; no other byte
changes. -/
def Obligations.TrayAccess : Prop :=
  (∀ i o f n ldp mis w s e l v, LoadRow i o f n ldp mis w → Solo o f s e l v → OwnTray v s (v.addr true) n mis →
    f.md.getLsbD 0 = false → Ends i s s e l (w (ofLe (memRead e.pl.tray (v.addr true) n)) { v.t with skip := false })) ∧
  (∀ i o f bytes s e l v, StoreRow i o f v bytes → Solo o f s e l v →
    OwnTray v s (v.addr true) bytes.length (f.md.getLsbD 2) → f.md.getLsbD 1 = false →
    ∃ t, exec i s = .next t ∧ WentOn s t e l v.t ∧ t.ms = s.ms ∧
      (∀ k a, k ≠ e.pl.key → trayByte t k a = trayByte s k a) ∧
      ∀ a, trayByte t e.pl.key a = some (if v.addr true ≤ a ∧ a < v.addr true + bytes.length then nthD bytes (a - v.addr true) 0
        else memGet e.pl.tray a)) ∧
  (∀ i o f r s e l v, FetchRow i o f r → Solo o f s e l v → v.f.ord = false → f.md.getLsbD 4 = false →
    OwnTray v s (v.addr true) (atmBytes v.f.atm) false → f.md.getLsbD 0 = false → f.md.getLsbD 1 = false →
    recording e.la = false → replaying e.la = false →
    let n := atmBytes v.f.atm
    let a := v.addr true
    let old : BitVec (8 * n) := BitVec.ofNat _ (ofLe (memRead e.pl.tray a n))
    let new := (r (8 * n) (v.f.fmt = 0 ∨ v.f.fmt = 2) old (BitVec.ofNat _ (v.gs 2 f.b.toNat (atmCnt v.f)))
      (BitVec.ofNat _ (v.gs 0 f.d.toNat (atmCnt v.f)))).getD old
    ∃ t, exec i s = .next t ∧ WentOn s t e l (putG f.d.toNat (atmCnt v.f) old.toNat v.t) ∧ t.ms = s.ms ∧
      (∀ k b, k ≠ e.pl.key → trayByte t k b = trayByte s k b) ∧
      ∀ b, trayByte t e.pl.key b = some (if a ≤ b ∧ b < a + n then new.extractLsb' (8 * (b - a)) 8 else memGet e.pl.tray b))

/-- R199, R201, R203: a store that passes its checks stores its bytes.
The model's choices here: log 40. -/
def Obligations.Stores : Prop :=
  (∀ i o f bytes s e l v p s1 s2 s3, StoreRow i o f v bytes → Solo o f s e l v → v.f.spc ≠ 5 →
    v.check s accStore (v.addr true) bytes.length (f.md.getLsbD 2) = .ok (p, s1) →
    v.gate s1 v.f.spc.toNat (v.addr true) bytes.length = .ok s2 → v.store s2 p bytes (f.md.getLsbD 1) = .ok s3 →
    Does i s s3 e l id) ∧
  (∀ i o f bytes s e l v s1, StoreRow i o f v bytes → Solo o f s e l v → v.f.spc = 5 →
    winStore s e.cx (v.addr true) bytes.length (ofLe bytes) = .moved s1 → Does i s s1 e l id)

/-- R171, R183, R184: a plain store at scope self or core to global memory stays in the core's L1: no byte of memory or of a tray changes,
its core sees the new bytes, and every other byte is seen as before, by every core. -/
def Obligations.CachedStores : Prop :=
  ∀ i o f bytes s e l v q s1, StoreRow i o f v bytes → Solo o f s e l v → v.f.spc = 0 → v.f.scope.toNat ≤ 1 → f.md.getLsbD 1 = false →
    v.check s accStore (v.addr true) bytes.length (f.md.getLsbD 2) = .ok (.glob [q], s1) →
    boardHits s e.pl 0 (v.addr true) bytes.length = [] → e.sh.heldBy = [] →
    ∃ t, exec i s = .next t ∧ WentOn s t e l v.t ∧ t.ms.mem = s.ms.mem ∧ (∀ k a, trayByte t k a = trayByte s k a) ∧
      (∀ k, k < bytes.length → byteSeen t (l1Core s e.pl.core ((q.pa + k) / 128)) e.cx.cid (q.pa + k) = nthD bytes k 0) ∧
      ∀ core cid a, ¬ (core = l1Core s e.pl.core (a / 128) ∧ cid = e.cx.cid ∧ q.pa ≤ a ∧ a < q.pa + bytes.length) →
        byteSeen t core cid a = byteSeen s core cid a

/-- R204 to R206, R210: a fetch-operation of any space and format whose checks pass, and whose turn it is when it is ordered, gives the old
value of its unit. -/
def Obligations.FetchOperations : Prop :=
  (∀ i o f r s e l v p s1 s2 old s3, FetchRow i o f r → Solo o f s e l v → v.f.ord = false →
    recording e.la = false → replaying e.la = false → v.check s accOther (v.addr true) (atmBytes v.f.atm) false = .ok (p, s1) →
    v.gate s1 v.f.spc.toNat (v.addr true) (atmBytes v.f.atm) = .ok s2 →
    v.rmw s2 p (atmBytes v.f.atm) (v.f.md.getLsbD 0) (v.f.md.getLsbD 1) (fun x => rmwValue o.xop (v.f.md.getLsbD 4) v.f.fmt
      (atmBytes v.f.atm) x (if 9 ≤ o.xop then 0 else v.gs 2 v.f.b.toNat (atmCnt v.f))
      (if o.xop = 8 then v.gs 0 v.f.d.toNat (atmCnt v.f) else 0)) = .ok (old, s3) →
    Does i s s3 e l (putG v.f.d.toNat (atmCnt v.f) old)) ∧
  (∀ i o f r s e l v p s1 s2 w s3 old s4, FetchRow i o f r → Solo o f s e l v → v.f.ord = true →
    v.check s accOther (v.addr false) (atmBytes v.f.atm) false = .ok (p, s1) →
    v.gate s1 v.f.spc.toNat (v.addr false) (atmBytes v.f.atm) = .ok s2 →
    v.sqTurn s2 p (v.addr false) (v.g 3 v.f.c.toNat) = .go s3 w →
    v.rmw s3 p (atmBytes v.f.atm) (v.f.md.getLsbD 0) (v.f.md.getLsbD 1) (fun x => rmwValue o.xop (v.f.md.getLsbD 4) v.f.fmt
      (atmBytes v.f.atm) x (if 9 ≤ o.xop then 0 else v.gs 2 v.f.b.toNat (atmCnt v.f))
      (if o.xop = 8 then v.gs 0 v.f.d.toNat (atmCnt v.f) else 0)) = .ok (old, s4) →
    Does i s (setWin s4 w { w with next := w.next + 1 }) e l (putG v.f.d.toNat (atmCnt v.f) old))

/-- R208: a reduction on a unit of the pallet's own tray leaves the combined value, writes no register and changes no other byte; any
other unordered reduction that passes its checks is the same operation at its home. -/
def Obligations.Reductions : Prop :=
  (∀ i o f r s e l v, ReduceRow i o f r → Solo o f s e l v → v.f.ord = false → f.md.getLsbD 4 = false →
    OwnTray v s (v.addr true) (atmBytes v.f.atm) false → f.md.getLsbD 1 = false →
    let n := atmBytes v.f.atm
    let a := v.addr true
    let old : BitVec (8 * n) := BitVec.ofNat _ (ofLe (memRead e.pl.tray a n))
    let new := r (8 * n) (v.f.fmt = 0 ∨ v.f.fmt = 2) old (BitVec.ofNat _ (v.gs 2 f.b.toNat (atmCnt v.f)))
    ∃ t, exec i s = .next t ∧ WentOn s t e l v.t ∧ t.ms = s.ms ∧ (∀ k b, k ≠ e.pl.key → trayByte t k b = trayByte s k b) ∧
      ∀ b, trayByte t e.pl.key b = some (if a ≤ b ∧ b < a + n then new.extractLsb' (8 * (b - a)) 8 else memGet e.pl.tray b)) ∧
  (∀ i o f r s e l v p s1 s2 old s3, ReduceRow i o f r → Solo o f s e l v → v.f.ord = false →
    (v.f.md.getLsbD 4 = false ∨ recording e.la = false ∧ replaying e.la = false) →
    v.check s accOther (v.addr true) (atmBytes v.f.atm) false = .ok (p, s1) →
    v.gate s1 v.f.spc.toNat (v.addr true) (atmBytes v.f.atm) = .ok s2 →
    v.rmw s2 p (atmBytes v.f.atm) false (v.f.md.getLsbD 1) (fun x => rmwValue (redOp o.xop) (v.f.md.getLsbD 4) v.f.fmt
      (atmBytes v.f.atm) x (v.gs 2 v.f.b.toNat (atmCnt v.f)) 0) = .ok (old, s3) →
    Does i s s3 e l id)

/-- R209 to R211: an ordered reduction only joins its window's buffer; sqopen opens a window over its region, and sqclose, once nothing of
the window is left to apply, leaves it closed.
The model's choices here: log 52. -/
def Obligations.SequenceWindows : Prop :=
  (∀ i o f r s e l v p s1 s2 w, ReduceRow i o f r → Solo o f s e l v → v.f.ord = true → v.f.md.getLsbD 1 = false →
    v.check s accOther (v.addr false) (atmBytes v.f.atm) false = .ok (p, s1) →
    v.gate s1 v.f.spc.toNat (v.addr false) (atmBytes v.f.atm) = .ok s2 →
    findWin s2 e.la.key (trayOf p) (regionAddr p (v.addr false)) = some w → w.buf.length < 65536 →
    ∃ s3 t x, exec i s = .next t ∧ Acts s s3 t e l id ∧ s3.ms = s2.ms ∧ (∀ k a, trayByte s3 k a = trayByte s2 k a) ∧
      x.idx = v.g 3 v.f.c.toNat ∧ x.addr = regionAddr p (v.addr false) ∧ x.op = redOp o.xop ∧
      { w with buf := w.buf ++ [x] } ∈ s3.en.wins) ∧
  (∀ f s e l v p s1 s2, Solo formSqopen f s e l v →
    v.sqRegion s (v.addr false) (v.g 2 v.f.b.toNat).toNat = .ok (p, s1) →
    (∀ w ∈ openWins s1 e.la.key, w.tray = trayOf p →
      overlaps w.base w.size (regionAddr p (v.addr false)) (v.g 2 v.f.b.toNat).toNat = false) →
    (openWins s1 e.la.key).length < 64 → e.la.p = none →
    ReleasedInto (v.f.md.getLsbD 1) v s1 s2 (trayOf p) (regionAddr p (v.addr false)) (v.g 2 v.f.b.toNat).toNat →
    Does (.sqopen f) s (withWins s2 (s2.en.wins ++ [⟨e.la.key, trayOf p, e.cx.cid, regionAddr p (v.addr false),
      (v.g 2 v.f.b.toNat).toNat, v.g 3 v.f.c.toNat, [], [], [], 0, 0, false⟩])) e l id) ∧
  (∀ f s e l v p s1 s2 w s4, Solo formSqclose f s e l v → closingBy s e.la.key v.t.uid = none →
    v.sqPlace s (v.addr true) = .ok (p, s1) →
    ((openWins s1 e.la.key).find? fun w => w.tray == trayOf p && w.base == regionAddr p (v.addr true)) = some w →
    ReleasedInto (v.f.md.toNat % 4 == 2) v s1 s2 w.tray w.base w.size →
    let s3 := closeWin s2 e.la e.cx ⟨some e.pl, s.iss.pc.toNat, v.t.tid⟩ v.t.uid w
    closingBy s3 e.la.key v.t.uid = none →
    (if v.f.md.toNat % 4 = 3 then
        v.releaseRegion (v.acquire s3 v.f.scope.toNat (w.stamp ++ itemMarks w.launch w.buf)) w.tray w.base w.size = .ok s4
      else s4 = s3) →
    Does (.sqclose f) s s4 e l id)

/-- R179 to R181, R188, R189, R193, R213: rel releases at its scope, acq acquires, fopr releases to the load pipes, feng acquires what the
pallet's own engines have completed, drain goes on when no remote operation is outstanding. -/
def Obligations.Fences : Prop :=
  (∀ f s e l v c s1, Solo formRel f s e l v → e.sh.done = 0 → v.release s v.f.scope.toNat = .ok (c, s1) →
    Does (.rel f) s s1 e l id ∧ (getAgent s1 (palletAgent s e.pl)).c = c) ∧
  (∀ f s e l v, Solo formAcq f s e l v → e.sh.done = 0 → Does (.acq f) s (acquire s (whoOf s e) v.f.scope.toNat []) e l id) ∧
  (∀ f s e l v c s1, Solo formFopr f s e l v → e.sh.done = 0 → v.release s 1 = .ok (c, s1) → (getPallet s1 e.pl.key).isSome = true →
    ∃ s2 t, exec (.fopr f) s = .next t ∧ Acts s s2 t e l id ∧ (getPallet s2 e.pl.key).map (·.fopr) = some c ∧ s2.ms = s1.ms) ∧
  (∀ f s e l v, Solo formFeng f s e l v → e.sh.done = 0 →
    Does (.feng f) s (acquire s (whoOf s e) 1 (anyMark (maxN ((s.en.futs.filter fun u => u.pal == e.pl.key &&
      (u.handle.toNat / 2 ^ 28 == 1 || u.handle.toNat / 2 ^ 28 == 2) && u.st != .pending).map (·.stamp))))) e l id) ∧
  (∀ f s e l v, Solo formDrain f s e l v → (∀ r ∈ s.fb.reqs, r.agent = palletAgent s e.pl → r.kind = .marker) →
    Ends (.drain f) s s e l v.t)

/-- R214, R215: monitor sets the thread's watch; mwait returns 2 without one, 0 with its pending bit set (and clears it), and sleeps in
the spawn store otherwise. -/
def Obligations.LineWatch : Prop :=
  (∀ f s e l v p s1, Solo formMonitor f s e l v → v.check s accLoad (v.addr true) 1 true = .ok (p, s1) →
    Does (.monitor f) s s1 e l fun t => { t with watch := some ⟨(placeLine p (v.addr true)).1, (placeLine p (v.addr true)).2, false⟩ }) ∧
  (∀ f s e l v, Solo formMwait f s e l v → e.sh.course = none → v.t.watch = none →
    Does (.mwait f) s (acquire s (whoOf s e) v.f.scope.toNat []) e l (putG f.d.toNat 1 2)) ∧
  (∀ f s e l v w, Solo formMwait f s e l v → e.sh.course = none → v.t.watch = some w → w.pending = true →
    Does (.mwait f) s (acquire s (whoOf s e) v.f.scope.toNat (watchMarks s v.t)) e l fun t =>
      putG f.d.toNat 1 0 { t with watch := t.watch.map fun w => { w with pending := false } }) ∧
  (∀ f s e l v w, Solo formMwait f s e l v → e.sh.course = none → v.t.watch = some w → w.pending = false →
    entryRoom s e.sh.pal = true →
    ∃ t n, exec (.mwait f) s = .next t ∧ threadAt t e.sh.key l = none ∧ n ∈ t.cs.store ∧ n.thr = v.t ∧ n.pc = s.iss.next ∧
      n.sleep = .mwait f.d.toNat (v.g 1 f.a.toNat) v.f.scope)

/-- R217 to R220: mbsend puts eight words and its clock into a mailbox of this package, T, or finds it full, F; mbrecv takes the oldest
message; mbpoll counts.
The model's choices here: log 50. -/
def Obligations.Mailboxes : Prop :=
  (∀ f s e l v c s1, Solo formMbsend f s e l v → v.boxCheck s (v.g 2 f.b.toNat).toNat = none →
    v.release s v.f.scope.toNat = .ok (c, s1) → s1.fb.node = s.fb.node →
    let a := (v.g 2 f.b.toNat).toNat
    let cx := (getCtx s1 e.cx.cid).getD e.cx
    let m : Msg := ⟨leBytes 32 (v.gs 1 f.a.toNat 8), [v.mark s1 v.f.scope.toNat c]⟩
    let old := sGetD s1.cs.boxes a []
    let full := 8 ≤ old.length
    (bitsN a 12 9 = s.fb.node → cx.out = [] →
      Does (.mbsend f) s (if full then s1 else withBoxes s1 (sPut s1.cs.boxes a (old ++ [m]))) e l
        (putQ f.d.toNat (if full then qF else qT))) ∧
    (bitsN a 12 9 = s.fb.node →
      Does (.mbsend f) s (sendBox s1 cx a m).1 e l (putQ f.d.toNat (if (sendBox s1 cx a m).2 then qT else qF))) ∧
    (bitsN a 12 9 ≠ s.fb.node → ∃ q, (q = qT ∨ q = qF) ∧ Does (.mbsend f) s s1 e l (putQ f.d.toNat q))) ∧
  (∀ f s e l v m rest, Solo formMbrecv f s e l v → let n := (v.g 1 f.a.toNat).toNat; n < 16 →
    (∃ c ∈ boxOwners s e.pl.core n, c.cid = e.cx.cid) → recording e.la = false → replaying e.la = false →
    let a := s.fb.node * 4096 + e.pl.core * 16 + n
    sGetD s.cs.boxes a [] = m :: rest → (sGetD s.cs.boxWait a []).headD v.t.uid = v.t.uid →
    ∃ s1 t, exec (.mbrecv f) s = .next t ∧ Acts s s1 t e l (putG f.d.toNat 8 (ofLe m.data)) ∧ sGetD s1.cs.boxes a [] = rest ∧
      s1.ms.mem = s.ms.mem) ∧
  (∀ f s e l v, Solo formMbpoll f s e l v →
    let n := (v.g 1 f.a.toNat).toNat
    Ends (.mbpoll f) s s e l (putG f.d.toNat 1 (if n < 16 then
      (sGetD s.cs.boxes (s.fb.node * 4096 + e.pl.core * 16 + n) []).length else 0) v.t))

/-- R262 to R265: a copy instruction that passes its checks releases to the engine, gives a pending future in gD and starts a copy of its
bytes.
The model's choices here: log 42. -/
def Obligations.CopyInstructions : Prop :=
  ∀ i o f v s q s1 e l s2 c s3, CopyRow i o f v s q s1 → Solo o f s e l v → 0 < q.total → (q.bar = none ∨ q.total < 2 ^ 24) →
    v.copyCheck s1 q = none → (s1.en.copies.filter fun c => c.core == e.pl.core).length < 512 →
    takeScore (freshKey s1).2 e.pl.core e.pl.key (v.copyBounds q).1 (v.copyBounds q).2.1 (v.copyBounds q).2.2 (freshKey s1).1 = some s2 →
    v.release s2 1 = .ok (c, s3) →
    ∃ s4 t h x u, exec i s = .next t ∧ Acts s s4 t e l (fun t => markG f.d.toNat (putG f.d.toNat 1 h t)) ∧
      x ∈ s4.en.copies ∧ x.handle.toNat = h ∧ x.shape = q.shape ∧ x.dst = q.dst ∧ x.src = q.src ∧ x.total = q.total ∧
      x.left = [(0, q.total)] ∧ x.bar = q.bar ∧ x.stamp = c ∧ x.dspc = v.f.spc ∧
      getFuture s4 x.handle = some u ∧ u.st = .pending ∧ u.pal = e.pl.key ∧ s4.ms = s3.ms

/-- R273 to R276: fwait and ftest of a completed operation acquire its clock and give T or U; ftest of a pending one gives F; fcancel stops an
operation that has not begun, abandons a copy, and says what became of the operation.
R277 to R282: the barrier group on an object of the pallet's own tray. An arrival that is not the last only counts; the
last completes the generation and wakes its waiters (R280); xwait of the
generation before gives T or U, of the open one it sleeps.
The model's choices here: log 17. -/
def Obligations.FuturesAndBarrierObjects : Prop :=
  (∀ f s e l v u, Solo formFwait f s e l v → v.future s (v.g 1 f.a.toNat) = .ok u → u.st ≠ .pending → u.st ≠ .cancelledPart →
    Does (.fwait f) s (acquire s (whoOf s e) 1 (anyMark u.stamp)) e l fun t =>
      { putQ f.d.toNat (if u.st = .clean then qT else qU) t with gp := t.gp.filter fun i => i != f.a.toNat }) ∧
  (∀ f s e l v u, Solo formFtest f s e l v → v.future s (v.g 1 f.a.toNat) = .ok u → u.st ≠ .cancelledPart →
    (u.st = .pending → Ends (.ftest f) s s e l (putQ f.d.toNat qF v.t)) ∧
    (u.st ≠ .pending → Does (.ftest f) s (acquire s (whoOf s e) 1 (anyMark u.stamp)) e l fun t =>
      { putQ f.d.toNat (if u.st = .clean then qT else qU) t with gp := t.gp.filter fun i => i != f.a.toNat })) ∧
  (∀ f s e l v u, Solo formFcancel f s e l v → v.future s (v.g 1 f.a.toNat) = .ok u → u.st ≠ .pending →
    Does (.fcancel f) s s e l fun t =>
      { putQ f.d.toNat (if u.st = .cancelledWhole then qT else if u.st = .cancelledPart then qU else qF) t with
        gp := t.gp.filter fun i => i != f.a.toNat }) ∧
  (∀ f s e l v u, Solo formFcancel f s e l v → v.future s (v.g 1 f.a.toNat) = .ok u → u.st = .pending →
    (∀ c ∈ s.en.copies, c.handle ≠ u.handle) → u.begun = true →
    Does (.fcancel f) s s e l fun t => { putQ f.d.toNat qF t with gp := t.gp.filter fun i => i != f.a.toNat }) ∧
  (∀ f s e l v u, Solo formFcancel f s e l v → v.future s (v.g 1 f.a.toNat) = .ok u → u.st = .pending →
    (∀ c ∈ s.en.copies, c.handle ≠ u.handle) → u.begun = false →
    ∃ s1 t, exec (.fcancel f) s = .next t ∧
      Acts s s1 t e l (fun t => { putQ f.d.toNat qT t with gp := t.gp.filter fun i => i != f.a.toNat }) ∧
      futSt s1 u.handle = some .cancelledWhole ∧ s1.ms = s.ms ∧ (∀ x ∈ s1.qs.subs, x.fut = some u.handle → x.queue.isSome = true) ∧
      (∀ r ∈ s1.en.relq, r.fut ≠ u.handle) ∧ ∀ b ∈ s1.en.batches, b.handle ≠ u.handle) ∧
  (∀ f s e l v u c ce, Solo formFcancel f s e l v → v.future s (v.g 1 f.a.toNat) = .ok u → u.st = .pending →
    (s.en.copies.find? fun c => c.handle == u.handle) = some c → copyEnv s c = some ce →
    ∃ s1 t, exec (.fcancel f) s = .next t ∧
      Acts s s1 t e l (fun t => { putQ f.d.toNat (if u.begun then qU else qT) t with gp := t.gp.filter fun i => i != f.a.toNat }) ∧
      futSt s1 u.handle = some (if u.begun then .cancelledPart else .cancelledWhole) ∧ getCopy s1 c.key = none ∧
      s1.ms.mem = s.ms.mem ∧ (c.bar = none → ∀ p a, trayByte s1 p a = trayByte s p a) ∧
      ∀ off p, c.bar = some off → getPallet s c.pal = some p → Mem.wf p.tray = true →
        let b := getBar s c.pal off
        let x := (b.expb + 2 ^ 24 - c.undelivered % 2 ^ 24) % 2 ^ 24
        (¬ (b.arr = b.exp ∧ b.land = x) → getBar s1 c.pal off = { b with pois := true, expb := x }) ∧
        (b.exp ≠ 0 → b.arr = b.exp → b.land = x → b.narr ≠ b.exp → SleepersApart s →
          getBar s1 c.pal off = nextGen { b with pois := true, expb := x } ∧ Woken s s1 c.pal off b.gen qU)) ∧
  (∀ f s e l v, Solo formXinit f s e l v → OwnTray v s (v.addr true) 16 false →
    let n := (v.g 2 f.b.toNat).toNat
    0 < n → n ≤ 65535 →
    ∃ s1 t, exec (.xinit f) s = .next t ∧ Acts s s1 t e l id ∧ s1.ms = s.ms ∧
      getBar s1 e.pl.key (v.addr true) = ⟨n, 0, 0, 0, 0, 0, false, false, 0⟩ ∧ getBarSt s1 e.pl.key (v.addr true) = ⟨[], [], []⟩ ∧
      ∀ a, ¬ (v.addr true ≤ a ∧ a < v.addr true + 16) → trayByte s1 e.pl.key a = trayByte s e.pl.key a) ∧
  (∀ f s e l v, Solo formXexpect f s e l v → OwnTray v s (v.addr true) 16 false →
    let b := getBar s e.pl.key (v.addr true)
    let n := (v.g 2 f.b.toNat).toNat
    barUnset b = false → n < 2 ^ 24 → b.arr ≠ b.exp →
    ∃ s1 t, exec (.xexpect f) s = .next t ∧ Acts s s1 t e l id ∧
      getBar s1 e.pl.key (v.addr true) = { b with expb := (b.expb + n) % 2 ^ 24 }) ∧
  (∀ f s e l v c s1, Solo formXarrive f s e l v → OwnTray v s (v.addr true) 16 false →
    barUnset (getBar s e.pl.key (v.addr true)) = false → f.md.getLsbD 0 = false →
    (getBar s e.pl.key (v.addr true)).arr ≠ (getBar s e.pl.key (v.addr true)).exp →
    v.release s v.f.scope.toNat = .ok (c, s1) → (∃ p, getPallet s1 e.pl.key = some p ∧ Mem.wf p.tray = true) →
    let b := getBar s1 e.pl.key (v.addr true)
    b.arr + 1 < b.exp → b.exp < 2 ^ 16 →
    ∃ s2 t, exec (.xarrive f) s = .next t ∧ Acts s s2 t e l id ∧
      getBar s2 e.pl.key (v.addr true) = { b with arr := b.arr + 1 } ∧
      (getBarSt s2 e.pl.key (v.addr true)).openSt = addMark (getBarSt s1 e.pl.key (v.addr true)).openSt (v.mark s1 v.f.scope.toNat c)) ∧
  (∀ f s e l v c s1, Solo formXarrive f s e l v → OwnTray v s (v.addr true) 16 false →
    barUnset (getBar s e.pl.key (v.addr true)) = false → f.md.getLsbD 0 = true →
    (getBar s e.pl.key (v.addr true)).narr ≠ (getBar s e.pl.key (v.addr true)).exp →
    v.release s v.f.scope.toNat = .ok (c, s1) → (∃ p, getPallet s1 e.pl.key = some p ∧ Mem.wf p.tray = true) →
    let b := getBar s1 e.pl.key (v.addr true)
    b.arr ≠ b.exp → b.narr + 1 < 2 ^ 16 →
    ∃ s2 t, exec (.xarrive f) s = .next t ∧ Acts s s2 t e l id ∧
      getBar s2 e.pl.key (v.addr true) = { b with narr := b.narr + 1 } ∧
      (getBarSt s2 e.pl.key (v.addr true)).nextSt = addMark (getBarSt s1 e.pl.key (v.addr true)).nextSt (v.mark s1 v.f.scope.toNat c)) ∧
  (∀ f s e l v c s1, Solo formXarrive f s e l v → OwnTray v s (v.addr true) 16 false →
    barUnset (getBar s e.pl.key (v.addr true)) = false → f.md.getLsbD 0 = false →
    (getBar s e.pl.key (v.addr true)).arr ≠ (getBar s e.pl.key (v.addr true)).exp →
    v.release s v.f.scope.toNat = .ok (c, s1) → (∃ p, getPallet s1 e.pl.key = some p ∧ Mem.wf p.tray = true) → SleepersApart s1 →
    let b := getBar s1 e.pl.key (v.addr true)
    let st := getBarSt s1 e.pl.key (v.addr true)
    b.arr + 1 = b.exp → b.land = b.expb → b.narr ≠ b.exp →
    ∃ s2 t, exec (.xarrive f) s = .next t ∧ Acts s s2 t e l id ∧ getBar s2 e.pl.key (v.addr true) = nextGen b ∧
      getBarSt s2 e.pl.key (v.addr true) = ⟨st.nextSt, [], addMark st.openSt (v.mark s1 v.f.scope.toNat c)⟩ ∧
      Woken s1 s2 e.pl.key (v.addr true) b.gen (if b.pois then qU else qT)) ∧
  (∀ f s e l v, Solo formXwait f s e l v → OwnTray v s (v.addr true) 16 false →
    let b := getBar s e.pl.key (v.addr true)
    let g := (v.g 2 f.b.toNat).toNat % 256
    barUnset b = false → ¬ (b.arr = b.exp ∧ b.land = b.expb) →
    ((b.gen + 256 - g) % 256 = 1 → Does (.xwait f) s (acquire s (whoOf s e) v.f.scope.toNat (getBarSt s e.pl.key (v.addr true)).lastSt) e l
      (putQ f.d.toNat (if b.lpois then qU else qT))) ∧
    ((b.gen + 256 - g) % 256 ≠ 1 → 128 ≤ (g + 256 - b.gen) % 256 →
      Does (.xwait f) s (acquire s (whoOf s e) v.f.scope.toNat (getBarSt s e.pl.key (v.addr true)).lastSt) e l (putQ f.d.toNat qU)) ∧
    (b.gen = g → e.sh.course = none → entryRoom s e.sh.pal = true → ∃ t n, exec (.xwait f) s = .next t ∧
      threadAt t e.sh.key l = none ∧ n ∈ t.cs.store ∧ n.thr = v.t ∧ n.pc = s.iss.next ∧
      n.sleep = .xwait (v.addr true) (BitVec.ofNat 8 g) f.d.toNat v.f.scope))

/-- R356 to R358, R422: hod gives the launch's next task as a triple, and T, or F when none is left; with .ord the task is the one dealt to
the thread. -/
def Obligations.HandOut : Prop :=
  (∀ f s e l v, Solo formHod f s e l v → e.la.p = none → v.f.ord = false → placed e.la = false → e.la.hodF ≠ some true → e.la.redo = [] →
    recording e.la = false → replaying e.la = false → e.la.hodN < taskTotal e.la.r →
    ∃ s1 t, exec (.hod f) s = .next t ∧
      Acts s s1 t e l (fun t => putG (f.d.toNat + 2) 1 (nthD (taskTriple e.la.r e.la.hodN) 2 0)
        (putG (f.d.toNat + 1) 1 (nthD (taskTriple e.la.r e.la.hodN) 1 0)
          (putG f.d.toNat 1 (nthD (taskTriple e.la.r e.la.hodN) 0 0) (putQ f.a.toNat qT t)))) ∧
      (getLaunch s1 e.la.key).map (·.hodN) = some (e.la.hodN + 1) ∧ s1.ms = s.ms) ∧
  (∀ f s e l v, Solo formHod f s e l v → e.la.p = none → v.f.ord = false → placed e.la = false → e.la.hodF = some false → e.la.redo = [] →
    recording e.la = false → replaying e.la = false → taskTotal e.la.r ≤ e.la.hodN →
    Does (.hod f) s s e l (putQ f.a.toNat qF)) ∧
  (∀ f s e l v x, Solo formHod f s e l v → e.la.p = none → v.f.ord = true → hodForm e.la e.pl = some true → v.t.tid.getLsbD 31 = false →
    slotTask e.la e.pl.num (v.t.tid.toNat - e.pl.num * e.la.r.thr + e.la.r.thr * v.t.hods) = some x →
    ∃ s1 t, exec (.hod f) s = .next t ∧
      Acts s s1 t e l (fun t => putG (f.d.toNat + 2) 1 (nthD (taskTriple e.la.r x) 2 0)
        (putG (f.d.toNat + 1) 1 (nthD (taskTriple e.la.r x) 1 0)
          (putG f.d.toNat 1 (nthD (taskTriple e.la.r x) 0 0) (putQ f.a.toNat qT t)))) ∧ s1.ms = s.ms ∧
      (threadAt s1 e.sh.key l).map (·.hods) = some (v.t.hods + 1))

/-- R353, R354, R423: launch appends a launch packet to a queue of the partition, plaunch and prelaunch submit work to this launch's
device; each gives a pending future in gD.
The model's choices here: log 63, 75. -/
def Obligations.DeviceLaunches : Prop :=
  (∀ f s e l v s1 c s2 q u, Solo formLaunch f s e l v → v.int 1 2 % 64 = 0 → queueOfPart s e.cx (v.g 2 f.b.toNat).toNat = true →
    v.readUnit s (((getQueue s (v.g 2 f.b.toNat).toNat).map (·.cid)) == some e.cx.cid) (v.int 1 2) = .ok (some s1) →
    getQueue s1 (v.g 2 f.b.toNat).toNat = some q → q.widx - q.done < q.size →
    v.release (newFuture s1 5 e.pl.core e.pl.key).2 4 = .ok (c, s2) → getQueue s2 (v.g 2 f.b.toNat).toNat = some u →
    Does (.launch f) s (appendLaunch s2 u (v.int 1 2) (newFuture s1 5 e.pl.core e.pl.key).1 c) e l
      (fun t => markG f.d.toNat (putG f.d.toNat 1 (newFuture s1 5 e.pl.core e.pl.key).1.toNat t))) ∧
  (∀ f s e l v c s2, Solo formLaunch f s e l v → v.int 1 2 % 64 = 0 → queueOfPart s e.cx (v.g 2 f.b.toNat).toNat = true →
    getQueue s (v.g 2 f.b.toNat).toNat = none → v.release (newFuture s 5 e.pl.core e.pl.key).2 4 = .ok (c, s2) →
    getQueue s2 (v.g 2 f.b.toNat).toNat = none →
    Does (.launch f) s (completeFuture s2 (newFuture s 5 e.pl.core e.pl.key).1 .error 0) e l
      (fun t => markG f.d.toNat (putG f.d.toNat 1 (newFuture s 5 e.pl.core e.pl.key).1.toNat t))) ∧
  (∀ f s e l v unit s1 c s2, Solo formPlaunch f s e l v → v.int 1 2 % 64 = 0 →
    v.loadRecord s (v.int 1 2) 512 = .ok (some (unit, s1)) → v.release (newFuture s1 3 e.pl.core e.pl.key).2 4 = .ok (c, s2) →
    ∃ s3 t x h, exec (.plaunch f) s = .next t ∧ Acts s s3 t e l (fun t => markG f.d.toNat (putG f.d.toNat 1 h t)) ∧
      x ∈ s3.qs.subs ∧ x.pair = true ∧ x.unit = unit ∧ x.stamp = c ∧ x.cid = e.cx.cid ∧ x.fut.map (·.toNat) = some h) ∧
  (∀ f s e l v q p c s1, Solo formPrelaunch f s e l v → v.t.pair = some q → e.la.p = some p →
    (v.g 1 f.a.toNat).toNat < p.acnt → (v.g 2 f.b.toNat).toNat < p.bcnt → (p.isSelf = true → v.g 1 f.a.toNat < v.g 2 f.b.toNat) →
    v.release (newFuture s 4 e.pl.core e.pl.key).2 4 = .ok (c, s1) →
    ∃ s2 t x h, exec (.prelaunch f) s = .next t ∧ Acts s s2 t e l (fun t => markG f.d.toNat (putG f.d.toNat 1 h t)) ∧
      x ∈ s2.en.relq ∧ x.i = v.g 1 f.a.toNat ∧ x.j = v.g 2 f.b.toNat ∧ x.fut.toNat = h ∧ x.stamp = c ∧
      x.pc = (if f.lit = 3 then s.iss.ipc + 4 * f.imm else e.la.r.entry))

/-- R350 to R352: pget gives what the matcher handed the thread; an ordered pret buffers a contribution for its target.
The model's choices here: log 59, 62. -/
def Obligations.PairInstructions : Prop :=
  (∀ f s e l v q p, Solo formPget f s e l v → v.t.pair = some q → e.la.p = some p → f.md.getLsbD 0 = false →
    Ends (.pget f) s s e l (putG (f.d.toNat + 7) 1 0 (putG (f.d.toNat + 6) 1 q.rankJ.toNat (putG (f.d.toNat + 5) 1 q.rankI.toNat
      (putG (f.d.toNat + 4) 1 q.pos.toNat (putG (f.d.toNat + 3) 1 (q.homeI.toNat + 256 * q.homeJ.toNat)
        (putG (f.d.toNat + 2) 1 q.flags.toNat (putG (f.d.toNat + 1) 1 q.j.toNat (putG f.d.toNat 1 q.i.toNat v.t))))))))) ∧
  (∀ f s e l v q p, Solo formPget f s e l v → v.t.pair = some q → e.la.p = some p → f.md.getLsbD 0 = true →
    Ends (.pget f) s s e l (q.vals.zipIdx.foldl (fun t x => putF (f.d.toNat + x.2) (x.1.setWidth 64) 2 t) v.t)) ∧
  (∀ f s e l v q p w m c, Solo formPret f s e l v → v.t.pair = some q → e.la.p = some p →
    w = (if v.f.md.toNat / 4 % 8 = 0 then p.width else v.f.md.toNat / 4 % 8) → m = pairMode p (v.f.md.toNat % 4) → w ≤ p.width →
    v.f.md.toNat / 4 % 8 ≤ 4 → 0 < w → (p.mode = 2 → m = 3) → v.f.a.toNat + w ≤ e.la.r.fcnt → LV.pretVals v v.f.a.toNat w 0 = .ok c →
    (∀ t ∈ pairTargets p m q.i q.j, s.en.pclosed.contains (e.la.key, p.winOf t.1) = false) →
    (v.f.ord = false → p.isOrd = false → recording e.la = false → replaying e.la = false →
      Does (.pret f) s ((pairTargets p m q.i q.j).foldl (fun s t =>
        absorb s e.la.key e.pl.key t.2 t.1 (if t.1 then q.i else q.j) (roleVals m t.1 c)) s) e l id) ∧
    ((v.f.ord || p.isOrd) = true → 32 * (((s.en.contribs.filter fun k => k.launch == e.la.key).filterMap (·.slot)).length + 2) ≤ p.ovsize →
      ∃ s1 t, exec (.pret f) s = .next t ∧ Acts s s1 t e l id ∧
        ((threadAt s1 e.sh.key l).bind (·.pair)).map (·.done) = some (q.done + 1) ∧
        ∀ tg ∈ pairTargets p m q.i q.j, ∃ k ∈ s1.en.contribs, k.launch = e.la.key ∧ k.addr = tg.2 ∧ k.role = tg.1 ∧
          k.rank = q.rankI.toNat ∧ k.vals = roleVals m tg.1 c ∧
          k.sub = (if v.f.ord then v.g 3 v.f.c.toNat else BitVec.ofNat 32 q.done)))

/-- R295 to R302: dxpack packs 32 values with two scales, dxunpk decodes a block; the residue registers are cleared, read and set. -/
def Obligations.BlockFormats : Prop :=
  (∀ f s e l v, Solo formDxpack f s e l v → (∀ i, i < 16 → (v.fr 1 (f.a.toNat + i)).2 = 14) →
    let xs := (List.range 16).flatMap fun i =>
      [ff32.read v.fz (elemAt 32 (v.fr 1 (f.a.toNat + i)).1.toNat 0), ff32.read v.fz (elemAt 32 (v.fr 1 (f.a.toNat + i)).1.toNat 1)]
    let ef := f.rnd = 5
    let b := packBlock f.fmt.toNat (gapOf f) (if ef then 0 else f.rnd.toNat) xs (if ef then v.positions else [])
    excAll b.excs &&& trapMask e.la = 0 →
    Ends (.dxpack f) s s e l ((if ef then putResidues b.pos else id) (putG f.b.toNat 1 (b.s0 + 256 * b.s1)
      (putFs (fmtTag f.fmt) f.d.toNat ((dxOf f.fmt.toNat).len / 8) b.bytes (putFlags (excAll b.excs) v.t))))) ∧
  (∀ f s e l v, Solo formDxunpk f s e l v →
    let d := dxOf f.fmt.toNat
    (∀ i, i < d.len / 8 → (v.fr 1 (f.a.toNat + i)).2 = fmtTag f.fmt) →
    let block := packElems 64 ((List.range (d.len / 8)).map fun i => (v.fr 1 (f.a.toNat + i)).1.toNat)
    let sc := (v.g 2 f.b.toNat).toNat
    let y := (List.range 32).map fun i => ff32.finish f.rnd.toNat v.fz false (d.decode (sc % 256) (sc / 256 % 256) (d.elem block i)).toXR
    excAll (y.map (·.2)) &&& trapMask e.la = 0 →
    Ends (.dxunpk f) s s e l (putFs 14 f.d.toNat 16 (packElems 32 (y.map (·.1))) (putFlags (excAll (y.map (·.2))) v.t))) ∧
  (∀ f s e l v, Solo formResclr f s e l v → Ends (.resclr f) s s e l { v.t with e := v.t.e.set f.d.toNat 0 }) ∧
  (∀ f s e l v, Solo formResclrAll f s e l v → v.t.e.length = 16 → Ends (.resclrAll f) s s e l { v.t with e := List.replicate 16 0 }) ∧
  (∀ f s e l v, Solo formResget f s e l v → Ends (.resget f) s s e l (putG f.d.toNat 2 (v.e f.a.toNat).toNat v.t)) ∧
  (∀ f s e l v, Solo formResset f s e l v → Ends (.resset f) s s e l
    { v.t with e := v.t.e.set f.d.toNat (BitVec.ofNat 64 (v.gs 1 f.a.toNat 2)) })

/-- R312, R318, R319: an mma that passes its checks joins the matrix unit's work and its course's open batch; mbatch gives every
participant the future of the batch.
The model's choices here: log 30, 99. -/
def Obligations.MatrixIssue : Prop :=
  (∀ f s e v rest slot x, Joined formMma f s e (maskNamed e (f.md.toNat % 8)) (v :: rest) → e.sh.course = some slot →
    sGet e.pl.table slot = some x → x.dead = false → f.lit ≠ 5 →
    (getTile s e.pl.core (v.tile f.d.toNat)).tag = (if wideMma f.fmt (mmaFb f) then 1 else 2) →
    let rows := (stripsOf (v :: rest)).map (·.1)
    let k := if f.lit = 3 then f.imm.toNat % 2 ^ 32 else (v.g 3 f.c.toNat).toNat
    v.mmaCheck s v.mmaRegs rows k = none →
    ∃ s1 m, CrsDoes (.mma f) s s1 e (v :: rest) (fun _ _ => id) ∧ s1.ms = s.ms ∧ s1.en.mmas = s.en.mmas ++ [m] ∧
      MmaIs v v.mmaRegs rows k m ∧
      (((getPallet s1 e.pl.key).bind fun p => sGet p.table slot).map (·.openB)) = some (x.openB ++ [⟨m.key, m.tile, false, false⟩])) ∧
  (∀ f s e v rest slot r s1 x, Joined formMma f s e (maskNamed e (f.md.toNat % 8)) (v :: rest) → e.sh.course = some slot →
    f.lit = 5 → f.imm.toNat % 16 = 0 → v.loadRecord s f.imm.toNat 64 = .ok (some (r, s1)) →
    ((getPallet s1 e.pl.key).bind fun p => sGet p.table slot) = some x → x.dead = false →
    (getTile s e.pl.core (v.tile f.d.toNat)).tag = (if wideMma f.fmt (mmaFb f) then 1 else 2) →
    let rows := (stripsOf (v :: rest)).map (·.1)
    let k := (v.g 3 f.c.toNat).toNat
    v.mmaCheck s1 (mmaRecord f r) rows k = none →
    ∃ s2 m, CrsDoes (.mma f) s s2 e (v :: rest) (fun _ _ => id) ∧ s2.ms = s1.ms ∧ s2.en.mmas = s1.en.mmas ++ [m] ∧
      MmaIs v (mmaRecord f r) rows k m) ∧
  (∀ f s e v rest slot c s1 x, Joined formMbatch f s e (maskNamed e f.a.toNat) (v :: rest) → e.sh.course = some slot →
    v.release s 1 = .ok (c, s1) → ((getPallet s1 e.pl.key).bind fun p => sGet p.table slot) = some x →
    let h := (newFuture s1 2 e.pl.core e.pl.key).1
    let mine := x.openB.map (·.key)
    (∀ b ∈ s1.en.batches, b.handle ≠ h) →
    ∃ s2 u, CrsDoes (.mbatch f) s s2 e (v :: rest) (fun _ _ t => markG f.d.toNat (putG f.d.toNat 1 h.toNat t)) ∧
      getFuture s2 h = some u ∧ u.pal = e.pl.key ∧
      (((getPallet s2 e.pl.key).bind fun p => sGet p.table slot).map (·.openB)) = some [] ∧
      ((s1.en.mmas.any fun m => mine.contains m.key) = true → u.st = .pending ∧ ∃ b ∈ s2.en.batches, b.handle = h ∧
        ∀ k, k ∈ b.mmas ↔ k ∈ mine ∧ ∃ m ∈ s1.en.mmas, m.key = k))

/-- R302, R320 to R324: the tile group. tzero and tld write the rows of the strips that take part and set the tag; tst stores rows; trow
gives elements of a row; tcvt writes narrowed rows to a tile or to memory; tscale multiplies rows; the residue forms clear, read and set
positions. -/
def Obligations.TileInstructions : Prop :=
  (∀ f s e v rest, Joined formTzero f s e (maskNamed e f.c.toNat) (v :: rest) → TileFree s e.pl.core (v.tile f.d.toNat) →
    ∃ s1, CrsDoes (.tzero f) s s1 e (v :: rest) (fun _ _ => id) ∧ s1.ms = s.ms ∧
      TileRows s s1 e.pl.core (v.tile f.d.toNat) (if f.fmt = 1 then 1 else 2)
        ((stripsOf (v :: rest)).map fun x => (x.1, List.replicate 256 0))) ∧
  (∀ f s e v rest rows s1 l s2, Joined formTld f s e (maskNamed e f.c.toNat) (v :: rest) →
    checkRows accLoad true 256 (v :: rest) s = .ok rows s1 → loadRows 256 rows s1 = .ok (l, s2) → RowsFit 256 l →
    TileFree s2 e.pl.core (v.tile f.d.toNat) →
    ∃ s3, CrsDoes (.tld f) s s3 e (v :: rest) (fun _ _ => id) ∧ s3.ms = s2.ms ∧
      TileRows s2 s3 e.pl.core (v.tile f.d.toNat) (if f.fmt = 1 then 1 else 2) l) ∧
  (∀ f s e v rest n rows s1 s2, Joined formTst f s e (maskNamed e f.c.toNat) (v :: rest) →
    tagRow (getTile s e.pl.core (v.tile f.d.toNat)).tag = some n → checkRows accStore true n (v :: rest) s = .ok rows s1 →
    tileBusy s1 e.pl.core (v.tile f.d.toNat) = false →
    storeRows rows (fun r => (List.range n).map (tileByte s1 e.pl.core (v.tile f.d.toNat) r)) s1 = .ok s2 →
    CrsDoes (.tst f) s s2 e (v :: rest) (fun _ _ => id)) ∧
  (∀ f s e ins, Joined formTrow f s e (maskNamed e f.c.toNat) ins →
    (∀ v ∈ ins, tileBusy s e.pl.core (v.tile f.a.toNat) = false ∧ (getTile s e.pl.core (v.tile f.a.toNat)).tag = 2 ∧
      (v.g 2 f.b.toNat).toNat % 2 = 0 ∧ (v.g 2 f.b.toNat).toNat + 2 * (f.md.toNat + 1) ≤ 64) →
    CrsEnds (.trow f) s e ins fun _ v => putFs 14 f.d.toNat (f.md.toNat + 1) (ofLe ((List.range (8 * (f.md.toNat + 1))).map fun i =>
      tileByte s e.pl.core (v.tile f.a.toNat) (v.lane % 32) (4 * (v.g 2 f.b.toNat).toNat + i))) v.t) ∧
  (∀ f s e ins, Joined formTrow f s e (maskNamed e f.c.toNat) ins →
    (∀ v ∈ ins, tileBusy s e.pl.core (v.tile f.a.toNat) = false ∧ (getTile s e.pl.core (v.tile f.a.toNat)).tag = 1 ∧
      (v.g 2 f.b.toNat).toNat + (f.md.toNat + 1) ≤ 32) →
    CrsEnds (.trow f) s e ins fun _ v => putFs 1 f.d.toNat (f.md.toNat + 1) (ofLe ((List.range (8 * (f.md.toNat + 1))).map fun i =>
      tileByte s e.pl.core (v.tile f.a.toNat) (v.lane % 32) (8 * (v.g 2 f.b.toNat).toNat + i))) v.t) ∧
  (∀ f s e v rest, Joined formTcvt f s e (maskNamed e f.b.toNat) (v :: rest) → f.md.getLsbD 4 = false →
    (getTile s e.pl.core (v.tile f.a.toNat)).tag = 2 → TileFree s e.pl.core (v.tile f.d.toNat) →
    let rows := cvtRows f (v :: rest) s e.pl.core (v.tile f.a.toNat)
    let exc := excAll (rows.map fun x => x.2.exc)
    exc &&& trapMask e.la = 0 →
    ∃ s1, CrsDoes (.tcvt f) s s1 e (v :: rest) (fun _ _ => putFlags exc) ∧ s1.ms = s.ms ∧
      TileRows s s1 e.pl.core (v.tile f.d.toNat) (fmtTag f.fmt) (rows.map fun x => (x.1, x.2.bytes))) ∧
  (∀ f s e v rest at' s1 s2, Joined formTcvt f s e (maskNamed e f.c.toNat) (v :: rest) → f.md.getLsbD 4 = true →
    (getTile s e.pl.core (v.tile f.d.toNat)).tag = 2 → checkRows accStore true (cvtLen f.fmt) (v :: rest) s = .ok at' s1 →
    let rows := cvtRows f (v :: rest) s e.pl.core (v.tile f.d.toNat)
    let exc := excAll (rows.map fun x => x.2.exc)
    exc &&& trapMask e.la = 0 →
    storeRows at' (rowCvt rows) (if exc = 0 then s1 else (v :: rest).foldl (fun s w => w.toThreads s (putFlags exc)) s1) = .ok s2 →
    CrsDoes (.tcvt f) s (keepPositions s2 e.pl.core (v.tile f.d.toNat) rows) e (v :: rest) (fun _ _ => id)) ∧
  (∀ f s e v rest tag, Joined formTscale f s e (maskNamed e f.c.toNat) (v :: rest) → f.md ≠ 1 →
    (getTile s e.pl.core (v.tile f.d.toNat)).tag = tag → tag = 1 ∨ tag = 2 → TileFree s e.pl.core (v.tile f.d.toNat) →
    (∀ x ∈ stripsOf (v :: rest), (x.2.fr 2 f.b.toNat).2 = tag) →
    let F := if tag = 1 then ff64 else ff32
    let l := (stripsOf (v :: rest)).map fun x => (x.1, scaleRow F v.fz (tileRow s e.pl.core (v.tile f.d.toNat) x.1 256)
      fun _ => (x.2.fr 2 f.b.toNat).1.toNat % 2 ^ F.bits)
    let exc := excAll (l.map fun x => x.2.2)
    exc &&& trapMask e.la = 0 →
    ∃ s1, CrsDoes (.tscale f) s s1 e (v :: rest) (fun _ _ => putFlags exc) ∧ s1.ms = s.ms ∧
      TileRows s s1 e.pl.core (v.tile f.d.toNat) tag (l.map fun x => (x.1, x.2.1))) ∧
  (∀ f s e v rest tag rows s1 k s2, Joined formTscale f s e (maskNamed e f.c.toNat) (v :: rest) → f.md = 1 →
    (getTile s e.pl.core (v.tile f.d.toNat)).tag = tag → tag = 1 ∨ tag = 2 →
    checkRows accLoad false 256 (v :: rest) s = .ok rows s1 → loadRows 256 rows s1 = .ok (k, s2) → RowsFit 256 k →
    TileFree s2 e.pl.core (v.tile f.d.toNat) →
    let F := if tag = 1 then ff64 else ff32
    let z := F.bits / 8
    let l := k.map fun x => (x.1, scaleRow F v.fz (tileRow s2 e.pl.core (v.tile f.d.toNat) x.1 256) fun c => fieldB x.2 (c * z) z)
    let exc := excAll (l.map fun x => x.2.2)
    exc &&& trapMask e.la = 0 →
    ∃ s3, CrsDoes (.tscale f) s s3 e (v :: rest) (fun _ _ => putFlags exc) ∧ s3.ms = s2.ms ∧
      TileRows s2 s3 e.pl.core (v.tile f.d.toNat) tag (l.map fun x => (x.1, x.2.1))) ∧
  (∀ f s e v rest, Joined formResclrTile f s e (maskNamed e f.c.toNat) (v :: rest) →
    ∃ s1, CrsDoes (.resclrTile f) s s1 e (v :: rest) (fun _ _ => id) ∧ s1.ms = s.ms ∧
      ∀ r c, c < 64 → residAt s1 e.pl.core (v.tile f.d.toNat) r c =
        if (stripsOf (v :: rest)).any (fun x => x.1 == r) then 0 else residAt s e.pl.core (v.tile f.d.toNat) r c) ∧
  (∀ f s e ins, Joined formResgetTile f s e (maskNamed e f.c.toNat) ins →
    (∀ x ∈ stripsOf ins, (x.2.g 2 f.b.toNat).toNat % 2 = 0 ∧
      (x.2.g 2 f.b.toNat).toNat < if (getTile s e.pl.core (x.2.tile f.a.toNat)).tag = 1 then 32 else 64) →
    CrsEnds (.resgetTile f) s e ins fun _ v =>
      let c := colOf ins f (v.lane % 32)
      let p := residAt s e.pl.core (v.tile f.a.toNat) (v.lane % 32)
      putF f.d.toNat (p (c + 1) ++ p c) 14 v.t) ∧
  (∀ f s e v rest, Joined formRessetTile f s e (maskNamed e f.c.toNat) (v :: rest) →
    (∀ x ∈ stripsOf (v :: rest), (x.2.fr 1 f.a.toNat).2 = 14 ∧ (x.2.g 2 f.b.toNat).toNat % 2 = 0 ∧
      (x.2.g 2 f.b.toNat).toNat < if (getTile s e.pl.core (v.tile f.d.toNat)).tag = 1 then 32 else 64) →
    ∃ s1, CrsDoes (.ressetTile f) s s1 e (v :: rest) (fun _ _ => id) ∧ s1.ms = s.ms ∧
      ∀ x ∈ stripsOf (v :: rest), let c := (x.2.g 2 f.b.toNat).toNat
        residAt s1 e.pl.core (v.tile f.d.toNat) x.1 c = (x.2.fr 1 f.a.toNat).1.setWidth 32 ∧
        residAt s1 e.pl.core (v.tile f.d.toNat) x.1 (c + 1) = (x.2.fr 1 f.a.toNat).1.extractLsb' 32 32)

/-- R395 to R404: a remote instruction that passes its checks puts one request on its way to its peer, after the release it asks for;
rflag carries the sent counts; rfence sends markers down the planes to every peer written; rpath sets a path set.
The model's choices here: log 56, 57, 104. -/
def Obligations.RemoteInstructions : Prop :=
  (∀ i o f v s n kind bit mc rel s1 rk e l, RemoteRow i o f v n kind bit mc rel s1 rk → Solo o f s e l v →
    v.remoteCheck s n kind bit mc = none → entriesUsed s e.pl.core < 1024 →
    (if rel then ∃ c, v.release (checkedIn s e l) v.remoteScope.toNat = .ok (c, s1) else s1 = checkedIn s e l) →
    ∃ s2 r t, exec i s = .next t ∧ Acts s s2 t e l id ∧ s2.ms = s1.ms ∧ s2.fb.reqs = s1.fb.reqs ++ [r] ∧ r.kind = rk ∧
      r.node = (if mc then groupNode v.peer else v.peer) ∧ r.addr = v.addr (!v.f.ord) ∧ r.scope = v.remoteScope ∧ r.agent = palletAgent s1 e.pl ∧ r.uids = [v.t.uid] ∧
      (r.rel.isSome = rel) ∧ ∀ a, aperture s1 e.cx v.peer (v.addr (!v.f.ord)) n bit = .ok a → r.dcid = a.dcid) ∧
  (∀ f s e l v c s1 s2, Solo formRflag f s e l v → v.remoteCheck s (wBytes f.w) 9 1 false = none → entriesUsed s e.pl.core < 1024 →
    (if f.md.getLsbD 2 then s1 = checkedIn s e l else v.fence (checkedIn s e l) = some s1) → v.releaseDom s1 = .ok (c, s2) →
    ∃ s3 r t, exec (.rflag f) s = .next t ∧ Acts s s3 t e l id ∧ s3.ms = s2.ms ∧ s3.fb.reqs = s2.fb.reqs ++ [r] ∧
      r.kind = .flag (leBytes (wBytes f.w) (v.gs 2 f.b.toNat (wCnt f.w))) (f.md.getLsbD 2) (v.counts s2) ∧ r.node = v.peer ∧
      r.addr = v.addr (!v.f.ord) ∧ r.rel = some c ∧ r.scope = 5) ∧
  (∀ f s e l v, Solo formRfence f s e l v → e.sh.done = 0 →
    let k := palletAgent s e.pl
    let peers := wrotePeers s k
    (64 < peers.length → ∀ r ∈ s.fb.reqs, r.agent = k → r.kind = .marker) →
    ∃ s1, v.fence s = some s1 ∧ s1.ms = s.ms ∧ (∀ w ∈ s1.fb.wrote, w.1 ≠ k) ∧
      (peers.length ≤ 64 → ∀ p ∈ peers, ∀ pl ∈ workingPlanes s (pathSet s k e.pl.core p),
        ∃ r ∈ s1.fb.reqs, r.kind = .marker ∧ r.agent = k ∧ r.node = p ∧ r.plane = pl) ∧
      ∀ c s2, v.releaseDom s1 = .ok (c, s2) → Does (.rfence f) s s2 e l id) ∧
  (∀ f s e l v, Solo formRpath f s e l v →
    let x := (v.g 1 f.a.toNat).toNat
    let peer := (v.k 0 f.d.toNat).toNat
    let k := palletAgent s e.pl
    let s1 := putPath s k peer x
    x < 65536 → popN 16 x ≤ 8 →
    (∀ r ∈ s.fb.reqs, r.agent = k → r.node = peer → r.kind ≠ .marker →
      bitN (pathSet s k e.pl.core peer) r.plane = true → bitN (pathSet s1 k e.pl.core peer) r.plane = true) →
    Does (.rpath f) s s1 e l id)

/-- R445 to R449: csrr gives a register's value, csrw sets retsel or pcap; tlbinv removes the context's cached translations of a range, or
all, once the writes that used them are performed; cwb leaves no dirty byte of a range in the partition's L1s and cinv no copy; halt stops a context of the partition.
The model's choices here: log 65, 90. -/
def Obligations.SystemInstructions : Prop :=
  (∀ f s e l v x, Solo formCsrr f s e l v → CsrRow s e f.a.toNat x →
    Ends (.csrr f) s s e l (putG f.d.toNat (if f.w = 3 then 2 else 1) x v.t)) ∧
  (∀ f s e l v, Solo formCsrw f s e l v → f.d.toNat = 5 →
    Does (.csrw f) s (setCtx s { e.cx with retsel := (v.g 1 f.a.toNat).setWidth 3 }) e l id) ∧
  (∀ f s e l v p, Solo formCsrw f s e l v → f.d.toNat ≠ 5 → getPart s e.cx.part = some p →
    Does (.csrw f) s (setPart s { p with pcap := (v.g 1 f.a.toNat).toNat }) e l id) ∧
  (∀ f s e l v, Solo formTlbinv f s e l v →
    let lo := v.gs 1 f.a.toNat 2
    let n := (v.g 2 f.b.toNat).toNat
    (f.md.getLsbD 0 = false → lo % 65536 = 0 ∧ n % 65536 = 0) →
    let gone := fun (t : Tlb) => t.cid == e.cx.cid && (f.md.getLsbD 0 || overlaps t.base (2 ^ pageBits t.lvl) lo n)
    ∃ s1 t, exec (.tlbinv f) s = .next t ∧ Acts s s1 t e l id ∧ s1.ms.tlb = s.ms.tlb.filter (fun t => !gone t) ∧
      (∀ p ∈ s1.ms.posted, p ∈ s.ms.posted ∧ ∀ t ∈ s.ms.tlb, gone t = true → usedLeaf p t = false) ∧
      ((∀ t ∈ s.ms.tlb, gone t = true → (∀ p ∈ s.ms.posted, usedLeaf p t = false) ∧ ∀ b ∈ s.ms.l1, usedBy b t = false) →
        s1.ms.mem = s.ms.mem)) ∧
  (∀ f s e l v p, Solo formCinv f s e l v → v.gs 1 f.a.toNat 2 % 128 = 0 → (v.g 2 f.b.toNat).toNat % 128 = 0 →
    getPart s e.cx.part = some p →
    ∃ s1 t, exec (.cinv f) s = .next t ∧ Acts s s1 t e l id ∧
      ∀ b ∈ s1.ms.l1, b.cid = e.cx.cid → b.core ∈ partCores p → overlaps b.va 16 (v.gs 1 f.a.toNat 2) (v.g 2 f.b.toNat).toNat = false) ∧
  (∀ f s e l v p, Solo formCwb f s e l v → v.gs 1 f.a.toNat 2 % 128 = 0 → (v.g 2 f.b.toNat).toNat % 128 = 0 →
    getPart s e.cx.part = some p →
    ∃ s1 t, exec (.cwb f) s = .next t ∧ Acts s s1 t e l id ∧
      (∀ b ∈ s1.ms.l1, b.cid = e.cx.cid → b.core ∈ partCores p → overlaps b.va 16 (v.gs 1 f.a.toNat 2) (v.g 2 f.b.toNat).toNat = true →
        b.dirty = []) ∧
      ∀ b, rangeSectors s e.cx (v.gs 1 f.a.toNat 2) (v.g 2 f.b.toNat).toNat = [b] → Mem.wf s.ms.mem = true →
        ownKey s b.key (16 * b.sec) 16 = true →
        ∀ d ∈ b.dirty, ∀ i, i < 16 → (dirtyBy b d.1).getLsbD i = true → memGet s1.ms.mem (16 * b.sec + i) = b.data.extractLsb' (8 * i) 8) ∧
  (∀ f s e l v c, Solo formHalt f s e l v → getCtx s (v.g 1 f.a.toNat) = some c → c.part = e.cx.part → c.stop = none →
    (c.cid ≠ e.cx.cid → ∃ s1 t, exec (.halt f) s = .next t ∧ Acts s s1 t e l id ∧ (getCtx s1 c.cid).map (·.stop) = some (some 0)) ∧
    (c.cid = e.cx.cid → ∃ t sh, exec (.halt f) s = .next t ∧ (getCtx t c.cid).map (·.stop) = some (some 0) ∧
      getSheet t e.sh.key = some sh ∧ sh.pc = s.iss.pc))

/-- R235 to R237, R453, R456: race records written and read whole, race counters, the debug group, and expo.
The model's choices here: log 44, 47. -/
def Obligations.RaceAndDebugInstructions : Prop :=
  (∀ f s e l v ps s1, Solo formRacectlClean f s e l v →
    let lo := v.gs 1 f.a.toNat 2
    let n := (v.g 2 f.b.toNat).toNat
    lo % 128 = 0 → n % 128 = 0 → 128 ≤ n → n ≤ 2 ^ 30 → translate s e.cx accRecord lo n = .ok (ps, s1) →
    ∃ s2 t, exec (.racectlClean f) s = .next t ∧ Acts s s2 t e l id ∧ s2.ms.mem = s.ms.mem ∧
      ∀ p ∈ ps, pteRc p.leaf.pte = true → ∀ q ∈ piecesOf 7 p.pa p.len, raceGet s2.ms.race (q.1 / 128) = 0) ∧
  (∀ f s e l v ps s1, Solo formRacectlQuiet f s e l v →
    let lo := v.gs 1 f.a.toNat 2
    let n := (v.g 2 f.b.toNat).toNat
    lo % 128 = 0 → n % 128 = 0 → 128 ≤ n → n ≤ 2 ^ 30 → translate s e.cx accRecord lo n = .ok (ps, s1) →
    ∃ s2 t, exec (.racectlQuiet f) s = .next t ∧ Acts s s2 t e l id ∧ s2.ms.mem = s.ms.mem ∧
      ∀ p ∈ ps, pteRc p.leaf.pte = true → ∀ q ∈ piecesOf 7 p.pa p.len, raceGet s2.ms.race (q.1 / 128) = raceQuiet) ∧
  (∀ f s e l v c, Solo formRacectlCount f s e l v → getCtx s (v.g 2 f.b.toNat) = some c → c.part = e.cx.part →
    Ends (.racectlCount f) s s e l (putG f.d.toNat 2 (nthD c.race (f.md.toNat / 8 % 8) 0) v.t)) ∧
  (∀ f s e l v q r s1, Solo formRclk f s e l v → v.check s accLoad (v.addr true) 1 true = .ok (.glob (q :: r), s1) →
    Does (.rclk f) s s1 e l (putG f.d.toNat 4 (let r := raceGet s1.ms.race (q.pa / 128)
      if pteRc q.leaf.pte = false then raceQuiet else if r.extractLsb' 125 3 = 4 then 0 else r).toNat)) ∧
  (∀ f s e l v x, Solo formDbgld f s e l v →
    winReg s e.cx ((v.gs 1 f.a.toNat 2 + if f.lit = 4 then f.imm.toNat else 0) % 2 ^ 64) (if f.w = 3 then 8 else 4) none = .value x →
    Ends (.dbgld f) s s e l (putG f.d.toNat (if f.w = 3 then 2 else 1) x v.t)) ∧
  (∀ f s e l v s1, Solo formDbgst f s e l v →
    winReg s e.cx ((v.gs 1 f.a.toNat 2 + if f.lit = 4 then f.imm.toNat else 0) % 2 ^ 64) (if f.w = 3 then 8 else 4)
      (some (v.gs 2 f.b.toNat (if f.w = 3 then 2 else 1))) = .moved s1 → Does (.dbgst f) s s1 e l id) ∧
  (∀ f s e l v, Solo formExpo f s e l v → e.sh.done = 0 →
    ∃ t p sh, exec (.expo f) s = .next t ∧ getPallet t e.pl.key = some p ∧ p.expo = e.pl.expo + 1 ∧ p.rwc = 0 ∧
      getSheet t e.sh.key = some sh ∧ sh.pc = s.iss.next ∧ (threadAt t e.sh.key l).map regsOf = some (regsOf v.t))

/-- R427: the instructions of the command cores, each with its result in rd, its wait or its exception.
The model's choices here: log 77, 45. -/
def Obligations.CommandCoreInstructions : Prop :=
  (∀ x s, s.iss.fw < s.mg.fw.length →
    let n := (fwReg s s.iss.fw x.rs1).toNat
    let a := (fwReg s s.iss.fw x.rs2).toNat
    (¬ (servesQueue s s.iss.fw n = true ∧ a % 64 = 0) → FwTraps (.qfetch x) s s 24) ∧
    (∀ q, servesQueue s s.iss.fw n = true → a % 64 = 0 → getQueue s n = some q →
      let s1 := passNs s (nextRead s n)
      (lookPacket s1 q = .idle → FwDoes (.qfetch x) s s1 x 1) ∧
      (lookPacket s1 q = .noRing → FwTraps (.qfetch x) s (fetchOnce s1 n) 24) ∧
      (∀ b, lookPacket s1 q = .valid b →
        FwDoes (.qfetch x) s (fetchOnce { s1 with mg := { s1.mg with fwMem := memWrite s.mg.fwMem a b } } n) x (if pkDefined b then 0 else 3)) ∧
      (∀ b, lookPacket s1 q = .failed b → 16 ≤ q.tries → FwDoes (.qfetch x) s (fetchOnce s1 n) x 2) ∧
      ∀ b, lookPacket s1 q = .failed b → q.tries < 16 → ∃ t, exec (.qfetch x) s = .next t ∧ t.mg.fw = s.mg.fw ∧
        (getQueue t n).map (·.tries) = some (q.tries + 1) ∧ t.mg.ns = s1.mg.ns)) ∧
  (∀ x s, s.iss.fw < s.mg.fw.length →
    let c := (fwReg s s.iss.fw x.rs2).toNat
    (1 ≤ c / 256 % 64 → c % 64 + c / 256 % 64 ≤ 64 → FwDoes (.bfx x) s s x
      (BitVec.ofNat 64 ((fwReg s s.iss.fw x.rs1).toNat / 2 ^ (c % 64) % 2 ^ (c / 256 % 64)))) ∧
    (c / 256 % 64 = 0 ∨ 64 < c % 64 + c / 256 % 64 → FwTraps (.bfx x) s s 25)) ∧
  (∀ x s, s.iss.fw < s.mg.fw.length →
    let a := (fwReg s s.iss.fw x.rs1).toNat
    let v : Dword := BitVec.ofNat 64 (ofLe (memRead s.mg.fwMem a 8))
    (a % 8 ≠ 0 → FwTraps (.swait x) s s 26) ∧
    (a % 8 = 0 → v ≠ fwReg s s.iss.fw x.rs2 → FwDoes (.swait x) s s x v) ∧
    (a % 8 = 0 → v = fwReg s s.iss.fw x.rs2 → ∃ t, exec (.swait x) s = .next t ∧
      fwCore t s.iss.fw = { fwCore s s.iss.fw with wait := true } ∧ t = { s with mg := { s.mg with fw := t.mg.fw } })) ∧
  (∀ x s, s.iss.fw < s.mg.fw.length →
    let n := (fwReg s s.iss.fw x.rs2).toNat
    let a := (fwReg s s.iss.fw x.rs1).toNat
    (¬ (servesQueue s s.iss.fw n = true ∧ a % 64 = 0) → FwTraps (.disp x) s s 27) ∧
    (∀ q, servesQueue s s.iss.fw n = true → a % 64 = 0 → getQueue s n = some q →
      let k := freshKey s
      let sub := dispSubmit s q a k.1
      let t := setQueue k.2 (if q.strt < q.acc then { q with strt := q.strt + 1 } else q)
      let t := admitSub (withSubs t (t.qs.subs ++ [sub])) sub
      (∀ la, getLaunch t k.1 = some la → FwDoes (.disp x) s t x (la.ident.setWidth 64)) ∧
      (getLaunch t k.1 = none → (t.qs.subs.any fun y => y.key == k.1) = true → exec (.disp x) s = .next s) ∧
      (∀ c, getLaunch t k.1 = none → (t.qs.subs.any fun y => y.key == k.1) = false → refusalOf s sub = some c →
        FwDoes (.disp x) s t x (BitVec.ofNat 64 (2 ^ 63 + c)))))

/-- R15, R17: a sheet instruction gives each of several acting lanes what its own operands give that lane alone; with U the lowest pass's
operands give it for the strip.
R21, R23, R31, R379, R380, R420: forming sheets, bringing back evicted sheets, swapping pallets, switching contexts.
The model's choices here: log 25, 26, 34, 66, 87, 95, 97. -/
def Obligations.SheetScheduling : Prop :=
  (∀ i o f ok w s e ls view, LaneLocal i o f ok w → Several o f s e ls view →
    (∀ u ∈ unitsOf (execFld o f s.iss.run).u ls, ok (view (u.headD 0))) →
    ∃ t sh, exec i s = .next t ∧ OnlySheet s t e.sh.key ∧ getSheet t e.sh.key = some sh ∧ sh.pc = s.iss.next ∧ sh.run = [] ∧ sh.done = 0 ∧
      sh.em = e.sh.em ∧ sh.m = e.sh.m ∧ sh.course = e.sh.course ∧ sh.sleep = e.sh.sleep ∧ sh.ks = e.sh.ks ∧
      (∀ u ∈ unitsOf (execFld o f s.iss.run).u ls, ∀ l ∈ u,
        threadAt t e.sh.key l = (laneThread e.sh l).map fun th => endSkip (w (view (u.headD 0)) th)) ∧
      ∀ k, k ∉ ls → threadAt t e.sh.key k = laneThread e.sh k) ∧
  (∀ s pal pc p la slot e r, FormReady s pal p la slot → waiting s pal pc = e :: r →
    (32 * la.r.depth ≤ r.length + 1 ∨ e.since + 4096 ≤ s.cs.cyc ∨ ∀ x ∈ s.cs.sheets, mayIssue s x = true → x.stalled = false →
      palletCore s x.pal = p.core → x.slot / 8 = slot / 8 → sheetPrio s x < la.r.prio) →
    Yields (.sheetFormation pal pc) s fun t => Formed s t pal pc slot e) ∧
  (∀ s pal p la slot e, FormReady s pal p la slot → oldestReady s pal = some e → e.sleep = .ready → e.since + 4096 ≤ s.cs.cyc →
    (∀ b, oldestEvicted s pal = some b → e.since < b.lastIssue) →
    Yields (.spawnWaitLimit pal) s fun t => ∃ e', e'.pc = e.pc ∧ e'.since = e.since ∧ Formed s t pal e.pc slot e') ∧
  (∀ s pal p la e o, getPallet s pal = some p → getLaunch s p.launch = some la → p.st = .active → p.dbg.halt = false → p.dbg.roll = false →
    (∀ b, oldestEvicted s pal = some b → e.since < b.lastIssue) → (sheetFree s la p = false ∨ chooseSlot s p.core = none) →
    la.r.prog ≠ 2 → oldestReady s pal = some e → e.sleep = .ready → e.since + 4096 ≤ s.cs.cyc → oldestIssued s pal = some o →
    Yields (.spawnWaitLimit pal) s fun t => (∃ sh ∈ t.cs.sheets, sh.pal = pal ∧ sh.pc = e.pc ∧ sh.slot = o.slot) ∧
      ∃ x ∈ t.cs.sheets, x.key = o.key ∧ x.evicted = true) ∧
  (∀ s pal p la b o, getPallet s pal = some p → getLaunch s p.launch = some la → p.st = .active → p.dbg.halt = false →
    p.dbg.roll = false → la.r.prog ≠ 2 → oldestEvicted s pal = some b → (∀ e, oldestReady s pal = some e → b.lastIssue ≤ e.since) →
    b.lastIssue + 4096 ≤ s.cs.cyc →
    oldestIssued s pal = some o → o.key ≠ b.key → ((coreUse (evictSheet s o) p.core).add (sheetRoom la p b)).inCore = true →
    Yields (.spawnWaitLimit pal) s fun t => (getSheet t o.key).map (·.evicted) = some true ∧ getSheet t b.key = some { b with
      evicted := false
      slot := o.slot
      lastIssue := s.cs.cyc }) ∧
  (∀ s pal, exec (.spawnStoreSpaceFreed pal) s =
    exec (.pairMatcherWalk pal) (mapSheets s fun sh => if sh.pal == pal then { sh with stalled := false } else sh)) ∧
  (∀ s pal p, getPallet s pal = some p → p.mdone = true → (∀ r ∈ s.en.relq, r.pal ≠ pal) →
    Yields (.spawnStoreSpaceFreed pal) s fun t => ∀ sh ∈ t.cs.sheets, sh.pal = pal → sh.stalled = false) ∧
  (∀ s pal p la sh slot, getPallet s pal = some p → getLaunch s p.launch = some la → p.st = .active → oldestEvicted s pal = some sh →
    (s.cs.sheets.countP fun x => x.pal = pal ∧ onCore x = true) < sheetSlots la →
    ((coreUse s p.core).add (sheetRoom la p sh)).inCore = true → chooseSlot s p.core = some slot →
    Yields (.evictedSheetRestore pal) s fun t => getSheet t sh.key = some { sh with
      evicted := false
      slot := slot
      lastIssue := s.cs.cyc }) ∧
  (∀ s out inn p q, getPallet s out = some p → getPallet s inn = some q → p.st = .active → p.core = q.core → waitsForCore s q = true →
    (allWait s out = true ∨ p.since + 2 ^ 18 ≤ s.cs.cyc ∨ turnDue s q = true) → atBoundary s out = true → fitsNow (parkPallet s out) q = true →
    Yields (.palletSwap out inn) s fun t =>
      (getPallet t out).map (·.st) = some .parked ∧ (getPallet t inn).map (·.st) = some .active) ∧
  (∀ s pal p q, getPallet s pal = some p → p.st = .active → p.since + 2 ^ 18 ≤ s.cs.cyc → replacement s pal = some q →
    getPallet s q.key = some q → atBoundary s pal = true →
    Yields (.palletQuantumExpiry pal) s fun t =>
      (getPallet t pal).map (·.st) = some .parked ∧ (getPallet t q.key).map (·.st) = some .active) ∧
  (∀ s core cid cx, getCtx s cid = some cx → maySwitch s cx core = true →
    Yields (.contextSwitch core cid) s fun t =>
      (∃ c o, getCtx t cid = some c ∧ c.slots = cx.slots.filter (fun x => x.1 != core) ∧ c.out = cx.out ++ [o] ∧ o.core = core ∧
        (core, o.slot) ∈ cx.slots) ∧
      ∀ p ∈ ctxPallets s cid core, p.st = .active ∨ p.st = .parked → ∃ q ∈ t.cs.pallets, q = { p with st := .switched }) ∧
  (∀ s core cid cx o, getCtx s cid = some cx → (cx.out.find? fun x => x.core == core) = some o → o.slot ∉ slotsUsed s core →
    Yields (.contextRestore core cid) s fun t =>
      (∃ c, getCtx t cid = some c ∧ c.slots = cx.slots ++ [(core, o.slot)] ∧ c.out = cx.out.filter fun x => x.core != core) ∧
      ∀ p ∈ ctxPallets s cid core, p.st = .switched → ∃ q ∈ t.cs.pallets, q = { p with st := .parked }) ∧
  (∀ s core cid cx o c, getCtx s cid = some cx → (cx.out.find? fun x => x.core == core) = some o → o.slot ∈ slotsUsed s core →
    ((switchable s core).find? fun c => c.slots.contains (core, o.slot) && slotDue s c.cid core) = some c → c.cid ≠ cid →
    getCtx s c.cid = some c →
    Yields (.contextRestore core cid) s fun t =>
      (∃ d, getCtx t cid = some d ∧ d.slots = cx.slots ++ [(core, o.slot)] ∧ d.out = cx.out.filter fun x => x.core != core) ∧
      (∃ d, getCtx t c.cid = some d ∧ d.slots = (c.slots.filter fun x => x.1 != core) ∧ outOf d core = true) ∧
      ∀ p ∈ ctxPallets s cid core, p.st = .switched → ∃ q ∈ t.cs.pallets, q = { p with st := .parked })

/-- R24, R179, R338, R341, R346, R415, R417, R418, R436: admission and refusal of a launch, the matcher's threads, partials at their
targets, the end of a launch, and the loss of a core.
The model's choices here: log 60, 67, 76, 86. -/
def Obligations.LaunchLifecycle : Prop :=
  (∀ s sub x cx cores tag, (s.qs.subs.find? fun y => y.key == sub) = some x → x.readable = true → wasCancelled s x = false →
    getCtx s x.cid = some cx → cx.stop = none → admitCheck s cx (draftLaunch x cx) x.pair = .ok cores →
    (∀ c ∈ cores, coreTakes s cx c = true) → freeTag s (draftLaunch x cx) cx.part = some tag →
    Yields (.launchAdmission sub) s fun t => (∀ y ∈ t.qs.subs, y.key ≠ sub) ∧
      (∃ la ∈ t.qs.launches, la.key = sub ∧ la.cid = x.cid ∧ la.r = parseLaunch x.unit ∧ la.pals = cores.length ∧ la.tag = tag) ∧
      (recording (draftLaunch x cx) = false → (∀ c ∈ cores, ∀ d ∈ switchable s c, d.cid = x.cid) →
        ∃ ps, t.cs.pallets = s.cs.pallets ++ ps ∧ ps.map (fun p => (p.core, p.num)) = cores.zipIdx ∧
          ∀ p ∈ ps, p.launch = sub ∧ (p.st = .active ∨ p.st = .parked))) ∧
  (∀ s sub x cx code, (s.qs.subs.find? fun y => y.key == sub) = some x → x.readable = true → wasCancelled s x = false →
    getCtx s x.cid = some cx → cx.stop = none → admitCheck s cx (draftLaunch x cx) x.pair = .error code →
    Yields (.launchAdmission sub) s fun t => (∀ y ∈ t.qs.subs, y.key ≠ sub) ∧ t.qs.launches = s.qs.launches ∧
      (∀ q i u, x.queue = some (q, i) → getQueue s q = some u → sGet u.ended i = none → EndsWith t q i 3 code s.mg.ns) ∧
      ∀ h, x.fut = some h → futSt s h = some .pending → futSt t h = some .error) ∧
  (∀ s pal p m q rest lo hi s1 j cj v sc s2 tid s3, getPallet s pal = some p → p.st = .active → p.mwait = false → p.mdone = false →
    (∀ r ∈ s.en.relq, r.pal ≠ pal) → matcherEnv s pal = some m → p.mpos = q :: rest → p.mcell < m.rangeLo (q + 1) →
    (cellRecords m false p.mcell).run s = .ok ((lo, hi), s1) → max p.mi lo < hi →
    (lookCand m p.mcell (max p.mi lo) p.mj).run s1 = .ok (.yes j cj v sc, s2) → entryRoom s2 pal = true →
    pairIdent s2 m.la p m.p.isOrd (2 ^ 63 + m.rank false p.mcell * 2 ^ 32 + p.mseq) (palletAgent s2 p) 0xFFFFFFFF p.mops =
      .ok (some (tid, s3)) →
    Yields (.pairMatcherWalk pal) s fun t => ∃ e ∈ t.cs.store, e.pal = pal ∧ e.pc = m.la.r.entry ∧ e.sleep = .ready ∧ e.thr.tid = tid ∧
      ∃ i, e.thr.pair = some i ∧ i.i = BitVec.ofNat 32 (max p.mi lo) ∧ i.j = BitVec.ofNat 32 j ∧ i.pos = BitVec.ofNat 32 p.mseq ∧
        i.vals = [v.dx, v.dy, v.dz, v.s, sc.getD 0x3F800000] ∧ e.thr.g = ([i.i, i.j, i.flags] ++ List.replicate (m.la.r.gcnt - 3) 0).take
          m.la.r.gcnt) ∧
  (∀ s k q la cx pl c x s1 ph, s.en.parts[k]? = some q → q.sent = true → q.paused = false →
    (∀ w ∈ s.en.wins, w.launch = q.launch → w.phase ≠ 2) → getLaunch s q.launch = some la → getCtx s la.cid = some cx →
    getPallet s q.pal = some pl → q.vals = [(c, x)] → translate s cx accOther (q.addr + 4 * c) 4 = .ok ([ph], s1) → ph.len = 4 →
    poisonCheck s1 ph = none → ownKey s1 (pteKey ph.leaf.pte) ph.pa 4 = true → steady la = false → s.ms.l1 = [] → s.ms.posted = [] →
    Mem.wf s.ms.mem = true → Yields (.sequencerPartialArrival k) s fun t => q ∉ t.en.parts ∧
      t.en.papp = s.en.papp ++ q.froms.map (fun f => (q.launch, q.addr, q.role, f)) ∧
      memRead t.ms.mem ph.pa 4 = leBytes 4 (addKeep (BitVec.ofNat 32 (ofLe (memRead s.ms.mem ph.pa 4))) x).toNat ∧
      ∀ a, (a < ph.pa ∨ ph.pa + 4 ≤ a) → memGet t.ms.mem a = memGet s.ms.mem a) ∧
  (∀ s k la cx, getLaunch s k = some la → getCtx s la.cid = some cx → launchOver s la = true → la.p = none → replaying la = false →
    raceMode la = 0 → (∀ w ∈ s.en.wins, w.launch ≠ k) →
    Yields (.launchEnd k) s fun t => (getLaunch t k).map (·.fin) = some (some 0) ∧ (∀ p ∈ t.cs.pallets, p.launch ≠ k) ∧
      (∀ q i u, la.queue = some (q, i) → getQueue s q = some u → sGet u.ended i = none → EndsWith t q i 0 (doneDetail la) s.mg.ns) ∧
      ∀ h, la.fut = some h → futSt s h = some .pending → futSt t h = some .clean) ∧
  (∀ s core, core ∉ s.cs.retired → (s.cs.pallets.map (·.key)).Nodup →
    Yields (.coreRetirement core) s fun t => t.cs.retired = s.cs.retired ++ [core] ∧ (∀ b ∈ t.ms.l1, b.core ≠ core) ∧
      ∀ la ∈ s.qs.launches, la.fin = none → la.r.lfl.getLsbD 7 = false → (∀ x ∈ s.qs.launches, x.key = la.key → x = la) →
        (∃ p ∈ s.cs.pallets, p.launch = la.key ∧ p.core = core ∧ p.st ≠ .ended) → (getLaunch t la.key).map (·.fin) = some (some 5))

/-- R36, R123, R172, R184, R215, R168, R374, R375, R381: writes, evictions and soft interrupts at their homes, the two other ends of mwait,
a host's access, trap-queue resumption and space, the watchdog.
The model's choices here: log 58, 78. -/
def Obligations.MemoryEvents : Prop :=
  (∀ s core sector b k m, (s.ms.l1.filter fun x => x.core == core && x.sec == sector) = [b] → b.dirty = [(k, m)] →
    Mem.wf s.ms.mem = true → ownKey s b.key (16 * sector) 16 = true → (∀ p ∈ s.ms.posted, sameLine s core (sector / 8) p = false) →
    Yields (.l1Eviction core sector) s fun t => (∀ x ∈ t.ms.l1, ¬ (x.core = core ∧ x.sec = sector)) ∧
      ∀ a, memGet t.ms.mem a = if a / 16 = sector ∧ m.getLsbD (a % 16) = true then b.data.extractLsb' (8 * (a % 16)) 8
        else memGet s.ms.mem a) ∧
  (∀ s k p, s.ms.posted[k]? = some p → p.tray = none → Mem.wf s.ms.mem = true → ownKey s p.key p.addr p.bytes.length = true →
    (∀ q ∈ s.ms.posted.take k, sameLine s p.core (p.addr / 128) q = false) →
    Yields (.storePerformedAtHome k) s fun t => t.ms.posted = s.ms.posted.take k ++ s.ms.posted.drop (k + 1) ∧
      memRead t.ms.mem p.addr p.bytes.length = p.bytes ∧
      ∀ a, (a < p.addr ∨ p.addr + p.bytes.length ≤ a) → memGet t.ms.mem a = memGet s.ms.mem a) ∧
  (∀ s k p pal pl, s.ms.posted[k]? = some p → p.tray = some pal → getPallet s pal = some pl → Mem.wf pl.tray = true →
    (∀ q ∈ s.ms.posted.take k, q.agent = p.agent → q.tray = some pal → overlaps q.addr q.bytes.length p.addr p.bytes.length = false) →
    Yields (.storePerformedAtHome k) s fun t => t.ms.posted = s.ms.posted.take k ++ s.ms.posted.drop (k + 1) ∧
      trayBytes t pal p.addr p.bytes.length = p.bytes ∧ t.ms.mem = s.ms.mem ∧
      ∀ a, (a < p.addr ∨ p.addr + p.bytes.length ≤ a) → trayByte t pal a = trayByte s pal a) ∧
  (∀ s uid e gd lim sc, storedAny s uid = some e → e.sleep = .mwait gd lim sc → lim ≠ 0 → e.since + lim.toNat ≤ s.cs.cyc →
    Yields (.mwaitLimitExpiry uid) s fun t => ∃ n ∈ t.cs.store, n.thr.uid = uid ∧ n.sleep = .ready ∧ n.pc = e.pc ∧
      n.thr.g = e.thr.g.set gd 1) ∧
  (∀ s uid e gd lim sc, storedAny s uid = some e → e.sleep = .mwait gd lim sc →
    Yields (.mwaitUnexplainedWake uid) s fun t => ∃ n ∈ t.cs.store, n.thr.uid = uid ∧ n.sleep = .ready ∧ n.pc = e.pc ∧
      n.thr.g = e.thr.g.set gd 0) ∧
  (∀ s uid sh gd lim, storedAny s uid = none → sheetOf s uid = some sh → sheetMwait sh = some (gd, lim) → getSheet s sh.key = some sh →
    (∀ x ∈ sh.sleep, (laneThread sh x.1).isSome = true) →
    (Yields (.mwaitUnexplainedWake uid) s fun t => ∃ n, getSheet t sh.key = some n ∧ sheetMwait n = none ∧ n.pc = sh.pc) ∧
    (lim ≠ 0 → sh.lastIssue + lim.toNat ≤ s.cs.cyc →
      Yields (.mwaitLimitExpiry uid) s fun t => ∃ n, getSheet t sh.key = some n ∧ sheetMwait n = none ∧ n.pc = sh.pc)) ∧
  (∀ s k x q, s.qs.swis[k]? = some x → x.target < 2048 → getQueue s x.target = some q →
    Yields (.swiWakeOr k) s fun t => getQueue t x.target = some { q with wake := q.wake ||| x.value } ∧
      t.qs.swis = s.qs.swis.take k ++ s.qs.swis.drop (k + 1)) ∧
  (∀ s k x, s.qs.swis[k]? = some x → x.target < 2048 → getQueue s x.target = none →
    Yields (.swiWakeOr k) s fun t => sGetD t.qs.owake x.target 0 = sGetD s.qs.owake x.target 0 ||| x.value ∧ t.qs.queues = s.qs.queues ∧
      t.qs.swis = s.qs.swis.take k ++ s.qs.swis.drop (k + 1)) ∧
  (∀ s k x i w, s.qs.swis[k]? = some x → x.target = 0x1000 + i → s.qs.mwake[i]? = some w →
    Yields (.swiWakeOr k) s fun t => t.qs.mwake = s.qs.mwake.set i (w ||| x.value) ∧
      t.qs.swis = s.qs.swis.take k ++ s.qs.swis.drop (k + 1)) ∧
  (∀ s fn cid va bytes cx p ph s1, getCtx s cid = some cx → getPart s cx.part = some p → p.vf = fn →
    translate s cx (accHost true) va.toNat bytes.length = .ok ([ph], s1) → ph.len = bytes.length → Mem.wf s.ms.mem = true →
    ownKey s1 (pteKey ph.leaf.pte) ph.pa bytes.length = true →
    Yields (.hostMemoryAccess fn cid va true bytes) s fun t => memRead t.ms.mem ph.pa bytes.length = bytes ∧
      ∀ a, (a < ph.pa ∨ ph.pa + bytes.length ≤ a) → memGet t.ms.mem a = memGet s.ms.mem a) ∧
  (∀ s fn cid va wr bytes, ((getCtx s cid).bind fun cx => (getPart s cx.part).map (·.vf)) ≠ some fn ∨ wr = false →
    Yields (.hostMemoryAccess fn cid va wr bytes) s fun t => t.ms.mem = s.ms.mem ∧ t.cs = s.cs ∧ t.qs = s.qs) ∧
  (∀ s cid base value cx s1 cx1 p la, getCtx s cid = some cx →
    deviceWrite s cx (hubAgent s) (base.toNat + 0x20) (leBytes 4 value.toNat) .plain = some s1 → getCtx s1 cid = some cx1 →
    resumeWord s1 cx1 base.toNat = some value → ((cx1.resume.find? fun x => x.1 == base).map (·.2)).getD 0 ≠ value →
    p ∈ s1.cs.pallets → p.st = .paused → la ∈ s1.qs.launches → la.key = p.launch → la.cid = cid →
    (trapQueueOf la cx1).1 = base.toNat →
    Yields (.trapQueueResume cid base value) s fun t => ∃ q ∈ t.cs.pallets, q = { p with st := .eligible, mwait := false }) ∧
  (∀ s cid base ridx cx s1 e record dv la x s2, getCtx s cid = some cx →
    deviceWrite s cx (hubAgent s) (base.toNat + 8) (leBytes 8 ridx.toNat) .plain = some s1 → s1.cs.store = [e] →
    (∀ sh ∈ s1.cs.sheets, sh.qwait = none) → s1.en.qheld = [] → e.sleep = .trapSlot record dv → palletEnv s1 e.pal = some (la, x) →
    placeRecord s1 la x (fieldB record 0 1) record = some s2 →
    Yields (.trapQueueSpaceFreed cid base ridx) s fun t => ∃ n ∈ t.cs.store, n.thr.uid = e.thr.uid ∧
      n.sleep = (if dv then .ready else .brk) ∧ n.pc = e.pc) ∧
  (∀ s cid c, getCtx s cid = some c → c.stop = none → 2 ^ (if c.wdx = 0 then 32 else c.wdx) ≤ c.wdog →
    Yields (.watchdogExpiry cid) s fun t => (getCtx t cid).map (·.stop) = some (some 0x28))

/-- R260, R263, R266, R269, R270, R276, R280, R281, R312, R315: whole words of a copy land in the tray or in global memory, linear, gathered,
scattered or from a window; a bound copy counts them and may complete the generation; a copy between a tray's bytes lands whole, or ends
with error where it leaves the tray; an accumulation step of an mma.
The model's choices here: log 19, 21, 98. -/
def Obligations.EngineEvents : Prop :=
  (∀ s c e pl fu, getCopy s c.key = some c → copyEnv s c = some e → copyRuns s c = true → c.shape = .lin → c.dspc = 1 → c.sspc = 1 →
    c.left = [(0, c.total)] → c.held = [] → 0 < c.total → (c.src + c.total ≤ c.dst ∨ c.dst + c.total ≤ c.src) → c.src + c.total ≤ e.la.r.tray → c.dst + c.total ≤ e.la.r.tray → c.bar = none →
    getPallet s c.pal = some pl → Mem.wf pl.tray = true → getFuture s c.handle = some fu → fu.begun = true → fu.st = .pending →
    Yields (.copyLanding c.key 0 c.total) s fun t => trayBytes t c.pal c.dst c.total = trayBytes s c.pal c.src c.total ∧
      (∀ a, (a < c.dst ∨ c.dst + c.total ≤ a) → trayByte t c.pal a = trayByte s c.pal a) ∧ getCopy t c.key = none ∧
      futSt t c.handle = some .clean) ∧
  (∀ s c e o n dst b s1 c1 pl, Landing s c e o n dst b s1 c1 → c.dspc = 1 → dst + n ≤ e.la.r.tray → c.bar = none →
    getPallet s1 c.pal = some pl → Mem.wf pl.tray = true →
    Yields (.copyLanding c.key o n) s fun t => trayBytes t c.pal dst n = b ∧
      (∀ a, (a < dst ∨ dst + n ≤ a) → trayByte t c.pal a = trayByte s1 c.pal a) ∧ CopyGoesOn t c c1 o n) ∧
  (∀ s c e o n dst b s1 c1 ph s2, Landing s c e o n dst b s1 c1 → c.dspc = 0 → c.bar = none →
    translate s1 e.cx (accCopyWr.at c.core 0) dst n = .ok ([ph], s2) → pteRc ph.leaf.pte = false →
    ownKey s2 (pteKey ph.leaf.pte) ph.pa n = true → s2.ms.l1 = [] → s2.ms.posted = [] → Mem.wf s2.ms.mem = true →
    Yields (.copyLanding c.key o n) s fun t => memRead t.ms.mem ph.pa n = b ∧
      (∀ a, (a < ph.pa ∨ ph.pa + n ≤ a) → memGet t.ms.mem a = memGet s2.ms.mem a) ∧ CopyGoesOn t c c1 o n) ∧
  (∀ s c e o n dst b s1 c1 pl off, Landing s c e o n dst b s1 c1 → c.dspc = 1 → dst + n ≤ e.la.r.tray → c.bar = some off →
    (off + 16 ≤ dst ∨ dst + n ≤ off) → getPallet s1 c.pal = some pl → Mem.wf pl.tray = true →
    let x := getBar s1 c.pal off
    (¬ (x.arr = x.exp ∧ (x.land + n) % 2 ^ 24 = x.expb) →
      Yields (.copyLanding c.key o n) s fun t => trayBytes t c.pal dst n = b ∧ CopyGoesOn t c c1 o n ∧
        getBar t c.pal off = { x with land := (x.land + n) % 2 ^ 24 }) ∧
    (x.exp ≠ 0 → x.arr = x.exp → (x.land + n) % 2 ^ 24 = x.expb → x.narr ≠ x.exp → SleepersApart s1 →
      Yields (.copyLanding c.key o n) s fun t => trayBytes t c.pal dst n = b ∧ CopyGoesOn t c c1 o n ∧
        getBar t c.pal off = nextGen x ∧ Woken s1 t c.pal off x.gen (if x.pois then qU else qT))) ∧
  (∀ s c e fu, getCopy s c.key = some c → copyEnv s c = some e → copyRuns s c = true → c.shape = .lin → c.sspc = 1 →
    c.left = [(0, c.total)] → c.held = [] → 0 < c.total → e.la.r.tray ≤ c.src → barBad s c = none → getFuture s c.handle = some fu → fu.begun = true →
    fu.st = .pending →
    Yields (.copyEngineFault c.key 0x0C) s fun t => getCopy t c.key = none ∧ futSt t c.handle = some .error) ∧
  (∀ s k m e d s1, (s.en.mmas.find? fun x => x.key == k) = some m → pipeEnv s m.pal = some e → mmaRuns s m = true → m.trashed = false →
    pipeFetch (mmaStart s e m) e { m with started := true } = .ok (d, s1) → s1.en.mmas = (mmaStart s e m).en.mmas →
    Yields (.mmaAccumulationStep k) s fun t =>
      (getTile t m.core m.tile).steps = m.step + 1 ∧
      (getTile t m.core m.tile).bytes = (mmaRows s1 { m with started := true } d).foldl (fun b r => memWrite b (256 * r.1) r.2)
        (getTile s1 m.core m.tile).bytes ∧
      (m.step + 1 < (m.kk + 15) / 16 → ∃ y ∈ t.en.mmas, y = { m with started := true, step := m.step + 1 }) ∧
      ((m.kk + 15) / 16 ≤ m.step + 1 → (∀ y ∈ t.en.mmas, y.key ≠ k) ∧ (getTile t m.core m.tile).act = false))

/-- R193, R194, R216, R393, R397, R399 to R401, R403, R405, R414: reads, writes, fetch-operations, reductions and multicasts performed at
their destinations, with the values that the threads receive there, and acknowledged, a flag held until its
counts are met, acknowledgements and what they report, markers, failing planes, link training.
The model's choices here: log 53, 54, 57. -/
def Obligations.FabricEvents : Prop :=
  (∀ s r bytes, s.fb.reqs = [r] → r.kind = .write bytes → r.node ≠ s.fb.node → foreign s r = false →
    Yields (.remoteRequestArrival (.own r.key)) s fun t => t.fb.reqs = [{ r with kind := .ack, held := false, bad := [] }] ∧
      peerMem t r.node r.dcid = memWrite (peerMem s r.node r.dcid) r.addr bytes ∧
      (∀ n c, (n, c) ≠ (r.node, r.dcid) → peerMem t n c = peerMem s n c) ∧ t.ms = s.ms) ∧
  (∀ s r bytes s1 hits, s.fb.reqs = [r] → r.kind = .write bytes → foreign s r = false →
    reqWrite s r r.node r.dcid 9 bytes (reqEff r .plain) true = .ok (s1, hits) →
    Yields (.remoteRequestArrival (.own r.key)) s fun t =>
      t.fb.reqs = [{ r with kind := .ack, held := false, bad := hits.map fun h => faultData h.fault }] ∧ t.ms = s1.ms) ∧
  (∀ s r n gd acq bytes marks s1 hits, s.fb.reqs = [r] → r.kind = .read n gd acq → foreign s r = false →
    reqRead s r 8 n true acq = .ok (bytes, marks, s1, hits) → (hits = [] ∨ r.mode ≠ 1) →
    Yields (.remoteRequestArrival (.own r.key)) s fun t =>
      t.fb.reqs = [{ r with kind := .ack, held := false, bad := hits.map fun h => faultData h.fault }] ∧
      Gave s1 t r.uids (putG gd (max 1 (n / 4)) (ofLe bytes)) ∧ t.ms.mem = s1.ms.mem ∧ t.fb.peers = s1.fb.peers) ∧
  (∀ s r n gd acq, s.fb.reqs = [r] → r.kind = .read n gd acq → foreign s r = false → r.node ≠ s.fb.node →
    Yields (.remoteRequestArrival (.own r.key)) s fun t => t.fb.reqs = [{ r with kind := .ack, held := false, bad := [] }] ∧
      Gave s t r.uids (putG gd (max 1 (n / 4)) (ofLe (memRead (peerMem s r.node r.dcid) r.addr n))) ∧ t.ms.mem = s.ms.mem ∧
      t.fb.peers = s.fb.peers) ∧
  (∀ s r op fmt n b d gd acq s0 k bytes marks s1 hits, s.fb.reqs = [r] → r.kind = .fop op false fmt n b d gd acq none →
    foreign s r = false → reqTurn s r = .go s0 k → reqRead s0 r 10 n false false = .ok (bytes, marks, s1, hits) → bytes.length = n →
    n ≤ 16 →
    let new := fopInt op (intSigned fmt) (BitVec.ofNat (8 * n) (ofLe bytes)) (b.setWidth (8 * n)) (d.setWidth (8 * n))
    let ends := fun (s2 t : State) => t.fb.reqs = [{ r with kind := .ack, held := false, bad := [] }] ∧
      Gave s2 t r.uids (putG gd (n / 4) (ofLe bytes)) ∧ t.ms.mem = s2.ms.mem ∧ t.fb.peers = s2.fb.peers
    b.toNat < 2 ^ (8 * n) → d.toNat < 2 ^ (8 * n) → fmt.toNat < 4 →
    (new = none → Yields (.remoteRequestArrival (.own r.key)) s (ends s1)) ∧
    ∀ x s2 h, new = some x → reqWrite s1 r r.node r.dcid 10 (leBytes n x.toNat) (reqEff r .keep) false = .ok (s2, h) →
      Yields (.remoteRequestArrival (.own r.key)) s (ends s2)) ∧
  (∀ s r op fmt n b bytes marks s1 hits s2 h, s.fb.reqs = [r] → r.kind = .red op false fmt n b none → foreign s r = false →
    reqRead s r 10 n false false = .ok (bytes, marks, s1, hits) → bytes.length = n → n ≤ 8 → op < 6 → b.toNat < 2 ^ (8 * n) → fmt.toNat < 4 →
    reqWrite s1 r r.node r.dcid 10 (leBytes n (joinInt op (intSigned fmt) (BitVec.ofNat (8 * n) (ofLe bytes)) (b.setWidth (8 * n))).toNat)
      (reqEff r .keep) false = .ok (s2, h) →
    Yields (.remoteRequestArrival (.own r.key)) s fun t => t.fb.reqs = [{ r with kind := .ack, held := false, bad := [] }] ∧
      t.cs.sheets = s2.cs.sheets ∧ t.cs.store = s2.cs.store ∧ t.ms = s2.ms ∧ t.fb.peers = s2.fb.peers) ∧
  (∀ s r op fl fmt n b i w, s.fb.reqs = [r] → r.kind = .red op fl fmt n b (some i) → foreign s r = false → r.node ≠ s.fb.node →
    peerWinAt s r = some w → w.buf.length < 65536 →
    Yields (.remoteRequestArrival (.own r.key)) s fun t => t.fb.reqs = [{ r with kind := .ack, held := false, bad := [] }] ∧
      t.fb.peers = s.fb.peers ∧ t.ms = s.ms ∧ t.fb.pwins.length = s.fb.pwins.length ∧
      ∃ x, { w with buf := w.buf ++ [x] } ∈ t.fb.pwins ∧ x.addr = r.addr ∧ x.idx = i ∧ x.val = b) ∧
  (∀ s r ms bytes hits s1, s.fb.reqs = [r] → r.kind = .mcast ms bytes → foreign s r = false → CastTo r bytes s ms hits s1 →
    Yields (.remoteRequestArrival (.own r.key)) s fun t =>
      t.fb.reqs = [{ r with kind := .ack, held := false, bad := hits.map fun h => faultData h.fault }] ∧ t.ms = s1.ms ∧
      t.fb.peers = s1.fb.peers) ∧
  (∀ s r ms bytes, s.fb.reqs = [r] → r.kind = .mcast ms bytes → foreign s r = false → (∀ m ∈ ms, m.1 ≠ s.fb.node) → ms.Nodup →
    Yields (.remoteRequestArrival (.own r.key)) s fun t => t.fb.reqs = [{ r with kind := .ack, held := false, bad := [] }] ∧ t.ms = s.ms ∧
      (∀ m ∈ ms, peerMem t m.1 m.2 = memWrite (peerMem s m.1 m.2) r.addr bytes) ∧
      ∀ n c, (n, c) ∉ ms → peerMem t n c = peerMem s n c) ∧
  (∀ s x bytes s1 hits, s.fb.reqs = [] → x.kind = .write bytes → idChip x.agent ≠ s.fb.node →
    let r := foreignReq s.fb.node s.cs.fresh x (.write bytes)
    (openTo s x = false → Yields (.remoteRequestArrival (.foreign x)) s fun t => t = s) ∧
    (openTo s x = true → reqWrite (withReqs (freshKey s).2 [r]) r s.fb.node x.dcid 9 bytes (reqEff r .plain) true = .ok (s1, hits) →
      Yields (.remoteRequestArrival (.foreign x)) s fun t => t.fb.reqs = [] ∧ t.ms = s1.ms)) ∧
  (∀ s r bytes counts, s.fb.reqs = [r] → r.kind = .flag bytes true counts → r.node ≠ s.fb.node → foreign s r = false → flagReady s r counts = true →
    Yields (.remoteFlagArrival (.own r.key)) s fun t => t.fb.reqs = [{ r with kind := .ack, held := false, bad := [] }] ∧
      peerMem t r.node r.dcid = memWrite (peerMem s r.node r.dcid) r.addr bytes ∧ t.ms = s.ms) ∧
  (∀ s r bytes counts, s.fb.reqs = [r] → r.kind = .flag bytes true counts → flagReady s r counts = false →
    Yields (.remoteFlagArrival (.own r.key)) s fun t => t = { s with fb := { s.fb with reqs := [{ r with held := true }] } }) ∧
  (∀ s r, getReq s r.key = some r → r.kind = .ack → r.bad = [] →
    Yields (.remoteAckArrival r.key) s fun t => t = { s with fb := { s.fb with reqs := s.fb.reqs.filter fun q => q.key != r.key } }) ∧
  (∀ s r p la cx code a info, getReq s r.key = some r → r.kind = .ack → r.bad = [(code, a, info)] → r.fatal = true →
    getPallet s r.pal = some p → getLaunch s p.launch = some la → getCtx s r.cid = some cx → cx.stop = none →
    Yields (.remoteAckArrival r.key) s fun t => (∀ q ∈ t.fb.reqs, q.key ≠ r.key) ∧ (getCtx t r.cid).map (·.stop) = some (some code)) ∧
  (∀ s r, getReq s r.key = some r → r.kind = .marker →
    (∀ q ∈ s.fb.reqs, q.agent = r.agent → q.node = r.node → q.key < r.key → isRemoteWrite q = false) →
    Yields (.fenceMarkerArrival r.key) s fun t => t = { s with fb := { s.fb with reqs := s.fb.reqs.filter fun q => q.key != r.key } }) ∧
  (∀ s plane, Yields (.mortarPlaneFailure plane) s fun t => t.fb.planes = s.fb.planes &&& ~~~(1#16 <<< plane)) ∧
  (∀ s plane r bytes counts, s.fb.reqs = [r] → r.kind = .flag bytes true counts → r.held = true → r.node ≠ s.fb.node →
    (∃ c ∈ counts, c.1 = plane) → Yields (.mortarPlaneFailure plane) s fun t => t.fb.reqs = [] ∧ t.ms = s.ms) ∧
  (∀ s plane r bytes p la cx, s.fb.reqs = [r] → r.kind = .write bytes → r.plane = plane → r.node ≠ s.fb.node → foreign s r = false →
    getPallet s r.pal = some p → getLaunch s p.launch = some la → getCtx s r.cid = some cx → cx.stop = none →
    Yields (.mortarPlaneFailure plane) s fun t => (getCtx t r.cid).map (·.stop) = some (some 0x24)) ∧
  (∀ s port versions, port < 16 →
    Yields (.linkTraining port versions) s fun t => t.fb.vers = s.fb.vers.set port (if 0x0100 ∈ versions then 0x0100 else 0) ∧
      (∀ i, i ≠ port → t.fb.planes.getLsbD i = s.fb.planes.getLsbD i) ∧ (t.fb.planes.getLsbD port = true ↔ 0x0100 ∈ versions)) ∧
  (∀ s, Yields .hostLinkRetraining s fun t => t = s)

/-- R407, R409, R411 to R414, R424 to R426: the host's register writes, fetching, starting each kind of packet, ending packets and
reporting their events, and the firmware complex's reset.
The model's choices here: log 70, 71, 72, 73, 74. -/
def Obligations.QueuesAndPackets : Prop :=
  (∀ s fn n v q, getQueue s n = some q → seesQueue s fn n = true →
    (Yields (.queueDoorbell ⟨fn, n⟩ v) s fun t => getQueue t n = some { q with widx := max q.widx v }) ∧
    (Yields (.queueRestart ⟨fn, n⟩ (BitVec.ofNat 32 v)) s fun t => getQueue t n =
      some (if v / 2 ^ 31 % 2 = 1 then { q with stat := 0, tries := 0 } else q)) ∧
    Yields (.queueWakeClear ⟨fn, n⟩ (BitVec.ofNat 32 v)) s fun t => getQueue t n = some { q with wake := q.wake &&& ~~~(BitVec.ofNat 32 v) }) ∧
  (∀ s fn n (v : Word), getQueue s n = none → seesQueue s fn n = true →
    Yields (.queueWakeClear ⟨fn, n⟩ v) s fun t => sGetD t.qs.owake n 0 = sGetD s.qs.owake n 0 &&& ~~~v) ∧
  (∀ s fn n v, seesQueue s fn n = false → (Yields (.queueDoorbell ⟨fn, n⟩ v) s fun t => t = s) ∧
    (Yields (.queueRestart ⟨fn, n⟩ (BitVec.ofNat 32 v)) s fun t => t = s) ∧ Yields (.queueWakeClear ⟨fn, n⟩ (BitVec.ofNat 32 v)) s fun t => t = s) ∧
  (∀ s n q b, getQueue s n = some q → q.stat.getLsbD 31 = false → q.acc < q.widx → ringRead s q q.acc = some b →
    validPacket q q.acc b = true → pkDefined b = true → sGet q.futs q.acc = none →
    let u := { q with acc := q.acc + 1, pkts := sPut q.pkts q.acc b, tries := 0 }
    (q.tries = 0 → Yields (.packetFetch n) s fun t => getQueue t n = some u ∧ t.mg = s.mg) ∧
    (q.tries ≠ 0 → Yields (.packetRefetchTimer n) s fun t => getQueue t n = some u ∧ t.mg.ns = max s.mg.ns (q.readAt + 250))) ∧
  (∀ s n q b, getQueue s n = some q → q.stat.getLsbD 31 = false → q.acc < q.widx → ringRead s q q.acc = some b →
    validPacket q q.acc b = false →
    (q.tries = 0 → Yields (.packetFetch n) s fun t => getQueue t n = some { q with tries := 1, readAt := s.mg.ns }) ∧
    (q.tries ≠ 0 → q.tries < 16 → Yields (.packetRefetchTimer n) s fun t =>
      getQueue t n = some { q with tries := q.tries + 1, readAt := max s.mg.ns (q.readAt + 250) }) ∧
    (q.tries = 16 → q.errs = [] → sGet q.ended q.done = none → Yields (.packetRefetchTimer n) s fun t =>
      ∃ u, getQueue t n = some u ∧ u.stat.getLsbD 31 = true ∧ u.stat.toNat / 2 ^ 16 % 256 = 1 ∧
        (u.acc = q.acc ∨ u.stat.getLsbD 30 = true ∧ u.done = q.acc + 1 ∧ u.acc = q.acc + 1))) ∧
  (∀ s n x q b cx unit, PacketTurn s n x 1 q b → getCtx s q.cid = some cx → fieldB b 0x18 8 % 64 = 0 →
    deviceRead (startedAt s q x) cx (fieldB b 0x18 8) 256 = some unit →
    Yields (.launchPacket n x) s fun t => (getQueue t n).map (·.strt) = some (x + 1) ∧ ∃ y, t.qs.subs = s.qs.subs ++ [y] ∧
      y.cid = q.cid ∧ y.pair = false ∧ y.queue = some (n, x) ∧ y.readable = true ∧ y.unit = unit) ∧
  (∀ s n x q b cx unit, PacketTurn s n x 2 q b → getCtx s q.cid = some cx → fieldB b 0x18 8 % 64 = 0 →
    deviceRead (startedAt s q x) cx (fieldB b 0x18 8) 512 = some unit →
    Yields (.pairLaunchPacket n x) s fun t => (getQueue t n).map (·.strt) = some (x + 1) ∧ ∃ y, t.qs.subs = s.qs.subs ++ [y] ∧
      y.cid = q.cid ∧ y.pair = true ∧ y.queue = some (n, x) ∧ y.readable = true ∧ y.unit = unit) ∧
  (∀ s n x q b cx bytes s1 s2, PacketTurn s n x 3 q b → getCtx s q.cid = some cx →
    hubRead (startedAt s q x) cx (fieldB b 0x18 8) (fieldB b 0x28 8) = some (bytes, s1) →
    hubWrite s1 cx (fieldB b 0x20 8) bytes = some s2 →
    PacketDone (.copyPacket n x) s s2 n x q) ∧
  (∀ s n x q b cx old pa s1, PacketTurn s n x 4 q b → getCtx s q.cid = some cx → fieldB b 0x18 8 % 8 = 0 → fieldB b 0x28 1 ≤ 1 →
    deviceRead (startedAt s q x) cx (fieldB b 0x18 8) 8 = some old → physOf (startedAt s q x) cx (fieldB b 0x18 8) = some pa →
    hubWrite (startedAt s q x) cx (fieldB b 0x18 8)
      (leBytes 8 (if fieldB b 0x28 1 = 0 then ofLe old - fieldB b 0x20 8 else fieldB b 0x20 8)) = some s1 →
    PacketDone (.signalPacket n x) s s1 n x q) ∧
  (∀ s n x q b cx v, PacketTurn s n x 5 q b → getCtx s q.cid = some cx → fieldB b 0x28 1 ≤ 3 → fieldB b 0x29 1 ≤ 1 →
    deviceRead (startedAt s q x) cx (fieldB b 0x18 8) (if fieldB b 0x29 1 = 1 then 8 else 4) = some v →
    Yields (.waitPacket n x) s fun t => t = startedAt s q x) ∧
  (∀ s n x q (b : List Byte) cx v s1, getQueue s n = some q → sGet q.pkts x = some b → pkKind b = 5 → x < q.strt → hasEnded q x = false →
    (∀ d ∈ s.qs.deps, d.queue = n → d.index ≠ x) → getCtx s q.cid = some cx →
    hubRead s cx (fieldB b 0x18 8) (if fieldB b 0x29 1 = 1 then 8 else 4) = some (v, s1) →
    let y := fieldB b 0x20 8 % (if fieldB b 0x29 1 = 1 then 2 ^ 64 else 2 ^ 32)
    let met := match fieldB b 0x28 1 with
      | 0 => ofLe v = y
      | 1 => ofLe v ≠ y
      | 2 => y ≤ ofLe v
      | _ => ofLe v < y
    (met → Yields (.waitPacketConditionMet n x) s fun t => EndsWith t n x 0 0 s.mg.ns ∧ t.ms = s1.ms) ∧
    (¬ met → Yields (.waitPacketConditionMet n x) s fun t => t = s)) ∧
  (∀ s n x q b cx c image, PacketTurn s n x 6 q b → getCtx s q.cid = some cx → fieldB b 0x18 8 % 8 = 0 →
    deviceRead (startedAt s q x) cx (fieldB b 0x18 8) 8 = some c →
    deviceRead (startedAt s q x) cx (fieldB b 0x20 8) 64 = some image → pkDefined image = true →
    Yields (.dependencyPacket n x) s fun t => (getQueue t n).map (·.strt) = some (x + 1) ∧
      let all := s.qs.deps ++ [⟨n, x, BitVec.ofNat 64 (fieldB b 0x18 8), image, false, 0, false⟩]
      (ofLe c ≠ 0 → t.qs.deps = all) ∧
      ∀ pa, ofLe c = 0 → physOf (startedAt s q x) cx (fieldB b 0x18 8) = some pa →
        t.qs.deps = (readyDeps (withDeps (startedAt s q x) all) pa).qs.deps ∧
        ∃ d ∈ t.qs.deps, d.queue = n ∧ d.index = x ∧ d.image = image ∧ d.ready = true) ∧
  (∀ s n x q b cx s1, PacketTurn s n x 7 q b → getCtx s q.cid = some cx →
    hubWrite (startedAt s q x) cx (fieldB b 0x18 8) (leBytes 8 s.mg.ns) = some s1 → PacketDone (.timestampPacket n x) s s1 n x q) ∧
  (∀ s n x q b, PacketTurn s n x 8 q b → PacketDone (.markerPacket n x) s s n x q) ∧
  (∀ s d q, readyHead s = some d → getQueue s d.queue = some q → pkKind d.image = 8 → sGet q.ended d.index = none →
    Yields (.markerPacket d.queue d.index) s fun t => EndsWith t d.queue d.index 0 0 s.mg.ns ∧ t.ms = s.ms) ∧
  (∀ s n q b p r code detail time, s.qs.queues = [q] → q.num = n → sGet q.pkts q.done = some b → pkSig b = false → s.qs.deps = [] →
    q.ended = [(q.done, code, detail, time)] → q.signed = [] → q.errs = [] → q.stat.getLsbD 30 = false →
    queuePart s n = some p → getRing s p.num = some r → ringRoom s r = true → Mem.wf s.ms.hostMem = true →
    let w := hostField s r.base.toNat
    Yields (.packetEnd n q.done) s fun t => (getQueue t n).map (·.done) = some (q.done + 1) ∧
      memRead t.ms.hostMem (r.base.toNat + 64 + 32 * (w % r.n)) 32 =
        eventBytes (if code ≠ 0 then 2 else if pkKind b = 8 then 4 else 1) code n (pkTag b) q.done detail time ∧
      hostField t r.base.toNat = (w + 1) % 2 ^ 64 ∧ t.qs.msix = s.qs.msix ++ [(p.vf, 1)]) ∧
  (∀ s n q x (b : List Byte) cx old pa s1, getQueue s n = some q → s.qs.deps = [] → sGet q.pkts x = some b → pkSig b = true → x ∉ q.signed →
    (sGet q.ended x).isSome = true → sGet q.ended q.done = none → q.errs = [] → getCtx s q.cid = some cx → fieldB b 8 8 % 8 = 0 →
    deviceRead s cx (fieldB b 8 8) 8 = some old → physOf s cx (fieldB b 8 8) = some pa →
    hubWrite s cx (fieldB b 8 8) (leBytes 8 (if pkDec b then ofLe old - fieldB b 0x10 8 else fieldB b 0x10 8)) = some s1 →
    Yields (.packetEnd n x) s fun t => t.ms = s1.ms ∧ (getQueue t n).map (·.signed) = some (q.signed ++ [x])) ∧
  (∀ s q p r (b : List Byte) code detail time v, s.qs.queues = [q] → queueInPart p q.num = true → getPart s p.num = some p →
    queuePart s q.num = some p → getRing s p.num = some r → sGet q.pkts q.done = some b →
    q.ended = [(q.done, code, detail, time)] → q.signed = [q.done] → q.errs = [] → q.stat.getLsbD 30 = false →
    Mem.wf s.ms.hostMem = true →
    let s1 := hostPut s (r.base.toNat + 8) (leBytes 8 v)
    let w := hostField s1 r.base.toNat
    ringRoom s1 r = true →
    Yields (.eventRingSpaceFreed p.num v) s fun t => (getQueue t q.num).map (·.done) = some (q.done + 1) ∧
      memRead t.ms.hostMem (r.base.toNat + 64 + 32 * (w % r.n)) 32 =
        eventBytes (if code ≠ 0 then 2 else if pkKind b = 8 then 4 else 1) code q.num (pkTag b) q.done detail time) ∧
  (∀ s q p r v, s.qs.queues = [q] → queueInPart p q.num = true → getPart s p.num = some p → queuePart s q.num = some p →
    getRing s p.num = some r → q.ended = [] → q.errs = [] → q.stat.getLsbD 30 = true → p.clus.getLsbD (q.num / 64) = true →
    q.num / 64 < 32 → Mem.wf s.ms.hostMem = true →
    let s1 := hostPut s (r.base.toNat + 8) (leBytes 8 v)
    let w := hostField s1 r.base.toNat
    ringRoom s1 r = true →
    Yields (.eventRingSpaceFreed p.num v) s fun t => getQueue t q.num = some { q with stat := q.stat &&& 0xBFFFFFFF#32 } ∧
      memRead t.ms.hostMem (r.base.toNat + 64 + 32 * (w % r.n)) 32 =
        eventBytes 3 0 (64 * (q.num / 64)) 0 0 (2 ^ (q.num % 64)) s.mg.ns) ∧
  (∀ s, Yields .firmwareComplexReset s fun t => t.qs.queues = s.qs.queues.map (fun q => { q with epoch := q.epoch + 1, tries := 0 }) ∧
    t.ms = s.ms ∧ t.cs = s.cs ∧ t.mg.fw.length = 16)

/-- R428 to R432, R439 to R443: the commands of the firmware interface, executed whole and answered with their status; those whose own
checks fail in a way that R431, R441 or R442 names are answered with that status and change nothing.
The model's choices here: log 38, 79, 81. -/
def Obligations.ManagementCommands : Prop :=
  (∀ s c i b, CmdIs i c b → taken s c = false → Yields i s fun t => t.mg.rsp = s.mg.rsp ∧ t.mg.beat = s.mg.beat ∧ OnlyAnswer s t) ∧
  (∀ s c i b, CmdIs i c b → taken s c = true → c.ver ≠ 0x0100 → Yields i s fun t => Answered s t c 2 [] ∧ OnlyAnswer s t) ∧
  (∀ s c i, CmdIs i c false → taken s c = true → c.ver = 0x0100 → s.mg.recovery = true →
    Yields i s fun t => Answered s t c 11 [] ∧ OnlyAnswer s t) ∧
  (∀ s c i b k, CmdIs i c b → taken s c = true → c.ver = 0x0100 → (s.mg.recovery = false ∨ b = true) → cmdData s c = .error k →
    Yields i s fun t => Answered s t c k [] ∧ OnlyAnswer s t) ∧
  (∀ s c d i b n reply, ReadRow s d i c n reply → CmdIs i c b → taken s c = true → c.ver = 0x0100 → (s.mg.recovery = false ∨ b = true) →
    cmdData s c = .ok d → d.length = n → Yields i s fun t => Answered s t c 0 reply ∧ OnlyAnswer s t) ∧
  (∀ s c d i b who n reply eff, ActRow s d i c who n reply eff → CmdIs i c b → taken s c = true → c.ver = 0x0100 →
    (s.mg.recovery = false ∨ b = true) → cmdData s c = .ok d → d.length = n → allowed s c who = true →
    Yields i s fun t => Answered s t c 0 reply ∧ eff t) ∧
  (∀ s c d i who n reply eff, ActRow s d i c who n reply eff → taken s c = true → c.ver = 0x0100 → s.mg.recovery = false →
    cmdData s c = .ok d → allowed s c who = false → Yields i s fun t => Answered s t c 1 [] ∧ OnlyAnswer s t) ∧
  (∀ s c d i who n k, FailRow s d i c who n k → taken s c = true → c.ver = 0x0100 → s.mg.recovery = false → cmdData s c = .ok d →
    d.length = n → allowed s c who = true → Yields i s fun t => Answered s t c k [] ∧ OnlyAnswer s t) ∧
  (∀ s c d, taken s c = true → c.ver = 0x0100 → s.mg.recovery = true → c.mctp = true → cmdData s c = .ok d → d ≠ [] →
    imageGood d = true → Yields (.fwloadCmd c) s fun t => Answered s t c 0 [] ∧ t.mg.nextImg = some d) ∧
  (∀ s c i b, CmdIs i c b → taken s c = true → ownerNow s = some c.src → Yields i s fun t => t.mg.beat = s.mg.ns) ∧
  (∀ s c, Yields (.spdmRequest c) s fun t =>
    t.mg.rsp = (c.src, c.tag, 0, measurements s ++ Config.mldsaSign (c.payload ++ measurements s)) :: s.mg.rsp ∧ OnlyAnswer s t) ∧
  (∀ s opc c, taken s c = true →
    Yields (.undefinedCommand opc c) s fun t => Answered s t c (if c.ver = 0x0100 then 3 else 2) [] ∧ OnlyAnswer s t) ∧
  (∀ s, Yields .ownerHeartbeatLapse s fun t => t = { s with mg := { s.mg with
    owner := if s.mg.beat + 2000000000 ≤ s.mg.ns then none else s.mg.owner } })

/-- R67, R360, R434 to R437, R454 to R460: reset, clock steps, shutdown and memory errors; halting, resuming and rolling back a pallet, the
ends of exposures, samples, control-word writes; the fault of an undecodable word.
The model's choices here: log 47, 48, 82, 83, 84. -/
def Obligations.HealthAndDebug : Prop :=
  (∀ s, let img := s.mg.nextImg.getD s.mg.image
    Yields .deviceReset s fun t => t.ms.mem = [] ∧ t.ms.l1 = [] ∧ t.cs.pallets = [] ∧ t.cs.sheets = [] ∧ t.qs.queues = [] ∧
      t.mg.parts = [] ∧ t.mg.ctxs = [] ∧ t.mg.owner = none ∧ t.mg.off = false ∧ t.mg.mhz = 1100 ∧ t.mg.throttle = 100 ∧
      t.cs.retired = s.cs.retired ∧ t.mg.ownKeys = s.mg.ownKeys ∧ t.mg.image = img ∧ t.mg.recovery = !(imageGood img) ∧
      t.mg.bringUp = (if imageGood img then 1 else 0)) ∧
  (∀ s, s.mg.bringUp < 5 → (bringUpStep s).mg.bringUp =
    if s.mg.recovery = true ∨ (s.mg.bringUp = 0 ∧ imageGood s.mg.image = false) then s.mg.bringUp else s.mg.bringUp + 1) ∧
  (∀ s, Yields (.thermalThrottleStep none) s fun t => t.mg.ns = s.mg.ns + 10000 ∧
    t.mg.mhz = (if 8 * s.mg.throttle < maxN t.mg.temps ∨ 3600 < t.mg.pwr then max 600 (s.mg.mhz - 25) else s.mg.mhz)) ∧
  (∀ s n p, getPart s n = some p → Yields (.thermalThrottleStep (some n)) s fun t => t.mg.mhz = s.mg.mhz ∧
    (getPart t n).map (·.mhz) =
      some (if p.pcap ≠ 0 ∧ p.pcap < sGetD t.mg.ppwr n 0 then max 600 (p.mhz - 25) else p.mhz)) ∧
  (∀ s, Yields (.clockRaiseStep none) s fun t =>
    t.mg.mhz = if t.mg.warm + 1000000 ≤ s.mg.ns then min 1100 (s.mg.mhz + 25) else s.mg.mhz) ∧
  (∀ s n p, getPart s n = some p → Yields (.clockRaiseStep (some n)) s fun t =>
    (getPart t n).map (·.mhz) = some (if t.mg.warm + 1000000 ≤ s.mg.ns then min 1100 (p.mhz + 25) else p.mhz)) ∧
  (∀ s, s.mg.off = false → Yields .overtempShutdown s fun t => if 8 * 115 ≤ maxN t.mg.temps
    then t.mg.off = true ∧ ∀ c ∈ s.mg.ctxs, ((getCtx t c.cid).bind (·.stop)).isSome = true
    else t.mg.off = false ∧ t.mg.ctxs = s.mg.ctxs ∧ t.cs = s.cs) ∧
  (∀ s unit addr, Yields (.eccError unit addr true) s fun t => t = { s with mg := { s.mg with
    eccc := s.mg.eccc + 1
    eccU := sPut s.mg.eccU unit (sGetD s.mg.eccU unit 0 + 1) } }) ∧
  (∀ s unit addr, unit = 3 ∨ unit = 5 ∨ unit = 6 ∨ unit = 7 → Yields (.eccError unit addr false) s fun t =>
    sGet t.ms.poison (addr / 128) = some (BitVec.allOnes 128) ∧ t.ms.mem = s.ms.mem ∧ t.cs = s.cs ∧ t.mg = s.mg) ∧
  (∀ s unit addr, unit = 0 ∨ unit = 1 ∨ unit = 2 ∨ unit = 4 ∨ unit = 8 → Yields (.eccError unit addr false) s fun t =>
    t = { s with ms := { s.ms with marks := (unit, addr % 256) :: s.ms.marks } }) ∧
  (∀ s unit addr, 9 ≤ unit → Yields (.eccError unit addr false) s fun t =>
    t = s ∨ ∃ c ∈ s.mg.ctxs, ((getCtx t c.cid).bind (·.stop)).isSome = true) ∧
  (∀ s line, Yields (.backgroundScrub line) s fun t => t = s) ∧
  (∀ s pal p, getPallet s pal = some p →
    (Yields (.debugHalt pal) s fun t => (getPallet t pal).map (fun x => (x.dbg.halt, x.dbg.att)) = some (true, true)) ∧
    Yields (.debugResume pal) s fun t => (getPallet t pal).map (fun x => (x.dbg.halt, x.dbg.att)) = some (false, true) ∧
      (∀ sh ∈ t.cs.sheets, sh.pal = pal → sh.halted = false) ∧ ∀ e ∈ t.cs.store, e.pal = pal → e.sleep ≠ .brk) ∧
  (∀ s pal p n, getPallet s pal = some p → p.dbg.halt = true → p.rbok = true → p.dbg.texp = p.expo → sGet s.cs.snaps pal = some n →
    n.pal.key = pal → Yields (.debugRollback pal) s fun t =>
      (getPallet t pal).map (fun x => (x.dbg.roll, x.dbg.halt, x.expo, x.rwc)) = some (true, false, n.pal.expo, n.pal.rwc) ∧
      (∀ sh ∈ n.sheets, ∃ x ∈ t.cs.sheets, x.key = sh.key ∧ x.pc = sh.pc ∧ x.lanes = sh.lanes) ∧
      ∀ e ∈ n.entries, e ∈ t.cs.store) ∧
  (∀ s pal p, getPallet s pal = some p → ¬ (p.dbg.halt = true ∧ p.rbok = true ∧ p.dbg.texp = p.expo) →
    Yields (.debugRollback pal) s fun t => getPallet t pal = some { p with dbg := p.dbg.attached none } ∧ t.ms = s.ms) ∧
  (∀ s pal p, getPallet s pal = some p → p.dbg.roll = true → p.dbg.trwc ≠ 0xFFFFFFFF → p.dbg.trwc.toNat ≤ p.rwc.toNat →
    Yields (.rollbackTargetReached pal) s fun t => (getPallet t pal).map (fun x => (x.dbg.roll, x.dbg.halt)) = some (false, true)) ∧
  (∀ s pal p, getPallet s pal = some p → 2 ^ p.dbg.expx ≤ p.rwc.toNat → Yields (.exposureEnd pal) s fun t =>
    (getPallet t pal).map (fun x => (x.expo, x.rwc, x.rbok)) = some (p.expo + 1, 0, true) ∧ (sGet t.cs.snaps pal).isSome = true) ∧
  (∀ s pal p la cx base n ps s1, getPallet s pal = some p → getLaunch s p.launch = some la → getCtx s la.cid = some cx →
    p.dbg.trc.toNat % 32 ≠ 0 → traceRing p = some (base, n) →
    translate s cx accStore (base + 32 * (p.trn % n)) 32 = .ok (ps, s1) →
    Yields (.traceSample pal) s fun t => (getPallet t pal).map (·.trn) = some (p.trn + 1)) ∧
  (∀ s pal p w, getPallet s pal = some p →
    (Yields (.registerWrite pal 1 w) s fun t => getPallet t pal = some { p with expo := w }) ∧
    (Yields (.registerWrite pal 2 w) s fun t => getPallet t pal = some { p with rwc := w }) ∧
    (Yields (.registerWrite pal 3 w) s fun t => getPallet t pal = some { p with dbg := { p.dbg with texp := w } }) ∧
    (Yields (.registerWrite pal 4 w) s fun t => getPallet t pal = some { p with dbg := { p.dbg with trwc := w } }) ∧
    (Yields (.registerWrite pal 5 w) s fun t => getPallet t pal = some { p with dbg := { p.dbg with
      expx := if 16 ≤ w.toNat ∧ w.toNat ≤ 30 then w.toNat else p.dbg.expx } }) ∧
    (Yields (.registerWrite pal 6 w) s fun t => getPallet t pal = some { p with dbg := { p.dbg with trb := w } }) ∧
    (Yields (.registerWrite pal 7 w) s fun t => getPallet t pal = some { p with dbg := { p.dbg with trc := w &&& 0xFFFFFF1F } }) ∧
    Yields (.registerWrite pal 8 w) s fun t => getPallet t pal = some { p with dbg := { p.dbg with trbh := w &&& 0x01FFFFFF } }) ∧
  (∀ s e bad off w1 w2 l th, envOf s s.iss.sheet = some e → fetchLane e.sh = l → laneThread e.sh l = some th → th.trap = none →
    e.la.r.handler = 0 → e.cx.stop = none → e.sh.course = none →
    Yields (.illegalInstruction bad off w1 w2) s fun t => (getCtx t e.la.cid).map (·.stop) = some (some 0x01))

/-- R437: after reset no queue, no context, no partition and no owner exist, no core runs anything, memory reads zero, every race record
is quiescent, the clock is 1,100 MHz and the throttle temperature 100 °C (R1, R434). The registers for which the spec gives no value are
not stated.
The model's choices here: log 1. -/
def Obligations.ResetState : Prop :=
  let r := State.reset
  r.qs.queues = [] ∧ r.mg.ctxs = [] ∧ r.mg.parts = [] ∧ r.mg.owner = none ∧ r.cs.pallets = [] ∧ r.cs.sheets = [] ∧ r.cs.store = [] ∧
  r.qs.launches = [] ∧ r.en.futs = [] ∧ r.cs.boxes = [] ∧ (∀ k, sGet r.cs.seqs k = none) ∧ (∀ a, memGet r.ms.mem a = 0) ∧
  (∀ l, sGet r.ms.race l = none) ∧ (∀ k, getAgent r k = ⟨k, 0, 0, []⟩) ∧ r.mg.mhz = 1100 ∧ r.mg.throttle = 100 ∧ r.mg.off = false

/-- Every byte memory is in canonical form right after reset.
The model's choices here: log 2. -/
def Obligations.ResetCanonical : Prop := Canonical State.reset

/-- Every step keeps every byte memory in canonical form.
The model's choices here: log 2. -/
def Obligations.StepKeepsCanonical : Prop := ∀ s t, Canonical s → step s = .next t → Canonical t

/-- R37, R39, R42, R43, R45, R48, R49, R61, R427: a well-formed instruction is read back from its words, whatever follows them; and words
read as a well-formed instruction are the words of that instruction: no two words mean the same. -/
def Obligations.EncodeDecode : Prop :=
  (∀ i rest, (opFormOf i).isSome = true → i.wf = true → decodeWords (encode i ++ rest) = .ok i (encode i).length) ∧
  (∀ ws i n, decodeWords ws = .ok i n → i.wf = true ∧ encode i = ws.take n ∧ n ≤ ws.length) ∧
  (∀ x, ∃ a b c d, encode (.qfetch x) = [a] ∧ encode (.bfx x) = [b] ∧ encode (.swait x) = [c] ∧ encode (.disp x) = [d] ∧
    decodeXkw a = some (.qfetch x) ∧ decodeXkw b = some (.bfx x) ∧ decodeXkw c = some (.swait x) ∧ decodeXkw d = some (.disp x)) ∧
  ∀ w i, decodeXkw w = some i → encode i = [w]

/-- Words written out from the encoding tables of R38 to R45 and R66 stand for their instructions: iadd g3, g1, g2; exit; ld g5, [g4]; nop;
norace; csrr of register 2 into g8; words of unlisted majors and an unlisted first word are illegal. -/
def Obligations.DecodesSpecWords : Prop :=
  decodeWords [0x04041808] = .ok (.iadd { plainFld with d := 3, a := 1, b := 2 }) 1 ∧
  decodeWords [0x00000068] = .ok (.exit plainFld) 1 ∧
  decodeWords [0x00102880] = .ok (.ld { plainFld with d := 5, a := 4 }) 1 ∧
  decodeWords [0x00000004] = .ok (.nop { plainFld with d := 0 }) 1 ∧
  decodeWords [0x00000804] = .ok (.norace { plainFld with d := 1 }) 1 ∧
  decodeWords [0x000840D0] = .ok (.csrr { plainFld with d := 8, a := 2 }) 1 ∧
  decodeWords [0x00000000] = .illegal ∧ decodeWords [0x000000FC] = .illegal ∧ decodeWords [0x00003004] = .illegal

/-- R38, R64, R65: when it is a sheet's turn and the words at its program counter decode to an instruction, the step is that
instruction's effect, with the wakes and counts that follow every step; a fetched word that its launch has not stored to is the four bytes
of memory at its translated address, lowest first; an event of the agenda is its effect likewise.
The model's choices here: log 3, 5, 6, 87, 103. -/
def Obligations.StepRunsDecoded : Prop :=
  (∀ s key r sh e ws i s1, s.mg.off = false → s.agenda = .issue key :: r → inRun (ticked s) = none →
    let u := { ticked s with agenda := r }
    getSheet s key = some sh → issuesNext (ticked s) sh = true → envOf u key = some e →
    coreCheck u e.pl.core = none → fetchWords u e.pl.core e.la.key e.cx e.sh.pc.toNat ws.length = .ok (ws, s1) → decodeWords ws = .ok i ws.length →
    step s = after u (exec i { s1 with iss := issueOf e.sh ws ws.length })) ∧
  (∀ s sh e ws i s1, s.mg.off = false → s.agenda = [] → inRun (ticked s) = some sh → envOf (ticked s) sh.key = some e →
    coreCheck (ticked s) e.pl.core = none →
    fetchWords (ticked s) e.pl.core e.la.key e.cx e.sh.pc.toNat ws.length = .ok (ws, s1) → decodeWords ws = .ok i ws.length →
    step s = after (ticked s) (exec i { s1 with iss := issueOf e.sh ws ws.length })) ∧
  (∀ s core la cx va p s1, translate s cx (accFetch.at core 0) va 4 = .ok ([p], s1) → poisonCheck s1 p = none →
    ownKey s1 (pteKey p.leaf.pte) p.pa p.len = true → (∀ x ∈ s1.ms.oldText, x.launch = la → x.addr ≠ p.pa) →
    fetchWord s core la cx va = .ok (BitVec.ofNat 32 (ofLe (memRead s1.ms.mem p.pa p.len)), s1)) ∧
  (∀ s i r, s.mg.off = false → s.agenda = .event i :: r → inRun (ticked s) = none →
    step s = after { ticked s with agenda := r } (exec i { ticked s with agenda := r })) ∧
  ∀ s t, after s (.next t) = .next (settle s t)
end

