-- ==== Sys2Proof/Laws/Exec.lean ====
section
/-! SUPPORT. The meaning of each instruction, by definition of exec. -/

namespace Sys2Proof.Machine

@[simp] theorem exec_nop (f : Fld) (s : State) : exec (.nop f) s = execNop f s := rfl
@[simp] theorem exec_norace (f : Fld) (s : State) : exec (.norace f) s = execNorace f s := rfl
@[simp] theorem exec_atom (f : Fld) (s : State) : exec (.atom f) s = execAtom f s := rfl
@[simp] theorem exec_peer (f : Fld) (s : State) : exec (.peer f) s = execPeer f s := rfl
@[simp] theorem exec_ord (f : Fld) (s : State) : exec (.ord f) s = execOrd f s := rfl
@[simp] theorem exec_scope (f : Fld) (s : State) : exec (.scope f) s = execScope f s := rfl
@[simp] theorem exec_iadd (f : Fld) (s : State) : exec (.iadd f) s = execIadd f s := rfl
@[simp] theorem exec_isub (f : Fld) (s : State) : exec (.isub f) s = execIsub f s := rfl
@[simp] theorem exec_imul (f : Fld) (s : State) : exec (.imul f) s = execImul f s := rfl
@[simp] theorem exec_iand (f : Fld) (s : State) : exec (.iand f) s = execIand f s := rfl
@[simp] theorem exec_ior (f : Fld) (s : State) : exec (.ior f) s = execIor f s := rfl
@[simp] theorem exec_ixor (f : Fld) (s : State) : exec (.ixor f) s = execIxor f s := rfl
@[simp] theorem exec_shl (f : Fld) (s : State) : exec (.shl f) s = execShl f s := rfl
@[simp] theorem exec_shr (f : Fld) (s : State) : exec (.shr f) s = execShr f s := rfl
@[simp] theorem exec_sar (f : Fld) (s : State) : exec (.sar f) s = execSar f s := rfl
@[simp] theorem exec_mov (f : Fld) (s : State) : exec (.mov f) s = execMov f s := rfl
@[simp] theorem exec_icmp (f : Fld) (s : State) : exec (.icmp f) s = execIcmp f s := rfl
@[simp] theorem exec_lea (f : Fld) (s : State) : exec (.lea f) s = execLea f s := rfl
@[simp] theorem exec_imad (f : Fld) (s : State) : exec (.imad f) s = execImad f s := rfl
@[simp] theorem exec_imulhi (f : Fld) (s : State) : exec (.imulhi f) s = execImulhi f s := rfl
@[simp] theorem exec_idiv (f : Fld) (s : State) : exec (.idiv f) s = execIdiv f s := rfl
@[simp] theorem exec_irem (f : Fld) (s : State) : exec (.irem f) s = execIrem f s := rfl
@[simp] theorem exec_imin (f : Fld) (s : State) : exec (.imin f) s = execImin f s := rfl
@[simp] theorem exec_imax (f : Fld) (s : State) : exec (.imax f) s = execImax f s := rfl
@[simp] theorem exec_iabs (f : Fld) (s : State) : exec (.iabs f) s = execIabs f s := rfl
@[simp] theorem exec_ineg (f : Fld) (s : State) : exec (.ineg f) s = execIneg f s := rfl
@[simp] theorem exec_inot (f : Fld) (s : State) : exec (.inot f) s = execInot f s := rfl
@[simp] theorem exec_popc (f : Fld) (s : State) : exec (.popc f) s = execPopc f s := rfl
@[simp] theorem exec_clz (f : Fld) (s : State) : exec (.clz f) s = execClz f s := rfl
@[simp] theorem exec_ctz (f : Fld) (s : State) : exec (.ctz f) s = execCtz f s := rfl
@[simp] theorem exec_brev (f : Fld) (s : State) : exec (.brev f) s = execBrev f s := rfl
@[simp] theorem exec_bfe (f : Fld) (s : State) : exec (.bfe f) s = execBfe f s := rfl
@[simp] theorem exec_bfi (f : Fld) (s : State) : exec (.bfi f) s = execBfi f s := rfl
@[simp] theorem exec_rotl (f : Fld) (s : State) : exec (.rotl f) s = execRotl f s := rfl
@[simp] theorem exec_rotr (f : Fld) (s : State) : exec (.rotr f) s = execRotr f s := rfl
@[simp] theorem exec_isel (f : Fld) (s : State) : exec (.isel f) s = execIsel f s := rfl
@[simp] theorem exec_iadd3 (f : Fld) (s : State) : exec (.iadd3 f) s = execIadd3 f s := rfl
@[simp] theorem exec_sext (f : Fld) (s : State) : exec (.sext f) s = execSext f s := rfl
@[simp] theorem exec_mvk (f : Fld) (s : State) : exec (.mvk f) s = execMvk f s := rfl
@[simp] theorem exec_mkg (f : Fld) (s : State) : exec (.mkg f) s = execMkg f s := rfl
@[simp] theorem exec_mvf (f : Fld) (s : State) : exec (.mvf f) s = execMvf f s := rfl
@[simp] theorem exec_mfg (f : Fld) (s : State) : exec (.mfg f) s = execMfg f s := rfl
@[simp] theorem exec_srd (f : Fld) (s : State) : exec (.srd f) s = execSrd f s := rfl
@[simp] theorem exec_swr (f : Fld) (s : State) : exec (.swr f) s = execSwr f s := rfl
@[simp] theorem exec_fadd (f : Fld) (s : State) : exec (.fadd f) s = execFadd f s := rfl
@[simp] theorem exec_fmul (f : Fld) (s : State) : exec (.fmul f) s = execFmul f s := rfl
@[simp] theorem exec_fma (f : Fld) (s : State) : exec (.fma f) s = execFma f s := rfl
@[simp] theorem exec_fcmp (f : Fld) (s : State) : exec (.fcmp f) s = execFcmp f s := rfl
@[simp] theorem exec_fmin (f : Fld) (s : State) : exec (.fmin f) s = execFmin f s := rfl
@[simp] theorem exec_fmax (f : Fld) (s : State) : exec (.fmax f) s = execFmax f s := rfl
@[simp] theorem exec_fabs (f : Fld) (s : State) : exec (.fabs f) s = execFabs f s := rfl
@[simp] theorem exec_fneg (f : Fld) (s : State) : exec (.fneg f) s = execFneg f s := rfl
@[simp] theorem exec_fcsgn (f : Fld) (s : State) : exec (.fcsgn f) s = execFcsgn f s := rfl
@[simp] theorem exec_fdiv (f : Fld) (s : State) : exec (.fdiv f) s = execFdiv f s := rfl
@[simp] theorem exec_fsqrt (f : Fld) (s : State) : exec (.fsqrt f) s = execFsqrt f s := rfl
@[simp] theorem exec_frcp (f : Fld) (s : State) : exec (.frcp f) s = execFrcp f s := rfl
@[simp] theorem exec_frsq (f : Fld) (s : State) : exec (.frsq f) s = execFrsq f s := rfl
@[simp] theorem exec_fex2 (f : Fld) (s : State) : exec (.fex2 f) s = execFex2 f s := rfl
@[simp] theorem exec_flg2 (f : Fld) (s : State) : exec (.flg2 f) s = execFlg2 f s := rfl
@[simp] theorem exec_fsin (f : Fld) (s : State) : exec (.fsin f) s = execFsin f s := rfl
@[simp] theorem exec_fcos (f : Fld) (s : State) : exec (.fcos f) s = execFcos f s := rfl
@[simp] theorem exec_frnd (f : Fld) (s : State) : exec (.frnd f) s = execFrnd f s := rfl
@[simp] theorem exec_fclass (f : Fld) (s : State) : exec (.fclass f) s = execFclass f s := rfl
@[simp] theorem exec_fsel (f : Fld) (s : State) : exec (.fsel f) s = execFsel f s := rfl
@[simp] theorem exec_fldexp (f : Fld) (s : State) : exec (.fldexp f) s = execFldexp f s := rfl
@[simp] theorem exec_cvt (f : Fld) (s : State) : exec (.cvt f) s = execCvt f s := rfl
@[simp] theorem exec_cvti (f : Fld) (s : State) : exec (.cvti f) s = execCvti f s := rfl
@[simp] theorem exec_cvtf (f : Fld) (s : State) : exec (.cvtf f) s = execCvtf f s := rfl
@[simp] theorem exec_pack2 (f : Fld) (s : State) : exec (.pack2 f) s = execPack2 f s := rfl
@[simp] theorem exec_unpk2 (f : Fld) (s : State) : exec (.unpk2 f) s = execUnpk2 f s := rfl
@[simp] theorem exec_imake (f : Fld) (s : State) : exec (.imake f) s = execImake f s := rfl
@[simp] theorem exec_ilo (f : Fld) (s : State) : exec (.ilo f) s = execIlo f s := rfl
@[simp] theorem exec_ihi (f : Fld) (s : State) : exec (.ihi f) s = execIhi f s := rfl
@[simp] theorem exec_iaddInterval (f : Fld) (s : State) : exec (.iaddInterval f) s = execIaddInterval f s := rfl
@[simp] theorem exec_isubInterval (f : Fld) (s : State) : exec (.isubInterval f) s = execIsubInterval f s := rfl
@[simp] theorem exec_imulInterval (f : Fld) (s : State) : exec (.imulInterval f) s = execImulInterval f s := rfl
@[simp] theorem exec_idivInterval (f : Fld) (s : State) : exec (.idivInterval f) s = execIdivInterval f s := rfl
@[simp] theorem exec_isqr (f : Fld) (s : State) : exec (.isqr f) s = execIsqr f s := rfl
@[simp] theorem exec_isqrt (f : Fld) (s : State) : exec (.isqrt f) s = execIsqrt f s := rfl
@[simp] theorem exec_ihull (f : Fld) (s : State) : exec (.ihull f) s = execIhull f s := rfl
@[simp] theorem exec_iinter (f : Fld) (s : State) : exec (.iinter f) s = execIinter f s := rfl
@[simp] theorem exec_imid (f : Fld) (s : State) : exec (.imid f) s = execImid f s := rfl
@[simp] theorem exec_iwid (f : Fld) (s : State) : exec (.iwid f) s = execIwid f s := rfl
@[simp] theorem exec_iin (f : Fld) (s : State) : exec (.iin f) s = execIin f s := rfl
@[simp] theorem exec_icmpInterval (f : Fld) (s : State) : exec (.icmpInterval f) s = execIcmpInterval f s := rfl
@[simp] theorem exec_ibis (f : Fld) (s : State) : exec (.ibis f) s = execIbis f s := rfl
@[simp] theorem exec_qand (f : Fld) (s : State) : exec (.qand f) s = execQand f s := rfl
@[simp] theorem exec_qor (f : Fld) (s : State) : exec (.qor f) s = execQor f s := rfl
@[simp] theorem exec_qnot (f : Fld) (s : State) : exec (.qnot f) s = execQnot f s := rfl
@[simp] theorem exec_qxor (f : Fld) (s : State) : exec (.qxor f) s = execQxor f s := rfl
@[simp] theorem exec_qmov (f : Fld) (s : State) : exec (.qmov f) s = execQmov f s := rfl
@[simp] theorem exec_qset (f : Fld) (s : State) : exec (.qset f) s = execQset f s := rfl
@[simp] theorem exec_qdef (f : Fld) (s : State) : exec (.qdef f) s = execQdef f s := rfl
@[simp] theorem exec_mfromq (f : Fld) (s : State) : exec (.mfromq f) s = execMfromq f s := rfl
@[simp] theorem exec_mset (f : Fld) (s : State) : exec (.mset f) s = execMset f s := rfl
@[simp] theorem exec_mget (f : Fld) (s : State) : exec (.mget f) s = execMget f s := rfl
@[simp] theorem exec_mand (f : Fld) (s : State) : exec (.mand f) s = execMand f s := rfl
@[simp] theorem exec_mor (f : Fld) (s : State) : exec (.mor f) s = execMor f s := rfl
@[simp] theorem exec_mnot (f : Fld) (s : State) : exec (.mnot f) s = execMnot f s := rfl
@[simp] theorem exec_mpop (f : Fld) (s : State) : exec (.mpop f) s = execMpop f s := rfl
@[simp] theorem exec_mfirst (f : Fld) (s : State) : exec (.mfirst f) s = execMfirst f s := rfl
@[simp] theorem exec_vote (f : Fld) (s : State) : exec (.vote f) s = execVote f s := rfl
@[simp] theorem exec_bra (f : Fld) (s : State) : exec (.bra f) s = execBra f s := rfl
@[simp] theorem exec_brc (f : Fld) (s : State) : exec (.brc f) s = execBrc f s := rfl
@[simp] theorem exec_bri (f : Fld) (s : State) : exec (.bri f) s = execBri f s := rfl
@[simp] theorem exec_call (f : Fld) (s : State) : exec (.call f) s = execCall f s := rfl
@[simp] theorem exec_calli (f : Fld) (s : State) : exec (.calli f) s = execCalli f s := rfl
@[simp] theorem exec_ret (f : Fld) (s : State) : exec (.ret f) s = execRet f s := rfl
@[simp] theorem exec_brq (f : Fld) (s : State) : exec (.brq f) s = execBrq f s := rfl
@[simp] theorem exec_exit (f : Fld) (s : State) : exec (.exit f) s = execExit f s := rfl
@[simp] theorem exec_yield (f : Fld) (s : State) : exec (.yield f) s = execYield f s := rfl
@[simp] theorem exec_spawn (f : Fld) (s : State) : exec (.spawn f) s = execSpawn f s := rfl
@[simp] theorem exec_brk (f : Fld) (s : State) : exec (.brk f) s = execBrk f s := rfl
@[simp] theorem exec_trap (f : Fld) (s : State) : exec (.trap f) s = execTrap f s := rfl
@[simp] theorem exec_swi (f : Fld) (s : State) : exec (.swi f) s = execSwi f s := rfl
@[simp] theorem exec_tret (f : Fld) (s : State) : exec (.tret f) s = execTret f s := rfl
@[simp] theorem exec_ccreate (f : Fld) (s : State) : exec (.ccreate f) s = execCcreate f s := rfl
@[simp] theorem exec_cfree (f : Fld) (s : State) : exec (.cfree f) s = execCfree f s := rfl
@[simp] theorem exec_cjoin (f : Fld) (s : State) : exec (.cjoin f) s = execCjoin f s := rfl
@[simp] theorem exec_cleave (f : Fld) (s : State) : exec (.cleave f) s = execCleave f s := rfl
@[simp] theorem exec_cpin (f : Fld) (s : State) : exec (.cpin f) s = execCpin f s := rfl
@[simp] theorem exec_cunpin (f : Fld) (s : State) : exec (.cunpin f) s = execCunpin f s := rfl
@[simp] theorem exec_cid (f : Fld) (s : State) : exec (.cid f) s = execCid f s := rfl
@[simp] theorem exec_cbar (f : Fld) (s : State) : exec (.cbar f) s = execCbar f s := rfl
@[simp] theorem exec_carrive (f : Fld) (s : State) : exec (.carrive f) s = execCarrive f s := rfl
@[simp] theorem exec_cwait (f : Fld) (s : State) : exec (.cwait f) s = execCwait f s := rfl
@[simp] theorem exec_shfl (f : Fld) (s : State) : exec (.shfl f) s = execShfl f s := rfl
@[simp] theorem exec_shup (f : Fld) (s : State) : exec (.shup f) s = execShup f s := rfl
@[simp] theorem exec_shdn (f : Fld) (s : State) : exec (.shdn f) s = execShdn f s := rfl
@[simp] theorem exec_shxor (f : Fld) (s : State) : exec (.shxor f) s = execShxor f s := rfl
@[simp] theorem exec_bcast (f : Fld) (s : State) : exec (.bcast f) s = execBcast f s := rfl
@[simp] theorem exec_redux (f : Fld) (s : State) : exec (.redux f) s = execRedux f s := rfl
@[simp] theorem exec_scan (f : Fld) (s : State) : exec (.scan f) s = execScan f s := rfl
@[simp] theorem exec_matchLanes (f : Fld) (s : State) : exec (.matchLanes f) s = execMatchLanes f s := rfl
@[simp] theorem exec_elect (f : Fld) (s : State) : exec (.elect f) s = execElect f s := rfl
@[simp] theorem exec_ld (f : Fld) (s : State) : exec (.ld f) s = execLd f s := rfl
@[simp] theorem exec_ldp (f : Fld) (s : State) : exec (.ldp f) s = execLdp f s := rfl
@[simp] theorem exec_st (f : Fld) (s : State) : exec (.st f) s = execSt f s := rfl
@[simp] theorem exec_ldf (f : Fld) (s : State) : exec (.ldf f) s = execLdf f s := rfl
@[simp] theorem exec_ldk (f : Fld) (s : State) : exec (.ldk f) s = execLdk f s := rfl
@[simp] theorem exec_stf (f : Fld) (s : State) : exec (.stf f) s = execStf f s := rfl
@[simp] theorem exec_aadd (f : Fld) (s : State) : exec (.aadd f) s = execAadd f s := rfl
@[simp] theorem exec_asub (f : Fld) (s : State) : exec (.asub f) s = execAsub f s := rfl
@[simp] theorem exec_amin (f : Fld) (s : State) : exec (.amin f) s = execAmin f s := rfl
@[simp] theorem exec_amax (f : Fld) (s : State) : exec (.amax f) s = execAmax f s := rfl
@[simp] theorem exec_aand (f : Fld) (s : State) : exec (.aand f) s = execAand f s := rfl
@[simp] theorem exec_aor (f : Fld) (s : State) : exec (.aor f) s = execAor f s := rfl
@[simp] theorem exec_axor (f : Fld) (s : State) : exec (.axor f) s = execAxor f s := rfl
@[simp] theorem exec_aexch (f : Fld) (s : State) : exec (.aexch f) s = execAexch f s := rfl
@[simp] theorem exec_acas (f : Fld) (s : State) : exec (.acas f) s = execAcas f s := rfl
@[simp] theorem exec_ainc (f : Fld) (s : State) : exec (.ainc f) s = execAinc f s := rfl
@[simp] theorem exec_adec (f : Fld) (s : State) : exec (.adec f) s = execAdec f s := rfl
@[simp] theorem exec_redadd (f : Fld) (s : State) : exec (.redadd f) s = execRedadd f s := rfl
@[simp] theorem exec_redmin (f : Fld) (s : State) : exec (.redmin f) s = execRedmin f s := rfl
@[simp] theorem exec_redmax (f : Fld) (s : State) : exec (.redmax f) s = execRedmax f s := rfl
@[simp] theorem exec_redand (f : Fld) (s : State) : exec (.redand f) s = execRedand f s := rfl
@[simp] theorem exec_redor (f : Fld) (s : State) : exec (.redor f) s = execRedor f s := rfl
@[simp] theorem exec_redxor (f : Fld) (s : State) : exec (.redxor f) s = execRedxor f s := rfl
@[simp] theorem exec_sqopen (f : Fld) (s : State) : exec (.sqopen f) s = execSqopen f s := rfl
@[simp] theorem exec_sqclose (f : Fld) (s : State) : exec (.sqclose f) s = execSqclose f s := rfl
@[simp] theorem exec_rel (f : Fld) (s : State) : exec (.rel f) s = execRel f s := rfl
@[simp] theorem exec_acq (f : Fld) (s : State) : exec (.acq f) s = execAcq f s := rfl
@[simp] theorem exec_fopr (f : Fld) (s : State) : exec (.fopr f) s = execFopr f s := rfl
@[simp] theorem exec_feng (f : Fld) (s : State) : exec (.feng f) s = execFeng f s := rfl
@[simp] theorem exec_monitor (f : Fld) (s : State) : exec (.monitor f) s = execMonitor f s := rfl
@[simp] theorem exec_mwait (f : Fld) (s : State) : exec (.mwait f) s = execMwait f s := rfl
@[simp] theorem exec_drain (f : Fld) (s : State) : exec (.drain f) s = execDrain f s := rfl
@[simp] theorem exec_mbsend (f : Fld) (s : State) : exec (.mbsend f) s = execMbsend f s := rfl
@[simp] theorem exec_mbrecv (f : Fld) (s : State) : exec (.mbrecv f) s = execMbrecv f s := rfl
@[simp] theorem exec_mbpoll (f : Fld) (s : State) : exec (.mbpoll f) s = execMbpoll f s := rfl
@[simp] theorem exec_cpy (f : Fld) (s : State) : exec (.cpy f) s = execCpy f s := rfl
@[simp] theorem exec_cpyw (f : Fld) (s : State) : exec (.cpyw f) s = execCpyw f s := rfl
@[simp] theorem exec_cpyg (f : Fld) (s : State) : exec (.cpyg f) s = execCpyg f s := rfl
@[simp] theorem exec_cpys (f : Fld) (s : State) : exec (.cpys f) s = execCpys f s := rfl
@[simp] theorem exec_fwait (f : Fld) (s : State) : exec (.fwait f) s = execFwait f s := rfl
@[simp] theorem exec_ftest (f : Fld) (s : State) : exec (.ftest f) s = execFtest f s := rfl
@[simp] theorem exec_fcancel (f : Fld) (s : State) : exec (.fcancel f) s = execFcancel f s := rfl
@[simp] theorem exec_xinit (f : Fld) (s : State) : exec (.xinit f) s = execXinit f s := rfl
@[simp] theorem exec_xexpect (f : Fld) (s : State) : exec (.xexpect f) s = execXexpect f s := rfl
@[simp] theorem exec_xarrive (f : Fld) (s : State) : exec (.xarrive f) s = execXarrive f s := rfl
@[simp] theorem exec_xwait (f : Fld) (s : State) : exec (.xwait f) s = execXwait f s := rfl
@[simp] theorem exec_hod (f : Fld) (s : State) : exec (.hod f) s = execHod f s := rfl
@[simp] theorem exec_launch (f : Fld) (s : State) : exec (.launch f) s = execLaunch f s := rfl
@[simp] theorem exec_mma (f : Fld) (s : State) : exec (.mma f) s = execMma f s := rfl
@[simp] theorem exec_tzero (f : Fld) (s : State) : exec (.tzero f) s = execTzero f s := rfl
@[simp] theorem exec_tld (f : Fld) (s : State) : exec (.tld f) s = execTld f s := rfl
@[simp] theorem exec_tst (f : Fld) (s : State) : exec (.tst f) s = execTst f s := rfl
@[simp] theorem exec_trow (f : Fld) (s : State) : exec (.trow f) s = execTrow f s := rfl
@[simp] theorem exec_tcvt (f : Fld) (s : State) : exec (.tcvt f) s = execTcvt f s := rfl
@[simp] theorem exec_tscale (f : Fld) (s : State) : exec (.tscale f) s = execTscale f s := rfl
@[simp] theorem exec_mbatch (f : Fld) (s : State) : exec (.mbatch f) s = execMbatch f s := rfl
@[simp] theorem exec_dxpack (f : Fld) (s : State) : exec (.dxpack f) s = execDxpack f s := rfl
@[simp] theorem exec_dxunpk (f : Fld) (s : State) : exec (.dxunpk f) s = execDxunpk f s := rfl
@[simp] theorem exec_resclr (f : Fld) (s : State) : exec (.resclr f) s = execResclr f s := rfl
@[simp] theorem exec_resclrAll (f : Fld) (s : State) : exec (.resclrAll f) s = execResclrAll f s := rfl
@[simp] theorem exec_resget (f : Fld) (s : State) : exec (.resget f) s = execResget f s := rfl
@[simp] theorem exec_resset (f : Fld) (s : State) : exec (.resset f) s = execResset f s := rfl
@[simp] theorem exec_resclrTile (f : Fld) (s : State) : exec (.resclrTile f) s = execResclrTile f s := rfl
@[simp] theorem exec_resgetTile (f : Fld) (s : State) : exec (.resgetTile f) s = execResgetTile f s := rfl
@[simp] theorem exec_ressetTile (f : Fld) (s : State) : exec (.ressetTile f) s = execRessetTile f s := rfl
@[simp] theorem exec_pget (f : Fld) (s : State) : exec (.pget f) s = execPget f s := rfl
@[simp] theorem exec_pret (f : Fld) (s : State) : exec (.pret f) s = execPret f s := rfl
@[simp] theorem exec_plaunch (f : Fld) (s : State) : exec (.plaunch f) s = execPlaunch f s := rfl
@[simp] theorem exec_prelaunch (f : Fld) (s : State) : exec (.prelaunch f) s = execPrelaunch f s := rfl
@[simp] theorem exec_rld (f : Fld) (s : State) : exec (.rld f) s = execRld f s := rfl
@[simp] theorem exec_rst (f : Fld) (s : State) : exec (.rst f) s = execRst f s := rfl
@[simp] theorem exec_rfop (f : Fld) (s : State) : exec (.rfop f) s = execRfop f s := rfl
@[simp] theorem exec_rred (f : Fld) (s : State) : exec (.rred f) s = execRred f s := rfl
@[simp] theorem exec_rmcast (f : Fld) (s : State) : exec (.rmcast f) s = execRmcast f s := rfl
@[simp] theorem exec_rfence (f : Fld) (s : State) : exec (.rfence f) s = execRfence f s := rfl
@[simp] theorem exec_rflag (f : Fld) (s : State) : exec (.rflag f) s = execRflag f s := rfl
@[simp] theorem exec_rpath (f : Fld) (s : State) : exec (.rpath f) s = execRpath f s := rfl
@[simp] theorem exec_csrr (f : Fld) (s : State) : exec (.csrr f) s = execCsrr f s := rfl
@[simp] theorem exec_csrw (f : Fld) (s : State) : exec (.csrw f) s = execCsrw f s := rfl
@[simp] theorem exec_tlbinv (f : Fld) (s : State) : exec (.tlbinv f) s = execTlbinv f s := rfl
@[simp] theorem exec_cinv (f : Fld) (s : State) : exec (.cinv f) s = execCinv f s := rfl
@[simp] theorem exec_cwb (f : Fld) (s : State) : exec (.cwb f) s = execCwb f s := rfl
@[simp] theorem exec_halt (f : Fld) (s : State) : exec (.halt f) s = execHalt f s := rfl
@[simp] theorem exec_racectlClean (f : Fld) (s : State) : exec (.racectlClean f) s = execRacectlClean f s := rfl
@[simp] theorem exec_racectlQuiet (f : Fld) (s : State) : exec (.racectlQuiet f) s = execRacectlQuiet f s := rfl
@[simp] theorem exec_racectlCount (f : Fld) (s : State) : exec (.racectlCount f) s = execRacectlCount f s := rfl
@[simp] theorem exec_rclk (f : Fld) (s : State) : exec (.rclk f) s = execRclk f s := rfl
@[simp] theorem exec_dbgld (f : Fld) (s : State) : exec (.dbgld f) s = execDbgld f s := rfl
@[simp] theorem exec_dbgst (f : Fld) (s : State) : exec (.dbgst f) s = execDbgst f s := rfl
@[simp] theorem exec_expo (f : Fld) (s : State) : exec (.expo f) s = execExpo f s := rfl
@[simp] theorem exec_qfetch (x : XFld) (s : State) : exec (.qfetch x) s = execQfetch x s := rfl
@[simp] theorem exec_bfx (x : XFld) (s : State) : exec (.bfx x) s = execBfx x s := rfl
@[simp] theorem exec_swait (x : XFld) (s : State) : exec (.swait x) s = execSwait x s := rfl
@[simp] theorem exec_disp (x : XFld) (s : State) : exec (.disp x) s = execDisp x s := rfl
@[simp] theorem exec_sheetFormation (pal : Nat) (pc : Dword) (s : State) : exec (.sheetFormation pal pc) s = execSheetFormation pal pc s := rfl
@[simp] theorem exec_spawnWaitLimit (pal : Nat) (s : State) : exec (.spawnWaitLimit pal) s = execSpawnWaitLimit pal s := rfl
@[simp] theorem exec_spawnStoreSpaceFreed (pal : Nat) (s : State) : exec (.spawnStoreSpaceFreed pal) s = execSpawnStoreSpaceFreed pal s := rfl
@[simp] theorem exec_palletSwap (out inn : Nat) (s : State) : exec (.palletSwap out inn) s = execPalletSwap out inn s := rfl
@[simp] theorem exec_palletQuantumExpiry (pal : Nat) (s : State) : exec (.palletQuantumExpiry pal) s = execPalletQuantumExpiry pal s := rfl
@[simp] theorem exec_launchAdmission (sub : Nat) (s : State) : exec (.launchAdmission sub) s = execLaunchAdmission sub s := rfl
@[simp] theorem exec_evictedSheetRestore (pal : Nat) (s : State) : exec (.evictedSheetRestore pal) s = execEvictedSheetRestore pal s := rfl
@[simp] theorem exec_launchEnd (launch : Nat) (s : State) : exec (.launchEnd launch) s = execLaunchEnd launch s := rfl
@[simp] theorem exec_contextSwitch (core : Nat) (cid : Word) (s : State) : exec (.contextSwitch core cid) s = execContextSwitch core cid s := rfl
@[simp] theorem exec_contextRestore (core : Nat) (cid : Word) (s : State) : exec (.contextRestore core cid) s = execContextRestore core cid s := rfl
@[simp] theorem exec_l1Eviction (core sector : Nat) (s : State) : exec (.l1Eviction core sector) s = execL1Eviction core sector s := rfl
@[simp] theorem exec_storePerformedAtHome (k : Nat) (s : State) : exec (.storePerformedAtHome k) s = execStorePerformedAtHome k s := rfl
@[simp] theorem exec_mwaitLimitExpiry (uid : Nat) (s : State) : exec (.mwaitLimitExpiry uid) s = execMwaitLimitExpiry uid s := rfl
@[simp] theorem exec_mwaitUnexplainedWake (uid : Nat) (s : State) : exec (.mwaitUnexplainedWake uid) s = execMwaitUnexplainedWake uid s := rfl
@[simp] theorem exec_swiWakeOr (k : Nat) (s : State) : exec (.swiWakeOr k) s = execSwiWakeOr k s := rfl
@[simp] theorem exec_copyLanding (copy lo n : Nat) (s : State) : exec (.copyLanding copy lo n) s = execCopyLanding copy lo n s := rfl
@[simp] theorem exec_copyEngineFault (copy : Nat) (code : Byte) (s : State) : exec (.copyEngineFault copy code) s = execCopyEngineFault copy code s := rfl
@[simp] theorem exec_mmaAccumulationStep (mma : Nat) (s : State) : exec (.mmaAccumulationStep mma) s = execMmaAccumulationStep mma s := rfl
@[simp] theorem exec_pairMatcherWalk (pal : Nat) (s : State) : exec (.pairMatcherWalk pal) s = execPairMatcherWalk pal s := rfl
@[simp] theorem exec_sequencerPartialArrival (k : Nat) (s : State) : exec (.sequencerPartialArrival k) s = execSequencerPartialArrival k s := rfl
@[simp] theorem exec_remoteRequestArrival (k : Arrival) (s : State) : exec (.remoteRequestArrival k) s = execRemoteRequestArrival k s := rfl
@[simp] theorem exec_remoteAckArrival (k : Nat) (s : State) : exec (.remoteAckArrival k) s = execRemoteAckArrival k s := rfl
@[simp] theorem exec_remoteFlagArrival (k : Arrival) (s : State) : exec (.remoteFlagArrival k) s = execRemoteFlagArrival k s := rfl
@[simp] theorem exec_fenceMarkerArrival (k : Nat) (s : State) : exec (.fenceMarkerArrival k) s = execFenceMarkerArrival k s := rfl
@[simp] theorem exec_hostMemoryAccess (fn : Nat) (cid : Word) (va : Dword) (wr : Bool) (bytes : List Byte) (s : State) : exec (.hostMemoryAccess fn cid va wr bytes) s = execHostMemoryAccess fn cid va wr bytes s := rfl
@[simp] theorem exec_mortarPlaneFailure (plane : Nat) (s : State) : exec (.mortarPlaneFailure plane) s = execMortarPlaneFailure plane s := rfl
@[simp] theorem exec_linkTraining (port : Nat) (versions : List Nat) (s : State) : exec (.linkTraining port versions) s = execLinkTraining port versions s := rfl
@[simp] theorem exec_hostLinkRetraining (s : State) : exec (.hostLinkRetraining) s = execHostLinkRetraining s := rfl
@[simp] theorem exec_trapQueueResume (cid : Word) (base : Dword) (value : Word) (s : State) : exec (.trapQueueResume cid base value) s = execTrapQueueResume cid base value s := rfl
@[simp] theorem exec_trapQueueSpaceFreed (cid : Word) (base ridx : Dword) (s : State) : exec (.trapQueueSpaceFreed cid base ridx) s = execTrapQueueSpaceFreed cid base ridx s := rfl
@[simp] theorem exec_watchdogExpiry (cid : Word) (s : State) : exec (.watchdogExpiry cid) s = execWatchdogExpiry cid s := rfl
@[simp] theorem exec_queueDoorbell (q : QueuePage) (value : Nat) (s : State) : exec (.queueDoorbell q value) s = execQueueDoorbell q value s := rfl
@[simp] theorem exec_queueRestart (q : QueuePage) (value : Word) (s : State) : exec (.queueRestart q value) s = execQueueRestart q value s := rfl
@[simp] theorem exec_queueWakeClear (q : QueuePage) (bits : Word) (s : State) : exec (.queueWakeClear q bits) s = execQueueWakeClear q bits s := rfl
@[simp] theorem exec_packetFetch (q : Nat) (s : State) : exec (.packetFetch q) s = execPacketFetch q s := rfl
@[simp] theorem exec_packetRefetchTimer (q : Nat) (s : State) : exec (.packetRefetchTimer q) s = execPacketRefetchTimer q s := rfl
@[simp] theorem exec_launchPacket (q x : Nat) (s : State) : exec (.launchPacket q x) s = execLaunchPacket q x s := rfl
@[simp] theorem exec_pairLaunchPacket (q x : Nat) (s : State) : exec (.pairLaunchPacket q x) s = execPairLaunchPacket q x s := rfl
@[simp] theorem exec_copyPacket (q x : Nat) (s : State) : exec (.copyPacket q x) s = execCopyPacket q x s := rfl
@[simp] theorem exec_signalPacket (q x : Nat) (s : State) : exec (.signalPacket q x) s = execSignalPacket q x s := rfl
@[simp] theorem exec_waitPacket (q x : Nat) (s : State) : exec (.waitPacket q x) s = execWaitPacket q x s := rfl
@[simp] theorem exec_waitPacketConditionMet (q x : Nat) (s : State) : exec (.waitPacketConditionMet q x) s = execWaitPacketConditionMet q x s := rfl
@[simp] theorem exec_dependencyPacket (q x : Nat) (s : State) : exec (.dependencyPacket q x) s = execDependencyPacket q x s := rfl
@[simp] theorem exec_timestampPacket (q x : Nat) (s : State) : exec (.timestampPacket q x) s = execTimestampPacket q x s := rfl
@[simp] theorem exec_markerPacket (q x : Nat) (s : State) : exec (.markerPacket q x) s = execMarkerPacket q x s := rfl
@[simp] theorem exec_packetEnd (q x : Nat) (s : State) : exec (.packetEnd q x) s = execPacketEnd q x s := rfl
@[simp] theorem exec_eventRingSpaceFreed (part ridx : Nat) (s : State) : exec (.eventRingSpaceFreed part ridx) s = execEventRingSpaceFreed part ridx s := rfl
@[simp] theorem exec_firmwareComplexReset (s : State) : exec (.firmwareComplexReset) s = execFirmwareComplexReset s := rfl
@[simp] theorem exec_coreRetirement (core : Nat) (s : State) : exec (.coreRetirement core) s = execCoreRetirement core s := rfl
@[simp] theorem exec_getverCmd (c : Cmd) (s : State) : exec (.getverCmd c) s = execGetverCmd c s := rfl
@[simp] theorem exec_nonceCmd (c : Cmd) (s : State) : exec (.nonceCmd c) s = execNonceCmd c s := rfl
@[simp] theorem exec_claimCmd (c : Cmd) (s : State) : exec (.claimCmd c) s = execClaimCmd c s := rfl
@[simp] theorem exec_releaseCmd (c : Cmd) (s : State) : exec (.releaseCmd c) s = execReleaseCmd c s := rfl
@[simp] theorem exec_beatCmd (c : Cmd) (s : State) : exec (.beatCmd c) s = execBeatCmd c s := rfl
@[simp] theorem exec_partsetCmd (c : Cmd) (s : State) : exec (.partsetCmd c) s = execPartsetCmd c s := rfl
@[simp] theorem exec_partdelCmd (c : Cmd) (s : State) : exec (.partdelCmd c) s = execPartdelCmd c s := rfl
@[simp] theorem exec_partgetCmd (c : Cmd) (s : State) : exec (.partgetCmd c) s = execPartgetCmd c s := rfl
@[simp] theorem exec_ctxnewCmd (c : Cmd) (s : State) : exec (.ctxnewCmd c) s = execCtxnewCmd c s := rfl
@[simp] theorem exec_ctxdelCmd (c : Cmd) (s : State) : exec (.ctxdelCmd c) s = execCtxdelCmd c s := rfl
@[simp] theorem exec_queueSetCmd (c : Cmd) (s : State) : exec (.queueSetCmd c) s = execQueueSetCmd c s := rfl
@[simp] theorem exec_qresetCmd (c : Cmd) (s : State) : exec (.qresetCmd c) s = execQresetCmd c s := rfl
@[simp] theorem exec_evsetCmd (c : Cmd) (s : State) : exec (.evsetCmd c) s = execEvsetCmd c s := rfl
@[simp] theorem exec_apopenCmd (c : Cmd) (s : State) : exec (.apopenCmd c) s = execApopenCmd c s := rfl
@[simp] theorem exec_apcloseCmd (c : Cmd) (s : State) : exec (.apcloseCmd c) s = execApcloseCmd c s := rfl
@[simp] theorem exec_mcsetCmd (c : Cmd) (s : State) : exec (.mcsetCmd c) s = execMcsetCmd c s := rfl
@[simp] theorem exec_mcdelCmd (c : Cmd) (s : State) : exec (.mcdelCmd c) s = execMcdelCmd c s := rfl
@[simp] theorem exec_healthCmd (c : Cmd) (s : State) : exec (.healthCmd c) s = execHealthCmd c s := rfl
@[simp] theorem exec_retgetCmd (c : Cmd) (s : State) : exec (.retgetCmd c) s = execRetgetCmd c s := rfl
@[simp] theorem exec_retclrCmd (c : Cmd) (s : State) : exec (.retclrCmd c) s = execRetclrCmd c s := rfl
@[simp] theorem exec_calgetCmd (c : Cmd) (s : State) : exec (.calgetCmd c) s = execCalgetCmd c s := rfl
@[simp] theorem exec_portgetCmd (c : Cmd) (s : State) : exec (.portgetCmd c) s = execPortgetCmd c s := rfl
@[simp] theorem exec_readyCmd (c : Cmd) (s : State) : exec (.readyCmd c) s = execReadyCmd c s := rfl
@[simp] theorem exec_fwloadCmd (c : Cmd) (s : State) : exec (.fwloadCmd c) s = execFwloadCmd c s := rfl
@[simp] theorem exec_ownerHeartbeatLapse (s : State) : exec (.ownerHeartbeatLapse) s = execOwnerHeartbeatLapse s := rfl
@[simp] theorem exec_spdmRequest (c : Cmd) (s : State) : exec (.spdmRequest c) s = execSpdmRequest c s := rfl
@[simp] theorem exec_deviceReset (s : State) : exec (.deviceReset) s = execDeviceReset s := rfl
@[simp] theorem exec_thermalThrottleStep (part : Option Nat) (s : State) : exec (.thermalThrottleStep part) s = execThermalThrottleStep part s := rfl
@[simp] theorem exec_clockRaiseStep (part : Option Nat) (s : State) : exec (.clockRaiseStep part) s = execClockRaiseStep part s := rfl
@[simp] theorem exec_overtempShutdown (s : State) : exec (.overtempShutdown) s = execOvertempShutdown s := rfl
@[simp] theorem exec_eccError (unit addr : Nat) (correctable : Bool) (s : State) : exec (.eccError unit addr correctable) s = execEccError unit addr correctable s := rfl
@[simp] theorem exec_backgroundScrub (line : Nat) (s : State) : exec (.backgroundScrub line) s = execBackgroundScrub line s := rfl
@[simp] theorem exec_debugHalt (pal : Nat) (s : State) : exec (.debugHalt pal) s = execDebugHalt pal s := rfl
@[simp] theorem exec_debugResume (pal : Nat) (s : State) : exec (.debugResume pal) s = execDebugResume pal s := rfl
@[simp] theorem exec_debugRollback (pal : Nat) (s : State) : exec (.debugRollback pal) s = execDebugRollback pal s := rfl
@[simp] theorem exec_rollbackTargetReached (pal : Nat) (s : State) : exec (.rollbackTargetReached pal) s = execRollbackTargetReached pal s := rfl
@[simp] theorem exec_exposureEnd (pal : Nat) (s : State) : exec (.exposureEnd pal) s = execExposureEnd pal s := rfl
@[simp] theorem exec_traceSample (pal : Nat) (s : State) : exec (.traceSample pal) s = execTraceSample pal s := rfl
@[simp] theorem exec_registerWrite (pal word : Nat) (value : Word) (s : State) : exec (.registerWrite pal word value) s = execRegisterWrite pal word value s := rfl
@[simp] theorem exec_illegalInstruction (bad : Word) (off : Nat) (w1 w2 : Word) (s : State) : exec (.illegalInstruction bad off w1 w2) s = execIllegalInstruction bad off w1 w2 s := rfl
@[simp] theorem exec_undefinedCommand (opc : Nat) (c : Cmd) (s : State) : exec (.undefinedCommand opc c) s = execUndefinedCommand opc c s := rfl

end Sys2Proof.Machine
end

