-- ==== Sys2Proof/Laws/State.lean ====
section
/-! SUPPORT. What each update of one table of the state leaves as it was: one lemma per field per update, all by definition. -/

namespace Sys2Proof.Machine

@[simp] theorem withL1_cs (s : State) (l : List L1Sector) : (withL1 s l).cs = s.cs := rfl
@[simp] theorem withL1_en (s : State) (l : List L1Sector) : (withL1 s l).en = s.en := rfl
@[simp] theorem withL1_fb (s : State) (l : List L1Sector) : (withL1 s l).fb = s.fb := rfl
@[simp] theorem withL1_qs (s : State) (l : List L1Sector) : (withL1 s l).qs = s.qs := rfl
@[simp] theorem withL1_mg (s : State) (l : List L1Sector) : (withL1 s l).mg = s.mg := rfl
@[simp] theorem withL1_iss (s : State) (l : List L1Sector) : (withL1 s l).iss = s.iss := rfl
@[simp] theorem withL1_agenda (s : State) (l : List L1Sector) : (withL1 s l).agenda = s.agenda := rfl
@[simp] theorem withL1_tick (s : State) (l : List L1Sector) : (withL1 s l).tick = s.tick := rfl
@[simp] theorem withL1_turn (s : State) (l : List L1Sector) : (withL1 s l).turn = s.turn := rfl
@[simp] theorem withL1_ms_mem (s : State) (l : List L1Sector) : (withL1 s l).ms.mem = s.ms.mem := rfl
@[simp] theorem withL1_ms_hostMem (s : State) (l : List L1Sector) : (withL1 s l).ms.hostMem = s.ms.hostMem := rfl
@[simp] theorem withL1_ms_race (s : State) (l : List L1Sector) : (withL1 s l).ms.race = s.ms.race := rfl
@[simp] theorem withL1_ms_rel (s : State) (l : List L1Sector) : (withL1 s l).ms.rel = s.ms.rel := rfl
@[simp] theorem withL1_ms_highWater (s : State) (l : List L1Sector) : (withL1 s l).ms.highWater = s.ms.highWater := rfl
@[simp] theorem withL1_ms_l1 (s : State) (l : List L1Sector) : (withL1 s l).ms.l1 = l := rfl
@[simp] theorem withL1_ms_unpub (s : State) (l : List L1Sector) : (withL1 s l).ms.unpub = s.ms.unpub := rfl
@[simp] theorem withL1_ms_posted (s : State) (l : List L1Sector) : (withL1 s l).ms.posted = s.ms.posted := rfl
@[simp] theorem withL1_ms_tlb (s : State) (l : List L1Sector) : (withL1 s l).ms.tlb = s.ms.tlb := rfl
@[simp] theorem withL1_ms_moved (s : State) (l : List L1Sector) : (withL1 s l).ms.moved = s.ms.moved := rfl
@[simp] theorem withL1_ms_keys (s : State) (l : List L1Sector) : (withL1 s l).ms.keys = s.ms.keys := rfl
@[simp] theorem withL1_ms_poison (s : State) (l : List L1Sector) : (withL1 s l).ms.poison = s.ms.poison := rfl
@[simp] theorem withL1_ms_poisonUnit (s : State) (l : List L1Sector) : (withL1 s l).ms.poisonUnit = s.ms.poisonUnit := rfl
@[simp] theorem withL1_ms_marks (s : State) (l : List L1Sector) : (withL1 s l).ms.marks = s.ms.marks := rfl
@[simp] theorem withL1_ms_fused (s : State) (l : List L1Sector) : (withL1 s l).ms.fused = s.ms.fused := rfl
@[simp] theorem withL1_ms_oldText (s : State) (l : List L1Sector) : (withL1 s l).ms.oldText = s.ms.oldText := rfl

@[simp] theorem withPosted_cs (s : State) (l : List Posted) : (withPosted s l).cs = s.cs := rfl
@[simp] theorem withPosted_en (s : State) (l : List Posted) : (withPosted s l).en = s.en := rfl
@[simp] theorem withPosted_fb (s : State) (l : List Posted) : (withPosted s l).fb = s.fb := rfl
@[simp] theorem withPosted_qs (s : State) (l : List Posted) : (withPosted s l).qs = s.qs := rfl
@[simp] theorem withPosted_mg (s : State) (l : List Posted) : (withPosted s l).mg = s.mg := rfl
@[simp] theorem withPosted_iss (s : State) (l : List Posted) : (withPosted s l).iss = s.iss := rfl
@[simp] theorem withPosted_agenda (s : State) (l : List Posted) : (withPosted s l).agenda = s.agenda := rfl
@[simp] theorem withPosted_tick (s : State) (l : List Posted) : (withPosted s l).tick = s.tick := rfl
@[simp] theorem withPosted_turn (s : State) (l : List Posted) : (withPosted s l).turn = s.turn := rfl
@[simp] theorem withPosted_ms_mem (s : State) (l : List Posted) : (withPosted s l).ms.mem = s.ms.mem := rfl
@[simp] theorem withPosted_ms_hostMem (s : State) (l : List Posted) : (withPosted s l).ms.hostMem = s.ms.hostMem := rfl
@[simp] theorem withPosted_ms_race (s : State) (l : List Posted) : (withPosted s l).ms.race = s.ms.race := rfl
@[simp] theorem withPosted_ms_rel (s : State) (l : List Posted) : (withPosted s l).ms.rel = s.ms.rel := rfl
@[simp] theorem withPosted_ms_highWater (s : State) (l : List Posted) : (withPosted s l).ms.highWater = s.ms.highWater := rfl
@[simp] theorem withPosted_ms_l1 (s : State) (l : List Posted) : (withPosted s l).ms.l1 = s.ms.l1 := rfl
@[simp] theorem withPosted_ms_unpub (s : State) (l : List Posted) : (withPosted s l).ms.unpub = s.ms.unpub := rfl
@[simp] theorem withPosted_ms_posted (s : State) (l : List Posted) : (withPosted s l).ms.posted = l := rfl
@[simp] theorem withPosted_ms_tlb (s : State) (l : List Posted) : (withPosted s l).ms.tlb = s.ms.tlb := rfl
@[simp] theorem withPosted_ms_moved (s : State) (l : List Posted) : (withPosted s l).ms.moved = s.ms.moved := rfl
@[simp] theorem withPosted_ms_keys (s : State) (l : List Posted) : (withPosted s l).ms.keys = s.ms.keys := rfl
@[simp] theorem withPosted_ms_poison (s : State) (l : List Posted) : (withPosted s l).ms.poison = s.ms.poison := rfl
@[simp] theorem withPosted_ms_poisonUnit (s : State) (l : List Posted) : (withPosted s l).ms.poisonUnit = s.ms.poisonUnit := rfl
@[simp] theorem withPosted_ms_marks (s : State) (l : List Posted) : (withPosted s l).ms.marks = s.ms.marks := rfl
@[simp] theorem withPosted_ms_fused (s : State) (l : List Posted) : (withPosted s l).ms.fused = s.ms.fused := rfl
@[simp] theorem withPosted_ms_oldText (s : State) (l : List Posted) : (withPosted s l).ms.oldText = s.ms.oldText := rfl

@[simp] theorem withUnpub_cs (s : State) (l : List Unpublished) : (withUnpub s l).cs = s.cs := rfl
@[simp] theorem withUnpub_en (s : State) (l : List Unpublished) : (withUnpub s l).en = s.en := rfl
@[simp] theorem withUnpub_fb (s : State) (l : List Unpublished) : (withUnpub s l).fb = s.fb := rfl
@[simp] theorem withUnpub_qs (s : State) (l : List Unpublished) : (withUnpub s l).qs = s.qs := rfl
@[simp] theorem withUnpub_mg (s : State) (l : List Unpublished) : (withUnpub s l).mg = s.mg := rfl
@[simp] theorem withUnpub_iss (s : State) (l : List Unpublished) : (withUnpub s l).iss = s.iss := rfl
@[simp] theorem withUnpub_agenda (s : State) (l : List Unpublished) : (withUnpub s l).agenda = s.agenda := rfl
@[simp] theorem withUnpub_tick (s : State) (l : List Unpublished) : (withUnpub s l).tick = s.tick := rfl
@[simp] theorem withUnpub_turn (s : State) (l : List Unpublished) : (withUnpub s l).turn = s.turn := rfl
@[simp] theorem withUnpub_ms_mem (s : State) (l : List Unpublished) : (withUnpub s l).ms.mem = s.ms.mem := rfl
@[simp] theorem withUnpub_ms_hostMem (s : State) (l : List Unpublished) : (withUnpub s l).ms.hostMem = s.ms.hostMem := rfl
@[simp] theorem withUnpub_ms_race (s : State) (l : List Unpublished) : (withUnpub s l).ms.race = s.ms.race := rfl
@[simp] theorem withUnpub_ms_rel (s : State) (l : List Unpublished) : (withUnpub s l).ms.rel = s.ms.rel := rfl
@[simp] theorem withUnpub_ms_highWater (s : State) (l : List Unpublished) : (withUnpub s l).ms.highWater = s.ms.highWater := rfl
@[simp] theorem withUnpub_ms_l1 (s : State) (l : List Unpublished) : (withUnpub s l).ms.l1 = s.ms.l1 := rfl
@[simp] theorem withUnpub_ms_unpub (s : State) (l : List Unpublished) : (withUnpub s l).ms.unpub = l := rfl
@[simp] theorem withUnpub_ms_posted (s : State) (l : List Unpublished) : (withUnpub s l).ms.posted = s.ms.posted := rfl
@[simp] theorem withUnpub_ms_tlb (s : State) (l : List Unpublished) : (withUnpub s l).ms.tlb = s.ms.tlb := rfl
@[simp] theorem withUnpub_ms_moved (s : State) (l : List Unpublished) : (withUnpub s l).ms.moved = s.ms.moved := rfl
@[simp] theorem withUnpub_ms_keys (s : State) (l : List Unpublished) : (withUnpub s l).ms.keys = s.ms.keys := rfl
@[simp] theorem withUnpub_ms_poison (s : State) (l : List Unpublished) : (withUnpub s l).ms.poison = s.ms.poison := rfl
@[simp] theorem withUnpub_ms_poisonUnit (s : State) (l : List Unpublished) : (withUnpub s l).ms.poisonUnit = s.ms.poisonUnit := rfl
@[simp] theorem withUnpub_ms_marks (s : State) (l : List Unpublished) : (withUnpub s l).ms.marks = s.ms.marks := rfl
@[simp] theorem withUnpub_ms_fused (s : State) (l : List Unpublished) : (withUnpub s l).ms.fused = s.ms.fused := rfl
@[simp] theorem withUnpub_ms_oldText (s : State) (l : List Unpublished) : (withUnpub s l).ms.oldText = s.ms.oldText := rfl

@[simp] theorem withTlb_cs (s : State) (l : List Tlb) : (withTlb s l).cs = s.cs := rfl
@[simp] theorem withTlb_en (s : State) (l : List Tlb) : (withTlb s l).en = s.en := rfl
@[simp] theorem withTlb_fb (s : State) (l : List Tlb) : (withTlb s l).fb = s.fb := rfl
@[simp] theorem withTlb_qs (s : State) (l : List Tlb) : (withTlb s l).qs = s.qs := rfl
@[simp] theorem withTlb_mg (s : State) (l : List Tlb) : (withTlb s l).mg = s.mg := rfl
@[simp] theorem withTlb_iss (s : State) (l : List Tlb) : (withTlb s l).iss = s.iss := rfl
@[simp] theorem withTlb_agenda (s : State) (l : List Tlb) : (withTlb s l).agenda = s.agenda := rfl
@[simp] theorem withTlb_tick (s : State) (l : List Tlb) : (withTlb s l).tick = s.tick := rfl
@[simp] theorem withTlb_turn (s : State) (l : List Tlb) : (withTlb s l).turn = s.turn := rfl
@[simp] theorem withTlb_ms_mem (s : State) (l : List Tlb) : (withTlb s l).ms.mem = s.ms.mem := rfl
@[simp] theorem withTlb_ms_hostMem (s : State) (l : List Tlb) : (withTlb s l).ms.hostMem = s.ms.hostMem := rfl
@[simp] theorem withTlb_ms_race (s : State) (l : List Tlb) : (withTlb s l).ms.race = s.ms.race := rfl
@[simp] theorem withTlb_ms_rel (s : State) (l : List Tlb) : (withTlb s l).ms.rel = s.ms.rel := rfl
@[simp] theorem withTlb_ms_highWater (s : State) (l : List Tlb) : (withTlb s l).ms.highWater = s.ms.highWater := rfl
@[simp] theorem withTlb_ms_l1 (s : State) (l : List Tlb) : (withTlb s l).ms.l1 = s.ms.l1 := rfl
@[simp] theorem withTlb_ms_unpub (s : State) (l : List Tlb) : (withTlb s l).ms.unpub = s.ms.unpub := rfl
@[simp] theorem withTlb_ms_posted (s : State) (l : List Tlb) : (withTlb s l).ms.posted = s.ms.posted := rfl
@[simp] theorem withTlb_ms_tlb (s : State) (l : List Tlb) : (withTlb s l).ms.tlb = l := rfl
@[simp] theorem withTlb_ms_moved (s : State) (l : List Tlb) : (withTlb s l).ms.moved = s.ms.moved := rfl
@[simp] theorem withTlb_ms_keys (s : State) (l : List Tlb) : (withTlb s l).ms.keys = s.ms.keys := rfl
@[simp] theorem withTlb_ms_poison (s : State) (l : List Tlb) : (withTlb s l).ms.poison = s.ms.poison := rfl
@[simp] theorem withTlb_ms_poisonUnit (s : State) (l : List Tlb) : (withTlb s l).ms.poisonUnit = s.ms.poisonUnit := rfl
@[simp] theorem withTlb_ms_marks (s : State) (l : List Tlb) : (withTlb s l).ms.marks = s.ms.marks := rfl
@[simp] theorem withTlb_ms_fused (s : State) (l : List Tlb) : (withTlb s l).ms.fused = s.ms.fused := rfl
@[simp] theorem withTlb_ms_oldText (s : State) (l : List Tlb) : (withTlb s l).ms.oldText = s.ms.oldText := rfl

@[simp] theorem withRel_cs (s : State) (l : Sparse RelRec) : (withRel s l).cs = s.cs := rfl
@[simp] theorem withRel_en (s : State) (l : Sparse RelRec) : (withRel s l).en = s.en := rfl
@[simp] theorem withRel_fb (s : State) (l : Sparse RelRec) : (withRel s l).fb = s.fb := rfl
@[simp] theorem withRel_qs (s : State) (l : Sparse RelRec) : (withRel s l).qs = s.qs := rfl
@[simp] theorem withRel_mg (s : State) (l : Sparse RelRec) : (withRel s l).mg = s.mg := rfl
@[simp] theorem withRel_iss (s : State) (l : Sparse RelRec) : (withRel s l).iss = s.iss := rfl
@[simp] theorem withRel_agenda (s : State) (l : Sparse RelRec) : (withRel s l).agenda = s.agenda := rfl
@[simp] theorem withRel_tick (s : State) (l : Sparse RelRec) : (withRel s l).tick = s.tick := rfl
@[simp] theorem withRel_turn (s : State) (l : Sparse RelRec) : (withRel s l).turn = s.turn := rfl
@[simp] theorem withRel_ms_mem (s : State) (l : Sparse RelRec) : (withRel s l).ms.mem = s.ms.mem := rfl
@[simp] theorem withRel_ms_hostMem (s : State) (l : Sparse RelRec) : (withRel s l).ms.hostMem = s.ms.hostMem := rfl
@[simp] theorem withRel_ms_race (s : State) (l : Sparse RelRec) : (withRel s l).ms.race = s.ms.race := rfl
@[simp] theorem withRel_ms_rel (s : State) (l : Sparse RelRec) : (withRel s l).ms.rel = l := rfl
@[simp] theorem withRel_ms_highWater (s : State) (l : Sparse RelRec) : (withRel s l).ms.highWater = s.ms.highWater := rfl
@[simp] theorem withRel_ms_l1 (s : State) (l : Sparse RelRec) : (withRel s l).ms.l1 = s.ms.l1 := rfl
@[simp] theorem withRel_ms_unpub (s : State) (l : Sparse RelRec) : (withRel s l).ms.unpub = s.ms.unpub := rfl
@[simp] theorem withRel_ms_posted (s : State) (l : Sparse RelRec) : (withRel s l).ms.posted = s.ms.posted := rfl
@[simp] theorem withRel_ms_tlb (s : State) (l : Sparse RelRec) : (withRel s l).ms.tlb = s.ms.tlb := rfl
@[simp] theorem withRel_ms_moved (s : State) (l : Sparse RelRec) : (withRel s l).ms.moved = s.ms.moved := rfl
@[simp] theorem withRel_ms_keys (s : State) (l : Sparse RelRec) : (withRel s l).ms.keys = s.ms.keys := rfl
@[simp] theorem withRel_ms_poison (s : State) (l : Sparse RelRec) : (withRel s l).ms.poison = s.ms.poison := rfl
@[simp] theorem withRel_ms_poisonUnit (s : State) (l : Sparse RelRec) : (withRel s l).ms.poisonUnit = s.ms.poisonUnit := rfl
@[simp] theorem withRel_ms_marks (s : State) (l : Sparse RelRec) : (withRel s l).ms.marks = s.ms.marks := rfl
@[simp] theorem withRel_ms_fused (s : State) (l : Sparse RelRec) : (withRel s l).ms.fused = s.ms.fused := rfl
@[simp] theorem withRel_ms_oldText (s : State) (l : Sparse RelRec) : (withRel s l).ms.oldText = s.ms.oldText := rfl

@[simp] theorem withHigh_cs (s : State) (l : Sparse Nat) : (withHigh s l).cs = s.cs := rfl
@[simp] theorem withHigh_en (s : State) (l : Sparse Nat) : (withHigh s l).en = s.en := rfl
@[simp] theorem withHigh_fb (s : State) (l : Sparse Nat) : (withHigh s l).fb = s.fb := rfl
@[simp] theorem withHigh_qs (s : State) (l : Sparse Nat) : (withHigh s l).qs = s.qs := rfl
@[simp] theorem withHigh_mg (s : State) (l : Sparse Nat) : (withHigh s l).mg = s.mg := rfl
@[simp] theorem withHigh_iss (s : State) (l : Sparse Nat) : (withHigh s l).iss = s.iss := rfl
@[simp] theorem withHigh_agenda (s : State) (l : Sparse Nat) : (withHigh s l).agenda = s.agenda := rfl
@[simp] theorem withHigh_tick (s : State) (l : Sparse Nat) : (withHigh s l).tick = s.tick := rfl
@[simp] theorem withHigh_turn (s : State) (l : Sparse Nat) : (withHigh s l).turn = s.turn := rfl
@[simp] theorem withHigh_ms_mem (s : State) (l : Sparse Nat) : (withHigh s l).ms.mem = s.ms.mem := rfl
@[simp] theorem withHigh_ms_hostMem (s : State) (l : Sparse Nat) : (withHigh s l).ms.hostMem = s.ms.hostMem := rfl
@[simp] theorem withHigh_ms_race (s : State) (l : Sparse Nat) : (withHigh s l).ms.race = s.ms.race := rfl
@[simp] theorem withHigh_ms_rel (s : State) (l : Sparse Nat) : (withHigh s l).ms.rel = s.ms.rel := rfl
@[simp] theorem withHigh_ms_highWater (s : State) (l : Sparse Nat) : (withHigh s l).ms.highWater = l := rfl
@[simp] theorem withHigh_ms_l1 (s : State) (l : Sparse Nat) : (withHigh s l).ms.l1 = s.ms.l1 := rfl
@[simp] theorem withHigh_ms_unpub (s : State) (l : Sparse Nat) : (withHigh s l).ms.unpub = s.ms.unpub := rfl
@[simp] theorem withHigh_ms_posted (s : State) (l : Sparse Nat) : (withHigh s l).ms.posted = s.ms.posted := rfl
@[simp] theorem withHigh_ms_tlb (s : State) (l : Sparse Nat) : (withHigh s l).ms.tlb = s.ms.tlb := rfl
@[simp] theorem withHigh_ms_moved (s : State) (l : Sparse Nat) : (withHigh s l).ms.moved = s.ms.moved := rfl
@[simp] theorem withHigh_ms_keys (s : State) (l : Sparse Nat) : (withHigh s l).ms.keys = s.ms.keys := rfl
@[simp] theorem withHigh_ms_poison (s : State) (l : Sparse Nat) : (withHigh s l).ms.poison = s.ms.poison := rfl
@[simp] theorem withHigh_ms_poisonUnit (s : State) (l : Sparse Nat) : (withHigh s l).ms.poisonUnit = s.ms.poisonUnit := rfl
@[simp] theorem withHigh_ms_marks (s : State) (l : Sparse Nat) : (withHigh s l).ms.marks = s.ms.marks := rfl
@[simp] theorem withHigh_ms_fused (s : State) (l : Sparse Nat) : (withHigh s l).ms.fused = s.ms.fused := rfl
@[simp] theorem withHigh_ms_oldText (s : State) (l : Sparse Nat) : (withHigh s l).ms.oldText = s.ms.oldText := rfl

@[simp] theorem withFused_cs (s : State) (l : List Nat) : (withFused s l).cs = s.cs := rfl
@[simp] theorem withFused_en (s : State) (l : List Nat) : (withFused s l).en = s.en := rfl
@[simp] theorem withFused_fb (s : State) (l : List Nat) : (withFused s l).fb = s.fb := rfl
@[simp] theorem withFused_qs (s : State) (l : List Nat) : (withFused s l).qs = s.qs := rfl
@[simp] theorem withFused_mg (s : State) (l : List Nat) : (withFused s l).mg = s.mg := rfl
@[simp] theorem withFused_iss (s : State) (l : List Nat) : (withFused s l).iss = s.iss := rfl
@[simp] theorem withFused_agenda (s : State) (l : List Nat) : (withFused s l).agenda = s.agenda := rfl
@[simp] theorem withFused_tick (s : State) (l : List Nat) : (withFused s l).tick = s.tick := rfl
@[simp] theorem withFused_turn (s : State) (l : List Nat) : (withFused s l).turn = s.turn := rfl
@[simp] theorem withFused_ms_mem (s : State) (l : List Nat) : (withFused s l).ms.mem = s.ms.mem := rfl
@[simp] theorem withFused_ms_hostMem (s : State) (l : List Nat) : (withFused s l).ms.hostMem = s.ms.hostMem := rfl
@[simp] theorem withFused_ms_race (s : State) (l : List Nat) : (withFused s l).ms.race = s.ms.race := rfl
@[simp] theorem withFused_ms_rel (s : State) (l : List Nat) : (withFused s l).ms.rel = s.ms.rel := rfl
@[simp] theorem withFused_ms_highWater (s : State) (l : List Nat) : (withFused s l).ms.highWater = s.ms.highWater := rfl
@[simp] theorem withFused_ms_l1 (s : State) (l : List Nat) : (withFused s l).ms.l1 = s.ms.l1 := rfl
@[simp] theorem withFused_ms_unpub (s : State) (l : List Nat) : (withFused s l).ms.unpub = s.ms.unpub := rfl
@[simp] theorem withFused_ms_posted (s : State) (l : List Nat) : (withFused s l).ms.posted = s.ms.posted := rfl
@[simp] theorem withFused_ms_tlb (s : State) (l : List Nat) : (withFused s l).ms.tlb = s.ms.tlb := rfl
@[simp] theorem withFused_ms_moved (s : State) (l : List Nat) : (withFused s l).ms.moved = s.ms.moved := rfl
@[simp] theorem withFused_ms_keys (s : State) (l : List Nat) : (withFused s l).ms.keys = s.ms.keys := rfl
@[simp] theorem withFused_ms_poison (s : State) (l : List Nat) : (withFused s l).ms.poison = s.ms.poison := rfl
@[simp] theorem withFused_ms_poisonUnit (s : State) (l : List Nat) : (withFused s l).ms.poisonUnit = s.ms.poisonUnit := rfl
@[simp] theorem withFused_ms_marks (s : State) (l : List Nat) : (withFused s l).ms.marks = s.ms.marks := rfl
@[simp] theorem withFused_ms_fused (s : State) (l : List Nat) : (withFused s l).ms.fused = l := rfl
@[simp] theorem withFused_ms_oldText (s : State) (l : List Nat) : (withFused s l).ms.oldText = s.ms.oldText := rfl

@[simp] theorem withMoved_cs (s : State) (l : List Tlb) : (withMoved s l).cs = s.cs := rfl
@[simp] theorem withMoved_en (s : State) (l : List Tlb) : (withMoved s l).en = s.en := rfl
@[simp] theorem withMoved_fb (s : State) (l : List Tlb) : (withMoved s l).fb = s.fb := rfl
@[simp] theorem withMoved_qs (s : State) (l : List Tlb) : (withMoved s l).qs = s.qs := rfl
@[simp] theorem withMoved_mg (s : State) (l : List Tlb) : (withMoved s l).mg = s.mg := rfl
@[simp] theorem withMoved_iss (s : State) (l : List Tlb) : (withMoved s l).iss = s.iss := rfl
@[simp] theorem withMoved_agenda (s : State) (l : List Tlb) : (withMoved s l).agenda = s.agenda := rfl
@[simp] theorem withMoved_tick (s : State) (l : List Tlb) : (withMoved s l).tick = s.tick := rfl
@[simp] theorem withMoved_turn (s : State) (l : List Tlb) : (withMoved s l).turn = s.turn := rfl
@[simp] theorem withMoved_ms_mem (s : State) (l : List Tlb) : (withMoved s l).ms.mem = s.ms.mem := rfl
@[simp] theorem withMoved_ms_hostMem (s : State) (l : List Tlb) : (withMoved s l).ms.hostMem = s.ms.hostMem := rfl
@[simp] theorem withMoved_ms_race (s : State) (l : List Tlb) : (withMoved s l).ms.race = s.ms.race := rfl
@[simp] theorem withMoved_ms_rel (s : State) (l : List Tlb) : (withMoved s l).ms.rel = s.ms.rel := rfl
@[simp] theorem withMoved_ms_highWater (s : State) (l : List Tlb) : (withMoved s l).ms.highWater = s.ms.highWater := rfl
@[simp] theorem withMoved_ms_l1 (s : State) (l : List Tlb) : (withMoved s l).ms.l1 = s.ms.l1 := rfl
@[simp] theorem withMoved_ms_unpub (s : State) (l : List Tlb) : (withMoved s l).ms.unpub = s.ms.unpub := rfl
@[simp] theorem withMoved_ms_posted (s : State) (l : List Tlb) : (withMoved s l).ms.posted = s.ms.posted := rfl
@[simp] theorem withMoved_ms_tlb (s : State) (l : List Tlb) : (withMoved s l).ms.tlb = s.ms.tlb := rfl
@[simp] theorem withMoved_ms_moved (s : State) (l : List Tlb) : (withMoved s l).ms.moved = l := rfl
@[simp] theorem withMoved_ms_keys (s : State) (l : List Tlb) : (withMoved s l).ms.keys = s.ms.keys := rfl
@[simp] theorem withMoved_ms_poison (s : State) (l : List Tlb) : (withMoved s l).ms.poison = s.ms.poison := rfl
@[simp] theorem withMoved_ms_poisonUnit (s : State) (l : List Tlb) : (withMoved s l).ms.poisonUnit = s.ms.poisonUnit := rfl
@[simp] theorem withMoved_ms_marks (s : State) (l : List Tlb) : (withMoved s l).ms.marks = s.ms.marks := rfl
@[simp] theorem withMoved_ms_fused (s : State) (l : List Tlb) : (withMoved s l).ms.fused = s.ms.fused := rfl
@[simp] theorem withMoved_ms_oldText (s : State) (l : List Tlb) : (withMoved s l).ms.oldText = s.ms.oldText := rfl

@[simp] theorem withKeys_cs (s : State) (l : Sparse Nat) : (withKeys s l).cs = s.cs := rfl
@[simp] theorem withKeys_en (s : State) (l : Sparse Nat) : (withKeys s l).en = s.en := rfl
@[simp] theorem withKeys_fb (s : State) (l : Sparse Nat) : (withKeys s l).fb = s.fb := rfl
@[simp] theorem withKeys_qs (s : State) (l : Sparse Nat) : (withKeys s l).qs = s.qs := rfl
@[simp] theorem withKeys_mg (s : State) (l : Sparse Nat) : (withKeys s l).mg = s.mg := rfl
@[simp] theorem withKeys_iss (s : State) (l : Sparse Nat) : (withKeys s l).iss = s.iss := rfl
@[simp] theorem withKeys_agenda (s : State) (l : Sparse Nat) : (withKeys s l).agenda = s.agenda := rfl
@[simp] theorem withKeys_tick (s : State) (l : Sparse Nat) : (withKeys s l).tick = s.tick := rfl
@[simp] theorem withKeys_turn (s : State) (l : Sparse Nat) : (withKeys s l).turn = s.turn := rfl
@[simp] theorem withKeys_ms_mem (s : State) (l : Sparse Nat) : (withKeys s l).ms.mem = s.ms.mem := rfl
@[simp] theorem withKeys_ms_hostMem (s : State) (l : Sparse Nat) : (withKeys s l).ms.hostMem = s.ms.hostMem := rfl
@[simp] theorem withKeys_ms_race (s : State) (l : Sparse Nat) : (withKeys s l).ms.race = s.ms.race := rfl
@[simp] theorem withKeys_ms_rel (s : State) (l : Sparse Nat) : (withKeys s l).ms.rel = s.ms.rel := rfl
@[simp] theorem withKeys_ms_highWater (s : State) (l : Sparse Nat) : (withKeys s l).ms.highWater = s.ms.highWater := rfl
@[simp] theorem withKeys_ms_l1 (s : State) (l : Sparse Nat) : (withKeys s l).ms.l1 = s.ms.l1 := rfl
@[simp] theorem withKeys_ms_unpub (s : State) (l : Sparse Nat) : (withKeys s l).ms.unpub = s.ms.unpub := rfl
@[simp] theorem withKeys_ms_posted (s : State) (l : Sparse Nat) : (withKeys s l).ms.posted = s.ms.posted := rfl
@[simp] theorem withKeys_ms_tlb (s : State) (l : Sparse Nat) : (withKeys s l).ms.tlb = s.ms.tlb := rfl
@[simp] theorem withKeys_ms_moved (s : State) (l : Sparse Nat) : (withKeys s l).ms.moved = s.ms.moved := rfl
@[simp] theorem withKeys_ms_keys (s : State) (l : Sparse Nat) : (withKeys s l).ms.keys = l := rfl
@[simp] theorem withKeys_ms_poison (s : State) (l : Sparse Nat) : (withKeys s l).ms.poison = s.ms.poison := rfl
@[simp] theorem withKeys_ms_poisonUnit (s : State) (l : Sparse Nat) : (withKeys s l).ms.poisonUnit = s.ms.poisonUnit := rfl
@[simp] theorem withKeys_ms_marks (s : State) (l : Sparse Nat) : (withKeys s l).ms.marks = s.ms.marks := rfl
@[simp] theorem withKeys_ms_fused (s : State) (l : Sparse Nat) : (withKeys s l).ms.fused = s.ms.fused := rfl
@[simp] theorem withKeys_ms_oldText (s : State) (l : Sparse Nat) : (withKeys s l).ms.oldText = s.ms.oldText := rfl

@[simp] theorem withOldText_cs (s : State) (l : List OldText) : (withOldText s l).cs = s.cs := rfl
@[simp] theorem withOldText_en (s : State) (l : List OldText) : (withOldText s l).en = s.en := rfl
@[simp] theorem withOldText_fb (s : State) (l : List OldText) : (withOldText s l).fb = s.fb := rfl
@[simp] theorem withOldText_qs (s : State) (l : List OldText) : (withOldText s l).qs = s.qs := rfl
@[simp] theorem withOldText_mg (s : State) (l : List OldText) : (withOldText s l).mg = s.mg := rfl
@[simp] theorem withOldText_iss (s : State) (l : List OldText) : (withOldText s l).iss = s.iss := rfl
@[simp] theorem withOldText_agenda (s : State) (l : List OldText) : (withOldText s l).agenda = s.agenda := rfl
@[simp] theorem withOldText_tick (s : State) (l : List OldText) : (withOldText s l).tick = s.tick := rfl
@[simp] theorem withOldText_turn (s : State) (l : List OldText) : (withOldText s l).turn = s.turn := rfl
@[simp] theorem withOldText_ms_mem (s : State) (l : List OldText) : (withOldText s l).ms.mem = s.ms.mem := rfl
@[simp] theorem withOldText_ms_hostMem (s : State) (l : List OldText) : (withOldText s l).ms.hostMem = s.ms.hostMem := rfl
@[simp] theorem withOldText_ms_race (s : State) (l : List OldText) : (withOldText s l).ms.race = s.ms.race := rfl
@[simp] theorem withOldText_ms_rel (s : State) (l : List OldText) : (withOldText s l).ms.rel = s.ms.rel := rfl
@[simp] theorem withOldText_ms_highWater (s : State) (l : List OldText) : (withOldText s l).ms.highWater = s.ms.highWater := rfl
@[simp] theorem withOldText_ms_l1 (s : State) (l : List OldText) : (withOldText s l).ms.l1 = s.ms.l1 := rfl
@[simp] theorem withOldText_ms_unpub (s : State) (l : List OldText) : (withOldText s l).ms.unpub = s.ms.unpub := rfl
@[simp] theorem withOldText_ms_posted (s : State) (l : List OldText) : (withOldText s l).ms.posted = s.ms.posted := rfl
@[simp] theorem withOldText_ms_tlb (s : State) (l : List OldText) : (withOldText s l).ms.tlb = s.ms.tlb := rfl
@[simp] theorem withOldText_ms_moved (s : State) (l : List OldText) : (withOldText s l).ms.moved = s.ms.moved := rfl
@[simp] theorem withOldText_ms_keys (s : State) (l : List OldText) : (withOldText s l).ms.keys = s.ms.keys := rfl
@[simp] theorem withOldText_ms_poison (s : State) (l : List OldText) : (withOldText s l).ms.poison = s.ms.poison := rfl
@[simp] theorem withOldText_ms_poisonUnit (s : State) (l : List OldText) : (withOldText s l).ms.poisonUnit = s.ms.poisonUnit := rfl
@[simp] theorem withOldText_ms_marks (s : State) (l : List OldText) : (withOldText s l).ms.marks = s.ms.marks := rfl
@[simp] theorem withOldText_ms_fused (s : State) (l : List OldText) : (withOldText s l).ms.fused = s.ms.fused := rfl
@[simp] theorem withOldText_ms_oldText (s : State) (l : List OldText) : (withOldText s l).ms.oldText = l := rfl

@[simp] theorem withRace_cs (s : State) (l : Sparse (BitVec 128)) : (withRace s l).cs = s.cs := rfl
@[simp] theorem withRace_en (s : State) (l : Sparse (BitVec 128)) : (withRace s l).en = s.en := rfl
@[simp] theorem withRace_fb (s : State) (l : Sparse (BitVec 128)) : (withRace s l).fb = s.fb := rfl
@[simp] theorem withRace_qs (s : State) (l : Sparse (BitVec 128)) : (withRace s l).qs = s.qs := rfl
@[simp] theorem withRace_mg (s : State) (l : Sparse (BitVec 128)) : (withRace s l).mg = s.mg := rfl
@[simp] theorem withRace_iss (s : State) (l : Sparse (BitVec 128)) : (withRace s l).iss = s.iss := rfl
@[simp] theorem withRace_agenda (s : State) (l : Sparse (BitVec 128)) : (withRace s l).agenda = s.agenda := rfl
@[simp] theorem withRace_tick (s : State) (l : Sparse (BitVec 128)) : (withRace s l).tick = s.tick := rfl
@[simp] theorem withRace_turn (s : State) (l : Sparse (BitVec 128)) : (withRace s l).turn = s.turn := rfl
@[simp] theorem withRace_ms_mem (s : State) (l : Sparse (BitVec 128)) : (withRace s l).ms.mem = s.ms.mem := rfl
@[simp] theorem withRace_ms_hostMem (s : State) (l : Sparse (BitVec 128)) : (withRace s l).ms.hostMem = s.ms.hostMem := rfl
@[simp] theorem withRace_ms_race (s : State) (l : Sparse (BitVec 128)) : (withRace s l).ms.race = l := rfl
@[simp] theorem withRace_ms_rel (s : State) (l : Sparse (BitVec 128)) : (withRace s l).ms.rel = s.ms.rel := rfl
@[simp] theorem withRace_ms_highWater (s : State) (l : Sparse (BitVec 128)) : (withRace s l).ms.highWater = s.ms.highWater := rfl
@[simp] theorem withRace_ms_l1 (s : State) (l : Sparse (BitVec 128)) : (withRace s l).ms.l1 = s.ms.l1 := rfl
@[simp] theorem withRace_ms_unpub (s : State) (l : Sparse (BitVec 128)) : (withRace s l).ms.unpub = s.ms.unpub := rfl
@[simp] theorem withRace_ms_posted (s : State) (l : Sparse (BitVec 128)) : (withRace s l).ms.posted = s.ms.posted := rfl
@[simp] theorem withRace_ms_tlb (s : State) (l : Sparse (BitVec 128)) : (withRace s l).ms.tlb = s.ms.tlb := rfl
@[simp] theorem withRace_ms_moved (s : State) (l : Sparse (BitVec 128)) : (withRace s l).ms.moved = s.ms.moved := rfl
@[simp] theorem withRace_ms_keys (s : State) (l : Sparse (BitVec 128)) : (withRace s l).ms.keys = s.ms.keys := rfl
@[simp] theorem withRace_ms_poison (s : State) (l : Sparse (BitVec 128)) : (withRace s l).ms.poison = s.ms.poison := rfl
@[simp] theorem withRace_ms_poisonUnit (s : State) (l : Sparse (BitVec 128)) : (withRace s l).ms.poisonUnit = s.ms.poisonUnit := rfl
@[simp] theorem withRace_ms_marks (s : State) (l : Sparse (BitVec 128)) : (withRace s l).ms.marks = s.ms.marks := rfl
@[simp] theorem withRace_ms_fused (s : State) (l : Sparse (BitVec 128)) : (withRace s l).ms.fused = s.ms.fused := rfl
@[simp] theorem withRace_ms_oldText (s : State) (l : Sparse (BitVec 128)) : (withRace s l).ms.oldText = s.ms.oldText := rfl

@[simp] theorem withMem_cs (s : State) (m : Mem) : (withMem s m).cs = s.cs := rfl
@[simp] theorem withMem_en (s : State) (m : Mem) : (withMem s m).en = s.en := rfl
@[simp] theorem withMem_fb (s : State) (m : Mem) : (withMem s m).fb = s.fb := rfl
@[simp] theorem withMem_qs (s : State) (m : Mem) : (withMem s m).qs = s.qs := rfl
@[simp] theorem withMem_mg (s : State) (m : Mem) : (withMem s m).mg = s.mg := rfl
@[simp] theorem withMem_iss (s : State) (m : Mem) : (withMem s m).iss = s.iss := rfl
@[simp] theorem withMem_agenda (s : State) (m : Mem) : (withMem s m).agenda = s.agenda := rfl
@[simp] theorem withMem_tick (s : State) (m : Mem) : (withMem s m).tick = s.tick := rfl
@[simp] theorem withMem_turn (s : State) (m : Mem) : (withMem s m).turn = s.turn := rfl
@[simp] theorem withMem_ms_mem (s : State) (m : Mem) : (withMem s m).ms.mem = m := rfl
@[simp] theorem withMem_ms_hostMem (s : State) (m : Mem) : (withMem s m).ms.hostMem = s.ms.hostMem := rfl
@[simp] theorem withMem_ms_race (s : State) (m : Mem) : (withMem s m).ms.race = s.ms.race := rfl
@[simp] theorem withMem_ms_rel (s : State) (m : Mem) : (withMem s m).ms.rel = s.ms.rel := rfl
@[simp] theorem withMem_ms_highWater (s : State) (m : Mem) : (withMem s m).ms.highWater = s.ms.highWater := rfl
@[simp] theorem withMem_ms_l1 (s : State) (m : Mem) : (withMem s m).ms.l1 = s.ms.l1 := rfl
@[simp] theorem withMem_ms_unpub (s : State) (m : Mem) : (withMem s m).ms.unpub = s.ms.unpub := rfl
@[simp] theorem withMem_ms_posted (s : State) (m : Mem) : (withMem s m).ms.posted = s.ms.posted := rfl
@[simp] theorem withMem_ms_tlb (s : State) (m : Mem) : (withMem s m).ms.tlb = s.ms.tlb := rfl
@[simp] theorem withMem_ms_moved (s : State) (m : Mem) : (withMem s m).ms.moved = s.ms.moved := rfl
@[simp] theorem withMem_ms_keys (s : State) (m : Mem) : (withMem s m).ms.keys = s.ms.keys := rfl
@[simp] theorem withMem_ms_poison (s : State) (m : Mem) : (withMem s m).ms.poison = s.ms.poison := rfl
@[simp] theorem withMem_ms_poisonUnit (s : State) (m : Mem) : (withMem s m).ms.poisonUnit = s.ms.poisonUnit := rfl
@[simp] theorem withMem_ms_marks (s : State) (m : Mem) : (withMem s m).ms.marks = s.ms.marks := rfl
@[simp] theorem withMem_ms_fused (s : State) (m : Mem) : (withMem s m).ms.fused = s.ms.fused := rfl
@[simp] theorem withMem_ms_oldText (s : State) (m : Mem) : (withMem s m).ms.oldText = s.ms.oldText := rfl

@[simp] theorem withHostMem_cs (s : State) (m : Mem) : (withHostMem s m).cs = s.cs := rfl
@[simp] theorem withHostMem_en (s : State) (m : Mem) : (withHostMem s m).en = s.en := rfl
@[simp] theorem withHostMem_fb (s : State) (m : Mem) : (withHostMem s m).fb = s.fb := rfl
@[simp] theorem withHostMem_qs (s : State) (m : Mem) : (withHostMem s m).qs = s.qs := rfl
@[simp] theorem withHostMem_mg (s : State) (m : Mem) : (withHostMem s m).mg = s.mg := rfl
@[simp] theorem withHostMem_iss (s : State) (m : Mem) : (withHostMem s m).iss = s.iss := rfl
@[simp] theorem withHostMem_agenda (s : State) (m : Mem) : (withHostMem s m).agenda = s.agenda := rfl
@[simp] theorem withHostMem_tick (s : State) (m : Mem) : (withHostMem s m).tick = s.tick := rfl
@[simp] theorem withHostMem_turn (s : State) (m : Mem) : (withHostMem s m).turn = s.turn := rfl
@[simp] theorem withHostMem_ms_mem (s : State) (m : Mem) : (withHostMem s m).ms.mem = s.ms.mem := rfl
@[simp] theorem withHostMem_ms_hostMem (s : State) (m : Mem) : (withHostMem s m).ms.hostMem = m := rfl
@[simp] theorem withHostMem_ms_race (s : State) (m : Mem) : (withHostMem s m).ms.race = s.ms.race := rfl
@[simp] theorem withHostMem_ms_rel (s : State) (m : Mem) : (withHostMem s m).ms.rel = s.ms.rel := rfl
@[simp] theorem withHostMem_ms_highWater (s : State) (m : Mem) : (withHostMem s m).ms.highWater = s.ms.highWater := rfl
@[simp] theorem withHostMem_ms_l1 (s : State) (m : Mem) : (withHostMem s m).ms.l1 = s.ms.l1 := rfl
@[simp] theorem withHostMem_ms_unpub (s : State) (m : Mem) : (withHostMem s m).ms.unpub = s.ms.unpub := rfl
@[simp] theorem withHostMem_ms_posted (s : State) (m : Mem) : (withHostMem s m).ms.posted = s.ms.posted := rfl
@[simp] theorem withHostMem_ms_tlb (s : State) (m : Mem) : (withHostMem s m).ms.tlb = s.ms.tlb := rfl
@[simp] theorem withHostMem_ms_moved (s : State) (m : Mem) : (withHostMem s m).ms.moved = s.ms.moved := rfl
@[simp] theorem withHostMem_ms_keys (s : State) (m : Mem) : (withHostMem s m).ms.keys = s.ms.keys := rfl
@[simp] theorem withHostMem_ms_poison (s : State) (m : Mem) : (withHostMem s m).ms.poison = s.ms.poison := rfl
@[simp] theorem withHostMem_ms_poisonUnit (s : State) (m : Mem) : (withHostMem s m).ms.poisonUnit = s.ms.poisonUnit := rfl
@[simp] theorem withHostMem_ms_marks (s : State) (m : Mem) : (withHostMem s m).ms.marks = s.ms.marks := rfl
@[simp] theorem withHostMem_ms_fused (s : State) (m : Mem) : (withHostMem s m).ms.fused = s.ms.fused := rfl
@[simp] theorem withHostMem_ms_oldText (s : State) (m : Mem) : (withHostMem s m).ms.oldText = s.ms.oldText := rfl

@[simp] theorem withPoison_cs (s : State) (l : Sparse (BitVec 128)) : (withPoison s l).cs = s.cs := rfl
@[simp] theorem withPoison_en (s : State) (l : Sparse (BitVec 128)) : (withPoison s l).en = s.en := rfl
@[simp] theorem withPoison_fb (s : State) (l : Sparse (BitVec 128)) : (withPoison s l).fb = s.fb := rfl
@[simp] theorem withPoison_qs (s : State) (l : Sparse (BitVec 128)) : (withPoison s l).qs = s.qs := rfl
@[simp] theorem withPoison_mg (s : State) (l : Sparse (BitVec 128)) : (withPoison s l).mg = s.mg := rfl
@[simp] theorem withPoison_iss (s : State) (l : Sparse (BitVec 128)) : (withPoison s l).iss = s.iss := rfl
@[simp] theorem withPoison_agenda (s : State) (l : Sparse (BitVec 128)) : (withPoison s l).agenda = s.agenda := rfl
@[simp] theorem withPoison_tick (s : State) (l : Sparse (BitVec 128)) : (withPoison s l).tick = s.tick := rfl
@[simp] theorem withPoison_turn (s : State) (l : Sparse (BitVec 128)) : (withPoison s l).turn = s.turn := rfl
@[simp] theorem withPoison_ms_mem (s : State) (l : Sparse (BitVec 128)) : (withPoison s l).ms.mem = s.ms.mem := rfl
@[simp] theorem withPoison_ms_hostMem (s : State) (l : Sparse (BitVec 128)) : (withPoison s l).ms.hostMem = s.ms.hostMem := rfl
@[simp] theorem withPoison_ms_race (s : State) (l : Sparse (BitVec 128)) : (withPoison s l).ms.race = s.ms.race := rfl
@[simp] theorem withPoison_ms_rel (s : State) (l : Sparse (BitVec 128)) : (withPoison s l).ms.rel = s.ms.rel := rfl
@[simp] theorem withPoison_ms_highWater (s : State) (l : Sparse (BitVec 128)) : (withPoison s l).ms.highWater = s.ms.highWater := rfl
@[simp] theorem withPoison_ms_l1 (s : State) (l : Sparse (BitVec 128)) : (withPoison s l).ms.l1 = s.ms.l1 := rfl
@[simp] theorem withPoison_ms_unpub (s : State) (l : Sparse (BitVec 128)) : (withPoison s l).ms.unpub = s.ms.unpub := rfl
@[simp] theorem withPoison_ms_posted (s : State) (l : Sparse (BitVec 128)) : (withPoison s l).ms.posted = s.ms.posted := rfl
@[simp] theorem withPoison_ms_tlb (s : State) (l : Sparse (BitVec 128)) : (withPoison s l).ms.tlb = s.ms.tlb := rfl
@[simp] theorem withPoison_ms_moved (s : State) (l : Sparse (BitVec 128)) : (withPoison s l).ms.moved = s.ms.moved := rfl
@[simp] theorem withPoison_ms_keys (s : State) (l : Sparse (BitVec 128)) : (withPoison s l).ms.keys = s.ms.keys := rfl
@[simp] theorem withPoison_ms_poison (s : State) (l : Sparse (BitVec 128)) : (withPoison s l).ms.poison = l := rfl
@[simp] theorem withPoison_ms_poisonUnit (s : State) (l : Sparse (BitVec 128)) : (withPoison s l).ms.poisonUnit = s.ms.poisonUnit := rfl
@[simp] theorem withPoison_ms_marks (s : State) (l : Sparse (BitVec 128)) : (withPoison s l).ms.marks = s.ms.marks := rfl
@[simp] theorem withPoison_ms_fused (s : State) (l : Sparse (BitVec 128)) : (withPoison s l).ms.fused = s.ms.fused := rfl
@[simp] theorem withPoison_ms_oldText (s : State) (l : Sparse (BitVec 128)) : (withPoison s l).ms.oldText = s.ms.oldText := rfl

@[simp] theorem withPallets_ms (s : State) (l : List Pallet) : (withPallets s l).ms = s.ms := rfl
@[simp] theorem withPallets_en (s : State) (l : List Pallet) : (withPallets s l).en = s.en := rfl
@[simp] theorem withPallets_fb (s : State) (l : List Pallet) : (withPallets s l).fb = s.fb := rfl
@[simp] theorem withPallets_qs (s : State) (l : List Pallet) : (withPallets s l).qs = s.qs := rfl
@[simp] theorem withPallets_mg (s : State) (l : List Pallet) : (withPallets s l).mg = s.mg := rfl
@[simp] theorem withPallets_iss (s : State) (l : List Pallet) : (withPallets s l).iss = s.iss := rfl
@[simp] theorem withPallets_agenda (s : State) (l : List Pallet) : (withPallets s l).agenda = s.agenda := rfl
@[simp] theorem withPallets_tick (s : State) (l : List Pallet) : (withPallets s l).tick = s.tick := rfl
@[simp] theorem withPallets_turn (s : State) (l : List Pallet) : (withPallets s l).turn = s.turn := rfl
@[simp] theorem withPallets_cs_pallets (s : State) (l : List Pallet) : (withPallets s l).cs.pallets = l := rfl
@[simp] theorem withPallets_cs_sheets (s : State) (l : List Pallet) : (withPallets s l).cs.sheets = s.cs.sheets := rfl
@[simp] theorem withPallets_cs_store (s : State) (l : List Pallet) : (withPallets s l).cs.store = s.cs.store := rfl
@[simp] theorem withPallets_cs_tiles (s : State) (l : List Pallet) : (withPallets s l).cs.tiles = s.cs.tiles := rfl
@[simp] theorem withPallets_cs_boxes (s : State) (l : List Pallet) : (withPallets s l).cs.boxes = s.cs.boxes := rfl
@[simp] theorem withPallets_cs_boxWait (s : State) (l : List Pallet) : (withPallets s l).cs.boxWait = s.cs.boxWait := rfl
@[simp] theorem withPallets_cs_agents (s : State) (l : List Pallet) : (withPallets s l).cs.agents = s.cs.agents := rfl
@[simp] theorem withPallets_cs_seqs (s : State) (l : List Pallet) : (withPallets s l).cs.seqs = s.cs.seqs := rfl
@[simp] theorem withPallets_cs_lastQ (s : State) (l : List Pallet) : (withPallets s l).cs.lastQ = s.cs.lastQ := rfl
@[simp] theorem withPallets_cs_topd (s : State) (l : List Pallet) : (withPallets s l).cs.topd = s.cs.topd := rfl
@[simp] theorem withPallets_cs_snaps (s : State) (l : List Pallet) : (withPallets s l).cs.snaps = s.cs.snaps := rfl
@[simp] theorem withPallets_cs_cyc (s : State) (l : List Pallet) : (withPallets s l).cs.cyc = s.cs.cyc := rfl
@[simp] theorem withPallets_cs_fresh (s : State) (l : List Pallet) : (withPallets s l).cs.fresh = s.cs.fresh := rfl
@[simp] theorem withPallets_cs_retired (s : State) (l : List Pallet) : (withPallets s l).cs.retired = s.cs.retired := rfl

@[simp] theorem withSheets_ms (s : State) (l : List Sheet) : (withSheets s l).ms = s.ms := rfl
@[simp] theorem withSheets_en (s : State) (l : List Sheet) : (withSheets s l).en = s.en := rfl
@[simp] theorem withSheets_fb (s : State) (l : List Sheet) : (withSheets s l).fb = s.fb := rfl
@[simp] theorem withSheets_qs (s : State) (l : List Sheet) : (withSheets s l).qs = s.qs := rfl
@[simp] theorem withSheets_mg (s : State) (l : List Sheet) : (withSheets s l).mg = s.mg := rfl
@[simp] theorem withSheets_iss (s : State) (l : List Sheet) : (withSheets s l).iss = s.iss := rfl
@[simp] theorem withSheets_agenda (s : State) (l : List Sheet) : (withSheets s l).agenda = s.agenda := rfl
@[simp] theorem withSheets_tick (s : State) (l : List Sheet) : (withSheets s l).tick = s.tick := rfl
@[simp] theorem withSheets_turn (s : State) (l : List Sheet) : (withSheets s l).turn = s.turn := rfl
@[simp] theorem withSheets_cs_pallets (s : State) (l : List Sheet) : (withSheets s l).cs.pallets = s.cs.pallets := rfl
@[simp] theorem withSheets_cs_sheets (s : State) (l : List Sheet) : (withSheets s l).cs.sheets = l := rfl
@[simp] theorem withSheets_cs_store (s : State) (l : List Sheet) : (withSheets s l).cs.store = s.cs.store := rfl
@[simp] theorem withSheets_cs_tiles (s : State) (l : List Sheet) : (withSheets s l).cs.tiles = s.cs.tiles := rfl
@[simp] theorem withSheets_cs_boxes (s : State) (l : List Sheet) : (withSheets s l).cs.boxes = s.cs.boxes := rfl
@[simp] theorem withSheets_cs_boxWait (s : State) (l : List Sheet) : (withSheets s l).cs.boxWait = s.cs.boxWait := rfl
@[simp] theorem withSheets_cs_agents (s : State) (l : List Sheet) : (withSheets s l).cs.agents = s.cs.agents := rfl
@[simp] theorem withSheets_cs_seqs (s : State) (l : List Sheet) : (withSheets s l).cs.seqs = s.cs.seqs := rfl
@[simp] theorem withSheets_cs_lastQ (s : State) (l : List Sheet) : (withSheets s l).cs.lastQ = s.cs.lastQ := rfl
@[simp] theorem withSheets_cs_topd (s : State) (l : List Sheet) : (withSheets s l).cs.topd = s.cs.topd := rfl
@[simp] theorem withSheets_cs_snaps (s : State) (l : List Sheet) : (withSheets s l).cs.snaps = s.cs.snaps := rfl
@[simp] theorem withSheets_cs_cyc (s : State) (l : List Sheet) : (withSheets s l).cs.cyc = s.cs.cyc := rfl
@[simp] theorem withSheets_cs_fresh (s : State) (l : List Sheet) : (withSheets s l).cs.fresh = s.cs.fresh := rfl
@[simp] theorem withSheets_cs_retired (s : State) (l : List Sheet) : (withSheets s l).cs.retired = s.cs.retired := rfl

@[simp] theorem withStore_ms (s : State) (l : List Entry) : (withStore s l).ms = s.ms := rfl
@[simp] theorem withStore_en (s : State) (l : List Entry) : (withStore s l).en = s.en := rfl
@[simp] theorem withStore_fb (s : State) (l : List Entry) : (withStore s l).fb = s.fb := rfl
@[simp] theorem withStore_qs (s : State) (l : List Entry) : (withStore s l).qs = s.qs := rfl
@[simp] theorem withStore_mg (s : State) (l : List Entry) : (withStore s l).mg = s.mg := rfl
@[simp] theorem withStore_iss (s : State) (l : List Entry) : (withStore s l).iss = s.iss := rfl
@[simp] theorem withStore_agenda (s : State) (l : List Entry) : (withStore s l).agenda = s.agenda := rfl
@[simp] theorem withStore_tick (s : State) (l : List Entry) : (withStore s l).tick = s.tick := rfl
@[simp] theorem withStore_turn (s : State) (l : List Entry) : (withStore s l).turn = s.turn := rfl
@[simp] theorem withStore_cs_pallets (s : State) (l : List Entry) : (withStore s l).cs.pallets = s.cs.pallets := rfl
@[simp] theorem withStore_cs_sheets (s : State) (l : List Entry) : (withStore s l).cs.sheets = s.cs.sheets := rfl
@[simp] theorem withStore_cs_store (s : State) (l : List Entry) : (withStore s l).cs.store = l := rfl
@[simp] theorem withStore_cs_tiles (s : State) (l : List Entry) : (withStore s l).cs.tiles = s.cs.tiles := rfl
@[simp] theorem withStore_cs_boxes (s : State) (l : List Entry) : (withStore s l).cs.boxes = s.cs.boxes := rfl
@[simp] theorem withStore_cs_boxWait (s : State) (l : List Entry) : (withStore s l).cs.boxWait = s.cs.boxWait := rfl
@[simp] theorem withStore_cs_agents (s : State) (l : List Entry) : (withStore s l).cs.agents = s.cs.agents := rfl
@[simp] theorem withStore_cs_seqs (s : State) (l : List Entry) : (withStore s l).cs.seqs = s.cs.seqs := rfl
@[simp] theorem withStore_cs_lastQ (s : State) (l : List Entry) : (withStore s l).cs.lastQ = s.cs.lastQ := rfl
@[simp] theorem withStore_cs_topd (s : State) (l : List Entry) : (withStore s l).cs.topd = s.cs.topd := rfl
@[simp] theorem withStore_cs_snaps (s : State) (l : List Entry) : (withStore s l).cs.snaps = s.cs.snaps := rfl
@[simp] theorem withStore_cs_cyc (s : State) (l : List Entry) : (withStore s l).cs.cyc = s.cs.cyc := rfl
@[simp] theorem withStore_cs_fresh (s : State) (l : List Entry) : (withStore s l).cs.fresh = s.cs.fresh := rfl
@[simp] theorem withStore_cs_retired (s : State) (l : List Entry) : (withStore s l).cs.retired = s.cs.retired := rfl

@[simp] theorem withTiles_ms (s : State) (l : List Tile) : (withTiles s l).ms = s.ms := rfl
@[simp] theorem withTiles_en (s : State) (l : List Tile) : (withTiles s l).en = s.en := rfl
@[simp] theorem withTiles_fb (s : State) (l : List Tile) : (withTiles s l).fb = s.fb := rfl
@[simp] theorem withTiles_qs (s : State) (l : List Tile) : (withTiles s l).qs = s.qs := rfl
@[simp] theorem withTiles_mg (s : State) (l : List Tile) : (withTiles s l).mg = s.mg := rfl
@[simp] theorem withTiles_iss (s : State) (l : List Tile) : (withTiles s l).iss = s.iss := rfl
@[simp] theorem withTiles_agenda (s : State) (l : List Tile) : (withTiles s l).agenda = s.agenda := rfl
@[simp] theorem withTiles_tick (s : State) (l : List Tile) : (withTiles s l).tick = s.tick := rfl
@[simp] theorem withTiles_turn (s : State) (l : List Tile) : (withTiles s l).turn = s.turn := rfl
@[simp] theorem withTiles_cs_pallets (s : State) (l : List Tile) : (withTiles s l).cs.pallets = s.cs.pallets := rfl
@[simp] theorem withTiles_cs_sheets (s : State) (l : List Tile) : (withTiles s l).cs.sheets = s.cs.sheets := rfl
@[simp] theorem withTiles_cs_store (s : State) (l : List Tile) : (withTiles s l).cs.store = s.cs.store := rfl
@[simp] theorem withTiles_cs_tiles (s : State) (l : List Tile) : (withTiles s l).cs.tiles = l := rfl
@[simp] theorem withTiles_cs_boxes (s : State) (l : List Tile) : (withTiles s l).cs.boxes = s.cs.boxes := rfl
@[simp] theorem withTiles_cs_boxWait (s : State) (l : List Tile) : (withTiles s l).cs.boxWait = s.cs.boxWait := rfl
@[simp] theorem withTiles_cs_agents (s : State) (l : List Tile) : (withTiles s l).cs.agents = s.cs.agents := rfl
@[simp] theorem withTiles_cs_seqs (s : State) (l : List Tile) : (withTiles s l).cs.seqs = s.cs.seqs := rfl
@[simp] theorem withTiles_cs_lastQ (s : State) (l : List Tile) : (withTiles s l).cs.lastQ = s.cs.lastQ := rfl
@[simp] theorem withTiles_cs_topd (s : State) (l : List Tile) : (withTiles s l).cs.topd = s.cs.topd := rfl
@[simp] theorem withTiles_cs_snaps (s : State) (l : List Tile) : (withTiles s l).cs.snaps = s.cs.snaps := rfl
@[simp] theorem withTiles_cs_cyc (s : State) (l : List Tile) : (withTiles s l).cs.cyc = s.cs.cyc := rfl
@[simp] theorem withTiles_cs_fresh (s : State) (l : List Tile) : (withTiles s l).cs.fresh = s.cs.fresh := rfl
@[simp] theorem withTiles_cs_retired (s : State) (l : List Tile) : (withTiles s l).cs.retired = s.cs.retired := rfl

@[simp] theorem withBoxes_ms (s : State) (l : Sparse (List Msg)) : (withBoxes s l).ms = s.ms := rfl
@[simp] theorem withBoxes_en (s : State) (l : Sparse (List Msg)) : (withBoxes s l).en = s.en := rfl
@[simp] theorem withBoxes_fb (s : State) (l : Sparse (List Msg)) : (withBoxes s l).fb = s.fb := rfl
@[simp] theorem withBoxes_qs (s : State) (l : Sparse (List Msg)) : (withBoxes s l).qs = s.qs := rfl
@[simp] theorem withBoxes_mg (s : State) (l : Sparse (List Msg)) : (withBoxes s l).mg = s.mg := rfl
@[simp] theorem withBoxes_iss (s : State) (l : Sparse (List Msg)) : (withBoxes s l).iss = s.iss := rfl
@[simp] theorem withBoxes_agenda (s : State) (l : Sparse (List Msg)) : (withBoxes s l).agenda = s.agenda := rfl
@[simp] theorem withBoxes_tick (s : State) (l : Sparse (List Msg)) : (withBoxes s l).tick = s.tick := rfl
@[simp] theorem withBoxes_turn (s : State) (l : Sparse (List Msg)) : (withBoxes s l).turn = s.turn := rfl
@[simp] theorem withBoxes_cs_pallets (s : State) (l : Sparse (List Msg)) : (withBoxes s l).cs.pallets = s.cs.pallets := rfl
@[simp] theorem withBoxes_cs_sheets (s : State) (l : Sparse (List Msg)) : (withBoxes s l).cs.sheets = s.cs.sheets := rfl
@[simp] theorem withBoxes_cs_store (s : State) (l : Sparse (List Msg)) : (withBoxes s l).cs.store = s.cs.store := rfl
@[simp] theorem withBoxes_cs_tiles (s : State) (l : Sparse (List Msg)) : (withBoxes s l).cs.tiles = s.cs.tiles := rfl
@[simp] theorem withBoxes_cs_boxes (s : State) (l : Sparse (List Msg)) : (withBoxes s l).cs.boxes = l := rfl
@[simp] theorem withBoxes_cs_boxWait (s : State) (l : Sparse (List Msg)) : (withBoxes s l).cs.boxWait = s.cs.boxWait := rfl
@[simp] theorem withBoxes_cs_agents (s : State) (l : Sparse (List Msg)) : (withBoxes s l).cs.agents = s.cs.agents := rfl
@[simp] theorem withBoxes_cs_seqs (s : State) (l : Sparse (List Msg)) : (withBoxes s l).cs.seqs = s.cs.seqs := rfl
@[simp] theorem withBoxes_cs_lastQ (s : State) (l : Sparse (List Msg)) : (withBoxes s l).cs.lastQ = s.cs.lastQ := rfl
@[simp] theorem withBoxes_cs_topd (s : State) (l : Sparse (List Msg)) : (withBoxes s l).cs.topd = s.cs.topd := rfl
@[simp] theorem withBoxes_cs_snaps (s : State) (l : Sparse (List Msg)) : (withBoxes s l).cs.snaps = s.cs.snaps := rfl
@[simp] theorem withBoxes_cs_cyc (s : State) (l : Sparse (List Msg)) : (withBoxes s l).cs.cyc = s.cs.cyc := rfl
@[simp] theorem withBoxes_cs_fresh (s : State) (l : Sparse (List Msg)) : (withBoxes s l).cs.fresh = s.cs.fresh := rfl
@[simp] theorem withBoxes_cs_retired (s : State) (l : Sparse (List Msg)) : (withBoxes s l).cs.retired = s.cs.retired := rfl

@[simp] theorem withAgents_ms (s : State) (l : List Agent) : (withAgents s l).ms = s.ms := rfl
@[simp] theorem withAgents_en (s : State) (l : List Agent) : (withAgents s l).en = s.en := rfl
@[simp] theorem withAgents_fb (s : State) (l : List Agent) : (withAgents s l).fb = s.fb := rfl
@[simp] theorem withAgents_qs (s : State) (l : List Agent) : (withAgents s l).qs = s.qs := rfl
@[simp] theorem withAgents_mg (s : State) (l : List Agent) : (withAgents s l).mg = s.mg := rfl
@[simp] theorem withAgents_iss (s : State) (l : List Agent) : (withAgents s l).iss = s.iss := rfl
@[simp] theorem withAgents_agenda (s : State) (l : List Agent) : (withAgents s l).agenda = s.agenda := rfl
@[simp] theorem withAgents_tick (s : State) (l : List Agent) : (withAgents s l).tick = s.tick := rfl
@[simp] theorem withAgents_turn (s : State) (l : List Agent) : (withAgents s l).turn = s.turn := rfl
@[simp] theorem withAgents_cs_pallets (s : State) (l : List Agent) : (withAgents s l).cs.pallets = s.cs.pallets := rfl
@[simp] theorem withAgents_cs_sheets (s : State) (l : List Agent) : (withAgents s l).cs.sheets = s.cs.sheets := rfl
@[simp] theorem withAgents_cs_store (s : State) (l : List Agent) : (withAgents s l).cs.store = s.cs.store := rfl
@[simp] theorem withAgents_cs_tiles (s : State) (l : List Agent) : (withAgents s l).cs.tiles = s.cs.tiles := rfl
@[simp] theorem withAgents_cs_boxes (s : State) (l : List Agent) : (withAgents s l).cs.boxes = s.cs.boxes := rfl
@[simp] theorem withAgents_cs_boxWait (s : State) (l : List Agent) : (withAgents s l).cs.boxWait = s.cs.boxWait := rfl
@[simp] theorem withAgents_cs_agents (s : State) (l : List Agent) : (withAgents s l).cs.agents = l := rfl
@[simp] theorem withAgents_cs_seqs (s : State) (l : List Agent) : (withAgents s l).cs.seqs = s.cs.seqs := rfl
@[simp] theorem withAgents_cs_lastQ (s : State) (l : List Agent) : (withAgents s l).cs.lastQ = s.cs.lastQ := rfl
@[simp] theorem withAgents_cs_topd (s : State) (l : List Agent) : (withAgents s l).cs.topd = s.cs.topd := rfl
@[simp] theorem withAgents_cs_snaps (s : State) (l : List Agent) : (withAgents s l).cs.snaps = s.cs.snaps := rfl
@[simp] theorem withAgents_cs_cyc (s : State) (l : List Agent) : (withAgents s l).cs.cyc = s.cs.cyc := rfl
@[simp] theorem withAgents_cs_fresh (s : State) (l : List Agent) : (withAgents s l).cs.fresh = s.cs.fresh := rfl
@[simp] theorem withAgents_cs_retired (s : State) (l : List Agent) : (withAgents s l).cs.retired = s.cs.retired := rfl

@[simp] theorem withCyc_ms (s : State) (n : Nat) : (withCyc s n).ms = s.ms := rfl
@[simp] theorem withCyc_en (s : State) (n : Nat) : (withCyc s n).en = s.en := rfl
@[simp] theorem withCyc_fb (s : State) (n : Nat) : (withCyc s n).fb = s.fb := rfl
@[simp] theorem withCyc_qs (s : State) (n : Nat) : (withCyc s n).qs = s.qs := rfl
@[simp] theorem withCyc_mg (s : State) (n : Nat) : (withCyc s n).mg = s.mg := rfl
@[simp] theorem withCyc_iss (s : State) (n : Nat) : (withCyc s n).iss = s.iss := rfl
@[simp] theorem withCyc_agenda (s : State) (n : Nat) : (withCyc s n).agenda = s.agenda := rfl
@[simp] theorem withCyc_tick (s : State) (n : Nat) : (withCyc s n).tick = s.tick := rfl
@[simp] theorem withCyc_turn (s : State) (n : Nat) : (withCyc s n).turn = s.turn := rfl
@[simp] theorem withCyc_cs_pallets (s : State) (n : Nat) : (withCyc s n).cs.pallets = s.cs.pallets := rfl
@[simp] theorem withCyc_cs_sheets (s : State) (n : Nat) : (withCyc s n).cs.sheets = s.cs.sheets := rfl
@[simp] theorem withCyc_cs_store (s : State) (n : Nat) : (withCyc s n).cs.store = s.cs.store := rfl
@[simp] theorem withCyc_cs_tiles (s : State) (n : Nat) : (withCyc s n).cs.tiles = s.cs.tiles := rfl
@[simp] theorem withCyc_cs_boxes (s : State) (n : Nat) : (withCyc s n).cs.boxes = s.cs.boxes := rfl
@[simp] theorem withCyc_cs_boxWait (s : State) (n : Nat) : (withCyc s n).cs.boxWait = s.cs.boxWait := rfl
@[simp] theorem withCyc_cs_agents (s : State) (n : Nat) : (withCyc s n).cs.agents = s.cs.agents := rfl
@[simp] theorem withCyc_cs_seqs (s : State) (n : Nat) : (withCyc s n).cs.seqs = s.cs.seqs := rfl
@[simp] theorem withCyc_cs_lastQ (s : State) (n : Nat) : (withCyc s n).cs.lastQ = s.cs.lastQ := rfl
@[simp] theorem withCyc_cs_topd (s : State) (n : Nat) : (withCyc s n).cs.topd = s.cs.topd := rfl
@[simp] theorem withCyc_cs_snaps (s : State) (n : Nat) : (withCyc s n).cs.snaps = s.cs.snaps := rfl
@[simp] theorem withCyc_cs_cyc (s : State) (n : Nat) : (withCyc s n).cs.cyc = n := rfl
@[simp] theorem withCyc_cs_fresh (s : State) (n : Nat) : (withCyc s n).cs.fresh = s.cs.fresh := rfl
@[simp] theorem withCyc_cs_retired (s : State) (n : Nat) : (withCyc s n).cs.retired = s.cs.retired := rfl

@[simp] theorem withCopies_ms (s : State) (l : List Copy) : (withCopies s l).ms = s.ms := rfl
@[simp] theorem withCopies_cs (s : State) (l : List Copy) : (withCopies s l).cs = s.cs := rfl
@[simp] theorem withCopies_fb (s : State) (l : List Copy) : (withCopies s l).fb = s.fb := rfl
@[simp] theorem withCopies_qs (s : State) (l : List Copy) : (withCopies s l).qs = s.qs := rfl
@[simp] theorem withCopies_mg (s : State) (l : List Copy) : (withCopies s l).mg = s.mg := rfl
@[simp] theorem withCopies_iss (s : State) (l : List Copy) : (withCopies s l).iss = s.iss := rfl
@[simp] theorem withCopies_agenda (s : State) (l : List Copy) : (withCopies s l).agenda = s.agenda := rfl
@[simp] theorem withCopies_tick (s : State) (l : List Copy) : (withCopies s l).tick = s.tick := rfl
@[simp] theorem withCopies_turn (s : State) (l : List Copy) : (withCopies s l).turn = s.turn := rfl
@[simp] theorem withCopies_en_copies (s : State) (l : List Copy) : (withCopies s l).en.copies = l := rfl
@[simp] theorem withCopies_en_board (s : State) (l : List Copy) : (withCopies s l).en.board = s.en.board := rfl
@[simp] theorem withCopies_en_futs (s : State) (l : List Copy) : (withCopies s l).en.futs = s.en.futs := rfl
@[simp] theorem withCopies_en_mmas (s : State) (l : List Copy) : (withCopies s l).en.mmas = s.en.mmas := rfl
@[simp] theorem withCopies_en_batches (s : State) (l : List Copy) : (withCopies s l).en.batches = s.en.batches := rfl
@[simp] theorem withCopies_en_wins (s : State) (l : List Copy) : (withCopies s l).en.wins = s.en.wins := rfl
@[simp] theorem withCopies_en_sqNo (s : State) (l : List Copy) : (withCopies s l).en.sqNo = s.en.sqNo := rfl
@[simp] theorem withCopies_en_contribs (s : State) (l : List Copy) : (withCopies s l).en.contribs = s.en.contribs := rfl
@[simp] theorem withCopies_en_parts (s : State) (l : List Copy) : (withCopies s l).en.parts = s.en.parts := rfl
@[simp] theorem withCopies_en_pclosed (s : State) (l : List Copy) : (withCopies s l).en.pclosed = s.en.pclosed := rfl
@[simp] theorem withCopies_en_papp (s : State) (l : List Copy) : (withCopies s l).en.papp = s.en.papp := rfl
@[simp] theorem withCopies_en_relq (s : State) (l : List Copy) : (withCopies s l).en.relq = s.en.relq := rfl
@[simp] theorem withCopies_en_olds (s : State) (l : List Copy) : (withCopies s l).en.olds = s.en.olds := rfl
@[simp] theorem withCopies_en_qheld (s : State) (l : List Copy) : (withCopies s l).en.qheld = s.en.qheld := rfl

@[simp] theorem withBoard_ms (s : State) (l : List Score) : (withBoard s l).ms = s.ms := rfl
@[simp] theorem withBoard_cs (s : State) (l : List Score) : (withBoard s l).cs = s.cs := rfl
@[simp] theorem withBoard_fb (s : State) (l : List Score) : (withBoard s l).fb = s.fb := rfl
@[simp] theorem withBoard_qs (s : State) (l : List Score) : (withBoard s l).qs = s.qs := rfl
@[simp] theorem withBoard_mg (s : State) (l : List Score) : (withBoard s l).mg = s.mg := rfl
@[simp] theorem withBoard_iss (s : State) (l : List Score) : (withBoard s l).iss = s.iss := rfl
@[simp] theorem withBoard_agenda (s : State) (l : List Score) : (withBoard s l).agenda = s.agenda := rfl
@[simp] theorem withBoard_tick (s : State) (l : List Score) : (withBoard s l).tick = s.tick := rfl
@[simp] theorem withBoard_turn (s : State) (l : List Score) : (withBoard s l).turn = s.turn := rfl
@[simp] theorem withBoard_en_copies (s : State) (l : List Score) : (withBoard s l).en.copies = s.en.copies := rfl
@[simp] theorem withBoard_en_board (s : State) (l : List Score) : (withBoard s l).en.board = l := rfl
@[simp] theorem withBoard_en_futs (s : State) (l : List Score) : (withBoard s l).en.futs = s.en.futs := rfl
@[simp] theorem withBoard_en_mmas (s : State) (l : List Score) : (withBoard s l).en.mmas = s.en.mmas := rfl
@[simp] theorem withBoard_en_batches (s : State) (l : List Score) : (withBoard s l).en.batches = s.en.batches := rfl
@[simp] theorem withBoard_en_wins (s : State) (l : List Score) : (withBoard s l).en.wins = s.en.wins := rfl
@[simp] theorem withBoard_en_sqNo (s : State) (l : List Score) : (withBoard s l).en.sqNo = s.en.sqNo := rfl
@[simp] theorem withBoard_en_contribs (s : State) (l : List Score) : (withBoard s l).en.contribs = s.en.contribs := rfl
@[simp] theorem withBoard_en_parts (s : State) (l : List Score) : (withBoard s l).en.parts = s.en.parts := rfl
@[simp] theorem withBoard_en_pclosed (s : State) (l : List Score) : (withBoard s l).en.pclosed = s.en.pclosed := rfl
@[simp] theorem withBoard_en_papp (s : State) (l : List Score) : (withBoard s l).en.papp = s.en.papp := rfl
@[simp] theorem withBoard_en_relq (s : State) (l : List Score) : (withBoard s l).en.relq = s.en.relq := rfl
@[simp] theorem withBoard_en_olds (s : State) (l : List Score) : (withBoard s l).en.olds = s.en.olds := rfl
@[simp] theorem withBoard_en_qheld (s : State) (l : List Score) : (withBoard s l).en.qheld = s.en.qheld := rfl

@[simp] theorem withFuts_ms (s : State) (l : List Future) : (withFuts s l).ms = s.ms := rfl
@[simp] theorem withFuts_cs (s : State) (l : List Future) : (withFuts s l).cs = s.cs := rfl
@[simp] theorem withFuts_fb (s : State) (l : List Future) : (withFuts s l).fb = s.fb := rfl
@[simp] theorem withFuts_qs (s : State) (l : List Future) : (withFuts s l).qs = s.qs := rfl
@[simp] theorem withFuts_mg (s : State) (l : List Future) : (withFuts s l).mg = s.mg := rfl
@[simp] theorem withFuts_iss (s : State) (l : List Future) : (withFuts s l).iss = s.iss := rfl
@[simp] theorem withFuts_agenda (s : State) (l : List Future) : (withFuts s l).agenda = s.agenda := rfl
@[simp] theorem withFuts_tick (s : State) (l : List Future) : (withFuts s l).tick = s.tick := rfl
@[simp] theorem withFuts_turn (s : State) (l : List Future) : (withFuts s l).turn = s.turn := rfl
@[simp] theorem withFuts_en_copies (s : State) (l : List Future) : (withFuts s l).en.copies = s.en.copies := rfl
@[simp] theorem withFuts_en_board (s : State) (l : List Future) : (withFuts s l).en.board = s.en.board := rfl
@[simp] theorem withFuts_en_futs (s : State) (l : List Future) : (withFuts s l).en.futs = l := rfl
@[simp] theorem withFuts_en_mmas (s : State) (l : List Future) : (withFuts s l).en.mmas = s.en.mmas := rfl
@[simp] theorem withFuts_en_batches (s : State) (l : List Future) : (withFuts s l).en.batches = s.en.batches := rfl
@[simp] theorem withFuts_en_wins (s : State) (l : List Future) : (withFuts s l).en.wins = s.en.wins := rfl
@[simp] theorem withFuts_en_sqNo (s : State) (l : List Future) : (withFuts s l).en.sqNo = s.en.sqNo := rfl
@[simp] theorem withFuts_en_contribs (s : State) (l : List Future) : (withFuts s l).en.contribs = s.en.contribs := rfl
@[simp] theorem withFuts_en_parts (s : State) (l : List Future) : (withFuts s l).en.parts = s.en.parts := rfl
@[simp] theorem withFuts_en_pclosed (s : State) (l : List Future) : (withFuts s l).en.pclosed = s.en.pclosed := rfl
@[simp] theorem withFuts_en_papp (s : State) (l : List Future) : (withFuts s l).en.papp = s.en.papp := rfl
@[simp] theorem withFuts_en_relq (s : State) (l : List Future) : (withFuts s l).en.relq = s.en.relq := rfl
@[simp] theorem withFuts_en_olds (s : State) (l : List Future) : (withFuts s l).en.olds = s.en.olds := rfl
@[simp] theorem withFuts_en_qheld (s : State) (l : List Future) : (withFuts s l).en.qheld = s.en.qheld := rfl

@[simp] theorem withMmas_ms (s : State) (l : List Mma) : (withMmas s l).ms = s.ms := rfl
@[simp] theorem withMmas_cs (s : State) (l : List Mma) : (withMmas s l).cs = s.cs := rfl
@[simp] theorem withMmas_fb (s : State) (l : List Mma) : (withMmas s l).fb = s.fb := rfl
@[simp] theorem withMmas_qs (s : State) (l : List Mma) : (withMmas s l).qs = s.qs := rfl
@[simp] theorem withMmas_mg (s : State) (l : List Mma) : (withMmas s l).mg = s.mg := rfl
@[simp] theorem withMmas_iss (s : State) (l : List Mma) : (withMmas s l).iss = s.iss := rfl
@[simp] theorem withMmas_agenda (s : State) (l : List Mma) : (withMmas s l).agenda = s.agenda := rfl
@[simp] theorem withMmas_tick (s : State) (l : List Mma) : (withMmas s l).tick = s.tick := rfl
@[simp] theorem withMmas_turn (s : State) (l : List Mma) : (withMmas s l).turn = s.turn := rfl
@[simp] theorem withMmas_en_copies (s : State) (l : List Mma) : (withMmas s l).en.copies = s.en.copies := rfl
@[simp] theorem withMmas_en_board (s : State) (l : List Mma) : (withMmas s l).en.board = s.en.board := rfl
@[simp] theorem withMmas_en_futs (s : State) (l : List Mma) : (withMmas s l).en.futs = s.en.futs := rfl
@[simp] theorem withMmas_en_mmas (s : State) (l : List Mma) : (withMmas s l).en.mmas = l := rfl
@[simp] theorem withMmas_en_batches (s : State) (l : List Mma) : (withMmas s l).en.batches = s.en.batches := rfl
@[simp] theorem withMmas_en_wins (s : State) (l : List Mma) : (withMmas s l).en.wins = s.en.wins := rfl
@[simp] theorem withMmas_en_sqNo (s : State) (l : List Mma) : (withMmas s l).en.sqNo = s.en.sqNo := rfl
@[simp] theorem withMmas_en_contribs (s : State) (l : List Mma) : (withMmas s l).en.contribs = s.en.contribs := rfl
@[simp] theorem withMmas_en_parts (s : State) (l : List Mma) : (withMmas s l).en.parts = s.en.parts := rfl
@[simp] theorem withMmas_en_pclosed (s : State) (l : List Mma) : (withMmas s l).en.pclosed = s.en.pclosed := rfl
@[simp] theorem withMmas_en_papp (s : State) (l : List Mma) : (withMmas s l).en.papp = s.en.papp := rfl
@[simp] theorem withMmas_en_relq (s : State) (l : List Mma) : (withMmas s l).en.relq = s.en.relq := rfl
@[simp] theorem withMmas_en_olds (s : State) (l : List Mma) : (withMmas s l).en.olds = s.en.olds := rfl
@[simp] theorem withMmas_en_qheld (s : State) (l : List Mma) : (withMmas s l).en.qheld = s.en.qheld := rfl

@[simp] theorem withBatches_ms (s : State) (l : List Batch) : (withBatches s l).ms = s.ms := rfl
@[simp] theorem withBatches_cs (s : State) (l : List Batch) : (withBatches s l).cs = s.cs := rfl
@[simp] theorem withBatches_fb (s : State) (l : List Batch) : (withBatches s l).fb = s.fb := rfl
@[simp] theorem withBatches_qs (s : State) (l : List Batch) : (withBatches s l).qs = s.qs := rfl
@[simp] theorem withBatches_mg (s : State) (l : List Batch) : (withBatches s l).mg = s.mg := rfl
@[simp] theorem withBatches_iss (s : State) (l : List Batch) : (withBatches s l).iss = s.iss := rfl
@[simp] theorem withBatches_agenda (s : State) (l : List Batch) : (withBatches s l).agenda = s.agenda := rfl
@[simp] theorem withBatches_tick (s : State) (l : List Batch) : (withBatches s l).tick = s.tick := rfl
@[simp] theorem withBatches_turn (s : State) (l : List Batch) : (withBatches s l).turn = s.turn := rfl
@[simp] theorem withBatches_en_copies (s : State) (l : List Batch) : (withBatches s l).en.copies = s.en.copies := rfl
@[simp] theorem withBatches_en_board (s : State) (l : List Batch) : (withBatches s l).en.board = s.en.board := rfl
@[simp] theorem withBatches_en_futs (s : State) (l : List Batch) : (withBatches s l).en.futs = s.en.futs := rfl
@[simp] theorem withBatches_en_mmas (s : State) (l : List Batch) : (withBatches s l).en.mmas = s.en.mmas := rfl
@[simp] theorem withBatches_en_batches (s : State) (l : List Batch) : (withBatches s l).en.batches = l := rfl
@[simp] theorem withBatches_en_wins (s : State) (l : List Batch) : (withBatches s l).en.wins = s.en.wins := rfl
@[simp] theorem withBatches_en_sqNo (s : State) (l : List Batch) : (withBatches s l).en.sqNo = s.en.sqNo := rfl
@[simp] theorem withBatches_en_contribs (s : State) (l : List Batch) : (withBatches s l).en.contribs = s.en.contribs := rfl
@[simp] theorem withBatches_en_parts (s : State) (l : List Batch) : (withBatches s l).en.parts = s.en.parts := rfl
@[simp] theorem withBatches_en_pclosed (s : State) (l : List Batch) : (withBatches s l).en.pclosed = s.en.pclosed := rfl
@[simp] theorem withBatches_en_papp (s : State) (l : List Batch) : (withBatches s l).en.papp = s.en.papp := rfl
@[simp] theorem withBatches_en_relq (s : State) (l : List Batch) : (withBatches s l).en.relq = s.en.relq := rfl
@[simp] theorem withBatches_en_olds (s : State) (l : List Batch) : (withBatches s l).en.olds = s.en.olds := rfl
@[simp] theorem withBatches_en_qheld (s : State) (l : List Batch) : (withBatches s l).en.qheld = s.en.qheld := rfl

@[simp] theorem withWins_ms (s : State) (l : List Window) : (withWins s l).ms = s.ms := rfl
@[simp] theorem withWins_cs (s : State) (l : List Window) : (withWins s l).cs = s.cs := rfl
@[simp] theorem withWins_fb (s : State) (l : List Window) : (withWins s l).fb = s.fb := rfl
@[simp] theorem withWins_qs (s : State) (l : List Window) : (withWins s l).qs = s.qs := rfl
@[simp] theorem withWins_mg (s : State) (l : List Window) : (withWins s l).mg = s.mg := rfl
@[simp] theorem withWins_iss (s : State) (l : List Window) : (withWins s l).iss = s.iss := rfl
@[simp] theorem withWins_agenda (s : State) (l : List Window) : (withWins s l).agenda = s.agenda := rfl
@[simp] theorem withWins_tick (s : State) (l : List Window) : (withWins s l).tick = s.tick := rfl
@[simp] theorem withWins_turn (s : State) (l : List Window) : (withWins s l).turn = s.turn := rfl
@[simp] theorem withWins_en_copies (s : State) (l : List Window) : (withWins s l).en.copies = s.en.copies := rfl
@[simp] theorem withWins_en_board (s : State) (l : List Window) : (withWins s l).en.board = s.en.board := rfl
@[simp] theorem withWins_en_futs (s : State) (l : List Window) : (withWins s l).en.futs = s.en.futs := rfl
@[simp] theorem withWins_en_mmas (s : State) (l : List Window) : (withWins s l).en.mmas = s.en.mmas := rfl
@[simp] theorem withWins_en_batches (s : State) (l : List Window) : (withWins s l).en.batches = s.en.batches := rfl
@[simp] theorem withWins_en_wins (s : State) (l : List Window) : (withWins s l).en.wins = l := rfl
@[simp] theorem withWins_en_sqNo (s : State) (l : List Window) : (withWins s l).en.sqNo = s.en.sqNo := rfl
@[simp] theorem withWins_en_contribs (s : State) (l : List Window) : (withWins s l).en.contribs = s.en.contribs := rfl
@[simp] theorem withWins_en_parts (s : State) (l : List Window) : (withWins s l).en.parts = s.en.parts := rfl
@[simp] theorem withWins_en_pclosed (s : State) (l : List Window) : (withWins s l).en.pclosed = s.en.pclosed := rfl
@[simp] theorem withWins_en_papp (s : State) (l : List Window) : (withWins s l).en.papp = s.en.papp := rfl
@[simp] theorem withWins_en_relq (s : State) (l : List Window) : (withWins s l).en.relq = s.en.relq := rfl
@[simp] theorem withWins_en_olds (s : State) (l : List Window) : (withWins s l).en.olds = s.en.olds := rfl
@[simp] theorem withWins_en_qheld (s : State) (l : List Window) : (withWins s l).en.qheld = s.en.qheld := rfl

@[simp] theorem withContribs_ms (s : State) (l : List Contrib) : (withContribs s l).ms = s.ms := rfl
@[simp] theorem withContribs_cs (s : State) (l : List Contrib) : (withContribs s l).cs = s.cs := rfl
@[simp] theorem withContribs_fb (s : State) (l : List Contrib) : (withContribs s l).fb = s.fb := rfl
@[simp] theorem withContribs_qs (s : State) (l : List Contrib) : (withContribs s l).qs = s.qs := rfl
@[simp] theorem withContribs_mg (s : State) (l : List Contrib) : (withContribs s l).mg = s.mg := rfl
@[simp] theorem withContribs_iss (s : State) (l : List Contrib) : (withContribs s l).iss = s.iss := rfl
@[simp] theorem withContribs_agenda (s : State) (l : List Contrib) : (withContribs s l).agenda = s.agenda := rfl
@[simp] theorem withContribs_tick (s : State) (l : List Contrib) : (withContribs s l).tick = s.tick := rfl
@[simp] theorem withContribs_turn (s : State) (l : List Contrib) : (withContribs s l).turn = s.turn := rfl
@[simp] theorem withContribs_en_copies (s : State) (l : List Contrib) : (withContribs s l).en.copies = s.en.copies := rfl
@[simp] theorem withContribs_en_board (s : State) (l : List Contrib) : (withContribs s l).en.board = s.en.board := rfl
@[simp] theorem withContribs_en_futs (s : State) (l : List Contrib) : (withContribs s l).en.futs = s.en.futs := rfl
@[simp] theorem withContribs_en_mmas (s : State) (l : List Contrib) : (withContribs s l).en.mmas = s.en.mmas := rfl
@[simp] theorem withContribs_en_batches (s : State) (l : List Contrib) : (withContribs s l).en.batches = s.en.batches := rfl
@[simp] theorem withContribs_en_wins (s : State) (l : List Contrib) : (withContribs s l).en.wins = s.en.wins := rfl
@[simp] theorem withContribs_en_sqNo (s : State) (l : List Contrib) : (withContribs s l).en.sqNo = s.en.sqNo := rfl
@[simp] theorem withContribs_en_contribs (s : State) (l : List Contrib) : (withContribs s l).en.contribs = l := rfl
@[simp] theorem withContribs_en_parts (s : State) (l : List Contrib) : (withContribs s l).en.parts = s.en.parts := rfl
@[simp] theorem withContribs_en_pclosed (s : State) (l : List Contrib) : (withContribs s l).en.pclosed = s.en.pclosed := rfl
@[simp] theorem withContribs_en_papp (s : State) (l : List Contrib) : (withContribs s l).en.papp = s.en.papp := rfl
@[simp] theorem withContribs_en_relq (s : State) (l : List Contrib) : (withContribs s l).en.relq = s.en.relq := rfl
@[simp] theorem withContribs_en_olds (s : State) (l : List Contrib) : (withContribs s l).en.olds = s.en.olds := rfl
@[simp] theorem withContribs_en_qheld (s : State) (l : List Contrib) : (withContribs s l).en.qheld = s.en.qheld := rfl

@[simp] theorem withParts_ms (s : State) (l : List Partial) : (withParts s l).ms = s.ms := rfl
@[simp] theorem withParts_cs (s : State) (l : List Partial) : (withParts s l).cs = s.cs := rfl
@[simp] theorem withParts_fb (s : State) (l : List Partial) : (withParts s l).fb = s.fb := rfl
@[simp] theorem withParts_qs (s : State) (l : List Partial) : (withParts s l).qs = s.qs := rfl
@[simp] theorem withParts_mg (s : State) (l : List Partial) : (withParts s l).mg = s.mg := rfl
@[simp] theorem withParts_iss (s : State) (l : List Partial) : (withParts s l).iss = s.iss := rfl
@[simp] theorem withParts_agenda (s : State) (l : List Partial) : (withParts s l).agenda = s.agenda := rfl
@[simp] theorem withParts_tick (s : State) (l : List Partial) : (withParts s l).tick = s.tick := rfl
@[simp] theorem withParts_turn (s : State) (l : List Partial) : (withParts s l).turn = s.turn := rfl
@[simp] theorem withParts_en_copies (s : State) (l : List Partial) : (withParts s l).en.copies = s.en.copies := rfl
@[simp] theorem withParts_en_board (s : State) (l : List Partial) : (withParts s l).en.board = s.en.board := rfl
@[simp] theorem withParts_en_futs (s : State) (l : List Partial) : (withParts s l).en.futs = s.en.futs := rfl
@[simp] theorem withParts_en_mmas (s : State) (l : List Partial) : (withParts s l).en.mmas = s.en.mmas := rfl
@[simp] theorem withParts_en_batches (s : State) (l : List Partial) : (withParts s l).en.batches = s.en.batches := rfl
@[simp] theorem withParts_en_wins (s : State) (l : List Partial) : (withParts s l).en.wins = s.en.wins := rfl
@[simp] theorem withParts_en_sqNo (s : State) (l : List Partial) : (withParts s l).en.sqNo = s.en.sqNo := rfl
@[simp] theorem withParts_en_contribs (s : State) (l : List Partial) : (withParts s l).en.contribs = s.en.contribs := rfl
@[simp] theorem withParts_en_parts (s : State) (l : List Partial) : (withParts s l).en.parts = l := rfl
@[simp] theorem withParts_en_pclosed (s : State) (l : List Partial) : (withParts s l).en.pclosed = s.en.pclosed := rfl
@[simp] theorem withParts_en_papp (s : State) (l : List Partial) : (withParts s l).en.papp = s.en.papp := rfl
@[simp] theorem withParts_en_relq (s : State) (l : List Partial) : (withParts s l).en.relq = s.en.relq := rfl
@[simp] theorem withParts_en_olds (s : State) (l : List Partial) : (withParts s l).en.olds = s.en.olds := rfl
@[simp] theorem withParts_en_qheld (s : State) (l : List Partial) : (withParts s l).en.qheld = s.en.qheld := rfl

@[simp] theorem withRelq_ms (s : State) (l : List Relaunch) : (withRelq s l).ms = s.ms := rfl
@[simp] theorem withRelq_cs (s : State) (l : List Relaunch) : (withRelq s l).cs = s.cs := rfl
@[simp] theorem withRelq_fb (s : State) (l : List Relaunch) : (withRelq s l).fb = s.fb := rfl
@[simp] theorem withRelq_qs (s : State) (l : List Relaunch) : (withRelq s l).qs = s.qs := rfl
@[simp] theorem withRelq_mg (s : State) (l : List Relaunch) : (withRelq s l).mg = s.mg := rfl
@[simp] theorem withRelq_iss (s : State) (l : List Relaunch) : (withRelq s l).iss = s.iss := rfl
@[simp] theorem withRelq_agenda (s : State) (l : List Relaunch) : (withRelq s l).agenda = s.agenda := rfl
@[simp] theorem withRelq_tick (s : State) (l : List Relaunch) : (withRelq s l).tick = s.tick := rfl
@[simp] theorem withRelq_turn (s : State) (l : List Relaunch) : (withRelq s l).turn = s.turn := rfl
@[simp] theorem withRelq_en_copies (s : State) (l : List Relaunch) : (withRelq s l).en.copies = s.en.copies := rfl
@[simp] theorem withRelq_en_board (s : State) (l : List Relaunch) : (withRelq s l).en.board = s.en.board := rfl
@[simp] theorem withRelq_en_futs (s : State) (l : List Relaunch) : (withRelq s l).en.futs = s.en.futs := rfl
@[simp] theorem withRelq_en_mmas (s : State) (l : List Relaunch) : (withRelq s l).en.mmas = s.en.mmas := rfl
@[simp] theorem withRelq_en_batches (s : State) (l : List Relaunch) : (withRelq s l).en.batches = s.en.batches := rfl
@[simp] theorem withRelq_en_wins (s : State) (l : List Relaunch) : (withRelq s l).en.wins = s.en.wins := rfl
@[simp] theorem withRelq_en_sqNo (s : State) (l : List Relaunch) : (withRelq s l).en.sqNo = s.en.sqNo := rfl
@[simp] theorem withRelq_en_contribs (s : State) (l : List Relaunch) : (withRelq s l).en.contribs = s.en.contribs := rfl
@[simp] theorem withRelq_en_parts (s : State) (l : List Relaunch) : (withRelq s l).en.parts = s.en.parts := rfl
@[simp] theorem withRelq_en_pclosed (s : State) (l : List Relaunch) : (withRelq s l).en.pclosed = s.en.pclosed := rfl
@[simp] theorem withRelq_en_papp (s : State) (l : List Relaunch) : (withRelq s l).en.papp = s.en.papp := rfl
@[simp] theorem withRelq_en_relq (s : State) (l : List Relaunch) : (withRelq s l).en.relq = l := rfl
@[simp] theorem withRelq_en_olds (s : State) (l : List Relaunch) : (withRelq s l).en.olds = s.en.olds := rfl
@[simp] theorem withRelq_en_qheld (s : State) (l : List Relaunch) : (withRelq s l).en.qheld = s.en.qheld := rfl

@[simp] theorem withReqs_ms (s : State) (l : List Req) : (withReqs s l).ms = s.ms := rfl
@[simp] theorem withReqs_cs (s : State) (l : List Req) : (withReqs s l).cs = s.cs := rfl
@[simp] theorem withReqs_en (s : State) (l : List Req) : (withReqs s l).en = s.en := rfl
@[simp] theorem withReqs_qs (s : State) (l : List Req) : (withReqs s l).qs = s.qs := rfl
@[simp] theorem withReqs_mg (s : State) (l : List Req) : (withReqs s l).mg = s.mg := rfl
@[simp] theorem withReqs_iss (s : State) (l : List Req) : (withReqs s l).iss = s.iss := rfl
@[simp] theorem withReqs_agenda (s : State) (l : List Req) : (withReqs s l).agenda = s.agenda := rfl
@[simp] theorem withReqs_tick (s : State) (l : List Req) : (withReqs s l).tick = s.tick := rfl
@[simp] theorem withReqs_turn (s : State) (l : List Req) : (withReqs s l).turn = s.turn := rfl
@[simp] theorem withReqs_fb_node (s : State) (l : List Req) : (withReqs s l).fb.node = s.fb.node := rfl
@[simp] theorem withReqs_fb_reqs (s : State) (l : List Req) : (withReqs s l).fb.reqs = l := rfl
@[simp] theorem withReqs_fb_peers (s : State) (l : List Req) : (withReqs s l).fb.peers = s.fb.peers := rfl
@[simp] theorem withReqs_fb_prel (s : State) (l : List Req) : (withReqs s l).fb.prel = s.fb.prel := rfl
@[simp] theorem withReqs_fb_pwins (s : State) (l : List Req) : (withReqs s l).fb.pwins = s.fb.pwins := rfl
@[simp] theorem withReqs_fb_paths (s : State) (l : List Req) : (withReqs s l).fb.paths = s.fb.paths := rfl
@[simp] theorem withReqs_fb_sent (s : State) (l : List Req) : (withReqs s l).fb.sent = s.fb.sent := rfl
@[simp] theorem withReqs_fb_recv (s : State) (l : List Req) : (withReqs s l).fb.recv = s.fb.recv := rfl
@[simp] theorem withReqs_fb_wrote (s : State) (l : List Req) : (withReqs s l).fb.wrote = s.fb.wrote := rfl
@[simp] theorem withReqs_fb_aps (s : State) (l : List Req) : (withReqs s l).fb.aps = s.fb.aps := rfl
@[simp] theorem withReqs_fb_groups (s : State) (l : List Req) : (withReqs s l).fb.groups = s.fb.groups := rfl
@[simp] theorem withReqs_fb_planes (s : State) (l : List Req) : (withReqs s l).fb.planes = s.fb.planes := rfl
@[simp] theorem withReqs_fb_vers (s : State) (l : List Req) : (withReqs s l).fb.vers = s.fb.vers := rfl

@[simp] theorem withPwins_ms (s : State) (l : List PeerWin) : (withPwins s l).ms = s.ms := rfl
@[simp] theorem withPwins_cs (s : State) (l : List PeerWin) : (withPwins s l).cs = s.cs := rfl
@[simp] theorem withPwins_en (s : State) (l : List PeerWin) : (withPwins s l).en = s.en := rfl
@[simp] theorem withPwins_qs (s : State) (l : List PeerWin) : (withPwins s l).qs = s.qs := rfl
@[simp] theorem withPwins_mg (s : State) (l : List PeerWin) : (withPwins s l).mg = s.mg := rfl
@[simp] theorem withPwins_iss (s : State) (l : List PeerWin) : (withPwins s l).iss = s.iss := rfl
@[simp] theorem withPwins_agenda (s : State) (l : List PeerWin) : (withPwins s l).agenda = s.agenda := rfl
@[simp] theorem withPwins_tick (s : State) (l : List PeerWin) : (withPwins s l).tick = s.tick := rfl
@[simp] theorem withPwins_turn (s : State) (l : List PeerWin) : (withPwins s l).turn = s.turn := rfl
@[simp] theorem withPwins_fb_node (s : State) (l : List PeerWin) : (withPwins s l).fb.node = s.fb.node := rfl
@[simp] theorem withPwins_fb_reqs (s : State) (l : List PeerWin) : (withPwins s l).fb.reqs = s.fb.reqs := rfl
@[simp] theorem withPwins_fb_peers (s : State) (l : List PeerWin) : (withPwins s l).fb.peers = s.fb.peers := rfl
@[simp] theorem withPwins_fb_prel (s : State) (l : List PeerWin) : (withPwins s l).fb.prel = s.fb.prel := rfl
@[simp] theorem withPwins_fb_pwins (s : State) (l : List PeerWin) : (withPwins s l).fb.pwins = l := rfl
@[simp] theorem withPwins_fb_paths (s : State) (l : List PeerWin) : (withPwins s l).fb.paths = s.fb.paths := rfl
@[simp] theorem withPwins_fb_sent (s : State) (l : List PeerWin) : (withPwins s l).fb.sent = s.fb.sent := rfl
@[simp] theorem withPwins_fb_recv (s : State) (l : List PeerWin) : (withPwins s l).fb.recv = s.fb.recv := rfl
@[simp] theorem withPwins_fb_wrote (s : State) (l : List PeerWin) : (withPwins s l).fb.wrote = s.fb.wrote := rfl
@[simp] theorem withPwins_fb_aps (s : State) (l : List PeerWin) : (withPwins s l).fb.aps = s.fb.aps := rfl
@[simp] theorem withPwins_fb_groups (s : State) (l : List PeerWin) : (withPwins s l).fb.groups = s.fb.groups := rfl
@[simp] theorem withPwins_fb_planes (s : State) (l : List PeerWin) : (withPwins s l).fb.planes = s.fb.planes := rfl
@[simp] theorem withPwins_fb_vers (s : State) (l : List PeerWin) : (withPwins s l).fb.vers = s.fb.vers := rfl

@[simp] theorem withPeers_ms (s : State) (l : List (Nat × Word × Mem)) : (withPeers s l).ms = s.ms := rfl
@[simp] theorem withPeers_cs (s : State) (l : List (Nat × Word × Mem)) : (withPeers s l).cs = s.cs := rfl
@[simp] theorem withPeers_en (s : State) (l : List (Nat × Word × Mem)) : (withPeers s l).en = s.en := rfl
@[simp] theorem withPeers_qs (s : State) (l : List (Nat × Word × Mem)) : (withPeers s l).qs = s.qs := rfl
@[simp] theorem withPeers_mg (s : State) (l : List (Nat × Word × Mem)) : (withPeers s l).mg = s.mg := rfl
@[simp] theorem withPeers_iss (s : State) (l : List (Nat × Word × Mem)) : (withPeers s l).iss = s.iss := rfl
@[simp] theorem withPeers_agenda (s : State) (l : List (Nat × Word × Mem)) : (withPeers s l).agenda = s.agenda := rfl
@[simp] theorem withPeers_tick (s : State) (l : List (Nat × Word × Mem)) : (withPeers s l).tick = s.tick := rfl
@[simp] theorem withPeers_turn (s : State) (l : List (Nat × Word × Mem)) : (withPeers s l).turn = s.turn := rfl
@[simp] theorem withPeers_fb_node (s : State) (l : List (Nat × Word × Mem)) : (withPeers s l).fb.node = s.fb.node := rfl
@[simp] theorem withPeers_fb_reqs (s : State) (l : List (Nat × Word × Mem)) : (withPeers s l).fb.reqs = s.fb.reqs := rfl
@[simp] theorem withPeers_fb_peers (s : State) (l : List (Nat × Word × Mem)) : (withPeers s l).fb.peers = l := rfl
@[simp] theorem withPeers_fb_prel (s : State) (l : List (Nat × Word × Mem)) : (withPeers s l).fb.prel = s.fb.prel := rfl
@[simp] theorem withPeers_fb_pwins (s : State) (l : List (Nat × Word × Mem)) : (withPeers s l).fb.pwins = s.fb.pwins := rfl
@[simp] theorem withPeers_fb_paths (s : State) (l : List (Nat × Word × Mem)) : (withPeers s l).fb.paths = s.fb.paths := rfl
@[simp] theorem withPeers_fb_sent (s : State) (l : List (Nat × Word × Mem)) : (withPeers s l).fb.sent = s.fb.sent := rfl
@[simp] theorem withPeers_fb_recv (s : State) (l : List (Nat × Word × Mem)) : (withPeers s l).fb.recv = s.fb.recv := rfl
@[simp] theorem withPeers_fb_wrote (s : State) (l : List (Nat × Word × Mem)) : (withPeers s l).fb.wrote = s.fb.wrote := rfl
@[simp] theorem withPeers_fb_aps (s : State) (l : List (Nat × Word × Mem)) : (withPeers s l).fb.aps = s.fb.aps := rfl
@[simp] theorem withPeers_fb_groups (s : State) (l : List (Nat × Word × Mem)) : (withPeers s l).fb.groups = s.fb.groups := rfl
@[simp] theorem withPeers_fb_planes (s : State) (l : List (Nat × Word × Mem)) : (withPeers s l).fb.planes = s.fb.planes := rfl
@[simp] theorem withPeers_fb_vers (s : State) (l : List (Nat × Word × Mem)) : (withPeers s l).fb.vers = s.fb.vers := rfl

@[simp] theorem withQueues_ms (s : State) (l : List Queue) : (withQueues s l).ms = s.ms := rfl
@[simp] theorem withQueues_cs (s : State) (l : List Queue) : (withQueues s l).cs = s.cs := rfl
@[simp] theorem withQueues_en (s : State) (l : List Queue) : (withQueues s l).en = s.en := rfl
@[simp] theorem withQueues_fb (s : State) (l : List Queue) : (withQueues s l).fb = s.fb := rfl
@[simp] theorem withQueues_mg (s : State) (l : List Queue) : (withQueues s l).mg = s.mg := rfl
@[simp] theorem withQueues_iss (s : State) (l : List Queue) : (withQueues s l).iss = s.iss := rfl
@[simp] theorem withQueues_agenda (s : State) (l : List Queue) : (withQueues s l).agenda = s.agenda := rfl
@[simp] theorem withQueues_tick (s : State) (l : List Queue) : (withQueues s l).tick = s.tick := rfl
@[simp] theorem withQueues_turn (s : State) (l : List Queue) : (withQueues s l).turn = s.turn := rfl
@[simp] theorem withQueues_qs_queues (s : State) (l : List Queue) : (withQueues s l).qs.queues = l := rfl
@[simp] theorem withQueues_qs_deps (s : State) (l : List Queue) : (withQueues s l).qs.deps = s.qs.deps := rfl
@[simp] theorem withQueues_qs_swis (s : State) (l : List Queue) : (withQueues s l).qs.swis = s.qs.swis := rfl
@[simp] theorem withQueues_qs_owake (s : State) (l : List Queue) : (withQueues s l).qs.owake = s.qs.owake := rfl
@[simp] theorem withQueues_qs_mwake (s : State) (l : List Queue) : (withQueues s l).qs.mwake = s.qs.mwake := rfl
@[simp] theorem withQueues_qs_rings (s : State) (l : List Queue) : (withQueues s l).qs.rings = s.qs.rings := rfl
@[simp] theorem withQueues_qs_subs (s : State) (l : List Queue) : (withQueues s l).qs.subs = s.qs.subs := rfl
@[simp] theorem withQueues_qs_launches (s : State) (l : List Queue) : (withQueues s l).qs.launches = s.qs.launches := rfl
@[simp] theorem withQueues_qs_nextId (s : State) (l : List Queue) : (withQueues s l).qs.nextId = s.qs.nextId := rfl
@[simp] theorem withQueues_qs_msix (s : State) (l : List Queue) : (withQueues s l).qs.msix = s.qs.msix := rfl

@[simp] theorem withLaunches_ms (s : State) (l : List Launch) : (withLaunches s l).ms = s.ms := rfl
@[simp] theorem withLaunches_cs (s : State) (l : List Launch) : (withLaunches s l).cs = s.cs := rfl
@[simp] theorem withLaunches_en (s : State) (l : List Launch) : (withLaunches s l).en = s.en := rfl
@[simp] theorem withLaunches_fb (s : State) (l : List Launch) : (withLaunches s l).fb = s.fb := rfl
@[simp] theorem withLaunches_mg (s : State) (l : List Launch) : (withLaunches s l).mg = s.mg := rfl
@[simp] theorem withLaunches_iss (s : State) (l : List Launch) : (withLaunches s l).iss = s.iss := rfl
@[simp] theorem withLaunches_agenda (s : State) (l : List Launch) : (withLaunches s l).agenda = s.agenda := rfl
@[simp] theorem withLaunches_tick (s : State) (l : List Launch) : (withLaunches s l).tick = s.tick := rfl
@[simp] theorem withLaunches_turn (s : State) (l : List Launch) : (withLaunches s l).turn = s.turn := rfl
@[simp] theorem withLaunches_qs_queues (s : State) (l : List Launch) : (withLaunches s l).qs.queues = s.qs.queues := rfl
@[simp] theorem withLaunches_qs_deps (s : State) (l : List Launch) : (withLaunches s l).qs.deps = s.qs.deps := rfl
@[simp] theorem withLaunches_qs_swis (s : State) (l : List Launch) : (withLaunches s l).qs.swis = s.qs.swis := rfl
@[simp] theorem withLaunches_qs_owake (s : State) (l : List Launch) : (withLaunches s l).qs.owake = s.qs.owake := rfl
@[simp] theorem withLaunches_qs_mwake (s : State) (l : List Launch) : (withLaunches s l).qs.mwake = s.qs.mwake := rfl
@[simp] theorem withLaunches_qs_rings (s : State) (l : List Launch) : (withLaunches s l).qs.rings = s.qs.rings := rfl
@[simp] theorem withLaunches_qs_subs (s : State) (l : List Launch) : (withLaunches s l).qs.subs = s.qs.subs := rfl
@[simp] theorem withLaunches_qs_launches (s : State) (l : List Launch) : (withLaunches s l).qs.launches = l := rfl
@[simp] theorem withLaunches_qs_nextId (s : State) (l : List Launch) : (withLaunches s l).qs.nextId = s.qs.nextId := rfl
@[simp] theorem withLaunches_qs_msix (s : State) (l : List Launch) : (withLaunches s l).qs.msix = s.qs.msix := rfl

@[simp] theorem withSubs_ms (s : State) (l : List Submit) : (withSubs s l).ms = s.ms := rfl
@[simp] theorem withSubs_cs (s : State) (l : List Submit) : (withSubs s l).cs = s.cs := rfl
@[simp] theorem withSubs_en (s : State) (l : List Submit) : (withSubs s l).en = s.en := rfl
@[simp] theorem withSubs_fb (s : State) (l : List Submit) : (withSubs s l).fb = s.fb := rfl
@[simp] theorem withSubs_mg (s : State) (l : List Submit) : (withSubs s l).mg = s.mg := rfl
@[simp] theorem withSubs_iss (s : State) (l : List Submit) : (withSubs s l).iss = s.iss := rfl
@[simp] theorem withSubs_agenda (s : State) (l : List Submit) : (withSubs s l).agenda = s.agenda := rfl
@[simp] theorem withSubs_tick (s : State) (l : List Submit) : (withSubs s l).tick = s.tick := rfl
@[simp] theorem withSubs_turn (s : State) (l : List Submit) : (withSubs s l).turn = s.turn := rfl
@[simp] theorem withSubs_qs_queues (s : State) (l : List Submit) : (withSubs s l).qs.queues = s.qs.queues := rfl
@[simp] theorem withSubs_qs_deps (s : State) (l : List Submit) : (withSubs s l).qs.deps = s.qs.deps := rfl
@[simp] theorem withSubs_qs_swis (s : State) (l : List Submit) : (withSubs s l).qs.swis = s.qs.swis := rfl
@[simp] theorem withSubs_qs_owake (s : State) (l : List Submit) : (withSubs s l).qs.owake = s.qs.owake := rfl
@[simp] theorem withSubs_qs_mwake (s : State) (l : List Submit) : (withSubs s l).qs.mwake = s.qs.mwake := rfl
@[simp] theorem withSubs_qs_rings (s : State) (l : List Submit) : (withSubs s l).qs.rings = s.qs.rings := rfl
@[simp] theorem withSubs_qs_subs (s : State) (l : List Submit) : (withSubs s l).qs.subs = l := rfl
@[simp] theorem withSubs_qs_launches (s : State) (l : List Submit) : (withSubs s l).qs.launches = s.qs.launches := rfl
@[simp] theorem withSubs_qs_nextId (s : State) (l : List Submit) : (withSubs s l).qs.nextId = s.qs.nextId := rfl
@[simp] theorem withSubs_qs_msix (s : State) (l : List Submit) : (withSubs s l).qs.msix = s.qs.msix := rfl

@[simp] theorem withDeps_ms (s : State) (l : List Dep) : (withDeps s l).ms = s.ms := rfl
@[simp] theorem withDeps_cs (s : State) (l : List Dep) : (withDeps s l).cs = s.cs := rfl
@[simp] theorem withDeps_en (s : State) (l : List Dep) : (withDeps s l).en = s.en := rfl
@[simp] theorem withDeps_fb (s : State) (l : List Dep) : (withDeps s l).fb = s.fb := rfl
@[simp] theorem withDeps_mg (s : State) (l : List Dep) : (withDeps s l).mg = s.mg := rfl
@[simp] theorem withDeps_iss (s : State) (l : List Dep) : (withDeps s l).iss = s.iss := rfl
@[simp] theorem withDeps_agenda (s : State) (l : List Dep) : (withDeps s l).agenda = s.agenda := rfl
@[simp] theorem withDeps_tick (s : State) (l : List Dep) : (withDeps s l).tick = s.tick := rfl
@[simp] theorem withDeps_turn (s : State) (l : List Dep) : (withDeps s l).turn = s.turn := rfl
@[simp] theorem withDeps_qs_queues (s : State) (l : List Dep) : (withDeps s l).qs.queues = s.qs.queues := rfl
@[simp] theorem withDeps_qs_deps (s : State) (l : List Dep) : (withDeps s l).qs.deps = l := rfl
@[simp] theorem withDeps_qs_swis (s : State) (l : List Dep) : (withDeps s l).qs.swis = s.qs.swis := rfl
@[simp] theorem withDeps_qs_owake (s : State) (l : List Dep) : (withDeps s l).qs.owake = s.qs.owake := rfl
@[simp] theorem withDeps_qs_mwake (s : State) (l : List Dep) : (withDeps s l).qs.mwake = s.qs.mwake := rfl
@[simp] theorem withDeps_qs_rings (s : State) (l : List Dep) : (withDeps s l).qs.rings = s.qs.rings := rfl
@[simp] theorem withDeps_qs_subs (s : State) (l : List Dep) : (withDeps s l).qs.subs = s.qs.subs := rfl
@[simp] theorem withDeps_qs_launches (s : State) (l : List Dep) : (withDeps s l).qs.launches = s.qs.launches := rfl
@[simp] theorem withDeps_qs_nextId (s : State) (l : List Dep) : (withDeps s l).qs.nextId = s.qs.nextId := rfl
@[simp] theorem withDeps_qs_msix (s : State) (l : List Dep) : (withDeps s l).qs.msix = s.qs.msix := rfl

@[simp] theorem withCtxs_ms (s : State) (l : List Ctx) : (withCtxs s l).ms = s.ms := rfl
@[simp] theorem withCtxs_cs (s : State) (l : List Ctx) : (withCtxs s l).cs = s.cs := rfl
@[simp] theorem withCtxs_en (s : State) (l : List Ctx) : (withCtxs s l).en = s.en := rfl
@[simp] theorem withCtxs_fb (s : State) (l : List Ctx) : (withCtxs s l).fb = s.fb := rfl
@[simp] theorem withCtxs_qs (s : State) (l : List Ctx) : (withCtxs s l).qs = s.qs := rfl
@[simp] theorem withCtxs_iss (s : State) (l : List Ctx) : (withCtxs s l).iss = s.iss := rfl
@[simp] theorem withCtxs_agenda (s : State) (l : List Ctx) : (withCtxs s l).agenda = s.agenda := rfl
@[simp] theorem withCtxs_tick (s : State) (l : List Ctx) : (withCtxs s l).tick = s.tick := rfl
@[simp] theorem withCtxs_turn (s : State) (l : List Ctx) : (withCtxs s l).turn = s.turn := rfl
@[simp] theorem withCtxs_mg_ctxs (s : State) (l : List Ctx) : (withCtxs s l).mg.ctxs = l := rfl
@[simp] theorem withCtxs_mg_parts (s : State) (l : List Ctx) : (withCtxs s l).mg.parts = s.mg.parts := rfl
@[simp] theorem withCtxs_mg_owner (s : State) (l : List Ctx) : (withCtxs s l).mg.owner = s.mg.owner := rfl
@[simp] theorem withCtxs_mg_beat (s : State) (l : List Ctx) : (withCtxs s l).mg.beat = s.mg.beat := rfl
@[simp] theorem withCtxs_mg_nonces (s : State) (l : List Ctx) : (withCtxs s l).mg.nonces = s.mg.nonces := rfl
@[simp] theorem withCtxs_mg_ownKeys (s : State) (l : List Ctx) : (withCtxs s l).mg.ownKeys = s.mg.ownKeys := rfl
@[simp] theorem withCtxs_mg_recovery (s : State) (l : List Ctx) : (withCtxs s l).mg.recovery = s.mg.recovery := rfl
@[simp] theorem withCtxs_mg_image (s : State) (l : List Ctx) : (withCtxs s l).mg.image = s.mg.image := rfl
@[simp] theorem withCtxs_mg_nextImg (s : State) (l : List Ctx) : (withCtxs s l).mg.nextImg = s.mg.nextImg := rfl
@[simp] theorem withCtxs_mg_bringUp (s : State) (l : List Ctx) : (withCtxs s l).mg.bringUp = s.mg.bringUp := rfl
@[simp] theorem withCtxs_mg_off (s : State) (l : List Ctx) : (withCtxs s l).mg.off = s.mg.off := rfl
@[simp] theorem withCtxs_mg_mhz (s : State) (l : List Ctx) : (withCtxs s l).mg.mhz = s.mg.mhz := rfl
@[simp] theorem withCtxs_mg_pwr (s : State) (l : List Ctx) : (withCtxs s l).mg.pwr = s.mg.pwr := rfl
@[simp] theorem withCtxs_mg_ppwr (s : State) (l : List Ctx) : (withCtxs s l).mg.ppwr = s.mg.ppwr := rfl
@[simp] theorem withCtxs_mg_temps (s : State) (l : List Ctx) : (withCtxs s l).mg.temps = s.mg.temps := rfl
@[simp] theorem withCtxs_mg_throttle (s : State) (l : List Ctx) : (withCtxs s l).mg.throttle = s.mg.throttle := rfl
@[simp] theorem withCtxs_mg_eccc (s : State) (l : List Ctx) : (withCtxs s l).mg.eccc = s.mg.eccc := rfl
@[simp] theorem withCtxs_mg_eccU (s : State) (l : List Ctx) : (withCtxs s l).mg.eccU = s.mg.eccU := rfl
@[simp] theorem withCtxs_mg_zeroed (s : State) (l : List Ctx) : (withCtxs s l).mg.zeroed = s.mg.zeroed := rfl
@[simp] theorem withCtxs_mg_retHbm (s : State) (l : List Ctx) : (withCtxs s l).mg.retHbm = s.mg.retHbm := rfl
@[simp] theorem withCtxs_mg_retLp (s : State) (l : List Ctx) : (withCtxs s l).mg.retLp = s.mg.retLp := rfl
@[simp] theorem withCtxs_mg_retPort (s : State) (l : List Ctx) : (withCtxs s l).mg.retPort = s.mg.retPort := rfl
@[simp] theorem withCtxs_mg_warm (s : State) (l : List Ctx) : (withCtxs s l).mg.warm = s.mg.warm := rfl
@[simp] theorem withCtxs_mg_rsp (s : State) (l : List Ctx) : (withCtxs s l).mg.rsp = s.mg.rsp := rfl
@[simp] theorem withCtxs_mg_pages (s : State) (l : List Ctx) : (withCtxs s l).mg.pages = s.mg.pages := rfl
@[simp] theorem withCtxs_mg_holes (s : State) (l : List Ctx) : (withCtxs s l).mg.holes = s.mg.holes := rfl
@[simp] theorem withCtxs_mg_ns (s : State) (l : List Ctx) : (withCtxs s l).mg.ns = s.mg.ns := rfl
@[simp] theorem withCtxs_mg_fw (s : State) (l : List Ctx) : (withCtxs s l).mg.fw = s.mg.fw := rfl
@[simp] theorem withCtxs_mg_fwMem (s : State) (l : List Ctx) : (withCtxs s l).mg.fwMem = s.mg.fwMem := rfl
@[simp] theorem withCtxs_mg_fwq (s : State) (l : List Ctx) : (withCtxs s l).mg.fwq = s.mg.fwq := rfl

@[simp] theorem withSwis_ms (s : State) (l : List SwiOr) : (withSwis s l).ms = s.ms := rfl
@[simp] theorem withSwis_cs (s : State) (l : List SwiOr) : (withSwis s l).cs = s.cs := rfl
@[simp] theorem withSwis_en (s : State) (l : List SwiOr) : (withSwis s l).en = s.en := rfl
@[simp] theorem withSwis_fb (s : State) (l : List SwiOr) : (withSwis s l).fb = s.fb := rfl
@[simp] theorem withSwis_mg (s : State) (l : List SwiOr) : (withSwis s l).mg = s.mg := rfl
@[simp] theorem withSwis_iss (s : State) (l : List SwiOr) : (withSwis s l).iss = s.iss := rfl
@[simp] theorem withSwis_agenda (s : State) (l : List SwiOr) : (withSwis s l).agenda = s.agenda := rfl
@[simp] theorem withSwis_tick (s : State) (l : List SwiOr) : (withSwis s l).tick = s.tick := rfl
@[simp] theorem withSwis_turn (s : State) (l : List SwiOr) : (withSwis s l).turn = s.turn := rfl
@[simp] theorem withSwis_qs_queues (s : State) (l : List SwiOr) : (withSwis s l).qs.queues = s.qs.queues := rfl
@[simp] theorem withSwis_qs_deps (s : State) (l : List SwiOr) : (withSwis s l).qs.deps = s.qs.deps := rfl
@[simp] theorem withSwis_qs_swis (s : State) (l : List SwiOr) : (withSwis s l).qs.swis = l := rfl
@[simp] theorem withSwis_qs_owake (s : State) (l : List SwiOr) : (withSwis s l).qs.owake = s.qs.owake := rfl
@[simp] theorem withSwis_qs_mwake (s : State) (l : List SwiOr) : (withSwis s l).qs.mwake = s.qs.mwake := rfl
@[simp] theorem withSwis_qs_rings (s : State) (l : List SwiOr) : (withSwis s l).qs.rings = s.qs.rings := rfl
@[simp] theorem withSwis_qs_subs (s : State) (l : List SwiOr) : (withSwis s l).qs.subs = s.qs.subs := rfl
@[simp] theorem withSwis_qs_launches (s : State) (l : List SwiOr) : (withSwis s l).qs.launches = s.qs.launches := rfl
@[simp] theorem withSwis_qs_nextId (s : State) (l : List SwiOr) : (withSwis s l).qs.nextId = s.qs.nextId := rfl
@[simp] theorem withSwis_qs_msix (s : State) (l : List SwiOr) : (withSwis s l).qs.msix = s.qs.msix := rfl

end Sys2Proof.Machine
end

