-- ==== Sys2Proof/Laws/Tables.lean ====
section
/-! SUPPORT. Finding what was put: tables keyed by a number, one pair of lemmas per table. -/

namespace Sys2Proof.Machine

/-- After replacing the entries of key x's key, that key finds x when it found something. -/
theorem find_updIf_same {α κ : Type} [DecidableEq κ] (key : α → κ) (x : α) (l : List α)
    (h : (l.find? fun y => key y == key x).isSome) :
    (updIf (fun y => key y == key x) x l).find? (fun y => key y == key x) = some x := by
  induction l with
  | nil => simp at h
  | cons a r ih =>
    by_cases ha : key a = key x
    · simp [updIf, ha]
    · have h' : (r.find? fun y => key y == key x).isSome := by simpa [List.find?_cons, ha] using h
      have := ih h'
      simpa [updIf, List.find?_cons, ha] using this

/-- Other keys find what they found. -/
theorem find_updIf_other {α κ : Type} [DecidableEq κ] (key : α → κ) (x : α) (l : List α) (k : κ) (h : k ≠ key x) :
    (updIf (fun y => key y == key x) x l).find? (fun y => key y == k) = l.find? (fun y => key y == k) := by
  induction l with
  | nil => rfl
  | cons a r ih =>
    by_cases ha : key a = key x
    · have hx : ¬ key x = k := fun e => h e.symm
      have hk : ¬ key a = k := by rw [ha]; exact hx
      simpa [updIf, List.find?_cons, ha, hx, hk] using ih
    · by_cases hk : key a = k
      · have hkx : ¬ k = key x := h
        simp [updIf, hk, hkx]
      · simpa [updIf, List.find?_cons, ha, hk] using ih

/-! ## Sheets -/

theorem getSheet_key {s : State} {k : Nat} {sh : Sheet} (h : getSheet s k = some sh) : sh.key = k := by
  simpa using List.find?_some h

theorem getSheet_setSheet {s : State} {sh x : Sheet} (h : getSheet s x.key = some sh) : getSheet (setSheet s x) x.key = some x :=
  find_updIf_same (fun y : Sheet => y.key) x s.cs.sheets (by have := h; simp only [getSheet] at this; simp [this])

theorem getSheet_setSheet_other {s : State} {x : Sheet} {k : Nat} (h : k ≠ x.key) : getSheet (setSheet s x) k = getSheet s k :=
  find_updIf_other (fun y : Sheet => y.key) x s.cs.sheets k h

@[simp] theorem getSheet_setPallet (s : State) (p : Pallet) (k : Nat) : getSheet (setPallet s p) k = getSheet s k := rfl
@[simp] theorem getSheet_setCtx (s : State) (p : Ctx) (k : Nat) : getSheet (setCtx s p) k = getSheet s k := rfl
@[simp] theorem getSheet_withCyc (s : State) (n k : Nat) : getSheet (withCyc s n) k = getSheet s k := rfl

/-! ## Pallets, contexts, launches, queues, futures -/

theorem getPallet_key {s : State} {k : Nat} {p : Pallet} (h : getPallet s k = some p) : p.key = k := by
  simpa using List.find?_some h
theorem getPallet_setPallet {s : State} {p x : Pallet} (h : getPallet s x.key = some p) :
    getPallet (setPallet s x) x.key = some x :=
  find_updIf_same (fun y : Pallet => y.key) x s.cs.pallets (by have := h; simp only [getPallet] at this; simp [this])
theorem getPallet_setPallet_other {s : State} {x : Pallet} {k : Nat} (h : k ≠ x.key) :
    getPallet (setPallet s x) k = getPallet s k :=
  find_updIf_other (fun y : Pallet => y.key) x s.cs.pallets k h
@[simp] theorem getPallet_setSheet (s : State) (x : Sheet) (k : Nat) : getPallet (setSheet s x) k = getPallet s k := rfl
@[simp] theorem getPallet_setCtx (s : State) (x : Ctx) (k : Nat) : getPallet (setCtx s x) k = getPallet s k := rfl
@[simp] theorem getPallet_withCyc (s : State) (n k : Nat) : getPallet (withCyc s n) k = getPallet s k := rfl

theorem getCtx_key {s : State} {k : Word} {c : Ctx} (h : getCtx s k = some c) : c.cid = k := by
  simpa using List.find?_some h
theorem getCtx_setCtx {s : State} {c x : Ctx} (h : getCtx s x.cid = some c) : getCtx (setCtx s x) x.cid = some x :=
  find_updIf_same (fun y : Ctx => y.cid) x s.mg.ctxs (by have := h; simp only [getCtx] at this; simp [this])
theorem getCtx_setCtx_other {s : State} {x : Ctx} {k : Word} (h : k ≠ x.cid) : getCtx (setCtx s x) k = getCtx s k :=
  find_updIf_other (fun y : Ctx => y.cid) x s.mg.ctxs k h
@[simp] theorem getCtx_setSheet (s : State) (x : Sheet) (k : Word) : getCtx (setSheet s x) k = getCtx s k := rfl
@[simp] theorem getCtx_setPallet (s : State) (x : Pallet) (k : Word) : getCtx (setPallet s x) k = getCtx s k := rfl
@[simp] theorem getCtx_withCyc (s : State) (n : Nat) (k : Word) : getCtx (withCyc s n) k = getCtx s k := rfl

theorem getLaunch_key {s : State} {k : Nat} {x : Launch} (h : getLaunch s k = some x) : x.key = k := by
  simpa using List.find?_some h
theorem getLaunch_setLaunch {s : State} {c x : Launch} (h : getLaunch s x.key = some c) :
    getLaunch (setLaunch s x) x.key = some x :=
  find_updIf_same (fun y : Launch => y.key) x s.qs.launches (by have := h; simp only [getLaunch] at this; simp [this])

theorem getQueue_key {s : State} {k : Nat} {x : Queue} (h : getQueue s k = some x) : x.num = k := by
  simpa using List.find?_some h
theorem getQueue_setQueue {s : State} {c x : Queue} (h : getQueue s x.num = some c) : getQueue (setQueue s x) x.num = some x :=
  find_updIf_same (fun y : Queue => y.num) x s.qs.queues (by have := h; simp only [getQueue] at this; simp [this])
theorem getQueue_setQueue_other {s : State} {x : Queue} {k : Nat} (h : k ≠ x.num) : getQueue (setQueue s x) k = getQueue s k :=
  find_updIf_other (fun y : Queue => y.num) x s.qs.queues k h

theorem getFuture_key {s : State} {k : Word} {x : Future} (h : getFuture s k = some x) : x.handle = k := by
  simpa using List.find?_some h
theorem getFuture_setFuture {s : State} {c x : Future} (h : getFuture s x.handle = some c) :
    getFuture (setFuture s x) x.handle = some x :=
  find_updIf_same (fun y : Future => y.handle) x s.en.futs (by have := h; simp only [getFuture] at this; simp [this])

/-! ## Sparse tables -/

theorem sGet_sPut_same {α : Type} (t : Sparse α) (k : Nat) (x : α) : sGet (sPut t k x) k = some x := by
  induction t with
  | nil => simp [sPut, sGet]
  | cons a r ih =>
    obtain ⟨i, y⟩ := a
    simp only [sPut]
    split
    · simp [sGet]
    · split
      · simp [sGet]
      · rename_i h1 h2
        simp [sGet, h1, ih]

theorem sGet_sPut_other {α : Type} (t : Sparse α) (k j : Nat) (x : α) (h : j ≠ k) : sGet (sPut t k x) j = sGet t j := by
  induction t with
  | nil => simp [sPut, sGet, Ne.symm h]
  | cons a r ih =>
    obtain ⟨i, y⟩ := a
    simp only [sPut]
    split
    · rename_i hi; subst hi; simp [sGet, Ne.symm h]
    · split
      · simp [sGet, Ne.symm h]
      · by_cases hij : i = j
        · simp [sGet, hij]
        · simp [sGet, hij, ih]

end Sys2Proof.Machine
end

