-- ==== Sys2Proof/Laws/Lanes.lean ====
section
/-! SUPPORT. What a vector instruction comes to when it acts in one lane: `vec_solo` runs it, `solo_wentOn` and `solo_only` say what
the finished instruction leaves. -/

namespace Sys2Proof.Machine

/-! ## Results in one lane -/

/-- What a result does to the thread it goes to. -/
def Wr.onThread : Wr → Thread → Thread
  | .g n x, t => { t with g := t.g.set n x, gp := t.gp.filter fun i => i != n }
  | .f n x tag, t => { t with f := t.f.set n x, ft := t.ft.set n tag }
  | .q n x, t => { t with q := t.q.set n x }
  | .e n x, t => { t with e := t.e.set n x }
  | .k _ _, t => t
  | .thr h, t => h t

/-- What some results do to a thread, in order. -/
def onThread (ws : List Wr) (t : Thread) : Thread := ws.foldl (fun t w => w.onThread t) t

@[simp] theorem onThread_nil (t : Thread) : onThread [] t = t := rfl
@[simp] theorem onThread_cons (w : Wr) (ws : List Wr) (t : Thread) : onThread (w :: ws) t = onThread ws (w.onThread t) := rfl

theorem onThread_append (a b : List Wr) (t : Thread) : onThread (a ++ b) t = onThread b (onThread a t) := by
  simp [onThread, List.foldl_append]

/-- What a result of a lane of column c does to the sheet's k registers. -/
def Wr.onKs (c : Nat) : Wr → Sparse (List Word) → Sparse (List Word)
  | .k n x, t => sPut t c ((sGetD t c zeroK).set n x)
  | _, t => t

/-- What some results do to the k registers, in order. -/
def onKs (c : Nat) (ws : List Wr) (t : Sparse (List Word)) : Sparse (List Word) := ws.foldl (fun t w => w.onKs c t) t

@[simp] theorem onKs_nil (c : Nat) (t : Sparse (List Word)) : onKs c [] t = t := rfl
@[simp] theorem onKs_cons (c : Nat) (w : Wr) (ws : List Wr) (t : Sparse (List Word)) :
    onKs c (w :: ws) t = onKs c ws (w.onKs c t) := rfl
theorem onKs_endSkip (c : Nat) (ws : List Wr) (t : Sparse (List Word)) : onKs c (ws ++ [.thr endSkip]) t = onKs c ws t := by
  simp [onKs, Wr.onKs]
theorem onThread_endSkip (ws : List Wr) (t : Thread) : onThread (ws ++ [.thr endSkip]) t = endSkip (onThread ws t) := by
  simp [onThread, Wr.onThread]
theorem onKs_append (c : Nat) (a b : List Wr) (t : Sparse (List Word)) : onKs c (a ++ b) t = onKs c b (onKs c a t) := by
  simp [onKs, List.foldl_append]

/-- Two sheets that differ only in their lanes' threads, k registers and results on their way. -/
def SameShell (a b : Sheet) : Prop := b = { a with lanes := b.lanes, ks := b.ks, pend := b.pend }

theorem SameShell.refl (a : Sheet) : SameShell a a := rfl
theorem SameShell.trans {a b c : Sheet} (h : SameShell a b) (k : SameShell b c) : SameShell a c := by
  unfold SameShell at *; rw [k, h]

theorem notePend_eq (sh : Sheet) (r : Option Nat) (c : RegC) (l n : Nat) (o : BitVec 64) (ot : BitVec 4) :
    notePend sh r c l n o ot = { sh with pend := (notePend sh r c l n o ot).pend } := by
  unfold notePend; dsimp only; split
  · rfl
  · split <;> rfl

@[simp] theorem notePend_lanes (sh : Sheet) (r : Option Nat) (c : RegC) (l n : Nat) (o : BitVec 64) (ot : BitVec 4) :
    (notePend sh r c l n o ot).lanes = sh.lanes := by rw [notePend_eq]

theorem writeLane_shell (sh : Sheet) (r : Option Nat) (l : Nat) (w : Wr) : SameShell sh (writeLane sh r l w) := by
  unfold SameShell writeLane
  split
  · rfl
  · cases w <;> dsimp only <;> first | rfl | (rw [notePend_eq]; rfl)

theorem writeLane_here {sh : Sheet} {t : Thread} (r : Option Nat) (l : Nat) (w : Wr) (h : laneThread sh l = some t) :
    laneThread (writeLane sh r l w) l = some (w.onThread t) := by
  unfold writeLane
  rw [h]
  cases w <;> simp [laneThread, setLane, sGet_sPut_same, Wr.onThread]
  simpa [laneThread] using h

theorem writeLane_other (sh : Sheet) (r : Option Nat) (l k : Nat) (w : Wr) (h : k ≠ l) :
    laneThread (writeLane sh r l w) k = laneThread sh k := by
  unfold writeLane
  split
  · rfl
  · cases w <;> simp [laneThread, setLane, sGet_sPut_other _ _ _ _ h]

theorem writeUnit_shell (ls : List Nat) (r : Option Nat) (sh : Sheet) (w : Wr) : SameShell sh (writeUnit ls r sh w) := by
  have hf : ∀ (ls : List Nat) (sh : Sheet), SameShell sh (ls.foldl (fun sh l => writeLane sh r l w) sh) := by
    intro ls
    induction ls with
    | nil => intro sh; exact .refl sh
    | cons a b ih => intro sh; exact (writeLane_shell sh r a w).trans (ih _)
  cases w with
  | k n x => unfold SameShell writeUnit; dsimp only; rw [notePend_eq]
  | _ => exact hf ls sh

theorem writeUnit_here {sh : Sheet} {t : Thread} (l : Nat) (r : Option Nat) (w : Wr) (h : laneThread sh l = some t) :
    laneThread (writeUnit [l] r sh w) l = some (w.onThread t) := by
  cases w with
  | k n x => simpa [writeUnit, laneThread, Wr.onThread] using h
  | _ => simpa [writeUnit] using writeLane_here r l _ h

theorem writeUnit_other (sh : Sheet) (l k : Nat) (r : Option Nat) (w : Wr) (h : k ≠ l) :
    laneThread (writeUnit [l] r sh w) k = laneThread sh k := by
  cases w with
  | k n x => simp [writeUnit, laneThread]
  | _ => simpa [writeUnit] using writeLane_other sh r l k _ h

theorem writeUnits_shell (ls : List Nat) (r : Option Nat) (ws : List Wr) (sh : Sheet) :
    SameShell sh (ws.foldl (writeUnit ls r) sh) := by
  induction ws generalizing sh with
  | nil => exact .refl sh
  | cons w ws ih => exact (writeUnit_shell ls r sh w).trans (ih _)

theorem notePend_ks (sh : Sheet) (r : Option Nat) (c : RegC) (l n : Nat) (o : BitVec 64) (ot : BitVec 4) :
    (notePend sh r c l n o ot).ks = sh.ks := by rw [notePend_eq]

theorem writeUnit_ks (l : Nat) (r : Option Nat) (sh : Sheet) (w : Wr) :
    (writeUnit [l] r sh w).ks = w.onKs (l % 32) sh.ks := by
  have hl : ∀ w' : Wr, (match w' with | .k _ _ => False | _ => True) → (writeLane sh r l w').ks = sh.ks := by
    intro w' _
    unfold writeLane
    split
    · rfl
    · cases w' <;> simp [setLane, notePend_ks]
  cases w with
  | k n x => simp [writeUnit, Wr.onKs, kImage, notePend_ks]
  | _ => simpa [writeUnit, Wr.onKs] using hl _ trivial

theorem writeUnits_ks (l : Nat) (r : Option Nat) (ws : List Wr) (sh : Sheet) :
    (ws.foldl (writeUnit [l] r) sh).ks = onKs (l % 32) ws sh.ks := by
  induction ws generalizing sh with
  | nil => rfl
  | cons w ws ih => simp only [List.foldl_cons, onKs_cons]; rw [ih, writeUnit_ks]

theorem writeUnits_here {l : Nat} {t : Thread} (r : Option Nat) (ws : List Wr) (sh : Sheet) (h : laneThread sh l = some t) :
    laneThread (ws.foldl (writeUnit [l] r) sh) l = some (onThread ws t) := by
  induction ws generalizing sh t with
  | nil => simpa using h
  | cons w ws ih => simpa using ih _ (writeUnit_here l r w h)

theorem writeUnits_other {l k : Nat} (r : Option Nat) (ws : List Wr) (sh : Sheet) (h : k ≠ l) :
    laneThread (ws.foldl (writeUnit [l] r) sh) k = laneThread sh k := by
  induction ws generalizing sh with
  | nil => rfl
  | cons w ws ih => simp only [List.foldl_cons]; rw [ih, writeUnit_other sh l k r w h]

/-! ## The issue of one lane -/

theorem envOf_sheet {s : State} {k : Nat} {e : Env} (h : envOf s k = some e) : getSheet s k = some e.sh := by
  unfold envOf at h
  simp only [Option.bind_eq_bind, Option.bind_eq_some_iff] at h
  obtain ⟨sh, h1, pl, h2, la, h3, cx, h4, h5⟩ := h
  simp at h5; subst h5; exact h1

theorem envOf_key {s : State} {k : Nat} {e : Env} (h : envOf s k = some e) : e.sh.key = k := getSheet_key (envOf_sheet h)

theorem envOf_pallet {s : State} {k : Nat} {e : Env} (h : envOf s k = some e) : getPallet s e.sh.pal = some e.pl := by
  unfold envOf at h
  simp only [Option.bind_eq_bind, Option.bind_eq_some_iff] at h
  obtain ⟨sh, h1, pl, h2, la, h3, cx, h4, h5⟩ := h
  simp at h5; subst h5; exact h2

theorem envOf_launch {s : State} {k : Nat} {e : Env} (h : envOf s k = some e) : getLaunch s e.pl.launch = some e.la := by
  unfold envOf at h
  simp only [Option.bind_eq_bind, Option.bind_eq_some_iff] at h
  obtain ⟨sh, h1, pl, h2, la, h3, cx, h4, h5⟩ := h
  simp at h5; subst h5; exact h3

theorem envOf_ctx {s : State} {k : Nat} {e : Env} (h : envOf s k = some e) : getCtx s e.la.cid = some e.cx := by
  unfold envOf at h
  simp only [Option.bind_eq_bind, Option.bind_eq_some_iff] at h
  obtain ⟨sh, h1, pl, h2, la, h3, cx, h4, h5⟩ := h
  simp at h5; subst h5; exact h4

theorem viewOf_fields {s : State} {e : Env} {f : Fld} {c : Nat} {ls : List Nat} {v : LV} (h : viewOf s e f c ls = some v) :
    v.env = e ∧ v.iss = s.iss ∧ v.f = f ∧ v.lane = ls.headD 0 ∧ v.lanes = ls ∧ v.cyc = c ∧ v.tick = s.tick ∧
      laneThread e.sh (ls.headD 0) = some v.t := by
  unfold viewOf at h
  rw [Option.map_eq_some_iff] at h
  obtain ⟨t, ht, rfl⟩ := h
  exact ⟨rfl, rfl, rfl, rfl, rfl, rfl, rfl, ht⟩

theorem unitsOf_one (u : Bool) (l : Nat) : unitsOf u [l] = [[l]] := by
  cases u <;> simp [unitsOf]

/-- Issue cycle, cycle of the last pass and cycle of the result of an instruction of a sheet. -/
def soloLast (o : OpForm) (f : Fld) (s : State) (e : Env) : Nat := lastPass o (execFld o f s.iss.run) e.la (issueAt s e.sh)
def soloReady (o : OpForm) (f : Fld) (s : State) (e : Env) : Option Nat := o.lat.map fun n => soloLast o f s e + n

/-- The state in which an instruction of one lane ends, from the state and the results that its body answers. -/
def soloEnd (count : Bool) (o : OpForm) (f : Fld) (s : State) (e : Env) (l : Nat) (s1 : State) (ws : List Wr) : State :=
  let g := execFld o f s.iss.run
  let t := afterIssue (writeAll s1 e.sh.key [l] (soloReady o f s e) ws) e.sh.key (issueAt s e.sh) (soloLast o f s e) f.stl.toNat
    (if g.u then 1 else 1 * o.occ g)
  finish t e.sh.key e.pl.key (maskOf [l]) ⟨t, [l], [], 0, []⟩ count

/-- A vector instruction that acts in one lane and whose body completes. -/
theorem vecWith_solo {count : Bool} {o : OpForm} {f : Fld} {s : State} {e : Env} {l : Nat} {v : LV}
    {body : LV → State → LaneRes} {s1 : State} {ws : List Wr} (h : Solo o f s e l v) (hb : body v s = .ok s1 ws) :
    vecWith count o f s body = .next (soloEnd count o f s e l s1 (ws ++ [.thr endSkip])) := by
  obtain ⟨henv, hdec, hacts, hview, hg, hops, ht, hq, hblk⟩ := h
  have hkey : e.sh.key = s.iss.sheet := envOf_key henv
  have hrun : runUnit o (execFld o f s.iss.run) (issueAt s e.sh) (soloReady o f s e) e.sh.key body none (Tally.start s) [l] =
      ⟨writeAll s1 e.sh.key [l] (soloReady o f s e) (ws ++ [.thr endSkip]), [l], [], 0, []⟩ := by
    unfold runUnit
    have henv' : envOf s e.sh.key = some e := by rw [hkey]; exact henv
    simp only [Tally.start, List.isEmpty_nil, Bool.not_true, Bool.false_and, List.any_nil, Bool.or_self, Bool.false_eq_true, if_false,
      Option.any_none, henv', Option.bind_some, hview, LV.firstFault, hg, hops, ht, hq, Option.none_or, hblk, hb, List.nil_append]
  unfold vecWith
  simp only [henv, hdec]
  unfold actLanes at hacts
  rw [hacts]
  simp only [unitsOf_one, List.length_singleton]
  unfold soloReady soloLast at hrun
  unfold runUnits
  simp only [List.foldl_cons, List.foldl_nil, hrun]
  rfl

theorem vec_solo {o : OpForm} {f : Fld} {s : State} {e : Env} {l : Nat} {v : LV} {body : LV → State → LaneRes} {s1 : State}
    {ws : List Wr} (h : Solo o f s e l v) (hb : body v s = .ok s1 ws) :
    vec o f s body = .next (soloEnd true o f s e l s1 (ws ++ [.thr endSkip])) := vecWith_solo h hb

theorem pure_solo {o : OpForm} {f : Fld} {s : State} {e : Env} {l : Nat} {v : LV} {g : LV → List Wr} (h : Solo o f s e l v) :
    pureOp o f s g = .next (soloEnd true o f s e l s (g v ++ [.thr endSkip])) := vec_solo h rfl

/-! ## What the end leaves -/

theorem maskOf_one (l : Nat) : maskOf [l] = 1#128 <<< l := by simp [maskOf]

theorem allDone_all (sh : Sheet) (m : BitVec 128) :
    allDone { sh with done := sh.done ||| (m &&& maskOf (sh.lanes.map (·.1))) } m = true := by
  unfold allDone
  simp only [beq_iff_eq]
  ext i
  simp
  intro a b c
  simp [a, b]

/-- After the end every sheet but the issuing one is as it was. -/
theorem retire_sheets (s : State) (pal n k : Nat) : getSheet (retire s pal n) k = getSheet s k := by
  unfold retire
  split
  · rfl
  · dsimp only
    split
    · split <;> rfl
    · rfl

/-- The parts of the state that retiring does not touch. -/
theorem retire_same (s : State) (pal n : Nat) :
    (retire s pal n).ms = s.ms ∧ (retire s pal n).en = s.en ∧ (retire s pal n).fb = s.fb ∧ (retire s pal n).qs = s.qs ∧
    (retire s pal n).iss = s.iss ∧ (retire s pal n).mg.parts = s.mg.parts ∧
    (retire s pal n).cs = { s.cs with pallets := (retire s pal n).cs.pallets } ∧
    (retire s pal n).agenda = s.agenda ∧ (retire s pal n).tick = s.tick := by
  unfold retire
  split
  · simp
  · dsimp only
    split
    · split <;> simp [setPallet, setCtx, withPallets, withCtxs]
    · simp [setPallet, withPallets]

/-- Retiring changes a pallet's retired-work count only. -/
theorem retire_pallet (s : State) (pal n k : Nat) :
    (getPallet (retire s pal n) k).map (fun p => { p with rwc := 0 }) = (getPallet s k).map (fun p => { p with rwc := 0 }) := by
  unfold retire
  split
  · rfl
  · rename_i p hp
    have key : (getPallet (setPallet s { p with rwc := p.rwc + BitVec.ofNat 32 n }) k).map (fun p => { p with rwc := 0 }) =
        (getPallet s k).map (fun p => { p with rwc := 0 }) := by
      have hk := getPallet_key hp
      by_cases h : k = p.key
      · subst h
        have h1 : getPallet s p.key = some p := by rw [hk]; exact hp
        rw [h1]
        have := @getPallet_setPallet s p { p with rwc := p.rwc + BitVec.ofNat 32 n } h1
        rw [this]; rfl
      · rw [getPallet_setPallet_other (by exact h)]
    dsimp only
    split
    · split
      · exact key
      · simpa using key
    · exact key

/-- Retiring changes a context's watchdog count only. -/
theorem retire_ctx (s : State) (pal n : Nat) (c : Word) :
    (getCtx (retire s pal n) c).map (fun x => { x with wdog := 0 }) = (getCtx s c).map (fun x => { x with wdog := 0 }) := by
  unfold retire
  split
  · rfl
  · rename_i p _
    dsimp only
    split
    · rename_i x hx
      split
      · rfl
      · simp only [Option.bind_eq_some_iff] at hx
        obtain ⟨la, _, hc⟩ := hx
        rw [getCtx_setPallet] at hc
        have hk := getCtx_key hc
        by_cases h : c = x.cid
        · subst h
          have h1 : getCtx s x.cid = some x := by rw [hk]; exact hc
          have := @getCtx_setCtx (setPallet s { p with rwc := p.rwc + BitVec.ofNat 32 n }) x { x with wdog := 0 } (by rw [getCtx_setPallet]; exact h1)
          rw [this, h1]; rfl
        · rw [getCtx_setCtx_other (by exact h), getCtx_setPallet]
    · rfl

/-- `noteIssue` changes nothing but the notes of quadrant 0. -/
theorem noteIssue_eq (s : State) (sh : Sheet) :
    noteIssue s sh = { s with cs := { s.cs with lastQ := (noteIssue s sh).cs.lastQ } } := by
  unfold noteIssue
  split
  · rfl
  · split <;> rfl

@[simp] theorem getSheet_noteIssue (s : State) (sh : Sheet) (k : Nat) : getSheet (noteIssue s sh) k = getSheet s k := by
  rw [noteIssue_eq]; rfl

theorem afterIssue_same (s : State) (key c last stl u : Nat) :
    (afterIssue s key c last stl u).ms = s.ms ∧ (afterIssue s key c last stl u).en = s.en ∧
    (afterIssue s key c last stl u).fb = s.fb ∧ (afterIssue s key c last stl u).qs = s.qs ∧
    (afterIssue s key c last stl u).iss = s.iss ∧ (afterIssue s key c last stl u).mg = s.mg ∧
    (afterIssue s key c last stl u).agenda = s.agenda ∧ (afterIssue s key c last stl u).tick = s.tick ∧
    (afterIssue s key c last stl u).cs.pallets = s.cs.pallets ∧ (afterIssue s key c last stl u).cs.store = s.cs.store ∧
    (afterIssue s key c last stl u).cs.tiles = s.cs.tiles ∧ (afterIssue s key c last stl u).cs.boxes = s.cs.boxes ∧
    (afterIssue s key c last stl u).cs.agents = s.cs.agents := by
  unfold afterIssue
  dsimp only
  cases getSheet s key with
  | none => split <;> simp [setSheet]
  | some sh0 =>
    dsimp only
    rw [noteIssue_eq]
    split <;> simp [setSheet]

theorem afterIssue_other (s : State) (key c last stl u k : Nat) (h : k ≠ key) :
    getSheet (afterIssue s key c last stl u) k = getSheet s k := by
  have main : ∀ t : State, getSheet t k = getSheet s k →
      getSheet (match getSheet (withCyc t (last + 1)) key with
        | none => withCyc t (last + 1)
        | some sh => setSheet (withCyc t (last + 1)) { sh with
            pend := sh.pend.filter fun p => c < p.ready
            lastIssue := c
            notBefore := nextIssue { sh with pend := sh.pend.filter fun p => c < p.ready } stl last
            waitAll := stl == 7 }) k = getSheet s k := by
    intro t ht
    split
    · exact ht
    · rename_i sh hsh
      have hk := getSheet_key hsh
      rw [getSheet_setSheet_other (by dsimp only; omega)]
      exact ht
  unfold afterIssue
  dsimp only
  rcases getSheet s key with _ | sh0
  · exact main s rfl
  · exact main _ (getSheet_noteIssue _ sh0 k)

theorem afterIssue_sheet {s : State} {key : Nat} {sh : Sheet} (c last stl u : Nat) (h : getSheet s key = some sh) :
    getSheet (afterIssue s key c last stl u) key = some { sh with
      pend := sh.pend.filter fun p => c < p.ready
      lastIssue := c
      notBefore := nextIssue { sh with pend := sh.pend.filter fun p => c < p.ready } stl last
      waitAll := stl == 7 } := by
  have hk := getSheet_key h
  unfold afterIssue
  dsimp only
  rw [h]
  dsimp only
  have h2 : ∀ x : Sparse Nat, getSheet (withCyc (noteIssue { s with cs := { s.cs with topd := x } } sh) (last + 1)) key = some sh := by
    intro x; exact (getSheet_noteIssue { s with cs := { s.cs with topd := x } } sh key).trans h
  rw [h2]
  dsimp only
  have h3 := fun (x : Sparse Nat) (y : Sheet) (hy : y.key = key) =>
    @getSheet_setSheet (withCyc (noteIssue { s with cs := { s.cs with topd := x } } sh) (last + 1)) sh y (by rw [hy]; exact h2 x)
  have := h3 (countSlots s sh c last u) { sh with
      pend := sh.pend.filter fun p => c < p.ready
      lastIssue := c
      notBefore := nextIssue { sh with pend := sh.pend.filter fun p => c < p.ready } stl last
      waitAll := stl == 7 } hk
  rw [← this]
  congr 1
  exact hk.symm

theorem writeAll_sheet {s : State} {key : Nat} {sh : Sheet} (ls : List Nat) (r : Option Nat) (ws : List Wr)
    (h : getSheet s key = some sh) : getSheet (writeAll s key ls r ws) key = some (ws.foldl (writeUnit ls r) sh) := by
  have hk := getSheet_key h
  have hsh : (ws.foldl (writeUnit ls r) sh).key = sh.key := by rw [writeUnits_shell ls r ws sh]
  unfold writeAll
  rw [h]
  dsimp only
  have := @getSheet_setSheet s sh (ws.foldl (writeUnit ls r) sh) (by rw [hsh, hk]; exact h)
  rw [← this]
  rw [hsh, hk]

theorem writeAll_other (s : State) (key k : Nat) (ls : List Nat) (r : Option Nat) (ws : List Wr) (h : k ≠ key) :
    getSheet (writeAll s key ls r ws) k = getSheet s k := by
  unfold writeAll
  split
  · rfl
  · rename_i sh hsh
    have hk := getSheet_key hsh
    have : (ws.foldl (writeUnit ls r) sh).key = sh.key := by rw [writeUnits_shell ls r ws sh]
    exact getSheet_setSheet_other (by omega)

theorem writeAll_same (s : State) (key : Nat) (ls : List Nat) (r : Option Nat) (ws : List Wr) :
    writeAll s key ls r ws = withSheets s (writeAll s key ls r ws).cs.sheets := by
  unfold writeAll
  split
  · rfl
  · rfl

theorem sGet_mem {α : Type} {t : Sparse α} {k : Nat} {x : α} (h : sGet t k = some x) : t ≠ [] := by
  rintro rfl; simp [sGet] at h

/-- The state before the sheet is put back. -/
def soloMid (count : Bool) (o : OpForm) (f : Fld) (s : State) (e : Env) (l : Nat) (s1 : State) (ws : List Wr) : State :=
  let g := execFld o f s.iss.run
  let t := afterIssue (writeAll s1 e.sh.key [l] (soloReady o f s e) ws) e.sh.key (issueAt s e.sh) (soloLast o f s e) f.stl.toNat
    (if g.u then 1 else 1 * o.occ g)
  if count then retire t e.pl.key 1 else t

/-- The sheet that an instruction of one lane leaves, before it goes on. -/
def midSheet (o : OpForm) (f : Fld) (s : State) (e : Env) (l : Nat) (sh1 : Sheet) (ws : List Wr) : Sheet :=
  let sh2 := ws.foldl (writeUnit [l] (soloReady o f s e)) sh1
  { sh2 with
    pend := sh2.pend.filter fun p => issueAt s e.sh < p.ready
    lastIssue := issueAt s e.sh
    notBefore := nextIssue { sh2 with pend := sh2.pend.filter fun p => issueAt s e.sh < p.ready } f.stl.toNat (soloLast o f s e)
    waitAll := f.stl.toNat == 7 }

/-- The sheet that an instruction of one lane leaves. -/
def soloSheet (o : OpForm) (f : Fld) (s : State) (e : Env) (l : Nat) (s1 : State) (sh1 : Sheet) (ws : List Wr) : Sheet :=
  advanceTo (midSheet o f s e l sh1 ws) s1.iss.next

theorem soloMid_sheet (count : Bool) {o : OpForm} {f : Fld} {s : State} {e : Env} {l : Nat} {s1 : State} (ws : List Wr)
    {sh1 : Sheet} (h1 : getSheet s1 e.sh.key = some sh1) :
    getSheet (soloMid count o f s e l s1 ws) e.sh.key = some (midSheet o f s e l sh1 ws) := by
  have h2 := writeAll_sheet [l] (soloReady o f s e) ws h1
  have h3 := afterIssue_sheet (issueAt s e.sh) (soloLast o f s e) f.stl.toNat
    (if (execFld o f s.iss.run).u then 1 else 1 * o.occ (execFld o f s.iss.run)) h2
  refine Eq.trans ?_ h3
  unfold soloMid
  cases count
  · rfl
  · exact retire_sheets _ _ _ _

theorem soloMid_same (count : Bool) (o : OpForm) (f : Fld) (s : State) (e : Env) (l : Nat) (s1 : State) (ws : List Wr) :
    let t := soloMid count o f s e l s1 ws
    t.ms = s1.ms ∧ t.en = s1.en ∧ t.fb = s1.fb ∧ t.qs = s1.qs ∧ t.iss = s1.iss ∧ t.mg.parts = s1.mg.parts ∧
    t.agenda = s1.agenda ∧ t.tick = s1.tick ∧ t.cs.store = s1.cs.store ∧ t.cs.tiles = s1.cs.tiles ∧ t.cs.boxes = s1.cs.boxes ∧
    t.cs.agents = s1.cs.agents ∧ (∀ k, k ≠ e.sh.key → getSheet t k = getSheet s1 k) ∧
    (∀ k, (getPallet t k).map (fun p => { p with rwc := 0 }) = (getPallet s1 k).map (fun p => { p with rwc := 0 })) ∧
    (∀ c, (getCtx t c).map (fun x => { x with wdog := 0 }) = (getCtx s1 c).map (fun x => { x with wdog := 0 })) := by
  intro t
  have hw := writeAll_same s1 e.sh.key [l] (soloReady o f s e) ws
  have ha := afterIssue_same (writeAll s1 e.sh.key [l] (soloReady o f s e) ws) e.sh.key (issueAt s e.sh) (soloLast o f s e)
    f.stl.toNat (if (execFld o f s.iss.run).u then 1 else 1 * o.occ (execFld o f s.iss.run))
  have hr := retire_same (afterIssue (writeAll s1 e.sh.key [l] (soloReady o f s e) ws) e.sh.key (issueAt s e.sh)
    (soloLast o f s e) f.stl.toNat (if (execFld o f s.iss.run).u then 1 else 1 * o.occ (execFld o f s.iss.run))) e.pl.key 1
  have hsh : ∀ k, k ≠ e.sh.key → getSheet (soloMid count o f s e l s1 ws) k = getSheet s1 k := by
    intro k hk
    refine Eq.trans ?_ ((afterIssue_other (writeAll s1 e.sh.key [l] (soloReady o f s e) ws) e.sh.key (issueAt s e.sh)
      (soloLast o f s e) f.stl.toNat (if (execFld o f s.iss.run).u then 1 else 1 * o.occ (execFld o f s.iss.run)) k hk).trans
      (writeAll_other s1 e.sh.key k [l] (soloReady o f s e) ws hk))
    unfold soloMid
    cases count
    · rfl
    · exact retire_sheets _ _ _ _
  have hp : ∀ k, getPallet (afterIssue (writeAll s1 e.sh.key [l] (soloReady o f s e) ws) e.sh.key (issueAt s e.sh)
      (soloLast o f s e) f.stl.toNat (if (execFld o f s.iss.run).u then 1 else 1 * o.occ (execFld o f s.iss.run))) k =
      getPallet s1 k := by
    intro k
    unfold getPallet
    rw [ha.2.2.2.2.2.2.2.2.1, hw]; rfl
  have hc : ∀ k, getCtx (afterIssue (writeAll s1 e.sh.key [l] (soloReady o f s e) ws) e.sh.key (issueAt s e.sh)
      (soloLast o f s e) f.stl.toNat (if (execFld o f s.iss.run).u then 1 else 1 * o.occ (execFld o f s.iss.run))) k =
      getCtx s1 k := by
    intro k
    unfold getCtx
    rw [ha.2.2.2.2.2.1, hw]; rfl
  have e1 : ∀ {α : Type} (p : State → α), (∀ x l, p (withSheets x l) = p x) →
      p (writeAll s1 e.sh.key [l] (soloReady o f s e) ws) = p s1 := by
    intro α p h; rw [hw]; exact h _ _
  obtain ⟨a1, a2, a3, a4, a5, a6, a7, a8, a9, a10, a11, a12, a13⟩ := ha
  obtain ⟨r1, r2, r3, r4, r5, r6, r7, r8, r9⟩ := hr
  have hcount : t = soloMid count o f s e l s1 ws := rfl
  unfold soloMid at hcount hsh
  cases count
  · simp only [Bool.false_eq_true, if_false] at hcount hsh
    rw [hcount]
    refine ⟨a1.trans (e1 (·.ms) fun _ _ => rfl), a2.trans (e1 (·.en) fun _ _ => rfl), a3.trans (e1 (·.fb) fun _ _ => rfl),
      a4.trans (e1 (·.qs) fun _ _ => rfl), a5.trans (e1 (·.iss) fun _ _ => rfl), ?_, a7.trans (e1 (·.agenda) fun _ _ => rfl),
      a8.trans (e1 (·.tick) fun _ _ => rfl), a10.trans (e1 (·.cs.store) fun _ _ => rfl), a11.trans (e1 (·.cs.tiles) fun _ _ => rfl),
      a12.trans (e1 (·.cs.boxes) fun _ _ => rfl), a13.trans (e1 (·.cs.agents) fun _ _ => rfl), hsh, ?_, ?_⟩
    · rw [a6]; exact e1 (·.mg.parts) fun _ _ => rfl
    · intro k; rw [hp]
    · intro c; rw [hc]
  · simp only [if_true] at hcount hsh
    rw [hcount]
    refine ⟨(r1.trans a1).trans (e1 (·.ms) fun _ _ => rfl), (r2.trans a2).trans (e1 (·.en) fun _ _ => rfl),
      (r3.trans a3).trans (e1 (·.fb) fun _ _ => rfl), (r4.trans a4).trans (e1 (·.qs) fun _ _ => rfl),
      (r5.trans a5).trans (e1 (·.iss) fun _ _ => rfl), ?_, (r8.trans a7).trans (e1 (·.agenda) fun _ _ => rfl),
      (r9.trans a8).trans (e1 (·.tick) fun _ _ => rfl), ?_, ?_, ?_, ?_, hsh, ?_, ?_⟩
    · rw [r6, a6]; exact e1 (·.mg.parts) fun _ _ => rfl
    · rw [r7]; exact a10.trans (e1 (·.cs.store) fun _ _ => rfl)
    · rw [r7]; exact a11.trans (e1 (·.cs.tiles) fun _ _ => rfl)
    · rw [r7]; exact a12.trans (e1 (·.cs.boxes) fun _ _ => rfl)
    · rw [r7]; exact a13.trans (e1 (·.cs.agents) fun _ _ => rfl)
    · intro k; rw [retire_pallet, hp]
    · intro c; rw [retire_ctx, hc]

/-- How the end of an instruction of one lane puts its sheet back. -/
theorem soloEnd_eq {count : Bool} {o : OpForm} {f : Fld} {s : State} {e : Env} {l : Nat} {s1 : State} {ws : List Wr}
    {sh1 : Sheet} {t1 : Thread} (h1 : getSheet s1 e.sh.key = some sh1) (ht : laneThread sh1 l = some t1) :
    soloEnd count o f s e l s1 ws = setSheet (soloMid count o f s e l s1 ws) (soloSheet o f s e l s1 sh1 ws) := by
  have hmid := soloMid_same count o f s e l s1 ws
  have hs := soloMid_sheet (l := l) (o := o) (f := f) (s := s) count ws h1
  have hne : (ws.foldl (writeUnit [l] (soloReady o f s e)) sh1).lanes ≠ [] :=
    sGet_mem (writeUnits_here (soloReady o f s e) ws sh1 ht)
  unfold soloEnd finish
  simp only [List.isEmpty_nil, Bool.not_true, Bool.false_eq_true, if_false, List.length_singleton]
  have hmid' : (if count = true then retire (afterIssue (writeAll s1 e.sh.key [l] (soloReady o f s e) ws) e.sh.key
      (issueAt s e.sh) (soloLast o f s e) f.stl.toNat
      (if (execFld o f s.iss.run).u = true then 1 else 1 * o.occ (execFld o f s.iss.run))) e.pl.key 1 else
      afterIssue (writeAll s1 e.sh.key [l] (soloReady o f s e) ws) e.sh.key (issueAt s e.sh) (soloLast o f s e) f.stl.toNat
      (if (execFld o f s.iss.run).u = true then 1 else 1 * o.occ (execFld o f s.iss.run))) = soloMid count o f s e l s1 ws := rfl
  rw [hmid', hs]
  dsimp only
  rw [if_pos (allDone_all _ _)]
  unfold putSheet
  have hiss : (soloMid count o f s e l s1 ws).iss = s1.iss := hmid.2.2.2.2.1
  rw [hiss]
  rw [if_neg (by simp [advanceTo, midSheet, hne])]
  rfl

/-- The sheet after an instruction of one lane whose body left the sheets alone but for threads. -/
theorem solo_wentOn {count : Bool} {o : OpForm} {f : Fld} {s : State} {e : Env} {l : Nat} {s1 : State} {ws : List Wr}
    {sh1 : Sheet} {t1 : Thread} (hi : s1.iss = s.iss) (h1 : getSheet s1 e.sh.key = some sh1)
    (hsh : SameShell e.sh sh1) (ht : laneThread sh1 l = some t1)
    (ho : ∀ k, k ≠ l → laneThread sh1 k = laneThread e.sh k) :
    WentOnK s (soloEnd count o f s e l s1 (ws ++ [.thr endSkip])) e l (onThread ws t1) (onKs (l % 32) ws sh1.ks) := by
  rw [← onKs_endSkip (l % 32) ws]
  have hth := onThread_endSkip ws t1
  generalize ws ++ [.thr endSkip] = ws at hth
  have hmid := soloMid_same count o f s e l s1 ws
  have hw := writeUnits_shell [l] (soloReady o f s e) ws sh1
  have hkey : (soloSheet o f s e l s1 sh1 ws).key = e.sh.key := by
    unfold soloSheet midSheet advanceTo; dsimp only; rw [hw]; dsimp only; rw [hsh]
  have hx := soloMid_sheet (l := l) (o := o) (f := f) (s := s) count ws h1
  have hget : getSheet (soloEnd count o f s e l s1 ws) e.sh.key = some (soloSheet o f s e l s1 sh1 ws) := by
    rw [soloEnd_eq h1 ht, ← hkey]
    exact getSheet_setSheet (by rw [hkey]; exact hx)
  have hlanes : ∀ k, laneThread (soloSheet o f s e l s1 sh1 ws) k =
      laneThread (ws.foldl (writeUnit [l] (soloReady o f s e)) sh1) k := fun k => rfl
  refine ⟨⟨_, hget, ?_, rfl, rfl, ?_, ?_, ?_, ?_, ?_⟩, ?_, ?_⟩
  · show s1.iss.next = s.iss.next; rw [hi]
  · show (ws.foldl (writeUnit [l] (soloReady o f s e)) sh1).em = _; rw [hw]; dsimp only; rw [hsh]
  · show (ws.foldl (writeUnit [l] (soloReady o f s e)) sh1).m = _; rw [hw]; dsimp only; rw [hsh]
  · show (ws.foldl (writeUnit [l] (soloReady o f s e)) sh1).course = _; rw [hw]; dsimp only; rw [hsh]
  · show (ws.foldl (writeUnit [l] (soloReady o f s e)) sh1).sleep = _; rw [hw]; dsimp only; rw [hsh]
  · exact writeUnits_ks l _ ws sh1
  · unfold threadAt
    rw [hget, Option.bind_some, hlanes, writeUnits_here _ ws sh1 ht, hth]
  · intro k hk
    unfold threadAt
    rw [hget, Option.bind_some, hlanes, writeUnits_other _ ws sh1 hk, ho k hk]

/-- OnlySheet: outside its sheet, an instruction of one lane changes what its body changed. -/
theorem solo_only {count : Bool} {o : OpForm} {f : Fld} {s : State} {e : Env} {l : Nat} {s1 : State} {ws : List Wr}
    {sh1 : Sheet} {t1 : Thread} (h1 : getSheet s1 e.sh.key = some sh1) (ht : laneThread sh1 l = some t1) :
    OnlySheet s1 (soloEnd count o f s e l s1 ws) e.sh.key := by
  have hw := writeUnits_shell [l] (soloReady o f s e) ws sh1
  have hk1 := getSheet_key h1
  have hkey : (soloSheet o f s e l s1 sh1 ws).key = e.sh.key := by
    unfold soloSheet midSheet advanceTo; dsimp only; rw [hw]; exact hk1
  rw [soloEnd_eq h1 ht]
  obtain ⟨b1, b2, b3, b4, b5, b6, b7, b8, b9, b10, b11, b12, b13, b14, b15⟩ := soloMid_same count o f s e l s1 ws
  refine ⟨b1, b2, b3, b4, b9, b10, b11, b12, ?_, ?_, b6, b15⟩
  · intro k hk
    rw [getSheet_setSheet_other (by rw [hkey]; exact hk)]
    exact b13 k hk
  · intro k
    rw [getPallet_setSheet]
    have := congrArg (Option.map fun p : Pallet => (p.table, p.ser, p.tray, p.bars, p.st)) (b14 k)
    simpa [Option.map_map, Function.comp_def] using this

/-! ## The forms in which the families use it -/

theorem solo_sheet {o : OpForm} {f : Fld} {s : State} {e : Env} {l : Nat} {v : LV} (h : Solo o f s e l v) :
    getSheet s e.sh.key = some e.sh := by
  have := envOf_sheet h.env
  rw [envOf_key h.env]; exact this

theorem solo_thread {o : OpForm} {f : Fld} {s : State} {e : Env} {l : Nat} {v : LV} (h : Solo o f s e l v) :
    laneThread e.sh l = some v.t := (viewOf_fields h.view).2.2.2.2.2.2.2

theorem solo_fields {o : OpForm} {f : Fld} {s : State} {e : Env} {l : Nat} {v : LV} (h : Solo o f s e l v) :
    v.env = e ∧ v.iss = s.iss ∧ v.f = execFld o f s.iss.run ∧ v.lane = l ∧ v.lanes = [l] ∧ v.tick = s.tick := by
  obtain ⟨h1, h2, h3, h4, h5, h6, h7, h8⟩ := viewOf_fields h.view
  exact ⟨h1, h2, h3, h4, h5, h7⟩

/-- A body that answers results and a state whose sheets are as they were. -/
theorem vec_completesK {o : OpForm} {f : Fld} {s : State} {e : Env} {l : Nat} {v : LV} {body : LV → State → LaneRes}
    {s1 : State} {ws : List Wr} (h : Solo o f s e l v) (hb : body v s = .ok s1 ws) (hi : s1.iss = s.iss)
    (hs : s1.cs.sheets = s.cs.sheets) :
    ∃ t, vec o f s body = .next t ∧ WentOnK s t e l (onThread ws v.t) (onKs (l % 32) ws e.sh.ks) ∧ OnlySheet s1 t e.sh.key := by
  have h1 : getSheet s1 e.sh.key = some e.sh := by
    have := solo_sheet h
    unfold getSheet at *
    rw [hs]; exact this
  exact ⟨_, vec_solo h hb, solo_wentOn hi h1 (.refl _) (solo_thread h) (fun _ _ => rfl), solo_only h1 (solo_thread h)⟩

/-- The same when no result is a k register. -/
theorem vec_completes {o : OpForm} {f : Fld} {s : State} {e : Env} {l : Nat} {v : LV} {body : LV → State → LaneRes} {s1 : State}
    {ws : List Wr} (h : Solo o f s e l v) (hb : body v s = .ok s1 ws) (hi : s1.iss = s.iss) (hs : s1.cs.sheets = s.cs.sheets)
    (hk : ∀ t, onKs (l % 32) ws t = t) :
    ∃ t, vec o f s body = .next t ∧ WentOn s t e l (onThread ws v.t) ∧ OnlySheet s1 t e.sh.key := by
  obtain ⟨t, h1, h2, h3⟩ := vec_completesK h hb hi hs
  refine ⟨t, h1, ?_, h3⟩
  rw [hk] at h2; exact h2

/-- An instruction whose results are a function of its operands. -/
theorem pure_completes {o : OpForm} {f : Fld} {s : State} {e : Env} {l : Nat} {v : LV} {g : LV → List Wr} (h : Solo o f s e l v)
    (hk : ∀ t, onKs (l % 32) (g v) t = t) :
    ∃ t, pureOp o f s g = .next t ∧ WentOn s t e l (onThread (g v) v.t) ∧ OnlySheet s t e.sh.key :=
  vec_completes (body := fun v s => .ok s (g v)) h rfl rfl rfl hk

theorem onThread_wrG (n cnt x : Nat) (t : Thread) : onThread (wrG n cnt x) t = putG n cnt x t := by
  induction cnt generalizing n x t with
  | zero => rfl
  | succ c ih => simp only [wrG, onThread_cons, putG, Wr.onThread]; exact ih _ _ _

@[simp] theorem onKs_wrG (c n cnt x : Nat) (t : Sparse (List Word)) : onKs c (wrG n cnt x) t = t := by
  induction cnt generalizing n x t with
  | zero => rfl
  | succ c ih => simp only [wrG, onKs_cons, Wr.onKs]; exact ih _ _ _

theorem onThread_wrK (n cnt x : Nat) (t : Thread) : onThread (wrK n cnt x) t = t := by
  induction cnt generalizing n x t with
  | zero => rfl
  | succ c ih => simp only [wrK, onThread_cons, Wr.onThread]; exact ih _ _ _

theorem onKs_wrK (c n cnt x : Nat) (t : Sparse (List Word)) : onKs c (wrK n cnt x) t = putK c n cnt x t := by
  induction cnt generalizing n x t with
  | zero => rfl
  | succ c ih => simp only [wrK, onKs_cons, putK, Wr.onKs]; exact ih _ _ _

/-- No prefix but nop may precede the operation, so a run changes no field (R62). -/
theorem effFld_eq {o : OpForm} {f : Fld} {iss : Issue} (hm : ∀ k, mayPrecede k o = true → k = 0)
    (h : decodeCheck o f (effFld f iss.run) iss = none) : effFld f iss.run = f := by
  have hr : runOk o f iss.run = true := by
    unfold decodeCheck at h
    by_contra hc
    dsimp only at h
    rw [if_pos (by simp [hc])] at h
    simp at h
  unfold runOk at hr
  have hall : ∀ p ∈ iss.run, p.kind.toNat = 0 := by
    intro p hp
    simp only [Bool.or_eq_true, List.isEmpty_iff, Bool.and_eq_true, List.all_eq_true] at hr
    rcases hr with hr | hr
    · rw [hr] at hp; simp at hp
    · exact hm _ (hr.2 p hp)
  unfold effFld
  clear h hr
  generalize iss.run = run at hall
  induction run with
  | nil => rfl
  | cons p r ih =>
    simp only [List.foldl_cons]
    rw [hall p (by simp)]
    exact ih fun q hq => hall q (by simp [hq])

/-- The operations that take no prefix but nop: majors 0x02 to 0x1F, 0x28 to 0x2E and 0x34 up. -/
def plainMaj (o : OpForm) : Bool := (o.maj < 0x20) || (0x28 ≤ o.maj && o.maj < 0x30) || 0x34 ≤ o.maj

theorem mayPrecede_plain {o : OpForm} (h : plainMaj o = true) : ∀ k, mayPrecede k o = true → k = 0 := by
  intro k hk
  simp only [plainMaj, Bool.or_eq_true, decide_eq_true_eq, Bool.and_eq_true] at h
  unfold mayPrecede at hk
  split at hk <;> simp at hk <;> omega

/-- The fields in effect of a plain operation are the word's. -/
theorem solo_fld {o : OpForm} {f : Fld} {s : State} {e : Env} {l : Nat} {v : LV} (h : Solo o f s e l v)
    (hp : plainMaj o = true) : v.f = f := by
  rw [(solo_fields h).2.2.1]
  unfold execFld
  rw [effFld_eq (mayPrecede_plain hp) h.dec]
  have : (o.maj == 0x22 && o.xop == 1) = false := by
    simp only [plainMaj, Bool.or_eq_true, decide_eq_true_eq, Bool.and_eq_true] at hp
    simp; omega
  simp [this]

end Sys2Proof.Machine
end

