-- ==== Sys2Proof/Laws/Integer.lean ====
section
/-! SUPPORT. Integer elements (R94): what a destination's elements hold, and the element operations in terms of bit vectors. -/

namespace Sys2Proof.Machine

theorem sumN_append (l : List Nat) (x : Nat) : sumN (l ++ [x]) = sumN l + x := by simp [sumN]

theorem elems_lt (w n : Nat) (r : Nat → Nat) :
    sumN ((List.range n).map fun i => r i % 2 ^ w * 2 ^ (w * i)) < 2 ^ (w * n) := by
  induction n with
  | zero => simp [sumN]
  | succ n ih =>
    rw [List.range_succ, List.map_append, List.map_singleton, sumN_append, Nat.mul_succ, Nat.pow_add]
    have h1 : r n % 2 ^ w + 1 ≤ 2 ^ w := Nat.mod_lt _ (Nat.two_pow_pos w)
    have h2 := Nat.mul_le_mul_right (2 ^ (w * n)) h1
    rw [Nat.add_mul, Nat.one_mul, Nat.mul_comm (2 ^ w)] at h2
    omega

/-- Element k of a destination is element k of the result. -/
theorem elems_get (w n : Nat) (r : Nat → Nat) (k : Nat) (hk : k < n) :
    sumN ((List.range n).map fun i => r i % 2 ^ w * 2 ^ (w * i)) / 2 ^ (w * k) % 2 ^ w = r k % 2 ^ w := by
  induction n with
  | zero => omega
  | succ n ih =>
    rw [List.range_succ, List.map_append, List.map_singleton, sumN_append]
    have hlt := elems_lt w n r
    rcases Nat.lt_succ_iff_lt_or_eq.mp hk with h | h
    · have hp : 2 ^ (w * n) = 2 ^ (w * k) * (2 ^ w * 2 ^ (w * (n - k - 1))) := by
        rw [← Nat.pow_add, ← Nat.pow_add]
        congr 1
        obtain ⟨d, rfl⟩ : ∃ d, n = k + 1 + d := ⟨n - k - 1, by omega⟩
        have : k + 1 + d - k - 1 = d := by omega
        rw [this]; ring
      rw [hp, Nat.mul_left_comm, Nat.add_mul_div_left _ _ (Nat.two_pow_pos _), Nat.mul_left_comm,
        Nat.add_mul_mod_self_left]
      exact ih h
    · subst h
      rw [Nat.add_mul_div_right _ _ (Nat.two_pow_pos _), Nat.div_eq_of_lt hlt]
      simp

/-- What an element-wise operation leaves. -/
theorem elems_completes {o : OpForm} {f : Fld} {s : State} {e : Env} {l : Nat} {v : LV} {r : LV → Nat → Nat}
    (h : Solo o f s e l v) : ∃ t x, pureOp o f s (fun v => v.elems (r v)) = .next t ∧
      WentOn s t e l (putG v.f.d.toNat (intCnt v.f) x v.t) ∧ OnlySheet s t e.sh.key ∧
      ∀ k, k < intN v.f.fmt → BitVec.ofNat (intW v.f.fmt) (x / 2 ^ (intW v.f.fmt * k)) = BitVec.ofNat _ (r v k) := by
  obtain ⟨t, h1, h2, h3⟩ := pure_completes (g := fun v => v.elems (r v)) h (fun t => onKs_wrG _ _ _ _ t)
  refine ⟨t, sumN ((List.range (intN v.f.fmt)).map fun i => r v i % 2 ^ intW v.f.fmt * 2 ^ (intW v.f.fmt * i)), h1, ?_, h3, ?_⟩
  · rw [← onThread_wrG]; exact h2
  · intro k hk
    apply BitVec.eq_of_toNat_eq
    rw [BitVec.toNat_ofNat, BitVec.toNat_ofNat]
    exact elems_get _ _ _ _ hk

theorem bitsAt_eq (v : LV) (fld i : Nat) : v.bitsAt fld i = (srcElem v fld i).toNat := by
  simp [LV.bitsAt, srcElem, bitsN]

theorem signedN_eq {w : Nat} (x : BitVec w) (hw : 0 < w) : signedN w x.toNat = x.toInt := by
  unfold signedN
  rw [BitVec.toInt_eq_toNat_cond, Nat.mod_eq_of_lt x.isLt]
  have : 2 ^ w = 2 * 2 ^ (w - 1) := by
    conv_lhs => rw [show w = (w - 1) + 1 by omega, Nat.pow_succ, Nat.mul_comm]
  split <;> split <;> first | rfl | omega

theorem intW_pos (fmt : BitVec 4) : 0 < intW fmt := by unfold intW; split <;> omega

theorem valAt_eq (v : LV) (fld i : Nat) : v.valAt fld i = elemInt (intSigned v.f.fmt) (srcElem v fld i) := by
  unfold LV.valAt elemVal elemInt
  rw [bitsAt_eq]
  split
  · exact signedN_eq _ (intW_pos _)
  · simp [Nat.mod_eq_of_lt (srcElem v fld i).isLt]

theorem wrapN_eq (w : Nat) (r : Int) : BitVec.ofNat w (wrapN w r) = BitVec.ofInt w r := by
  apply BitVec.eq_of_toNat_eq
  unfold wrapN
  rw [BitVec.toNat_ofNat, BitVec.toNat_ofInt]
  have : (r % ((2 ^ w : Nat) : Int)).toNat < 2 ^ w := by
    have h1 := Int.emod_lt_of_pos r (by positivity : (0 : Int) < ((2 ^ w : Nat) : Int))
    have h2 := Int.emod_nonneg r (by positivity : ((2 ^ w : Nat) : Int) ≠ 0)
    omega
  exact Nat.mod_eq_of_lt this

theorem elemOut_eq (sg sat : Bool) (w : Nat) (r : Int) : BitVec.ofNat w (elemOut sg sat w r) = narrow sg sat w r := by
  unfold elemOut narrow
  cases sat
  · simp [wrapN_eq]
  · simp only [if_true]
    rw [wrapN_eq]
    congr 1
    push_cast
    cases sg
    · simp only [Bool.false_eq_true, if_false]
      have : (0 : Int) ≤ 2 ^ w - 1 := by have := one_le_pow₀ (M₀ := Int) (a := 2) (n := w) (by norm_num); omega
      split
      · omega
      · split <;> omega
    · simp only [if_true]
      have := one_le_pow₀ (M₀ := Int) (a := 2) (n := w - 1) (by norm_num)
      split
      · omega
      · split <;> omega

end Sys2Proof.Machine
end

