-- ==== Sys2Proof/Laws/Memory.lean ====
section
/-! SUPPORT. Byte memory: every operation keeps the canonical form, and a read after a write. -/

namespace Sys2Proof.Machine

theorem wf_iff (m : Mem) : Mem.wf m = true ↔ (∀ c ∈ m, c.2 ≠ memDefault) ∧ m.Pairwise fun a b => a.1 < b.1 := by
  induction m with
  | nil => simp [Mem.wf]
  | cons c r ih =>
    obtain ⟨a, v⟩ := c
    cases r with
    | nil => simp [Mem.wf]
    | cons d r =>
      obtain ⟨b, w⟩ := d
      rw [show Mem.wf ((a, v) :: (b, w) :: r) = (v != memDefault && decide (a < b) && Mem.wf ((b, w) :: r)) from rfl]
      simp only [Bool.and_eq_true, ih, List.pairwise_cons, List.forall_mem_cons, bne_iff_ne, decide_eq_true_eq]
      constructor
      · rintro ⟨⟨hv, hab⟩, hn, hb, hp⟩
        exact ⟨⟨hv, hn⟩, ⟨hab, fun x hx => Nat.lt_trans hab (hb x hx)⟩, hb, hp⟩
      · rintro ⟨⟨hv, hn⟩, ⟨hab, _⟩, hb, hp⟩
        exact ⟨⟨hv, hab⟩, hn, hb, hp⟩

theorem wf_filter {m : Mem} (h : Mem.wf m = true) (p : Nat × Byte → Bool) : Mem.wf (m.filter p) = true := by
  rw [wf_iff] at *
  exact ⟨fun c hc => h.1 c (List.mem_of_mem_filter hc), h.2.filter p⟩

theorem wf_memClear {m : Mem} (h : Mem.wf m = true) (lo hi : Nat) : Mem.wf (memClear m lo hi) = true := wf_filter h _

theorem memCons_wf {a : Nat} {b : Byte} {m : Mem} (h : Mem.wf m = true) (ha : ∀ c ∈ m, a < c.1) : Mem.wf (memCons a b m) = true := by
  unfold memCons
  split
  · exact h
  · rename_i hb
    rw [wf_iff] at *
    exact ⟨List.forall_mem_cons.2 ⟨hb, h.1⟩, List.pairwise_cons.2 ⟨ha, h.2⟩⟩

theorem memCons_above {a b : Nat} {x : Byte} {m : Mem} (h : ∀ c ∈ m, b < c.1) (hb : b < a) : ∀ c ∈ memCons a x m, b < c.1 := by
  unfold memCons
  split
  · exact h
  · exact List.forall_mem_cons.2 ⟨hb, h⟩

theorem memPut_above {m : Mem} {a b : Nat} {x : Byte} (h : ∀ c ∈ m, b < c.1) (hb : b < a) : ∀ c ∈ memPut m a x, b < c.1 := by
  induction m with
  | nil => exact memCons_above (by simp) hb
  | cons c r ih =>
    obtain ⟨k, v⟩ := c
    have h' := List.forall_mem_cons.1 h
    unfold memPut
    split
    · exact memCons_above h'.2 hb
    · split
      · exact memCons_above h hb
      · exact List.forall_mem_cons.2 ⟨h'.1, ih h'.2⟩

/-- A write of one byte keeps the canonical form. -/
theorem memPut_wf {m : Mem} (h : Mem.wf m = true) (a : Nat) (b : Byte) : Mem.wf (memPut m a b) = true := by
  induction m with
  | nil => exact memCons_wf h (by simp)
  | cons c r ih =>
    obtain ⟨k, v⟩ := c
    have hk := (wf_iff _).1 h
    have hr : Mem.wf r = true := (wf_iff _).2 ⟨(List.forall_mem_cons.1 hk.1).2, (List.pairwise_cons.1 hk.2).2⟩
    have hlt := (List.pairwise_cons.1 hk.2).1
    unfold memPut
    split
    · rename_i he
      exact memCons_wf hr (he ▸ hlt)
    · split
      · rename_i hak
        exact memCons_wf h (List.forall_mem_cons.2 ⟨hak, fun c hc => Nat.lt_trans hak (hlt c hc)⟩)
      · rename_i hne hnlt
        rw [wf_iff]
        exact ⟨List.forall_mem_cons.2 ⟨(List.forall_mem_cons.1 hk.1).1, ((wf_iff _).1 (ih hr)).1⟩,
          List.pairwise_cons.2 ⟨memPut_above hlt (by omega), ((wf_iff _).1 (ih hr)).2⟩⟩

/-- A write of any number of bytes keeps it. -/
theorem memWrite_wf (bs : List Byte) : ∀ {m : Mem}, Mem.wf m = true → ∀ a, Mem.wf (memWrite m a bs) = true := by
  induction bs with
  | nil => exact fun h _ => h
  | cons b r ih => exact fun h a => ih (memPut_wf h a b) (a + 1)

/-- A fold of writes keeps it. -/
theorem foldl_memWrite_wf {α : Type} (at' : α → Nat) (bytes : α → List Byte) (l : List α) :
    ∀ {m : Mem}, Mem.wf m = true → Mem.wf (l.foldl (fun m x => memWrite m (at' x) (bytes x)) m) = true := by
  induction l with
  | nil => exact fun h => h
  | cons x r ih => exact fun h => ih (memWrite_wf _ h _)

theorem memGet_below {m : Mem} {a : Nat} (h : ∀ c ∈ m, a < c.1) : memGet m a = memDefault := by
  cases m with
  | nil => rfl
  | cons c r =>
    obtain ⟨k, v⟩ := c
    have hk : a < k := (List.forall_mem_cons.1 h).1
    simp only [memGet, if_neg (Nat.ne_of_gt hk), if_pos hk]

theorem memGet_memCons {m : Mem} {a : Nat} {b : Byte} (h : ∀ c ∈ m, a < c.1) (k : Nat) :
    memGet (memCons a b m) k = if k = a then b else memGet m k := by
  unfold memCons
  by_cases hb : b = memDefault
  · rw [if_pos hb]
    split
    · rename_i hk
      rw [hk, hb, memGet_below h]
    · rfl
  · rw [if_neg hb]
    simp only [memGet]
    by_cases hk : k = a
    · simp [hk]
    · rw [if_neg (Ne.symm hk), if_neg hk]
      split
      · rename_i hlt
        exact (memGet_below fun c hc => Nat.lt_trans hlt (h c hc)).symm
      · rfl

/-- A read after a write of one byte: the byte written there, the old byte elsewhere. -/
theorem memGet_memPut {m : Mem} (h : Mem.wf m = true) (a : Nat) (b : Byte) (k : Nat) :
    memGet (memPut m a b) k = if k = a then b else memGet m k := by
  induction m with
  | nil => exact memGet_memCons (by simp) k
  | cons c r ih =>
    obtain ⟨x, v⟩ := c
    have hk := (wf_iff _).1 h
    have hr : Mem.wf r = true := (wf_iff _).2 ⟨(List.forall_mem_cons.1 hk.1).2, (List.pairwise_cons.1 hk.2).2⟩
    have hlt := (List.pairwise_cons.1 hk.2).1
    unfold memPut
    by_cases hx : x = a
    · rw [if_pos hx, memGet_memCons (hx ▸ hlt)]
      split
      · rfl
      · rename_i hka
        simp only [memGet, if_neg (hx ▸ Ne.symm hka : x ≠ k)]
        split
        · rename_i hkx
          exact memGet_below fun c hc => Nat.lt_trans hkx (hlt c hc)
        · rfl
    · rw [if_neg hx]
      by_cases hax : a < x
      · rw [if_pos hax]
        exact memGet_memCons (List.forall_mem_cons.2 ⟨hax, fun c hc => Nat.lt_trans hax (hlt c hc)⟩) k
      · rw [if_neg hax]
        simp only [memGet]
        by_cases hxk : x = k
        · simp [hxk, show k ≠ a from fun h => hx (hxk.trans h)]
        · rw [if_neg hxk, if_neg hxk]
          by_cases hkx : k < x
          · rw [if_pos hkx, if_pos hkx, if_neg (by omega)]
          · rw [if_neg hkx, if_neg hkx, ih hr]

/-- A write leaves the bytes outside it alone. -/
theorem memGet_memWrite_outside (bs : List Byte) : ∀ {m : Mem}, Mem.wf m = true → ∀ a k, (k < a ∨ a + bs.length ≤ k) →
    memGet (memWrite m a bs) k = memGet m k := by
  induction bs with
  | nil => exact fun _ _ _ _ => rfl
  | cons b r ih =>
    intro m h a k hk
    rw [List.length_cons] at hk
    rw [memWrite, ih (memPut_wf h a b) (a + 1) k (by omega), memGet_memPut h, if_neg (by omega)]

/-- Byte i of a write is the one written. -/
theorem memGet_memWrite_inside (bs : List Byte) : ∀ {m : Mem}, Mem.wf m = true → ∀ a i (hi : i < bs.length),
    memGet (memWrite m a bs) (a + i) = bs[i] := by
  induction bs with
  | nil => intro m h a i hi; simp at hi
  | cons b r ih =>
    intro m h a i hi
    cases i with
    | zero => rw [memWrite, memGet_memWrite_outside r (memPut_wf h a b) _ _ (by omega), memGet_memPut h]; simp
    | succ i =>
      rw [memWrite, show a + (i + 1) = a + 1 + i by omega, ih (memPut_wf h a b) (a + 1) i (by simpa using hi)]
      simp

theorem memRead_eq (m : Mem) (n : Nat) : ∀ a, memRead m a n = (List.range n).map fun i => memGet m (a + i) := by
  induction n with
  | zero => intro a; rfl
  | succ n ih =>
    intro a
    rw [memRead, ih, List.range_succ_eq_map, List.map_cons, List.map_map]
    refine congrArg₂ _ rfl (List.map_congr_left fun i _ => ?_)
    exact congrArg (memGet m) (by omega)

/-- A read of what has just been written. -/
theorem memRead_memWrite {m : Mem} (h : Mem.wf m = true) (a : Nat) (bs : List Byte) : memRead (memWrite m a bs) a bs.length = bs := by
  rw [memRead_eq]
  refine List.ext_getElem (by simp) fun i h1 h2 => ?_
  simp only [List.getElem_map, List.getElem_range]
  exact memGet_memWrite_inside bs h a i h2

/-- A read that a write does not touch. -/
theorem memRead_memWrite_apart {m : Mem} (h : Mem.wf m = true) (a : Nat) (bs : List Byte) (b n : Nat) (hd : b + n ≤ a ∨ a + bs.length ≤ b) :
    memRead (memWrite m a bs) b n = memRead m b n := by
  rw [memRead_eq, memRead_eq]
  exact List.map_congr_left fun i hi => memGet_memWrite_outside bs h a _ (by have := List.mem_range.1 hi; omega)

/-- Memory right after reset is in canonical form. -/
theorem reset_mem_wf : Mem.wf State.reset.ms.mem = true := rfl

end Sys2Proof.Machine
end

