-- ==== Sys2Proof/Laws/Writes.lean ====
section
/-! SUPPORT. What the shared operations on memory, clocks, packets and futures do: a write at its home and in a tray, a line's notice, a
clock's step, the end of a packet and of a future. -/

namespace Sys2Proof.Machine

/-! ## Notices and page copies leave memory alone -/

@[simp] theorem notifyLine_ms (s : State) (t : Option Nat) (l : Nat) (k : AgentKey) : (notifyLine s t l k).ms = s.ms := rfl
@[simp] theorem notifyLine_pallets (s : State) (t : Option Nat) (l : Nat) (k : AgentKey) :
    (notifyLine s t l k).cs.pallets = s.cs.pallets := rfl
@[simp] theorem notifyLine_tiles (s : State) (t : Option Nat) (l : Nat) (k : AgentKey) : (notifyLine s t l k).cs.tiles = s.cs.tiles := rfl
@[simp] theorem notifyLine_agents (s : State) (t : Option Nat) (l : Nat) (k : AgentKey) : (notifyLine s t l k).cs.agents = s.cs.agents := rfl
@[simp] theorem notifyLine_en (s : State) (t : Option Nat) (l : Nat) (k : AgentKey) : (notifyLine s t l k).en = s.en := rfl
@[simp] theorem notifyLine_fb (s : State) (t : Option Nat) (l : Nat) (k : AgentKey) : (notifyLine s t l k).fb = s.fb := rfl
@[simp] theorem notifyLine_qs (s : State) (t : Option Nat) (l : Nat) (k : AgentKey) : (notifyLine s t l k).qs = s.qs := rfl
@[simp] theorem notifyLine_mg (s : State) (t : Option Nat) (l : Nat) (k : AgentKey) : (notifyLine s t l k).mg = s.mg := rfl

/-- A property that every step of a fold keeps holds after it. -/
theorem foldl_keeps {α β : Type} (P : β → Prop) (h : β → α → β) (step : ∀ b a, P b → P (h b a)) (l : List α) : ∀ b, P b → P (l.foldl h b) := by
  induction l with
  | nil => exact fun _ hb => hb
  | cons a r ih => exact fun b hb => ih (h b a) (step b a hb)

theorem notePage_ms (s : State) (p : Pallet) (n : Nat) : (notePage s p n).ms = s.ms := by
  unfold notePage
  split
  · rfl
  · split
    · rfl
    · split <;> rfl

theorem notePages_ms (s : State) (k : AgentKey) (pa n : Nat) : (notePages s k pa n).ms = s.ms := by
  unfold notePages
  refine foldl_keeps (fun (t : State) => t.ms = s.ms) _ (fun t q ht => ?_) _ s rfl
  exact foldl_keeps (fun (u : State) => u.ms = s.ms) _ (fun u p hu => (notePage_ms u p _).trans hu) _ t ht

/-- Folding the release records of a slice changes the records and the slice's high-water stamp alone. -/
theorem foldRel_cases (s : State) (line : Nat) : foldRel s line = s ∨ ∃ r h, foldRel s line = withHigh (withRel s r) h := by
  unfold foldRel
  dsimp only
  split
  · exact .inl rfl
  · split
    · exact .inl rfl
    · exact .inr ⟨_, _, rfl⟩

@[simp] theorem foldRel_mem (s : State) (line : Nat) : (foldRel s line).ms.mem = s.ms.mem := by
  obtain h | ⟨r, x, h⟩ := foldRel_cases s line <;> simp [h, withHigh, withRel]

@[simp] theorem foldRel_hostMem (s : State) (line : Nat) : (foldRel s line).ms.hostMem = s.ms.hostMem := by
  obtain h | ⟨r, x, h⟩ := foldRel_cases s line <;> simp [h, withHigh, withRel]

/-- What an acquire loses clean blocks for is told to watches alone. -/
@[simp] theorem notifyLost_ms (s : State) (cid : Word) (cores : Nat → Bool) (lines : List Nat) : (notifyLost s cid cores lines).ms = s.ms := by
  unfold notifyLost
  dsimp only
  split <;> rfl

@[simp] theorem noteHome_ms (s : State) (pa n : Nat) : (noteHome s pa n).ms = s.ms := by
  unfold noteHome; split <;> rfl

@[simp] theorem noteTray_cs (s : State) (pl : Pallet) (off n : Nat) : (noteTray s pl off n).cs = s.cs := by
  unfold noteTray; split <;> rfl

@[simp] theorem noteTray_ms (s : State) (pl : Pallet) (off n : Nat) : (noteTray s pl off n).ms = s.ms := by
  unfold noteTray; split <;> rfl

/-! ## A write at its home (R184, R185) -/

/-- Physical memory after a write performed at its home is the memory with those bytes written. -/
theorem homeWrite_mem (s : State) (k : AgentKey) (pa : Nat) (bytes : List Byte) (eff : RelEffect) :
    (homeWrite s k pa bytes eff).ms.mem = memWrite s.ms.mem pa bytes := by
  unfold homeWrite
  refine foldl_keeps (fun (t : State) => t.ms.mem = memWrite s.ms.mem pa bytes) _ ?_ _ _ ?_
  · exact fun t q ht => by simpa using ht
  show memWrite (noteHome (notePages s k pa bytes.length) pa bytes.length).ms.mem pa bytes = _
  rw [noteHome_ms, notePages_ms]

theorem homeWrite_hostMem (s : State) (k : AgentKey) (pa : Nat) (bytes : List Byte) (eff : RelEffect) :
    (homeWrite s k pa bytes eff).ms.hostMem = s.ms.hostMem := by
  unfold homeWrite
  refine foldl_keeps (fun (t : State) => t.ms.hostMem = s.ms.hostMem) _ ?_ _ _ ?_
  · exact fun t q ht => by simpa using ht
  show (noteHome (notePages s k pa bytes.length) pa bytes.length).ms.hostMem = _
  rw [noteHome_ms, notePages_ms]

theorem homeWrite_wf {s : State} (h : Mem.wf s.ms.mem = true) (k : AgentKey) (pa : Nat) (bytes : List Byte) (eff : RelEffect) :
    Mem.wf (homeWrite s k pa bytes eff).ms.mem = true := by
  rw [homeWrite_mem]
  exact memWrite_wf bytes h pa

/-- The bytes written read back. -/
theorem homeWrite_read {s : State} (h : Mem.wf s.ms.mem = true) (k : AgentKey) (pa : Nat) (bytes : List Byte) (eff : RelEffect) :
    homeRead (homeWrite s k pa bytes eff) pa bytes.length = bytes := by
  unfold homeRead
  rw [homeWrite_mem]
  exact memRead_memWrite h pa bytes

/-- Every other byte reads as before. -/
theorem homeWrite_outside {s : State} (h : Mem.wf s.ms.mem = true) (k : AgentKey) (pa : Nat) (bytes : List Byte) (eff : RelEffect) (a : Nat)
    (ha : a < pa ∨ pa + bytes.length ≤ a) : memGet (homeWrite s k pa bytes eff).ms.mem a = memGet s.ms.mem a := by
  rw [homeWrite_mem]
  exact memGet_memWrite_outside bytes h pa a ha

/-! ## Key slots (R168) -/

theorem pieces_in {k fuel a n : Nat} {q : Nat × Nat} (h : q ∈ pieces k fuel a n) : a ≤ q.1 ∧ q.1 < a + n := by
  induction fuel generalizing a n with
  | zero => simp [pieces] at h
  | succ m ih =>
    unfold pieces at h
    split at h
    · simp at h
    · have hk : 0 < 2 ^ k := Nat.two_pow_pos k
      have hm : a % 2 ^ k < 2 ^ k := Nat.mod_lt _ hk
      rcases List.mem_cons.mp h with rfl | h
      · dsimp only; omega
      · have := ih h
        omega

theorem ownKey_at {s : State} {key pa n a : Nat} (h : ownKey s key pa n = true) (h1 : pa ≤ a) (h2 : a < pa + n) :
    otherKey s key a = false := by
  unfold ownKey at h
  rw [List.all_eq_true] at h
  have := h (a - pa) (List.mem_range.mpr (by omega))
  rw [show pa + (a - pa) = a by omega] at this
  simpa using this

/-- Bytes that no other slot has written read as the home holds them. -/
theorem keyedRead_own {s : State} {key pa n : Nat} (h : ownKey s key pa n = true) (hl : (homeRead s pa n).length = n) :
    keyedRead s key pa n = homeRead s pa n := by
  unfold keyedRead
  apply List.ext_getElem
  · simp
  · intro i h1 h2
    simp only [List.getElem_map, List.getElem_zipIdx]
    have := ownKey_at h (a := pa + i) (by omega) (by simp at h1; omega)
    simp [this]

/-- Taking a key slot leaves memory as it is where no other slot has written. -/
theorem takeKey_mem {s : State} {key pa n : Nat} (h : ownKey s key pa n = true) : (takeKey s key pa n).ms.mem = s.ms.mem := by
  have main : ∀ (l : List (Nat × Nat)) (t : State), (∀ q ∈ l, pa ≤ q.1 ∧ q.1 < pa + n) → t.ms.mem = s.ms.mem →
      (∀ a, pa ≤ a → a < pa + n → otherKey t key a = false) →
      (l.foldl (fun s q => withKeys (if otherKey s key q.1 then
        withMem s (memWrite s.ms.mem (16 * (q.1 / 16)) ((List.range 16).map fun i => Config.byte s.tick (16 * (q.1 / 16) + i)))
        else s) (sPut (if otherKey s key q.1 then
        withMem s (memWrite s.ms.mem (16 * (q.1 / 16)) ((List.range 16).map fun i => Config.byte s.tick (16 * (q.1 / 16) + i)))
        else s).ms.keys (q.1 / 16) key)) t).ms.mem = s.ms.mem := by
    intro l
    induction l with
    | nil => exact fun t _ ht _ => ht
    | cons q r ih =>
      intro t hq ht ho
      have hin := hq q (List.mem_cons_self ..)
      have h1 := ho q.1 hin.1 hin.2
      rw [List.foldl_cons]
      refine ih _ (fun x hx => hq x (List.mem_cons_of_mem _ hx)) ?_ ?_
      · simp [h1, ht]
      · intro a ha hb
        have h2 := ho a ha hb
        rw [h1]
        unfold otherKey at h2 ⊢
        simp only [Bool.false_eq_true, if_false, withKeys_ms_keys]
        by_cases hc : a / 16 = q.1 / 16
        · rw [hc, sGet_sPut_same]; simp
        · rw [sGet_sPut_other _ _ _ _ hc]; exact h2
  exact main (piecesOf 4 pa n) s (fun q hq => pieces_in hq) rfl (fun a ha hb => ownKey_at h ha hb)

/-- A write through a page whose slot wrote the bytes last changes those bytes alone. -/
theorem keyedWrite_mem {s : State} {key pa : Nat} {bytes : List Byte} (h : ownKey s key pa bytes.length = true) (k : AgentKey)
    (eff : RelEffect) : (keyedWrite s k key pa bytes eff).ms.mem = memWrite s.ms.mem pa bytes := by
  unfold keyedWrite
  have hn := notePages_ms s k pa bytes.length
  rw [homeWrite_mem, takeKey_mem (by unfold ownKey otherKey at h ⊢; rw [hn]; exact h), hn]

/-! ## A write in a tray (R164, R175) -/

theorem trayWrite_ms (s : State) (k : AgentKey) (pal off : Nat) (bytes : List Byte) (eff : RelEffect) :
    (trayWrite s k pal off bytes eff).ms = s.ms := by
  unfold trayWrite
  split
  · rfl
  · refine foldl_keeps (fun (t : State) => t.ms = s.ms) _ ?_ _ _ (noteTray_ms _ _ _ _)
    exact fun t q ht => ht

theorem noteTray_pallet (s : State) (pl : Pallet) (off n k : Nat) : getPallet (noteTray s pl off n) k = getPallet s k := by
  unfold getPallet; rw [noteTray_cs]

/-- The tray after a write in it is the tray with those bytes written. -/
theorem trayWrite_tray {s : State} {pal : Nat} {p : Pallet} (hp : getPallet s pal = some p) (k : AgentKey) (off : Nat) (bytes : List Byte)
    (eff : RelEffect) : (getPallet (trayWrite s k pal off bytes eff) pal).map (·.tray) = some (memWrite p.tray off bytes) := by
  have hk : p.key = pal := getPallet_key hp
  unfold trayWrite
  rw [hp]
  simp only
  refine foldl_keeps (fun (t : State) => (getPallet t pal).map (·.tray) = some (memWrite p.tray off bytes)) _ ?_ _ _ ?_
  · exact fun t q ht => ht
  subst hk
  exact congrArg (Option.map (·.tray)) (getPallet_setPallet (p := p) (x := { p with tray := memWrite p.tray off bytes, trel := _ })
    ((noteTray_pallet _ _ _ _ _).trans hp))

/-- Every other pallet is as it was. -/
theorem trayWrite_other (s : State) (k : AgentKey) (pal off : Nat) (bytes : List Byte) (eff : RelEffect) (j : Nat) (hj : j ≠ pal) :
    getPallet (trayWrite s k pal off bytes eff) j = getPallet s j := by
  unfold trayWrite
  split
  · rfl
  · rename_i p hp
    dsimp only
    refine foldl_keeps (fun (t : State) => getPallet t j = getPallet s j) _ ?_ _ _ ?_
    · exact fun t q ht => ht
    rw [getPallet_setPallet_other (by rw [show _ = p.key from rfl, getPallet_key hp]; exact hj)]
    exact noteTray_pallet _ _ _ _ _

/-! ## The canonical form over whole states -/

/-- A change of the state that keeps its memories where they are keeps the canonical form. -/
theorem canonical_of_eq {s t : State} (h : Canonical s) (h1 : t.ms.mem = s.ms.mem) (h2 : t.ms.hostMem = s.ms.hostMem)
    (h3 : t.mg.fwMem = s.mg.fwMem) (h4 : t.fb.peers = s.fb.peers) (h5 : ∀ p ∈ t.cs.pallets, ∃ q ∈ s.cs.pallets, p.tray = q.tray)
    (h6 : t.cs.tiles = s.cs.tiles) (h7 : t.cs.snaps = s.cs.snaps) : Canonical t where
  mem := h1 ▸ h.mem
  host := h2 ▸ h.host
  fw := h3 ▸ h.fw
  peers := h4 ▸ h.peers
  trays := fun p hp => by
    obtain ⟨q, hq, he⟩ := h5 p hp
    exact he ▸ h.trays q hq
  tiles := h6 ▸ h.tiles
  snaps := h7 ▸ h.snaps

/-! ## Packets and futures (R272, R413) -/

/-- A packet that has not ended yet ends with the code and the detail given, at the device's time. -/
theorem endPacket_ends {s : State} {n x : Nat} {q : Queue} (hq : getQueue s n = some q) (hx : sGet q.ended x = none) (code detail : Nat) :
    EndsWith (endPacket s n x code detail) n x code detail s.mg.ns := by
  have hn : q.num = n := getQueue_key hq
  unfold endPacket
  rw [hq]
  simp only [hx, Option.isSome_none, Bool.false_eq_true, if_false]
  unfold EndsWith
  subst hn
  exact (congrArg (fun (o : Option Queue) => o.bind fun q => sGet q.ended x)
    (getQueue_setQueue (c := q) (x := { q with ended := sPut q.ended x (code, detail, s.mg.ns) }) hq)).trans (sGet_sPut_same _ _ _)

/-- A packet that has ended keeps its end. -/
theorem endPacket_ended {s : State} {n x : Nat} {q : Queue} (hq : getQueue s n = some q) (hx : (sGet q.ended x).isSome = true)
    (code detail : Nat) : endPacket s n x code detail = s := by
  unfold endPacket
  rw [hq]
  simp only [hx, if_true]

/-- A pending future takes the state and the stamp given. -/
theorem completeFuture_pending {s : State} {h : Word} {u : Future} (hu : getFuture s h = some u) (hp : u.st = .pending) (st : OpSt)
    (stamp : Nat) : getFuture (completeFuture s h st stamp) h = some { u with
      st := st
      stamp := stamp } := by
  have hk : u.handle = h := getFuture_key hu
  unfold completeFuture
  rw [hu]
  simp only [hp, beq_self_eq_true, if_true]
  subst hk
  exact getFuture_setFuture (c := u) (x := { u with st := st, stamp := stamp }) hu

/-- A completed future keeps its state. -/
theorem completeFuture_done {s : State} {h : Word} {u : Future} (hu : getFuture s h = some u) (hp : u.st ≠ .pending) (st : OpSt)
    (stamp : Nat) : completeFuture s h st stamp = s := by
  unfold completeFuture
  rw [hu]
  simp [hp]

/-! ## The end of an instruction in its sheet -/

@[simp] theorem advanceTo_pc (sh : Sheet) (pc : Dword) : (advanceTo sh pc).pc = pc := rfl
@[simp] theorem advanceTo_done (sh : Sheet) (pc : Dword) : (advanceTo sh pc).done = 0 := rfl
@[simp] theorem advanceTo_run (sh : Sheet) (pc : Dword) : (advanceTo sh pc).run = [] := rfl
@[simp] theorem advanceTo_lanes (sh : Sheet) (pc : Dword) : (advanceTo sh pc).lanes = sh.lanes := rfl
@[simp] theorem advanceTo_em (sh : Sheet) (pc : Dword) : (advanceTo sh pc).em = sh.em := rfl
@[simp] theorem advanceTo_key (sh : Sheet) (pc : Dword) : (advanceTo sh pc).key = sh.key := rfl

/-- A sheet at its end of issue holds the thread just put in a lane. -/
theorem laneThread_setLane (sh : Sheet) (l : Nat) (t : Thread) : laneThread (setLane sh l t) l = some t := sGet_sPut_same _ _ _

theorem laneThread_setLane_other (sh : Sheet) (l k : Nat) (t : Thread) (h : k ≠ l) : laneThread (setLane sh l t) k = laneThread sh k :=
  sGet_sPut_other _ _ _ _ h

end Sys2Proof.Machine
end

