-- ==== Sys2Proof/Machine/Bar.lean ====
section
/-! DEFINITION. What a host function reads in its BAR0 (R407, R438, R439): the command page, the queue window, zero elsewhere. A read
changes nothing, so no step makes one. -/

namespace Sys2Proof.Machine

/-- CFLG (R439): busy, recovery, an owner exists. -/
def cflg (s : State) (p : CmdPage) : Nat := boolN p.busy + 2 * boolN s.mg.recovery + 4 * boolN (ownerNow s).isSome

/-- The command page of a function (R439). DBELL and REQ are written only and read as zero (log 58). -/
def pageBytes (s : State) (fn : Word) : List Byte :=
  let p := pageOf s fn
  layout 512 [(4, 4, p.dseq.toNat), (8, 4, cflg s p)] ++ p.rsp.take 256 ++ List.replicate 3328 0

/-- The register page of a queue (R407). WIDX is written only and reads as zero (log 58); a queue that is not configured has only its wake
register. -/
def queueBytes (s : State) (n : Nat) : List Byte :=
  match getQueue s n with
  | some q => layout 64 [(0x08, 8, q.acc), (0x10, 8, q.strt), (0x18, 8, q.done), (0x20, 4, q.stat.toNat), (0x24, 4, q.wake.toNat),
      (0x28, 4, q.epoch.toNat)]
  | none => layout 64 [(0x24, 4, (sGetD s.qs.owake n 0).toNat)]

/-- The byte at an offset of BAR0 as the function of a master identity reads it (R438): pages of queues that it does not see and reserved
parts read zero. -/
def barByte (s : State) (fn : Word) (off : Nat) : Byte :=
  if off < 0x1000 then nthD (pageBytes s fn) off 0
  else if 0x20000 ≤ off ∧ off < 0x40000 then
    let q := (off - 0x20000) / 64
    if seesQueue s (fn.toNat % 65536) q then nthD (queueBytes s q) (off % 64) 0 else 0
  else 0

/-- n bytes of BAR0. -/
def barRead (s : State) (fn : Word) (off n : Nat) : List Byte := (List.range n).map fun i => barByte s fn (off + i)

end Sys2Proof.Machine
end

