-- ==== Sys2Proof/Tests/Slice0.lean ====
section
/-! SUPPORT. Tests. A witness for the hypotheses of every statement, with what the instruction or event leaves there; words written out
from the encoding tables; ill-formed terms that the checks refuse; results worked out by hand from the rules. -/

namespace Sys2Proof.Tests

open Sys2Proof Sys2Proof.Machine

set_option maxRecDepth 100000
set_option Elab.async false

/-! ## Checks that stand for the hypotheses -/

/-- No check stops a unit. -/
def clearB (o : OpForm) (s : State) (v : LV) : Bool :=
  v.unitGuard.isNone && (v.operandFault o).isNone && (v.tileFault o).isNone && (v.badQ o).isNone && !v.interlock o s &&
    (v.marked o).isEmpty

/-- (o, f) acts in lane l alone of the issuing sheet, nothing stops it, and p holds. -/
def soloB (o : OpForm) (f : Fld) (s : State) (l : Nat) (p : Env → LV → Bool) : Bool :=
  match envOf s s.iss.sheet with
  | none => false
  | some e =>
    (decodeCheck o f (effFld f s.iss.run) s.iss).isNone && actLanes o f s e == [l] &&
    match viewOf s e (execFld o f s.iss.run) (issueAt s e.sh) [l] with
    | none => false
    | some v => clearB o s v && p e v

theorem block_of {v : LV} {o : OpForm} {s : State} (h : v.interlock o s = false) (hm : (v.marked o).isEmpty = true) :
    v.block o s = .ok s [] := by
  unfold LV.block
  rw [h, List.isEmpty_iff.1 hm]
  rfl

theorem clearB_clear {o : OpForm} {s : State} {v : LV} (h : clearB o s v = true) : Clear o s v := by
  simp only [clearB, Bool.and_eq_true, Bool.not_eq_true'] at h
  obtain ⟨⟨⟨⟨⟨hg, ho⟩, ht⟩, hq⟩, hi⟩, hm⟩ := h
  exact ⟨Option.isNone_iff_eq_none.1 hg, Option.isNone_iff_eq_none.1 ho, Option.isNone_iff_eq_none.1 ht,
    Option.isNone_iff_eq_none.1 hq, block_of hi hm⟩

theorem soloB_solo {o : OpForm} {f : Fld} {s : State} {l : Nat} {p : Env → LV → Bool} (h : soloB o f s l p = true) :
    ∃ e v, Solo o f s e l v ∧ p e v = true := by
  unfold soloB at h
  split at h
  · cases h
  · rename_i e he
    simp only [Bool.and_eq_true] at h
    obtain ⟨⟨hd, ha⟩, h⟩ := h
    split at h
    · cases h
    · rename_i v hv
      simp only [Bool.and_eq_true] at h
      exact ⟨e, v, ⟨he, Option.isNone_iff_eq_none.1 hd, by simpa using ha, hv, clearB_clear h.1⟩, h.2⟩

/-- The course executes (o, f) together under the mask that field value n names, and p holds of the participants. -/
def joinB (o : OpForm) (f : Fld) (s : State) (n : Nat) (p : Env → List LV → Bool) : Bool :=
  match envOf s s.iss.sheet with
  | none => false
  | some e =>
    let g := effFld f s.iss.run
    let ls := lanesActing s e g (issueAt s e.sh) ((e.sh.lanes.map (·.1)).filter fun l => e.sh.em.getLsbD l)
    let vs := viewsOf s e g (issueAt s e.sh) ls
    (decodeCheck o g g s.iss).isNone && e.sh.done == 0 && !vs.isEmpty && vs.all (clearB o s) &&
      ((List.range 128).all fun k => !(maskNamed e n).getLsbD k || ls.contains k) &&
      p e (vs.filter fun v => (maskNamed e n).getLsbD v.lane)

theorem joinB_joined {o : OpForm} {f : Fld} {s : State} {n : Nat} {p : Env → List LV → Bool} (h : joinB o f s n p = true) :
    ∃ e ins, Joined o f s e (maskNamed e n) ins ∧ p e ins = true := by
  unfold joinB at h
  split at h
  · cases h
  · rename_i e he
    simp only [Bool.and_eq_true] at h
    obtain ⟨⟨⟨⟨⟨hd, hf⟩, hne⟩, hc⟩, hm⟩, hp⟩ := h
    refine ⟨e, _, ⟨he, Option.isNone_iff_eq_none.1 hd, by simpa using hf, _, _, rfl, rfl, by simpa using hne, ?_, ?_, rfl⟩, hp⟩
    · exact fun v hv => clearB_clear (List.all_eq_true.1 hc v hv)
    · intro k hk
      have hk' : k < 128 := by
        rcases Nat.lt_or_ge k 128 with h | h
        · exact h
        · rw [BitVec.getLsbD_of_ge _ _ h] at hk; cases hk
      have := List.all_eq_true.1 hm k (List.mem_range.2 hk')
      simpa [hk] using this

/-- A mask instruction can execute, v being the view that decides, and p holds. -/
def maskB (o : OpForm) (f : Fld) (s : State) (p : Env → LV → Bool) : Bool :=
  match envOf s s.iss.sheet with
  | none => false
  | some e =>
    let vs := viewsOf s e f (issueAt s e.sh)
      (if (awakeLanes e.sh).isEmpty then (e.sh.lanes.map (·.1)).take 1 else awakeLanes e.sh)
    (decodeCheck o f f s.iss).isNone &&
    (maskFaults o (awakeLanes e.sh).isEmpty vs).isEmpty && (vs.all fun w => !w.interlock o s) &&
    match vs with
    | [] => false
    | v :: _ => p e v

theorem maskB_ready {o : OpForm} {f : Fld} {s : State} {p : Env → LV → Bool} (h : maskB o f s p = true) :
    ∃ e v, MaskReady o f s e v ∧ p e v = true := by
  unfold maskB at h
  split at h
  · cases h
  · rename_i e he
    simp only [Bool.and_eq_true] at h
    obtain ⟨⟨⟨hd, hc⟩, ha⟩, h⟩ := h
    split at h
    · cases h
    · rename_i v r hv
      rw [hv] at ha hc
      exact ⟨e, v, ⟨he, Option.isNone_iff_eq_none.1 hd, r, hv, List.isEmpty_iff.1 hc,
        fun w hw => by simpa using List.all_eq_true.1 ha w hw⟩, h⟩

/-! ## What is left -/

/-- The sheet of e has gone on: lane l holds th, the k registers are ks, the other lanes are as they were. -/
def wentB (s t : State) (e : Env) (l : Nat) (th : Thread) (ks : Sparse (List Word)) : Bool :=
  match getSheet t e.sh.key with
  | none => false
  | some sh => sh.pc == s.iss.next && sh.run.isEmpty && sh.done == 0 && sh.em == e.sh.em && sh.m == e.sh.m &&
      sh.course == e.sh.course && sh.sleep == e.sh.sleep && sh.ks == ks && threadAt t e.sh.key l == some (endSkip th) &&
      (List.range 8).all fun k => k == l || threadAt t e.sh.key k == laneThread e.sh k

/-- Everything outside one sheet is as it was. -/
def onlyB (s t : State) (key : Nat) : Bool :=
  t.ms == s.ms && t.en == s.en && t.fb == s.fb && t.qs == s.qs && t.cs.store == s.cs.store && t.cs.tiles == s.cs.tiles &&
    t.cs.boxes == s.cs.boxes && t.cs.agents == s.cs.agents && (t.cs.sheets.filter fun x => x.key != key) == (s.cs.sheets.filter fun x => x.key != key) &&
    (t.cs.pallets.map fun p => (p.key, p.table, p.ser, p.tray, p.bars, p.st)) == (s.cs.pallets.map fun p => (p.key, p.table, p.ser, p.tray, p.bars, p.st)) &&
    t.mg.parts == s.mg.parts

/-- i completes in lane l: the thread becomes th; outside the sheet the state is s1. -/
def endsB (i : Instr) (s s1 : State) (e : Env) (l : Nat) (th : Thread) : Bool :=
  match exec i s with
  | .next t => wentB s t e l th e.sh.ks && onlyB s1 t e.sh.key
  | _ => false

/-- i answers a next state of which p holds. -/
def nextB (i : Instr) (s : State) (p : State → Bool) : Bool :=
  match exec i s with
  | .next t => p t
  | _ => false

/-! ## States -/

def setRegs (t : Thread) (gs : List (Nat × Word)) (fs : List (Nat × Dword × BitVec 4)) (qs : List (Nat × BitVec 2)) : Thread :=
  { t with
    g := gs.foldl (fun l x => l.set x.1 x.2) t.g
    f := fs.foldl (fun l x => l.set x.1 x.2.1) t.f
    ft := fs.foldl (fun l x => l.set x.1 x.2.2) t.ft
    q := qs.foldl (fun l x => l.set x.1 x.2) t.q }

def benchPart : Part := ⟨0, 1, 0, 0, 0, 0x40000000, 0, 0, 0, 0, 0, 1100⟩

/-- A privileged context's issuing sheet, key 3, has the one thread t, uid 4, in lane 0; its instruction at 0x10000 is one word long. -/
def stOf (t : Thread) : State :=
  { State.reset with
    ms := { State.reset.ms with mem := benchTables [] }
    cs := { State.reset.cs with
      pallets := [benchPallet 1 2]
      sheets := [benchSheet 3 1 t 0x10000]
      fresh := 5 }
    qs := { State.reset.qs with launches := [benchLaunch 2 7] }
    mg := { State.reset.mg with
      ctxs := [{ benchCtx 7 with cfl := 1 }]
      parts := [benchPart] }
    iss := ⟨3, 0x10000, 0x10000, 0x10004, [], 0, 0, 0, 0⟩ }

/-- The same with registers of the thread set. -/
def st0 (gs : List (Nat × Word)) (fs : List (Nat × Dword × BitVec 4) := []) (qs : List (Nat × BitVec 2) := []) : State :=
  stOf (setRegs (benchThread 4) gs fs qs)

/-- Fields that the form o accepts: destination 8, sources 4 and 2, field C 6, and the first listed value of every other field. -/
def good (o : OpForm) : Fld :=
  let f : Fld := { plainFld with
    d := if o.uD then 8 else 0
    a := if o.uA then 4 else 0
    b := if o.uB then 2 else 0 }
  if o.x2 then { f with
    len := 2
    c := if o.uC then 6 else 0
    rnd := BitVec.ofNat 3 (o.rnd.headD 0)
    fmt := BitVec.ofNat 4 (o.fmt.headD 0)
    scope := BitVec.ofNat 3 (o.scope.headD 0)
    cache := BitVec.ofNat 3 (o.cache.headD 0)
    spc := BitVec.ofNat 3 (o.spc.headD 0)
    atm := BitVec.ofNat 2 (o.atm.headD 0)
    w := BitVec.ofNat 3 (o.w.headD 0)
    e := BitVec.ofNat 4 (o.e.headD 0)
    md := BitVec.ofNat 8 (((List.range 256).find? o.md).getD 0) }
  else if o.s0 then f
  else if o.s1 ≠ 0 then { f with
    len := 1
    lit := BitVec.ofNat 3 o.s1
    b := if o.s1 = 2 then 0 else f.b }
  else { f with len := 3 }

/-- The instruction c f of form o acts in lane 0 of s, p holds there, and it completes without touching anything outside the sheet. -/
def runs (s : State) (c : Fld → Instr) (o : OpForm) (f : Fld) (p : Env → LV → Bool := fun _ _ => true) : Bool :=
  soloB o f s 0 fun e v => p e v && nextB (c f) s fun t =>
    onlyB s t e.sh.key && (getSheet t e.sh.key).map (·.pc) == some s.iss.next

/-- The same, the thread becoming th. -/
def ends (s : State) (c : Fld → Instr) (o : OpForm) (f : Fld) (th : Env → LV → Thread) (p : Env → LV → Bool := fun _ _ => true) : Bool :=
  soloB o f s 0 fun e v => p e v && endsB (c f) s s e 0 (th e v)

/-- A source can be read under a tag (fTagged). -/
def tagB (v : LV) (tag : BitVec 4) (fld : Nat) : Bool := litIs v.f fld || (v.fr fld (fieldNum v.f fld)).2 == tag

/-- A source carries an interval's tags (ivTagged). -/
def ivTagB (v : LV) (fld : Nat) : Bool :=
  litIs v.f fld ||
  if v.f.fmt = 1 then (v.fr fld (fieldNum v.f fld)).2 == 8 && (v.fr fld (fieldNum v.f fld + 1)).2 == 9
  else (v.fr fld (fieldNum v.f fld)).2 == 7

/-- From s the instruction brings the machine to s1 and ends in lane l of e's sheet (Acts). -/
def actsB (s s1 t : State) (e : Env) (l : Nat) (w : Thread → Thread) : Bool :=
  (match getSheet s1 e.sh.key, getSheet t e.sh.key with
   | some a, some b => b.pc == s.iss.next && b.run.isEmpty && b.done == 0 && b.em == a.em && b.m == a.m && b.course == a.course &&
       b.sleep == a.sleep && b.ks == a.ks
   | _, _ => false) &&
  threadAt t e.sh.key l == ((threadAt s1 e.sh.key l).map fun th => endSkip (w th)) && onlyB s1 t e.sh.key

/-- The same for exec's next state (Does). -/
def doesB (i : Instr) (s s1 : State) (e : Env) (l : Nat) (w : Thread → Thread) : Bool := nextB i s fun t => actsB s s1 t e l w

/-- Instruction c f of form o acts in lane 0 of s and does what `eff` says: the state it leads to and the thread; `eff` gives none where
another hypothesis fails. -/
def does (s : State) (c : Fld → Instr) (o : OpForm) (f : Fld) (eff : Env → LV → Option (State × (Thread → Thread))) : Bool :=
  soloB o f s 0 fun e v =>
    match eff e v with
    | none => false
    | some x => doesB (c f) s x.1 e 0 x.2

/-- The one thread has left its sheet and waits in the store with its registers, at pc, asleep as sl. -/
def sleeps (t : State) (th : Thread) (pc : Dword) (sl : Sleep) : Bool :=
  threadAt t 3 0 == none && (t.cs.store.map fun n => (n.thr == th, n.pc, n.sleep == sl)) == [(true, pc, true)]

/-- Bool as a hypothesis of `does`. -/
def given (b : Bool) (x : α) : Option α := if b then some x else none

/-! ## Integer, moves, special registers -/

/-- g4 = 7, g2 = −3, g6 = 5. -/
def stInt : State := st0 [(4, 7), (2, 0xFFFFFFFD), (6, 5)] [(4, 0x40400000, 2)]

theorem witness_integerArithmetic :
    ([(.iadd, formIadd), (.isub, formIsub), (.imul, formImul), (.imad, formImad), (.imulhi, formImulhi), (.idiv, formIdiv),
      (.irem, formIrem), (.imin, formImin), (.imax, formImax), (.iabs, formIabs), (.ineg, formIneg),
      (.iadd3, formIadd3)].all fun (x : (Fld → Instr) × OpForm) => runs stInt x.1 x.2 (good x.2)) = true := by decide +kernel

theorem witness_integerBits :
    ([(.iand, formIand), (.ior, formIor), (.ixor, formIxor), (.inot, formInot), (.shl, formShl), (.shr, formShr), (.sar, formSar),
      (.popc, formPopc), (.clz, formClz), (.ctz, formCtz), (.brev, formBrev), (.bfe, formBfe), (.bfi, formBfi), (.rotl, formRotl),
      (.rotr, formRotr), (.isel, formIsel), (.sext, formSext)].all fun (x : (Fld → Instr) × OpForm) =>
        runs stInt x.1 x.2 (good x.2)) = true := by decide +kernel

theorem witness_compareAndAddress :
    (ends stInt .icmp formIcmp { good formIcmp with d := 1, md := 4 } (fun _ v => putQ 1 qT v.t) &&
     ends stInt .icmp formIcmp { good formIcmp with d := 1, md := 2 } (fun _ v => putQ 1 qF v.t) &&
     ends stInt .lea formLea { good formLea with md := 3, fmt := 0, c := 2 } (fun _ v => putG 8 2 (2 ^ 64 + 7 - 24) v.t)) = true := by
  decide +kernel

theorem witness_registerMoves :
    (ends stInt .mov formMov (good formMov) (fun _ v => putG 8 1 7 v.t) &&
     ends (stOf { setRegs (benchThread 4) [(4, 0x10000001)] [] [] with gp := [4] }) .mov formMov (good formMov)
       (fun _ v => markG 8 (putG 8 1 0x10000001 v.t)) (fun _ v => v.t.gp.contains 4) &&
     soloB formMvk (good formMvk) stInt 0 (fun e v => nextB (.mvk (good formMvk)) stInt fun t =>
       wentB stInt t e 0 v.t [(0, zeroK.set 8 7)]) &&
     ends stInt .mkg formMkg (good formMkg) (fun _ v => putG 8 1 0 v.t) &&
     ends stInt .mvf formMvf (good formMvf) (fun _ v => putF 8 7 13 v.t) &&
     ends stInt .mfg formMfg (good formMfg) (fun _ v => putG 8 1 0x40400000 v.t) (fun _ v => decide ((v.fr 1 4).2 ≠ 0))) = true := by
  decide +kernel

/-- The numbers of R103 on the bench: thread 0 in lane 0 of core 0, launch of one thread. -/
theorem witness_specialRegisters :
    ([(0, 0), (1, 0), (2, 0), (3, 0), (4, 0), (5, 0xFFFFFFFF), (6, 0), (7, 0), (8, 0), (9, 0), (10, 7), (11, 0), (12, 0), (13, 1),
      (14, 0), (15, 0), (16, 0), (17, 0), (18, 0), (19, 0), (20, 0), (0x40, 0), (0x4F, 0)].all fun (x : Nat × Nat) =>
        ends stInt .srd formSrd { good formSrd with a := BitVec.ofNat 7 x.1 } fun _ v => putG 8 1 x.2 v.t) = true ∧
    ends stInt .swr formSwr { good formSwr with d := 0x0F } (fun _ v => { v.t with ret := 7 }) = true ∧
    ends stInt .swr formSwr { good formSwr with d := 0x13, a := 6 } (fun _ v => { v.t with fpf := 5 }) = true := by decide +kernel

/-- A prefix of each kind joins an empty run and a run of one. -/
theorem witness_prefixJoinsRun :
    ([(0, .nop), (1, .norace), (2, .atom), (3, .peer), (4, .ord), (5, .scope)].all fun (x : Nat × (Fld → Instr)) =>
      [[], [(⟨BitVec.ofNat 7 ((x.1 + 1) % 6), 0, none⟩ : RunPart)]].all fun run =>
        let s := { stInt with cs := { stInt.cs with sheets := stInt.cs.sheets.map fun sh => { sh with run := run } } }
        let f := { plainFld with d := BitVec.ofNat 7 x.1 }
        nextB (x.2 f) s fun t =>
          (getSheet t 3).map (fun sh => (sh.run.length, sh.pc)) == some (run.length + 1, 0x10004)) = true := by decide +kernel

/-! ## Floating -/

/-- f4 = 3.0 and f2 = 1.5 of format f32, f6 = −2.0; g2 = 4; predicate 1 = T. -/
def stFp : State := st0 [(2, 4)] [(0, 0, 2), (4, 0x40400000, 2), (2, 0x3FC00000, 2), (6, 0xC0000000, 2)] [(1, qT), (6, qT)]

theorem witness_floatArithmetic :
    (ends stFp .fadd formFadd (good formFadd) (fun _ v => putF 8 0x40900000 2 v.t) &&
     ends stFp .fmul formFmul (good formFmul) (fun _ v => putF 8 0x40900000 2 v.t) &&
     ends stFp .fma formFma (good formFma) (fun _ v => putF 8 0x40200000 2 v.t) &&
     ends stFp .fdiv formFdiv (good formFdiv) (fun _ v => putF 8 0x40000000 2 v.t) &&
     ends stFp .fsqrt formFsqrt (good formFsqrt) (fun _ v => putF 8 0x3FDDB3D7 2 (putFlags 0x10 v.t))) = true := by decide +kernel

/-- The approximated operations at operands where R137 fixes the result. -/
theorem witness_floatElements :
    ([(.fabs, formFabs), (.fneg, formFneg), (.fcsgn, formFcsgn), (.fmin, formFmin), (.fmax, formFmax), (.frnd, formFrnd),
      (.frcp, formFrcp), (.frsq, formFrsq), (.fex2, formFex2), (.flg2, formFlg2), (.fsin, formFsin),
      (.fcos, formFcos)].all fun (x : (Fld → Instr) × OpForm) =>
        runs stFp x.1 x.2 (good x.2) fun _ v => tagB v 2 1 && tagB v 2 2 && trapMask v.env.la == 0) = true := by decide +kernel

/-- fcmp of 3.0 and 1.5, and of a NaN; fclass; fsel of a register and of a literal; 3.0 · 2⁴. -/
theorem witness_floatCompareSelect :
    (ends stFp .fcmp formFcmp { good formFcmp with d := 1, md := 4 } (fun _ v => putQ 1 qT v.t) (fun _ v => tagB v 2 1 && tagB v 2 2) &&
     ends (st0 [] [(4, 0x7FC00000, 2), (2, 0, 2)]) .fcmp formFcmp { good formFcmp with d := 1, md := 4 } (fun _ v => putQ 1 qU v.t)
       (fun _ v => tagB v 2 1 && tagB v 2 2) &&
     runs stFp .fclass formFclass (good formFclass) (fun _ v => tagB v 2 1) &&
     ends stFp .fsel formFsel { good formFsel with c := 1 } (fun _ v => putF 8 0x40400000 2 v.t) (fun _ v => v.q 3 1 == qT) &&
     ends stFp .fsel formFsel { good formFsel with c := 0, len := 3, lit := 2, b := 0, imm := 0x12345 }
       (fun _ v => putF 8 0x12345 2 v.t) (fun _ v => v.q 3 0 == qF) &&
     ends stFp .fldexp formFldexp (good formFldexp) (fun _ v => putF 8 0x42400000 2 v.t) (fun _ v => tagB v 2 1)) = true := by decide +kernel

/-- cvt of 3.0 to f16 and to an integer, of a raw image; of the literal 1.0; cvti, cvtf; saturation at 2^31 sets NV. -/
theorem witness_conversions :
    (ends stFp .cvt formCvt { good formCvt with fmt := 2 } (fun _ v => putF 8 0x4200 3 v.t)
       (fun _ v => (tagFF (v.fr 1 4).2).isSome && !litIs v.f 1) &&
     ends stFp .cvt formCvt { good formCvt with fmt := 2, len := 3, lit := 1, a := 0, imm := 0x3FF0000000000000 }
       (fun _ v => putF 8 0x3C00 3 v.t) (fun _ v => litIs v.f 1) &&
     ends stFp .cvt formCvt { good formCvt with fmt := 9 } (fun _ v => putF 8 3 13 v.t) &&
     ends stFp .cvt formCvt { good formCvt with fmt := 10 } (fun _ v => putF 8 3 13 v.t) &&
     ends stFp .cvt formCvt { good formCvt with fmt := 14, md := 5 } (fun _ v => putF 8 0x40400000 5 v.t)
       (fun _ v => (v.fr 1 4).2 != 0) &&
     ends stFp .cvti formCvti (good formCvti) (fun _ v => putG 8 1 3 v.t) (fun _ v => tagB v 2 1) &&
     ends (st0 [] [(4, 0x4F000000, 2)]) .cvti formCvti (good formCvti) (fun _ v => putG 8 1 0x7FFFFFFF (putFlags 1 v.t))
       (fun _ v => tagB v 2 1) &&
     ends (st0 [(4, 0xFFFFFFFD)]) .cvtf formCvtf (good formCvtf) (fun _ v => putF 8 0xC0400000 2 v.t)) = true := by decide +kernel

/-- pack2 of 3.0 and 1.5 to f16; unpk2 of 1.5; cvt with error feedback of 3.0 to f16 leaves residue 0. -/
theorem witness_packAndErrorFeedback :
    (ends stFp .pack2 formPack2 { good formPack2 with fmt := 5 } (fun _ v => putF 8 0x3E004200 3 v.t)
       (fun _ v => (v.fr 1 4).2 == 2 && (v.fr 2 2).2 == 2) &&
     ends (st0 [] [(4, 0x42003E00, 3)]) .unpk2 formUnpk2 { good formUnpk2 with fmt := 5 } (fun _ v => putF 8 0x3FC00000 2 v.t)
       (fun _ v => (v.fr 1 4).2 == fmtTag 5) &&
     runs stFp .cvt formCvt { good formCvt with fmt := 2, rnd := 5, e := 3 } (fun _ v =>
       match tagFF (v.fr 1 4).2 with
       | some F => efNarrows F (ffOf 2)
       | none => false) &&
     ends stFp .cvt formCvt { good formCvt with fmt := 2, rnd := 5, e := 3 } (fun _ v => putE 3 0 0 (putF 8 0x4200 3 v.t))) = true := by
  decide +kernel

/-! ## Intervals -/

/-- f4 = [1, 3] and f2 = [2, 4] of format f32; f6 = 1.5 and f10 = 2.5 scalars. -/
def stIv : State := st0 [] [(4, 0x404000003F800000, 7), (2, 0x4080000040000000, 7), (6, 0x3FC00000, 2), (10, 0x40200000, 2)]

/-- f4:f5 = [1, 3] of format f64; f2:f3 = empty. -/
def stIv64 : State := st0 [] [(4, 0x3FF0000000000000, 8), (5, 0x4008000000000000, 9), (2, 0x7FF0000000000000, 8), (3, 0xFFF0000000000000, 9)]

theorem witness_intervalArithmetic :
    ([(.iaddInterval, formIaddInterval), (.isubInterval, formIsubInterval), (.imulInterval, formImulInterval),
      (.idivInterval, formIdivInterval), (.iinter, formIinter), (.ihull, formIhull)].all fun (x : (Fld → Instr) × OpForm) =>
        runs stIv x.1 x.2 (good x.2) (fun e v => ivTagB v 1 && ivTagB v 2 && !e.la.eit) &&
        runs stIv64 x.1 x.2 { good x.2 with fmt := 1 } (fun e v => ivTagB v 1 && ivTagB v 2 && !e.la.eit)) = true ∧
    ([(.isqr, formIsqr), (.isqrt, formIsqrt), (.ilo, formIlo), (.ihi, formIhi), (.imid, formImid),
      (.iwid, formIwid)].all fun (x : (Fld → Instr) × OpForm) =>
        runs stIv x.1 x.2 (good x.2) (fun e v => ivTagB v 1 && !e.la.eit)) = true ∧
    (ends stIv .iaddInterval formIaddInterval (good formIaddInterval) (fun _ v => putF 8 0x40E0000040400000 7 v.t) &&
     ends stIv .isubInterval formIsubInterval (good formIsubInterval) (fun _ v => putF 8 0x3F800000C0400000 7 v.t) &&
     ends stIv .imake formImake { good formImake with a := 6, b := 10 } (fun _ v => putF 8 0x402000003FC00000 7 v.t)
       (fun e v => tagB v 2 1 && tagB v 2 2 && !e.la.eit) &&
     ends stIv .iin formIin { good formIin with d := 1, b := 6 } (fun _ v => putQ 1 qT v.t)
       (fun e v => ivTagB v 1 && tagB v 2 2 && !e.la.eit) &&
     ends stIv .imid formImid (good formImid) (fun _ v => putF 8 0x40000000 2 v.t) &&
     ends stIv .icmpInterval formIcmpInterval { good formIcmpInterval with d := 1 } (fun _ v => putQ 1 qU v.t)
       (fun e v => ivTagB v 1 && ivTagB v 2 && !e.la.eit)) = true := by decide +kernel

/-! ## Predicates, masks, collectives of a pinned course -/

/-- Predicates 1 = T, 2 = U. -/
def stQ : State := st0 [] [] [(1, qT), (2, qU)]

/-- A pinned course: slot 0, two members in lanes 0 and 1 of one sheet, thread i with g2 = i, g4 = 10 + i, f4 tagged f32, q1 = T in lane
0 and F in lane 1; membership mask 6 holds both lanes, mask 5 lane 0. -/
def crsThread (i : Nat) : Thread :=
  { setRegs (benchThread (4 + i)) [(2, BitVec.ofNat 32 i), (4, BitVec.ofNat 32 (10 + i))] [(4, 0x3F800000, 2)]
      [(1, if i = 0 then qT else qF)] with tid := BitVec.ofNat 32 i }

def crsSheet : Sheet := { benchSheet 3 1 (crsThread 0) 0x10000 with
  lanes := [(0, crsThread 0), (1, crsThread 1)]
  em := 3
  m := [0, 1, 0, 0, 0, 1, 3, 2]
  course := some 0 }

def crsPallet : Pallet := { benchPallet 1 2 with
  table := [(0, ⟨false, [(1, 4), (1, 5)], true, [3], 0, [], [], [], [], [], [], false⟩)]
  ser := [(0, 9)] }

def stCrs : State := { st0 [] with
  cs := { State.reset.cs with
    pallets := [crsPallet]
    sheets := [crsSheet]
    fresh := 6 } }

theorem witness_predicates :
    (ends stQ .qand formQand { good formQand with d := 3, a := 1, b := 2 } (fun _ v => putQ 3 qU v.t) &&
     ends stQ .qor formQor { good formQor with d := 3, a := 2, b := 1 } (fun _ v => putQ 3 qT v.t) &&
     ends stQ .qxor formQxor { good formQxor with d := 3, a := 1, b := 0 } (fun _ v => putQ 3 qT v.t) &&
     ends stQ .qnot formQnot { good formQnot with d := 3, a := 0 } (fun _ v => putQ 3 qT v.t) &&
     ends stQ .qmov formQmov { good formQmov with d := 7, a := 2 } (fun _ v => putQ 7 qU v.t) &&
     ends stQ .qset formQset { good formQset with d := 3, a := 2 } (fun _ v => putQ 3 qU v.t) &&
     ends stQ .qdef formQdef { good formQdef with d := 3, a := 2, md := 1 } (fun _ v => putQ 3 qT v.t)) = true := by decide +kernel

/-- The course goes on with masks em and m; `h` gives each lane's thread. -/
def maskEndsB (i : Instr) (s : State) (e : Env) (em : BitVec 128) (m : List (BitVec 128)) (h : Nat → Thread → Thread) : Bool :=
  nextB i s fun t => onlyB s t e.sh.key &&
    (match getSheet t e.sh.key with
     | none => false
     | some sh => sh.pc == s.iss.next && sh.em == em && sh.m == m && sh.done == 0) &&
    (List.range 4).all fun k => threadAt t e.sh.key k == (laneThread e.sh k).map (h k)

theorem witness_masks :
    (let go := fun (c : Fld → Instr) o (f : Fld) em m h => maskB o f stCrs fun e _ => maskEndsB (c f) stCrs e em m h
     let m := crsSheet.m
     go .mfromq formMfromq { good formMfromq with d := 7, a := 1 } 3 (m.set 7 1) (fun _ => id) &&
     go .mset formMset { good formMset with a := 7 } 2 m (fun _ => id) &&
     go .mset formMset { good formMset with a := 0 } 0 m (fun _ => id) &&
     go .mget formMget { good formMget with d := 7 } 3 (m.set 7 3) (fun _ => id) &&
     go .mand formMand { good formMand with d := 0, a := 6, b := 7 } 3 (m.set 0 2) (fun _ => id) &&
     go .mor formMor { good formMor with d := 0, a := 5, b := 7 } 3 (m.set 0 3) (fun _ => id) &&
     go .mnot formMnot { good formMnot with d := 0, a := 5 } 3 (m.set 0 2) (fun _ => id) &&
     go .mpop formMpop { good formMpop with a := 6 } 3 m (fun k => if k < 2 then putG 8 1 2 else id) &&
     go .mfirst formMfirst { good formMfirst with a := 7 } 3 m (fun k => if k < 2 then putG 8 1 1 else id)) = true := by decide +kernel

/-- An instruction that a course executes together under the mask of field value n completes, the participant of rank r becoming
`res r v`. -/
def crsEnds (s : State) (c : Fld → Instr) (o : OpForm) (f : Fld) (n : Nat) (res : Nat → LV → Thread) : Bool :=
  joinB o f s n fun e ins => nextB (c f) s fun t => onlyB s t e.sh.key && (getSheet t e.sh.key).map (·.pc) == some s.iss.next &&
    (ins.zipIdx.all fun x => threadAt t e.sh.key x.1.lane == some (res x.2 x.1)) &&
    (List.range 4).all fun k => ins.any (fun v => v.lane == k) || threadAt t e.sh.key k == laneThread e.sh k

/-- vote.all over T and F, over T alone; vote.eq. -/
theorem witness_vote :
    (crsEnds stCrs .vote formVote { good formVote with d := 3, a := 1, b := 6, md := 0 } 6 (fun _ v => putQ 3 qF v.t) &&
     crsEnds stCrs .vote formVote { good formVote with d := 3, a := 1, b := 6, md := 1 } 6 (fun _ v => putQ 3 qT v.t) &&
     crsEnds stCrs .vote formVote { good formVote with d := 3, a := 1, b := 5, md := 2 } 5 (fun _ v => putQ 3 qT v.t)) = true := by decide +kernel

/-- g2 is the lane's number, g4 is 10 plus it. -/
theorem witness_exchange :
    (let go := fun (c : Fld → Instr) o (r : Nat → Nat) => crsEnds stCrs c o (good o) 6 fun k v => putG 8 1 (10 + r k) v.t
     go .shfl formShfl id && go .shup formShup (fun _ => 0) && go .shdn formShdn id && go .shxor formShxor (fun _ => 0) &&
     go .bcast formBcast (fun _ => 0) &&
     crsEnds stCrs .bcast formBcast { good formBcast with md := 2 } 6 (fun _ v => putF 8 0x3F800000 2 v.t)) = true := by decide +kernel

theorem witness_collectives :
    (crsEnds stCrs .redux formRedux (good formRedux) 6 (fun _ v => putG 8 1 21 v.t) &&
     crsEnds stCrs .scan formScan (good formScan) 6 (fun k v => putG 8 1 (if k = 0 then 10 else 21) v.t) &&
     crsEnds stCrs .matchLanes formMatch (good formMatch) 6 (fun k v => putG 8 1 k (putG 9 1 1 (putG 10 1 0 (putG 11 1 2 v.t)))) &&
     crsEnds stCrs .elect formElect { good formElect with d := 1 } 6 (fun k v => putQ 1 (if k = 0 then qT else qF) v.t)) = true := by
  decide +kernel

/-! ## Branches -/

/-- What BranchReady asks but for the destinations. -/
def brB (o : OpForm) (f : Fld) (s : State) : Bool :=
  match envOf s s.iss.sheet with
  | none => false
  | some e => (decodeCheck o f f s.iss).isNone && !(awakeLanes e.sh).isEmpty && e.sh.course.isNone &&
      (unitsOf f.u (awakeLanes e.sh)).all fun ls =>
        match viewOf s e f (issueAt s e.sh) ls with
        | none => false
        | some v => (v.operandFault o).isNone && (v.badQ o).isNone && !v.interlock o s && (v.marked o).isEmpty

/-- A branch of form o takes the sheet to d; with a call, lane 0's ret becomes the next address. -/
def goes (s : State) (c : Fld → Instr) (o : OpForm) (f : Fld) (d : Dword) (call : Bool := false) : Bool :=
  brB o f s && nextB (c f) s fun t => (getSheet t 3).map (fun sh => (sh.pc, sh.run.length, sh.em)) == some (d, 0, 1) && onlyB s t 3 &&
    (threadAt t 3 0).map (·.ret) == (threadAt s 3 0).map fun th => if call then s.iss.next else th.ret

/-- Two free threads, T and F in predicate 1. -/
def stTwo : State :=
  { st0 [] with cs := { (st0 []).cs with
      pallets := [benchPallet 1 2]
      sheets := [{ crsSheet with course := none, m := List.replicate 8 0 }] } }

theorem witness_branching :
    (let s := { st0 [(2, 0x20000)] [] [(1, qT), (2, qU)] with iss := ⟨3, 0x10000, 0x10000, 0x10004, [], 0, 0, 0, 0⟩ }
     goes s .bra formBra { plainFld with d := 3 } 0x1000C &&
     goes s .bra formBra { plainFld with d := 127, a := 127 } 0xFFFC &&
     goes s .call formCall { plainFld with d := 3 } 0x1000C true &&
     goes s .bri formBri { good formBri with b := 2, c := 0 } 0x20000 && goes s .calli formCalli { good formCalli with b := 2, c := 0 } 0x20000 true &&
     goes s .ret formRet { good formRet with c := 0 } 0 &&
     goes s .brc formBrc { good formBrc with d := 3, a := 0, c := 0, b := 1 } 0x1000C &&
     goes s .brc formBrc { good formBrc with d := 3, a := 0, c := 0, b := 0 } 0x10004 &&
     goes s .brc formBrc { good formBrc with d := 3, a := 0, c := 0, b := 0, md := 4 } 0x1000C &&
     goes s .brc formBrc { good formBrc with d := 3, a := 0, c := 0, b := 2, md := 0 } 0x1000C &&
     goes s .brc formBrc { good formBrc with d := 3, a := 0, c := 0, b := 2, md := 1 } 0x10004) = true ∧
    (let s := st0 [] [] [(1, qT), (2, qU)]
     let f := { plainFld with len := 1, lit := 4, imm := 5, d := 3 }
     goes s .brq formBrq { f with b := 1 } 0x1000C && goes s .brq formBrq { f with b := 2 } 0x10014 &&
     goes s .brq formBrq { f with b := 0 } 0x10004) = true := by decide +kernel

/-- Lanes that go to two places: the sheet follows one thread, the other waits in the store. No lane at all: bra takes the sheet on. -/
theorem witness_branching_apart :
    (let f := { good formBrc with d := 3, a := 0, c := 0, b := 1 }
     brB formBrc f stTwo && (envOf stTwo 3).any (fun e => storeFits stTwo e.la e.pl.key (awakeLanes e.sh).length) &&
     nextB (.brc f) stTwo fun t => t.cs.store.length == 1 &&
       (getSheet t 3).map (fun sh => sh.lanes.length) == some 1 &&
       (((getSheet t 3).map (·.pc) == some 0x1000C && (t.cs.store.map fun n => (n.thr.uid, n.pc)) == [(5, 0x10004)]) ||
        ((getSheet t 3).map (·.pc) == some 0x10004 && (t.cs.store.map fun n => (n.thr.uid, n.pc)) == [(4, 0x1000C)]))) = true ∧
    (let s := { stTwo with cs := { stTwo.cs with sheets := [{ crsSheet with em := 0 }], pallets := [crsPallet] } }
     let f := { plainFld with d := 3 }
     let g := { good formBrc with d := 3, a := 0, c := 0, b := 1 }
     (decodeCheck formBra f f s.iss).isNone && (decodeCheck formCall f f s.iss).isNone && (decodeCheck formBrc g g s.iss).isNone &&
     (envOf s 3).any (fun e => (awakeLanes e.sh).isEmpty && !e.sh.lanes.isEmpty) &&
     nextB (.bra f) s (fun t => (getSheet t 3).map (·.pc) == some 0x1000C) &&
     nextB (.call f) s (fun t => (getSheet t 3).map (·.pc) == some 0x1000C) &&
     nextB (.brc g) s fun t => (getSheet t 3).map (·.pc) == some 0x10004) = true := by decide +kernel

/-! ## Threads -/

/-- spawn with the label 2 words on; ibis of [1, 3] and of the empty interval. -/
theorem witness_spawnAndBisect :
    (let s := st0 []
     let f := { good formSpawn with len := 3, lit := 1, a := 0, scope := 0, w := 0, imm := 2 }
     soloB formSpawn f s 0 fun e v => entryRoom s e.sh.pal && !f.ord && !recording e.la && !replaying e.la && decide (f.d.toNat < v.t.g.length) &&
       nextB (.spawn f) s fun t => wentB s t e 0 (putG 8 1 (unorderedId e.pl).toNat v.t) e.sh.ks &&
         (t.cs.store.map fun n => (n.pal, n.pc, n.thr.tid, n.thr.uid)) == [(1, 0x10008, unorderedId e.pl, 5)]) = true ∧
    (let s := stIv
     let f := { good formIbis with c := 0 }
     soloB formIbis f s 0 fun e v => ivTagB v 1 && !litIs v.f 1 && (ivValue v 1).isSome && entryRoom s e.sh.pal && !v.f.ord &&
       !recording e.la && !replaying e.la && decide (f.d.toNat < v.t.g.length ∧ f.a.toNat < v.t.f.length) &&
       nextB (.ibis f) s fun t => wentB s t e 0 (putF 4 0x400000003F800000 7 (putG 8 1 0 v.t)) e.sh.ks &&
         (t.cs.store.map fun n => (n.pc, nthD n.thr.g 8 0, nthD n.thr.f 4 0)) == [(0x10004, 1, 0x4040000040000000)]) = true ∧
    (let f := { good formIbis with c := 0, a := 2, fmt := 1 }
     ends stIv64 .ibis formIbis f (fun _ v => putG 8 1 0 v.t) fun e v => ivTagB v 1 && (ivValue v 1).isNone && !e.la.eit) = true := by decide +kernel

theorem witness_exitAndYield :
    (let s := st0 []
     soloB formExit (good formExit) s 0 (fun e v => e.sh.course.isNone && v.t.trap.isNone && v.t.pair.isNone &&
       (s.cs.pallets.all fun p => p.table.all fun c => !c.2.members.contains (e.pl.key, v.t.uid)) &&
       nextB (.exit (good formExit)) s fun t => threadAt t 3 0 == none && (getLaunch t 2).map (·.flags) == some 0) &&
     ends s .yield formYield plainFld (fun _ v => v.t)) = true := by decide +kernel

/-- The bench with a handler at 0x20000. -/
def stHandler (s : State) : State :=
  { s with qs := { s.qs with launches := [{ benchLaunch 2 7 with r := { benchRec with handler := 0x20000 } }] } }

theorem witness_trapEntersHandler :
    (let s := stHandler (st0 [(4, 7)])
     let f := { plainFld with d := 5, a := 1 }
     soloB formTrap f s 0 fun e v => e.sh.course.isNone && v.t.trap.isNone && v.t.pair.isNone && e.la.r.handler != 0 &&
       nextB (.trap f) s fun t => threadAt t 3 0 == none && (t.cs.store.map fun n => (n.thr.uid, n.pc, n.thr.g == v.t.g,
         n.thr.trap.map fun c => (c.pc, c.next, fieldB c.info 0 1, fieldB c.info 8 8, fieldB c.info 0x28 4))) ==
           [(4, 0x20000, true, some (0x10000, 0x10004, 0x31, 0x10000, 133))]) = true := by decide +kernel

theorem witness_fatalTrapsAndInterrupts :
    (let s := st0 []
     let stop := fun (c : Fld → Instr) => nextB (c plainFld) s fun t => (getCtx t 7).map (·.stop) == some (some (if (match c plainFld with
       | .trap _ => true
       | _ => false) then 0x31 else 0x30))
     soloB formTrap plainFld s 0 (fun e _ => e.la.r.handler == 0 && e.cx.stop.isNone && stop .trap) &&
     soloB formBrk plainFld s 0 (fun e _ => !e.pl.dbg.att && e.cx.stop.isNone && stop .brk)) = true ∧
    (let s := { st0 [] with cs := { (st0 []).cs with pallets := [{ benchPallet 1 2 with dbg := { DbgWords.admitted with att := true } }] } }
     soloB formBrk plainFld s 0 fun e v => e.sh.course.isNone && v.t.trap.isNone && e.pl.dbg.att && nextB (.brk plainFld) s fun t =>
       threadAt t 3 0 == none && (t.cs.store.map fun n => (n.thr == v.t, n.pc, decide (n.sleep = .brk))) == [(true, 0x10004, true)]) = true ∧
    (let s := st0 [(4, 9), (2, 3)]
     soloB formSwi (good formSwi) s 0 fun e v => queueOfPart s e.cx (v.int 2 1) && (v.release s 6).isOk &&
       nextB (.swi (good formSwi)) s fun t => (t.qs.swis.map fun x => (x.target, x.value)) == [(3, 9)]) = true := by decide +kernel

/-- A thread in a handler, its trap context saved at 0x18000. -/
def stInHandler : State :=
  stOf { setRegs (benchThread 4) [(4, 7)] [] [] with trap := some ⟨leBytes 64 0, 0x18000, 0x18004, none, false⟩ }

theorem witness_trapReturn :
    ([0, 1].all fun re =>
      let s := stInHandler
      let f := { good formTret with md := re }
      soloB formTret f s 0 fun e v => (v.t.trap.map fun c => c.crs.isNone) == some true && entryRoom s e.sh.pal &&
        nextB (.tret f) s fun t => threadAt t 3 0 == none && (t.cs.store.map fun n => (n.pc, n.thr.uid, n.thr.trap.isNone, nthD n.thr.g 4 0)) ==
          [(if re = 1 then 0x18000 else 0x18004, 4, true, 7)]) = true ∧
    (match envOf (st0 []) 3 with
     | none => false
     | some e => ((viewOf (st0 []) e plainFld 0 [0]).bind fun v => (v.operandFault formTret).map (·.code)) == some 1) = true := by decide +kernel

/-! ## Courses -/

/-- An unpinned course with members, and one whose member 5 has arrived at the barrier or the pin. -/
def freeCourse (ms : List Nat) : Course := ⟨false, ms.map fun u => (1, u), false, [], 4, ms.map fun u => (1, u), [], [], anyMark 6, [], [], false⟩

/-- The bench with a course in slot 0, its handle in g4, g2 = x. -/
def stCourse (c : Option Course) (x : Word := 0) : State :=
  let p := { benchPallet 1 2 with table := (match c with
    | none => []
    | some c => [(0, c)]) }
  let s := st0 [(4, courseHandle p 0), (2, x)]
  { s with cs := { s.cs with pallets := [p] } }

/-- What holds of the course that g4 names. -/
def onCourse (s : State) (e : Env) (v : LV) (p : CourseAt → Bool) : Bool :=
  e.sh.course.isNone && ((courseOf s e.pl (v.g 1 4)).any fun c => p c)

theorem witness_courseGroup :
    ([0, 1].all fun cl =>
      let s := stCourse none
      let f := { plainFld with len := 2, md := cl, d := 8, scope := 0, w := 0 }
      does s .ccreate formCcreate f fun e _ =>
        let p := { e.pl with table := sPut e.pl.table 0 ⟨f.md.getLsbD 0, [], false, [], 0, [], [], [], [], [], [], false⟩ }
        given (sGet e.pl.table 0).isNone (setPallet s p, putG 8 1 (courseHandle p 0).toNat)) = true ∧
    (let s := stCourse (some (freeCourse []))
     does s .cfree formCfree (good formCfree) fun e v =>
       given (onCourse s e v fun c => !c.c.pinned && c.c.members.isEmpty && (getPallet s c.pal).isSome)
         (setPallet s { e.pl with table := [], ser := [(0, 1)] }, id)) = true ∧
    (let s := stCourse (some (freeCourse [5]))
     does s .cjoin formCjoin (good formCjoin) fun e v =>
       given (onCourse s e v fun c => !c.c.members.contains (1, 4) && decide (c.c.members.length < 128))
         (putCourse s 1 0 (courseEvent { freeCourse [5] with members := [(1, 5), (1, 4)] }), id)) = true ∧
    (let s := stCourse (some (freeCourse [5, 4]))
     does s .cleave formCleave (good formCleave) fun e v =>
       given (onCourse s e v fun c => c.c.members.contains (1, 4) && c.c.pinAt.isEmpty &&
           ((getPallet s c.pal).bind fun p => sGet p.table c.slot) == some c.c)
         (putCourse s 1 0 (courseLeave (freeCourse [5, 4]) (1, 4)), id)) = true ∧
    (let s := stCourse (some (freeCourse [5, 4]))
     does s .cid formCid (good formCid) fun e v => given (onCourse s e v fun _ => true) (s, fun t => putG 8 1 1 (putG 9 1 2 t))) = true := by
  decide +kernel

theorem witness_cpin :
    (let s := stCourse (some (freeCourse [5, 4]))
     soloB formCpin (good formCpin) s 0 fun e v =>
       onCourse s e v (fun c => !c.c.clus && c.c.members.contains (1, 4) && c.c.pinAt.isEmpty) && entryRoom s 1 &&
       nextB (.cpin (good formCpin)) s fun t => sleeps t v.t 0x10004 (.pin 0) &&
         (((getPallet t 1).bind fun p => sGet p.table 0).map (·.pinAt)) == some [(4, 0x10000, 0)]) = true ∧
    (let s := stCourse (some (freeCourse [4]))
     soloB formCpin (good formCpin) s 0 fun e v =>
       onCourse s e v (fun c => !c.c.clus && c.c.members == [(1, 4)] && c.c.pinAt.isEmpty && !c.c.pinned && c.c.tiles.isEmpty) &&
       decide (0 ≤ tilesFree e.la e.pl ∧ 0 < e.la.r.depth) &&
       nextB (.cpin (good formCpin)) s fun t => threadAt t 3 0 == none &&
         (((getPallet t 1).bind fun p => sGet p.table 0).map fun x => (x.pinned, x.tiles.length)) == some (true, 0)) = true ∧
    (let s := { stCrs with cs := { stCrs.cs with
        sheets := [{ crsSheet with lanes := [(0, setRegs (crsThread 0) [(4, courseHandle crsPallet 0)] [] []),
          (1, setRegs (crsThread 1) [(4, courseHandle crsPallet 0)] [] [])] }] } }
     let f := good formCunpin
     (match getSheet s 3 with
      | none => false
      | some c => soloB formCunpin f (setSheet s { c with em := lanesMask c, done := maskOf ((c.lanes.map (·.1)).drop 1) }) 0 fun e v =>
         ((courseOf s e.pl (v.g 1 f.a.toNat)).any fun k => k.slot == 0 && !k.c.clus) && !courseBusy s e.pl.key 0) &&
     nextB (.cunpin f) s fun t => ((getSheet t 3).map fun sh => (sh.pc, sh.course.isNone, sh.em)) == some (0x10004, true, 3) &&
       (((getPallet t 1).bind fun p => sGet p.table 0).map fun y => (y.pinned, y.tiles.length)) == some (false, 0)) = true := by
  decide +kernel

theorem witness_barriers :
    (let s := stCourse (some (freeCourse [5, 4]))
     let f := { good formCarrive with c := 0 }
     does s .carrive formCarrive f fun e v =>
       match v.release s v.f.scope.toNat with
       | .ok (r, s1) => given (onCourse s e v fun c => (barScope v c.c).isNone && c.c.members.contains (1, 4) && c.c.arrived.isEmpty)
         (putCourse s1 1 0 (courseEvent { freeCourse [5, 4] with openSt := [v.mark s1 v.f.scope.toNat r], arrived := [(1, 4)] }), putG 8 1 4)
       | _ => none) = true ∧
    (let s := stCourse (some { freeCourse [5, 4] with arrived := [(1, 4)] }) 3
     let f := { good formCwait with c := 0 }
     does s .cwait formCwait f fun e v =>
       given (onCourse s e v fun c => (barScope v c.c).isNone && c.c.members.contains (1, 4) && c.c.gen == 4)
         (v.acquire s v.f.scope.toNat (anyMark 6), id)) = true ∧
    (let s := stCourse (some { freeCourse [5, 4] with arrived := [(1, 4)] }) 4
     let f := { good formCwait with c := 0 }
     soloB formCwait f s 0 fun e v => onCourse s e v (fun c => (barScope v c.c).isNone && c.c.gen == 4) && entryRoom s 1 &&
       nextB (.cwait f) s fun t => sleeps t v.t 0x10004 (.cwait 1 0 4 v.f.scope)) = true ∧
    (let s := stCourse (some { freeCourse [5, 4] with arrived := [(1, 5)], openSt := anyMark 9 })
     let f := { good formCbar with c := 0 }
     does s .cbar formCbar f fun e v =>
       match v.release s v.f.scope.toNat with
       | .ok (r, s1) => given (onCourse s e v fun c => (barScope v c.c).isNone && c.c.members.contains (1, 4) && c.c.arrived == [(1, 5)] &&
             decide (c.c.expected = [(1, 5), (1, 4)]) && entryRoom s 1)
         (v.acquire (putCourse s1 1 0 (courseEvent { freeCourse [5, 4] with
           openSt := addMark (anyMark 9) (v.mark s1 v.f.scope.toNat r)
           arrived := [(1, 5), (1, 4)] })) v.f.scope.toNat (addMark (anyMark 9) (v.mark s1 v.f.scope.toNat r)), id)
       | _ => none) = true := by decide +kernel

/-! ## Memory -/

/-- Bytes 0x11, 0x22, … at 0x4000 of memory and at 0x40 of the tray; g4:g5 = 0x4000, g6 = 0x40, g2 = 5. -/
def someBytes : List Byte := [0x11, 0x22, 0x33, 0x44, 0x55, 0x66, 0x77, 0x88, 0x99, 0xAA, 0xBB, 0xCC, 0xDD, 0xEE, 0xFF, 0x10]

def stMem (gs : List (Nat × Word) := []) : State :=
  let s := st0 ([(4, 0x4000), (6, 0x40), (2, 5)] ++ gs) [(2, 0x3F800000, 2)]
  { s with
    ms := { s.ms with mem := memWrite s.ms.mem 0x4000 someBytes }
    cs := { s.cs with pallets := [{ benchPallet 1 2 with tray := memWrite [] 0x40 someBytes }] } }

/-- A load whose checks, gate and access succeed gives the thread w of the bytes. -/
def loadEff (s : State) (v : LV) (n : Nat) (ldp mis : Bool) (w : Nat → Thread → Thread) : Option (State × (Thread → Thread)) := do
  let (p, s1) ← (v.check s accLoad (v.addr true) n mis).toOption
  let s2 ← (v.gate s1 v.f.spc.toNat (v.addr true) n).toOption
  let (bytes, s3) ← (v.load s2 p n (v.f.md.getLsbD 0) ldp).toOption
  given (v.f.spc != 5) (s3, fun t => w (ofLe bytes) { t with skip := false })

/-- The same with the 16 bytes in the core's L1: what a fill brings along is a free choice, which nothing can evaluate. -/
def stHit : State :=
  let s := stMem
  { s with ms := { s.ms with l1 := [⟨0, 7, 0x400, 0x4000, 0xFFFF, BitVec.ofNat 128 (ofLe someBytes), [], 0, raceQuiet, false, 0, 0, 0⟩] } }

/-- The load of form o ends so. -/
def loads (s : State) (c : Fld → Instr) (o : OpForm) (f : Fld) (n : Nat) (ldp : Bool) (w : Nat → Thread → Thread) : Bool :=
  soloB o f s 0 fun _ v =>
    match loadEff s v n ldp false w with
    | none => false
    | some x => nextB (c f) s fun t => (getSheet t 3).map (·.pc) == some s.iss.next && t.ms.mem == s.ms.mem && t.cs.store == s.cs.store &&
        threadAt t 3 0 == (threadAt x.1 3 0).map x.2

theorem witness_loads :
    (let s := stHit
     loads s .ld formLd { good formLd with w := 3, c := 0 } 8 false (fun x => putG 8 2 x) &&
     loads s .ld formLd { good formLd with w := 0, c := 0, md := 8 } 1 false (fun x => putG 8 1 x) &&
     loads s .ldp formLdp { good formLdp with w := 2, c := 0 } 4 true (fun x => putG 8 1 x) &&
     loads s .ldf formLdf { good formLdf with c := 0 } 4 false fun x => putF 8 (BitVec.ofNat 64 x) 2) = true ∧
    (let s := stHit
     let f := { good formLdk with c := 0 }
     soloB formLdk f s 0 fun _ v => (loadEff s v 4 false false fun _ t => t).isSome && nextB (.ldk f) s fun t =>
       (getSheet t 3).map (·.ks) == some (putK 0 8 1 0x44332211 [])) = true ∧
    (let s := stMem [(5, 0x30000000), (4, 1)]
     let f := { good formLd with w := 2, c := 0, spc := 5 }
     ends s .ld formLd f (fun _ v => putG 8 1 0 v.t) fun e v =>
       match winLoad s e.cx (v.addr true) 4 with
       | .value x => x == 0 && v.f.spc == 5
       | _ => false) = true := by decide +kernel

/-- What an access to the own tray needs (OwnTray). -/
def ownTrayB (v : LV) (s : State) (a n : Nat) (mis : Bool) : Bool :=
  v.f.spc == 1 && (mis || a % min n 16 == 0) && decide (a + n ≤ v.env.la.r.tray) && (boardHits s v.env.pl 1 a n).isEmpty &&
    v.env.sh.heldBy.isEmpty && (s.ms.posted.all fun p => p.agent != palletAgent s v.env.pl) && Mem.wf v.env.pl.tray

/-- The pallet's tray after an instruction: its bytes at a are bs, the others as before; memory is as before. -/
def trayIs (s t : State) (a : Nat) (bs : List Byte) : Bool :=
  t.ms == s.ms && (getPallet t 1).map (·.tray) == (getPallet s 1).map fun p => memWrite p.tray a bs

theorem witness_trayAccess :
    (let s := stMem
     let f := fun o => { good o with a := 6, c := 0, spc := 1 }
     (ends s .ld formLd { f formLd with w := 2 } (fun _ v => putG 8 1 0x44332211 v.t) fun _ v => ownTrayB v s (v.addr true) 4 false) &&
     (ends s .ld formLd { f formLd with w := 0, md := 8, lit := 4, len := 3, imm := 7 } (fun _ v => putG 8 1 0xFFFFFF88 v.t) fun _ v =>
       ownTrayB v s (v.addr true) 1 false) &&
     (ends s .ldp formLdp { f formLdp with w := 3 } (fun _ v => putG 8 2 0x8877665544332211 v.t) fun _ v => ownTrayB v s (v.addr true) 8 false) &&
     (ends s .ldf formLdf (f formLdf) (fun _ v => putF 8 0x44332211 2 v.t) fun _ v => ownTrayB v s (v.addr true) 4 false)) = true ∧
    (let s := stMem
     let f := fun o => { good o with a := 6, c := 0, spc := 1 }
     let go := fun (c : Fld → Instr) o g bs => soloB o g s 0 fun e v => ownTrayB v s (v.addr true) bs.length false &&
       nextB (c g) s fun t => wentB s t e 0 v.t e.sh.ks && trayIs s t 0x40 bs
     go .st formSt { f formSt with w := 2 } [5, 0, 0, 0] && go .stf formStf (f formStf) [0, 0, 0x80, 0x3F] &&
     go .stf formStf { f formStf with fmt := 14 } [0, 0, 0x80, 0x3F, 0, 0, 0, 0]) = true ∧
    (let s := stMem
     let f := fun o => { good o with a := 6, c := 0, spc := 1 }
     let go := fun (c : Fld → Instr) o (new : Nat) => soloB o (f o) s 0 fun e v => ownTrayB v s (v.addr true) 4 false &&
       !recording e.la && !replaying e.la && nextB (c (f o)) s fun t => wentB s t e 0 (putG 8 1 0x44332211 v.t) e.sh.ks &&
         trayIs s t 0x40 (leBytes 4 new)
     go .aadd formAadd 0x44332216 && go .asub formAsub 0x4433220C && go .amin formAmin 5 && go .amax formAmax 0x44332211 &&
     go .aand formAand 1 && go .aor formAor 0x44332215 && go .axor formAxor 0x44332214 && go .aexch formAexch 5 &&
     go .acas formAcas 0x44332211 && go .ainc formAinc 0x44332212 && go .adec formAdec 0x44332210) = true := by decide +kernel

/-- A store whose checks, gate and access succeed. -/
def storeEff (s : State) (v : LV) (bytes : List Byte) : Option (State × (Thread → Thread)) := do
  let (p, s1) ← (v.check s accStore (v.addr true) bytes.length (v.f.md.getLsbD 2)).toOption
  let s2 ← (v.gate s1 v.f.spc.toNat (v.addr true) bytes.length).toOption
  let s3 ← (v.store s2 p bytes (v.f.md.getLsbD 1)).toOption
  given (v.f.spc != 5) (s3, id)

theorem witness_stores :
    (let s := stMem
     (does s .st formSt { good formSt with w := 2, c := 0 } fun _ v => storeEff s v (leBytes 4 5)) &&
     (does s .st formSt { good formSt with w := 2, c := 0, scope := 6, md := 2 } fun _ v => storeEff s v (leBytes 4 5)) &&
     (does s .stf formStf { good formStf with c := 0 } fun _ v => storeEff s v (leBytes 4 0x3F800000))) = true ∧
    (let s := stMem [(5, 0x30000000), (4, 4)]
     does s .st formSt { good formSt with w := 2, c := 0, spc := 5 } fun e v =>
       match winStore s e.cx (v.addr true) 4 5 with
       | .moved s1 => some (s1, id)
       | _ => none) = true := by decide +kernel

theorem witness_cachedStores :
    ([0, 1].all fun sc =>
      let s := stMem
      let f := { good formSt with w := 2, c := 0, scope := sc }
      soloB formSt f s 0 fun e v => (boardHits s e.pl 0 (v.addr true) 4).isEmpty && e.sh.heldBy.isEmpty &&
        (match v.check s accStore (v.addr true) 4 false with
         | .ok (.glob [q], _) => q.pa == 0x4000
         | _ => false) &&
        nextB (.st f) s fun t => wentB s t e 0 v.t e.sh.ks && t.ms.mem == s.ms.mem && byteSeen t 0 7 0x4000 == 5 && byteSeen t 0 7 0x4003 == 0 &&
          byteSeen t 0 7 0x4004 == 0x55) = true := by decide +kernel

/-- A fetch-operation or reduction whose checks succeed, unordered. -/
def rmwEff (s : State) (v : LV) (op : Nat) (red : Bool) : Option (State × (Thread → Thread)) := do
  let n := atmBytes v.f.atm
  let (p, s1) ← (v.check s accOther (v.addr true) n false).toOption
  let s2 ← (v.gate s1 v.f.spc.toNat (v.addr true) n).toOption
  let (old, s3) ← (v.rmw s2 p n (!red && v.f.md.getLsbD 0) (v.f.md.getLsbD 1) fun x => rmwValue (if red then redOp op else op) (v.f.md.getLsbD 4) v.f.fmt n x
    (if !red && 9 ≤ op then 0 else v.gs 2 v.f.b.toNat (atmCnt v.f)) (if !red && op = 8 then v.gs 0 v.f.d.toNat (atmCnt v.f) else 0)).toOption
  given (!v.f.ord && !recording v.env.la && !replaying v.env.la) (s3, if red then id else putG v.f.d.toNat (atmCnt v.f) old)

/-- The bench with a window open over 0x4000..0x40FF, next index 0, and g6 = n. -/
def stWin (n : Word) (buf : List SqItem := []) : State :=
  let s := stMem [(6, n)]
  { s with en := { s.en with wins := [⟨2, none, 7, 0x4000, 0x100, 0, buf, [], [], 0, 0, false⟩] } }

theorem witness_fetchOperations :
    (let s := stMem
     [(.aadd, formAadd), (.asub, formAsub), (.amin, formAmin), (.amax, formAmax), (.aand, formAand), (.aor, formAor), (.axor, formAxor),
      (.aexch, formAexch), (.acas, formAcas), (.ainc, formAinc), (.adec, formAdec)].all fun (x : (Fld → Instr) × OpForm) =>
        does s x.1 x.2 { good x.2 with c := 0 } fun _ v => rmwEff s v x.2.xop false) = true ∧
    (let s := stWin 0
     let f := { good formAadd with ord := true, c := 6 }
     does s .aadd formAadd f fun _ v => do
       let (p, s1) ← (v.check s accOther (v.addr false) 4 false).toOption
       let s2 ← (v.gate s1 0 (v.addr false) 4).toOption
       match v.sqTurn s2 p (v.addr false) (v.g 3 6) with
       | .go s3 w => do
         let (old, s4) ← (v.rmw s3 p 4 false false fun x => rmwValue 0 false 0 4 x (v.gs 2 2 1) 0).toOption
         some (setWin s4 w { w with next := w.next + 1 }, putG 8 1 old)
       | _ => none) = true := by decide +kernel

theorem witness_reductions :
    (let s := stMem
     let f := fun o => { good o with a := 6, c := 0, spc := 1 }
     let go := fun (c : Fld → Instr) o (new : Nat) => soloB o (f o) s 0 fun e v => ownTrayB v s (v.addr true) 4 false &&
       nextB (c (f o)) s fun t => wentB s t e 0 v.t e.sh.ks && trayIs s t 0x40 (leBytes 4 new)
     go .redadd formRedadd 0x44332216 && go .redmin formRedmin 5 && go .redmax formRedmax 0x44332211 && go .redand formRedand 1 &&
     go .redor formRedor 0x44332215 && go .redxor formRedxor 0x44332214) = true ∧
    (let s := stMem
     [(.redadd, formRedadd), (.redmin, formRedmin), (.redmax, formRedmax), (.redand, formRedand), (.redor, formRedor),
      (.redxor, formRedxor)].all fun (x : (Fld → Instr) × OpForm) =>
        does s x.1 x.2 { good x.2 with c := 0 } fun _ v => rmwEff s v x.2.xop true) = true := by decide +kernel

theorem witness_sequenceWindows :
    (let s := stWin 9
     let f := { good formRedadd with ord := true, c := 6 }
     soloB formRedadd f s 0 fun _ v =>
       (match v.check s accOther (v.addr false) 4 false with
        | .ok (p, s1) => (match v.gate s1 0 (v.addr false) 4 with
          | .ok s2 => ((findWin s2 2 (trayOf p) (regionAddr p (v.addr false))).map fun w => w.buf.length) == some 0
          | _ => false)
        | _ => false) &&
       nextB (.redadd f) s fun t => t.ms.mem == s.ms.mem && (t.en.wins.map fun w => w.buf.map fun x => (x.idx, x.addr, x.op)) == [[(9, 0x4000, 0)]]) = true ∧
    (let s := stMem [(2, 0x100), (6, 3)]
     let f := { good formSqopen with c := 6 }
     does s .sqopen formSqopen f fun e v => do
       let (p, s1) ← (v.sqRegion s (v.addr false) 0x100).toOption
       given (e.la.p.isNone && decide ((openWins s1 2).length < 64)) (withWins s1 [⟨2, trayOf p, 7, 0x4000, 0x100, 3, [], [], [], 0, 0, false⟩], id)) = true ∧
    (let s := stWin 0
     let f := { good formSqclose with c := 0 }
     does s .sqclose formSqclose f fun e v => do
       let (p, s1) ← (v.sqPlace s (v.addr true)).toOption
       let w ← (openWins s1 2).find? fun w => w.tray == trayOf p && w.base == regionAddr p (v.addr true)
       let s3 := closeWin s1 e.la e.cx ⟨some e.pl, s.iss.pc.toNat, v.t.tid⟩ v.t.uid w
       given (s3.en.wins.isEmpty && e.la.p.isNone) (s3, id)) = true := by decide +kernel

/-! ## Ordering, watches, mailboxes -/

theorem witness_fences :
    ([1, 4, 6].all fun sc =>
      let s := stMem
      let f := { good formRel with scope := sc }
      soloB formRel f s 0 fun e v =>
        match v.release s v.f.scope.toNat with
        | .ok (c, s1) => doesB (.rel f) s s1 e 0 id && (getAgent s1 (palletAgent s e.pl)).c == c
        | _ => false) = true ∧
    ([0, 4, 6].all fun sc =>
      let s := stMem
      let f := { good formAcq with scope := sc }
      does s .acq formAcq f fun e v => some (acquire s (whoOf s e) v.f.scope.toNat [], id)) = true ∧
    (let s := stMem
     soloB formFopr (good formFopr) s 0 fun e v =>
       match v.release s 1 with
       | .ok (c, s1) => (getPallet s1 1).isSome && nextB (.fopr (good formFopr)) s fun t => (getPallet t 1).map (·.fopr) == some c &&
           t.ms == s1.ms && (getSheet t e.sh.key).map (·.pc) == some 0x10004
       | _ => false) = true ∧
    (let s := { stMem with en := { stMem.en with futs := [⟨0x10000000, 1, .clean, 9, true⟩] } }
     does s .feng formFeng (good formFeng) fun e _ => some (acquire s (whoOf s e) 1 (anyMark 9), id)) = true ∧
    ends stMem .drain formDrain (good formDrain) (fun _ v => v.t) = true := by decide +kernel

theorem witness_lineWatch :
    (let s := stMem
     does s .monitor formMonitor { good formMonitor with c := 0 } fun _ v => do
       let (p, s1) ← (v.check s accLoad (v.addr true) 1 true).toOption
       some (s1, fun t => { t with watch := some ⟨(placeLine p 0x4000).1, (placeLine p 0x4000).2, false⟩ })) = true ∧
    (let s := stMem
     does s .mwait formMwait (good formMwait) fun e v =>
       given (e.sh.course.isNone && v.t.watch.isNone) (acquire s (whoOf s e) v.f.scope.toNat [], putG 8 1 2)) = true ∧
    (let s := stOf { benchThread 4 with watch := some ⟨none, 0x80, true⟩ }
     does s .mwait formMwait (good formMwait) fun e v =>
       given (v.t.watch.any (·.pending)) (acquire s (whoOf s e) v.f.scope.toNat (watchMarks s v.t), fun t =>
         putG 8 1 0 { t with watch := some ⟨none, 0x80, false⟩ })) = true ∧
    (let s := stOf { benchThread 4 with watch := some ⟨none, 0x80, false⟩ }
     soloB formMwait (good formMwait) s 0 fun e v => entryRoom s e.sh.pal && nextB (.mwait (good formMwait)) s fun t =>
       sleeps t v.t 0x10004 (.mwait 8 0 0)) = true := by decide +kernel

/-- The bench with k messages in mailbox 0 of core 0. -/
def stBox (k : Nat) : State :=
  let s := st0 [(8, 0xAA), (9, 0xBB)]
  { s with cs := { s.cs with boxes := if k = 0 then [] else [(0, (List.range k).map fun i => ⟨leBytes 32 (i + 1), anyMark i⟩)] } }

theorem witness_mailboxes :
    ([0, 8].all fun k =>
      let s := stBox k
      let f := { good formMbsend with d := 1, a := 8, scope := 4 }
      does s .mbsend formMbsend f fun _ v =>
        match v.release s 4 with
        | .ok (c, s1) => given ((v.boxCheck s 0).isNone && s.fb.node == 0)
          (if k = 8 then s1 else withBoxes s1 (sPut s1.cs.boxes 0 [⟨leBytes 32 (0xAA + 0xBB * 2 ^ 32), [v.mark s1 4 c]⟩]),
           putQ 1 (if k = 8 then qF else qT))
        | _ => none) = true ∧
    (let s := stBox 2
     soloB formMbrecv (good formMbrecv) s 0 fun e v => (boxOwners s e.pl.core 0).any (fun c => c.cid == 7) && !recording e.la &&
       !replaying e.la && (sGetD s.cs.boxWait 0 []).isEmpty && nextB (.mbrecv (good formMbrecv)) s fun t =>
         threadAt t 3 0 == some (putG 8 8 1 v.t) && (sGetD t.cs.boxes 0 []).length == 1 && t.ms.mem == s.ms.mem) = true ∧
    (let s := stBox 3
     ends s .mbpoll formMbpoll (good formMbpoll) (fun _ v => putG 8 1 3 v.t) &&
     ends (st0 [(4, 16)]) .mbpoll formMbpoll (good formMbpoll) (fun _ v => putG 8 1 0 v.t)) = true := by decide +kernel

/-! ## Copies, futures, barrier objects -/

/-- Copies of 16 bytes, or of 4 elements of 4 bytes, from 0x40 of the tray to 0x80 of it; the layout record of cpyw in g16 to g39 is four
f32 elements at 0x4000. -/
def stCopy : State :=
  stMem [(4, 0x80), (2, 0x40), (6, 16), (10, 4), (11, 4), (12, 0x4000), (16, 0x4000), (19, 4), (20, 1), (21, 1), (22, 1), (23, 1),
    (29, 0x01001004), (30, 0x00010010)]

/-- A copy instruction whose checks pass starts its copy. -/
def copies (c : Fld → Instr) (o : OpForm) (f : Fld) (ask : LV → CopyAsk) (ok : LV → Bool) : Bool :=
  let s := stCopy
  soloB o f s 0 fun e v =>
    let q := ask v
    ok v && decide (0 < q.total ∧ q.total < 2 ^ 24) && (v.copyCheck s q).isNone &&
    (takeScore (freshKey s).2 e.pl.core e.pl.key (v.copyBounds q).1 (v.copyBounds q).2.1 (v.copyBounds q).2.2 (freshKey s).1).isSome &&
    nextB (c f) s fun t => (t.en.copies.map fun x => (x.shape == q.shape, x.dst, x.src, x.total, x.left, x.bar)) ==
      [(true, q.dst, q.src, q.total, [(0, q.total)], q.bar)] && (t.en.futs.map fun u => (u.handle, u.st, u.pal)) == [(0x10000000, .pending, 1)] &&
      threadAt t 3 0 == some (markG 8 (putG 8 1 0x10000000 v.t))

theorem witness_copyInstructions :
    (copies .cpy formCpy { good formCpy with spc := 1, md := 1, scope := 1 }
      (fun v => ⟨.lin, v.copyDst, v.copySrcAddr, (v.g 3 6).toNat, v.barOff 7⟩) (fun _ => true) &&
     copies .cpyg formCpyg { good formCpyg with spc := 1, md := 1, c := 10 }
      (fun v => ⟨.gather 4 0x4000, v.copyDst, v.copySrcAddr, 16, v.barOff 14⟩) (fun v => v.g 3 10 == 4 && v.g 3 11 == 4 && v.gs 3 12 2 == 0x4000) &&
     copies .cpys formCpys { good formCpys with spc := 1, md := 1, c := 10 }
      (fun v => ⟨.scatter 4 0x4000, v.copyDst, v.copySrcAddr, 16, v.barOff 14⟩) (fun v => v.g 3 10 == 4 && v.g 3 11 == 4) &&
     copies .cpyw formCpyw { good formCpyw with spc := 1, md := 0, b := 16, c := 0 }
      (fun v => let l : Lay := BitVec.ofNat 768 (v.gs 2 16 24); ⟨.window l, v.copyDst, 0, Lay.image l, v.barOff 0⟩)
      (fun v => (Lay.fault (BitVec.ofNat 768 (v.gs 2 16 24))).isNone)) = true := by decide +kernel

/-- The bench with the future 0x10000000 of state st, begun or not, in g4. -/
def stFut (st : OpSt) (begun : Bool) : State :=
  let s := st0 [(4, 0x10000000)]
  { s with
    en := { s.en with futs := [⟨0x10000000, 1, st, 9, begun⟩] }
    cs := { s.cs with seqs := [(1, 1)] } }

theorem witness_futures :
    ([.clean, .error, .cancelledWhole].all fun (st : OpSt) =>
      let s := stFut st true
      let q := if st = .clean then qT else qU
      let go := fun (c : Fld → Instr) o => does s c o { good o with d := 1 } fun e v =>
        given ((v.future s (v.g 1 4)).isOk) (acquire s (whoOf s e) 1 (anyMark 9), fun t => putQ 1 q t)
      go .fwait formFwait && go .ftest formFtest &&
      (does s .fcancel formFcancel { good formFcancel with d := 1 } fun _ _ =>
        some (s, putQ 1 (if st = .cancelledWhole then qT else qF)))) = true ∧
    ends (stFut .pending false) .ftest formFtest { good formFtest with d := 1 } (fun _ v => putQ 1 qF v.t) = true ∧
    (let s := stFut .pending true
     does s .fcancel formFcancel { good formFcancel with d := 1 } fun _ v => given ((v.future s (v.g 1 4)).isOk) (s, putQ 1 qF)) = true := by
  decide +kernel

/-- The bench with a barrier object at 0x40 of the tray: 3 expected, arr arrived, generation 5. -/
def stBar (arr : Nat) (x : Word) : State :=
  let s := st0 [(4, 0x40), (2, x)]
  { s with cs := { s.cs with pallets := [{ benchPallet 1 2 with tray := memWrite [] 0x40 (leBytes 16 (packBar ⟨3, arr, 0, 0, 5, 0, false, false, 0⟩)) }] } }

theorem witness_barrierObjects :
    ([1, 65535].all fun n =>
      let s := stBar 0 n
      let f := { good formXinit with c := 0 }
      soloB formXinit f s 0 fun _ v => ownTrayB v s (v.addr true) 16 false && nextB (.xinit f) s fun t =>
        getBar t 1 0x40 == ⟨n.toNat, 0, 0, 0, 0, 0, false, false, 0⟩ && t.ms == s.ms && threadAt t 3 0 == some v.t) = true ∧
    (let s := stBar 1 0xFFFFFF
     let f := { good formXexpect with c := 0 }
     soloB formXexpect f s 0 fun _ v => ownTrayB v s (v.addr true) 16 false && !barUnset (getBar s 1 0x40) && nextB (.xexpect f) s fun t =>
       getBar t 1 0x40 == ⟨3, 1, 0xFFFFFF, 0, 5, 0, false, false, 0⟩ && threadAt t 3 0 == some v.t) = true ∧
    (let s := stBar 1 0
     let f := { good formXarrive with c := 0 }
     soloB formXarrive f s 0 fun _ v => ownTrayB v s (v.addr true) 16 false && (v.release s v.f.scope.toNat).isOk && nextB (.xarrive f) s fun t =>
       getBar t 1 0x40 == ⟨3, 2, 0, 0, 5, 0, false, false, 0⟩ && threadAt t 3 0 == some v.t) = true ∧
    (let s := stBar 1 4
     let f := { good formXwait with d := 1, c := 0 }
     does s .xwait formXwait f fun e v => given (ownTrayB v s (v.addr true) 16 false) (acquire s (whoOf s e) v.f.scope.toNat [], putQ 1 qT)) = true ∧
    (let s := stBar 1 5
     let f := { good formXwait with d := 1, c := 0 }
     soloB formXwait f s 0 fun e v => ownTrayB v s (v.addr true) 16 false && entryRoom s e.sh.pal && nextB (.xwait f) s fun t =>
       sleeps t v.t 0x10004 (.xwait 0x40 5 1 v.f.scope)) = true := by decide +kernel

/-! ## Tasks, launches, pairs -/

/-- The bench with its launch changed. -/
def withLa (s : State) (h : Launch → Launch) : State := { s with qs := { s.qs with launches := [h (benchLaunch 2 7)] } }

/-- The bench whose thread is a pair thread of pair (1, 2), one contribution component. -/
def aPair : PairInfo := ⟨1, 2, 3, 4, 5, 6, 7, 8, [0x3F800000, 2, 3, 4, 5], 0, none⟩

def aPRec : PRec where
  abase := 0x4000
  acnt := 10
  astr := 16
  apos := 0
  acell := 0
  bbase := 0x5000
  bcnt := 10
  bstr := 16
  bpos := 0
  bcell := 0
  test := 0
  flags := 0
  mode := 0
  width := 1
  cut := 0
  csize := 0
  hx := 0
  hy := 0
  hz := 0
  xrow := 0
  xidx := 0
  xscl := 0
  tabase := 0x6000
  tastr := 16
  tbstr := 16
  tbbase := 0x7000
  ovbase := 0x8000
  ovsize := 4096
  nx := 1
  ny := 1
  nz := 1
  dotd := 0
  zero := true

def stPair : State :=
  withLa (stOf { setRegs (benchThread 4) [(4, 1), (2, 2)] [(4, 0x3F800000, 2)] [] with pair := some aPair }) fun la => { la with p := some aPRec }

theorem witness_handOut :
    (let s := st0 []
     let f := { good formHod with a := 1 }
     soloB formHod f s 0 fun e v => e.la.p.isNone && !placed e.la && e.la.redo.isEmpty && e.la.hodF != some true && !recording e.la &&
       !replaying e.la && decide (e.la.hodN < taskTotal e.la.r) && !e.la.r.lfl.getLsbD 7 && nextB (.hod f) s fun t =>
         threadAt t 3 0 == some (putG 10 1 0 (putG 9 1 0 (putG 8 1 0 (putQ 1 qT v.t)))) && (getLaunch t 2).map (·.hodN) == some 1) = true ∧
    (let s := withLa (st0 []) fun la => { la with hodF := some false, hodN := 1 }
     ends s .hod formHod { good formHod with a := 1 } (fun _ v => putQ 1 qF v.t) fun e _ =>
       e.la.hodF == some false && decide (taskTotal e.la.r ≤ e.la.hodN) && e.la.redo.isEmpty) = true ∧
    (let s := withLa (st0 []) fun la => { la with hodF := some true }
     let f := { good formHod with a := 1, ord := true }
     soloB formHod f s 0 fun e v => (hodForm e.la e.pl == some true) &&
       slotTask e.la e.pl.num (v.t.tid.toNat - e.pl.num * e.la.r.thr + e.la.r.thr * v.t.hods) == some 0 && nextB (.hod f) s fun t =>
         (threadAt t 3 0).map (fun t => (t.hods, nthD t.q 1 0, nthD t.g 8 1)) == some (1, qT, 0)) = true := by decide +kernel

/-- A queue, its ring's context 8, and the core's L1 holding 512 bytes of zeros at 0x4000. -/
def benchQueue (cid : Word) : Queue := ⟨0, 0x9000, 3, 0, 0, cid, 0, 0, 0, 0, 0, 0, 0, 0, 0, [], [], [], [], []⟩

def stLaunch : State :=
  let s := stMem [(2, 0)]
  { s with
    ms := { s.ms with l1 := (List.range 32).map fun i => ⟨0, 7, 0x400 + i, 0x4000 + 16 * i, 0xFFFF, 0, [], 0, raceQuiet, false, 0, 0, 0⟩ }
    qs := { s.qs with queues := [benchQueue 8] } }

theorem witness_deviceLaunches :
    (let s := stLaunch
     does s .launch formLaunch (good formLaunch) fun e v => do
       let s1 ← (← (v.readUnit s (((getQueue s 0).map (·.cid)) == some e.cx.cid) 0x4000).toOption)
       let q ← getQueue s1 0
       let r := newFuture s1 5 0 1
       let (c, s2) ← (v.release r.2 4).toOption
       given (v.int 1 2 == 0x4000 && queueOfPart s e.cx 0 && decide (q.widx - q.done < q.size) && getQueue s2 0 == some q)
         (appendLaunch s2 q 0x4000 r.1 c, fun t => markG 8 (putG 8 1 r.1.toNat t))) = true ∧
    (let s := stLaunch
     soloB formPlaunch (good formPlaunch) s 0 fun _ v =>
       (match v.loadRecord s 0x4000 512 with
        | .ok (some x) => (v.release (newFuture x.2 3 0 1).2 4).isOk
        | _ => false) &&
       nextB (.plaunch (good formPlaunch)) s fun t => (t.qs.subs.map fun x => (x.pair, x.unit.length, x.cid, x.fut)) ==
         [(true, 512, 7, some 0x30000000)] && threadAt t 3 0 == some (markG 8 (putG 8 1 0x30000000 v.t))) = true ∧
    (let s := stPair
     let f := { good formPrelaunch with len := 3, lit := 3, imm := 4 }
     soloB formPrelaunch f s 0 fun e v => v.t.pair.isSome && e.la.p.isSome && (v.release (newFuture s 4 0 1).2 4).isOk &&
       nextB (.prelaunch f) s fun t => (t.en.relq.map fun x => (x.i, x.j, x.pc, x.fut)) == [(1, 2, 0x10010, 0x40000000)] &&
         threadAt t 3 0 == some (markG 8 (putG 8 1 0x40000000 v.t))) = true := by decide +kernel

theorem witness_pairInstructions :
    (let s := stPair
     ends s .pget formPget (good formPget) (fun _ v => putG 8 1 1 (putG 9 1 2 (putG 10 1 3 (putG 11 1 (4 + 256 * 5) (putG 12 1 6
       (putG 13 1 7 (putG 14 1 8 (putG 15 1 0 v.t)))))))) (fun e v => v.t.pair.isSome && e.la.p.isSome) &&
     ends s .pget formPget { good formPget with md := 1 } (fun _ v =>
       [(8, 0x3F800000), (9, 2), (10, 3), (11, 4), (12, 5)].foldl (fun t (x : Nat × Dword) => putF x.1 x.2 2 t) v.t)) = true ∧
    (let s := stPair
     let f := { good formPret with c := 0 }
     soloB formPret f s 0 fun e v => (LV.pretVals v 4 1 0).isOk && decide (v.f.a.toNat + 1 ≤ e.la.r.fcnt) && s.en.pclosed.isEmpty &&
       !v.f.ord && (e.la.p.any fun p => !p.isOrd) && nextB (.pret f) s fun t => threadAt t 3 0 == some v.t &&
         (t.en.parts.map fun q => (q.addr, q.role, q.froms, q.vals)) == [(0x6010, false, [2], [(0, 0x3F800000)]),
           (0x7020, true, [1], [(0, 0xBF800000)])]) = true ∧
    (let s := stPair
     let f := { good formPret with ord := true, c := 6 }
     soloB formPret f s 0 fun e v => (LV.pretVals v 4 1 0).isOk && v.f.ord && v.t.pair.isSome && (e.la.p.any fun p =>
       decide (32 * (((s.en.contribs.filter fun k => k.launch == e.la.key).filterMap (·.slot)).length + 2) ≤ p.ovsize ∧ p.width = 1))) = true := by
  decide +kernel

/-! ## Block formats -/

theorem witness_blockFormats :
    (let s := st0 [(2, 0x7F7F)] ((List.range 16).map fun i => (16 + i, 0x3F8000003F800000, 14))
     let f := { good formDxpack with d := 8, a := 16, b := 9 }
     soloB formDxpack f s 0 fun _ v => ((List.range 16).all fun i => (v.fr 1 (16 + i)).2 == 14) && nextB (.dxpack f) s fun t =>
       (threadAt t 3 0).map (fun t => (nthD t.ft 8 0, nthD t.ft 11 0)) == some (10, 10) && (getSheet t 3).map (·.pc) == some 0x10004) = true ∧
    (let s := st0 [(2, 0x7F7F)] ((List.range 4).map fun i => (4 + i, 0, 10))
     let f := { good formDxunpk with d := 16 }
     soloB formDxunpk f s 0 fun _ v => ((List.range 4).all fun i => (v.fr 1 (4 + i)).2 == 10) && nextB (.dxunpk f) s fun t =>
       threadAt t 3 0 == some (putFs 14 16 16 0 v.t)) = true ∧
    (let s := stOf { setRegs (benchThread 4) [(4, 7), (5, 8)] [] [] with e := List.replicate 16 9 }
     ends s .resclr formResclr (good formResclr) (fun _ v => { v.t with e := v.t.e.set 8 0 }) &&
     ends s .resclrAll formResclrAll (good formResclrAll) (fun _ v => { v.t with e := List.replicate 16 0 }) &&
     ends s .resget formResget (good formResget) (fun _ v => putG 8 2 9 v.t) &&
     ends s .resset formResset (good formResset) (fun _ v => { v.t with e := v.t.e.set 8 0x800000007 })) = true := by decide +kernel

/-! ## Matrix and tile instructions -/

/-- The pinned course with tiles 3 and 4 of format f32, row 0 of tile 3 starting 3.0, 1.5, and registers set in both threads. -/
def stTile (gs : List (Nat × Word)) (fs : List (Nat × Dword × BitVec 4) := []) : State :=
  { stCrs with
    cs := { stCrs.cs with
      pallets := [{ crsPallet with
        table := [(0, ⟨false, [(1, 4), (1, 5)], true, [3, 4], 0, [], [], [], [], [], [], false⟩)]
        tray := memWrite [] 0x40 someBytes }]
      tiles := [⟨0, 3, 2, memWrite [] 0 (leBytes 8 0x3FC0000040400000), [], false, 0⟩, ⟨0, 4, 2, [], [(0, 9)], false, 0⟩]
      sheets := [{ crsSheet with lanes := crsSheet.lanes.map fun x => (x.1, setRegs x.2 gs fs []) }] } }

/-- The course executes c f together under the mask of field value n, p holds, and q of the next state, in which every participant is
w and the sheet has gone on. -/
def crsDoes (s : State) (c : Fld → Instr) (o : OpForm) (f : Fld) (n : Nat) (p : Env → List LV → Bool) (w : LV → Thread)
    (q : State → Bool) : Bool :=
  joinB o f s n fun e ins => !ins.isEmpty && p e ins && nextB (c f) s fun t => q t && (getSheet t e.sh.key).map (·.pc) == some s.iss.next &&
    ins.all fun v => threadAt t e.sh.key v.lane == some (w v)

def lead (ins : List LV) (p : LV → Bool) : Bool := (ins.head?).any p

/-- The first 64 bytes of a matrix operand record: A at 0x40 and B at 0 of the tray, strides 16 and 256. -/
def stRecord : State :=
  let s := stTile [(6, 4)]
  let b := leBytes 8 0x40 ++ leBytes 8 0 ++ leBytes 4 16 ++ leBytes 4 256 ++ List.replicate 40 0
  { s with ms := { s.ms with l1 := (List.range 4).map fun i =>
      ⟨0, 7, 0x400 + i, 0x4000 + 16 * i, 0xFFFF, BitVec.ofNat 128 (ofLe ((b.drop (16 * i)).take 16)), [], 0, raceQuiet, false, 0, 0, 0⟩ } }

theorem witness_matrixIssue :
    (let s := stTile [(4, 0x40), (5, 16), (2, 0), (3, 256), (6, 4)]
     let f := { good formMma with d := 0, spc := 1, md := 6 }
     crsDoes s .mma formMma f 6 (fun e ins => e.sh.course == some 0 && lead ins fun v =>
         (v.mmaCheck s v.mmaRegs ((stripsOf ins).map (·.1)) (v.g 3 6).toNat).isNone && (getTile s 0 (v.tile 0)).tag == 2)
       (fun v => v.t) fun t => t.ms == s.ms && (t.en.mmas.map fun m => (m.tile, m.kk, m.rows, m.abase, m.bstr)) == [(3, 4, [0, 1], 0x40, 256)]) = true ∧
    (let s := stRecord
     let f := { good formMma with d := 0, spc := 1, md := 6, len := 3, lit := 5, a := 0, b := 0, imm := 0x4000 }
     crsDoes s .mma formMma f 6 (fun e ins => e.sh.course == some 0 && lead ins fun v =>
         match v.loadRecord s 0x4000 64 with
         | .ok (some (r, s1)) => (v.mmaCheck s1 (mmaRecord f r) ((stripsOf ins).map (·.1)) (v.g 3 6).toNat).isNone
         | _ => false)
       (fun v => v.t) fun t => (t.en.mmas.map fun m => (m.tile, m.kk, m.rows, m.abase, m.bstr)) == [(3, 4, [0, 1], 0x40, 256)]) = true ∧
    (let s := stTile []
     let s := { s with cs := { s.cs with pallets := s.cs.pallets.map fun p =>
       { p with table := p.table.map fun x => (x.1, { x.2 with openB := [⟨77, 4, false, false⟩] }) } } }
     let f := { good formMbatch with a := 6 }
     crsDoes s .mbatch formMbatch f 6 (fun e ins => e.sh.course == some 0 && lead ins fun v => (v.release s 1).isOk)
       (fun v => markG 8 (putG 8 1 0x20000000 v.t)) fun t =>
         (t.en.futs.map fun u => (u.handle, u.pal)) == [(0x20000000, 1)] &&
         (((getPallet t 1).bind fun p => sGet p.table 0).map (·.openB)) == some []) = true := by decide +kernel

def tileFreeB (s : State) (num : Nat) : Bool := !tileBusy s 0 num && Mem.wf (getTile s 0 num).bytes

theorem witness_tileRows :
    (let s := stTile []
     crsDoes s .tzero formTzero { good formTzero with d := 0 } 6 (fun _ _ => tileFreeB s 3) (fun v => v.t)
       (fun t => tileByte t 0 3 0 2 == 0 && (getTile t 0 3).tag == 2)) = true ∧
    (let s := stTile [(4, 0), (2, 256)]
     crsDoes s .tld formTld { good formTld with d := 0, spc := 1 } 6 (fun _ ins =>
         match checkRows accLoad true 256 ins s with
         | .ok rows s1 => (match loadRows 256 rows s1 with
           | .ok (l, s2) => (l.map (·.1)) == [0, 1] && l.all (fun x => x.2.length == 256) && tileFreeB s2 3
           | _ => false)
         | _ => false)
       (fun v => v.t) (fun t => tileByte t 0 3 0 0x41 == 0x22 && tileByte t 0 3 1 0x41 == 0)) = true ∧
    (let s := stTile [(4, 0), (2, 256)]
     crsDoes s .tst formTst { good formTst with d := 0, spc := 1 } 6 (fun _ ins =>
         match checkRows accStore true 256 ins s with
         | .ok rows s1 => !tileBusy s1 0 3 && (storeRows rows (fun r => (List.range 256).map (tileByte s1 0 3 r)) s1).isOk
         | _ => false)
       (fun v => v.t) (fun t => trayByte t 1 3 == some 0x40 && trayByte t 1 0x41 == some 0)) = true ∧
    (let s := stTile [(2, 0)]
     let s2 := { s with cs := { s.cs with tiles := s.cs.tiles.map fun t => { t with tag := 1 } } }
     crsEnds s .trow formTrow { good formTrow with a := 0 } 6 (fun r v => putFs 14 8 1 (if r = 0 then 0x3FC0000040400000 else 0) v.t) &&
     crsEnds s2 .trow formTrow { good formTrow with a := 0 } 6 fun r v => putFs 1 8 1 (if r = 0 then 0x3FC0000040400000 else 0) v.t) = true := by
  decide +kernel

theorem witness_tileArithmetic :
    (let s := stTile []
     crsDoes s .tcvt formTcvt { good formTcvt with d := 1, a := 0, b := 6, c := 0 } 6 (fun _ _ => tileFreeB s 4) (fun v => v.t)
       (fun t => tileByte t 0 4 0 1 == 0x42 && (getTile t 0 4).tag == 3)) = true ∧
    (let s := stTile [(4, 0), (2, 256)]
     crsDoes s .tcvt formTcvt { good formTcvt with d := 0, md := 16, spc := 1 } 6 (fun _ ins =>
         match checkRows accStore true (cvtLen 2) ins s with
         | .ok _ _ => true
         | _ => false) (fun v => v.t)
       (fun t => trayByte t 1 1 == some 0x42 && trayByte t 1 3 == some 0x3E)) = true ∧
    (let s := stTile [] [(2, 0x40000000, 2)]
     crsDoes s .tscale formTscale { good formTscale with d := 0, a := 0 } 6 (fun _ ins => tileFreeB s 3 &&
         (stripsOf ins).all fun x => (x.2.fr 2 2).2 == 2) (fun v => v.t)
       (fun t => tileByte t 0 3 0 2 == 0xC0 && tileByte t 0 3 0 3 == 0x40)) = true ∧
    (let s := stTile [(4, 0)]
     crsDoes s .tscale formTscale { good formTscale with d := 0, md := 1, b := 0, spc := 1 } 6 (fun _ ins =>
         match checkRows accLoad false 256 ins s with
         | .ok rows s1 => (match loadRows 256 rows s1 with
           | .ok (k, s2) => (k.map (·.1)) == [0, 1] && tileFreeB s2 3
           | _ => false)
         | _ => false)
       (fun v => v.t) (fun t => tileByte t 0 3 0 3 == 0)) = true ∧
    (let s := stTile [(2, 0)] [(4, 0x500000006, 14)]
     crsDoes s .resclrTile formResclrTile { good formResclrTile with d := 1 } 6 (fun _ _ => true) (fun v => v.t)
       (fun t => residAt t 0 4 0 0 == 0) &&
     crsEnds s .resgetTile formResgetTile { good formResgetTile with a := 1 } 6 (fun r v => putF 8 (if r = 0 then 9 else 0) 14 v.t) &&
     crsDoes s .ressetTile formRessetTile { good formRessetTile with d := 1 } 6 (fun _ ins => (stripsOf ins).all fun x =>
         (x.2.fr 1 4).2 == 14 && (x.2.g 2 2).toNat % 2 == 0) (fun v => v.t)
       fun t => residAt t 0 4 1 0 == 6 && residAt t 0 4 1 1 == 5) = true := by decide +kernel

/-! ## Remote instructions -/

/-- Node 1 reachable with an aperture over its first MiB for context 7; k0 = 1 in column 0; multicast group 1 with node 1. -/
def stRem (gs : List (Nat × Word) := []) : State :=
  let s := stMem gs
  { s with
    cs := { s.cs with sheets := s.cs.sheets.map fun sh => { sh with ks := [(0, zeroK.set 0 1)] } }
    fb := { s.fb with
      aps := [⟨0, 0, 1, 0, 0x100000, 9, 7, 0, 0, 0xFF⟩]
      groups := [⟨1, [(1, 9)], [(0, 0)]⟩] } }

/-- A remote instruction whose checks pass sends one request of a kind. -/
def sends (c : Fld → Instr) (o : OpForm) (f : Fld) (n kind bit : Nat) (mc : Bool) (k : LV → ReqKind) (rel : Bool) : Bool :=
  let s := stRem
  soloB o f s 0 fun e v => (v.remoteCheck s n kind bit mc).isNone && decide (entriesUsed s e.pl.core < 1024) && v.peer == 1 &&
    nextB (c f) s fun t => threadAt t 3 0 == some v.t && t.ms.mem == s.ms.mem &&
      (t.fb.reqs.map fun r => (r.kind, r.node, r.addr, r.rel.isSome, r.dcid, r.uids)) ==
        [(k v, if mc then groupNode 1 else 1, 0x4000, rel, if mc then (t.fb.reqs.map (·.dcid)).headD 0 else 9, [4])]

theorem witness_remoteInstructions :
    (let f := fun o => { good o with c := 0 }
     sends .rld formRld { f formRld with w := 2 } 4 8 0 false (fun _ => .read 4 8 false) false &&
     sends .rst formRst { f formRst with w := 2 } 4 9 1 false (fun _ => .write [5, 0, 0, 0]) false &&
     sends .rst formRst { f formRst with w := 2, md := 2, scope := 5 } 4 9 1 false (fun _ => .write [5, 0, 0, 0]) true &&
     sends .rfop formRfop (f formRfop) 4 10 2 false (fun v => .fop 0 false 0 4 5 0 8 false v.seqIndex) false &&
     sends .rred formRred (f formRred) 4 10 2 false (fun v => .red 0 false 0 4 5 v.seqIndex) false &&
     sends .rmcast formRmcast { f formRmcast with w := 2 } 4 11 3 true (fun _ => .mcast [(1, 9)] [5, 0, 0, 0]) false) = true ∧
    (let s := stRem
     let f := { good formRflag with c := 0, md := 4 }
     soloB formRflag f s 0 fun e v => (v.remoteCheck s 4 9 1 false).isNone && decide (entriesUsed s e.pl.core < 1024) &&
       (v.releaseDom (setSheet s e.sh)).isOk && nextB (.rflag f) s fun t => (t.fb.reqs.map fun r => (r.node, r.addr, r.rel.isSome, r.scope)) ==
         [(1, 0x4000, true, 5)] && threadAt t 3 0 == some v.t) = true ∧
    (let s := { stRem with fb := { stRem.fb with wrote := [(⟨0, 2⟩, [1])] } }
     soloB formRfence (good formRfence) s 0 fun e v => (palletAgent s e.pl == ⟨0, 2⟩) && (v.releaseDom s).isOk &&
       nextB (.rfence (good formRfence)) s fun t => t.fb.wrote.isEmpty && (t.fb.reqs.all fun r => r.kind == .marker && r.node == 1) &&
         (t.fb.reqs.map (·.plane)) == workingPlanes s (pathSet s ⟨0, 2⟩ 0 1) && !t.fb.reqs.isEmpty) = true ∧
    (let s := stRem [(4, 0xF)]
     let f := { good formRpath with d := 0 }
     does s .rpath formRpath f fun e v => given ((v.k 0 0).toNat == 1 && s.fb.reqs.isEmpty) (putPath s (palletAgent s e.pl) 1 0xF, id)) = true := by
  decide +kernel

/-! ## System, race and debug instructions -/

theorem witness_systemInstructions :
    (let s := stMem
     [(0, 1100), (1, 0), (2, 0), (3, 0), (4, 0), (5, 0), (0x10, 0)].all fun (x : Nat × Nat) =>
       ends s .csrr formCsrr { good formCsrr with a := BitVec.ofNat 7 x.1 } fun _ v => putG 8 1 x.2 v.t) = true ∧
    (let s := stMem [(4, 6)]
     does s .csrw formCsrw { good formCsrw with d := 5 } (fun e _ => some (setCtx s { e.cx with retsel := 6 }, id)) &&
     does s .csrw formCsrw { good formCsrw with d := 0x10 } (fun _ _ => some (setPart s { benchPart with pcap := 6 }, id))) = true ∧
    ([0, 1].all fun md =>
      let s := { stMem [(4, 0), (2, 0x10000)] with ms := { (stMem).ms with tlb := [⟨7, 0, 2, 0xF, .core 0⟩, ⟨8, 0, 2, 0xF, .core 0⟩] } }
      let f := { good formTlbinv with md := md, a := if md = 1 then 0 else 4, b := if md = 1 then 0 else 2 }
      soloB formTlbinv f s 0 fun _ _ => nextB (.tlbinv f) s fun t => t.ms.tlb == [⟨8, 0, 2, 0xF, .core 0⟩] && t.ms.mem == s.ms.mem &&
        (getSheet t 3).map (·.pc) == some 0x10004) = true ∧
    (let w : Posted := ⟨⟨0, 2⟩, none, 0x4000, [9], 2, 0, 0⟩
     let s := { stMem [(4, 0), (2, 0x10000)] with ms := { (stMem).ms with tlb := [⟨7, 0, 2, 0xF, .core 0⟩], posted := [w] } }
     let f := { good formTlbinv with md := 1, a := 0, b := 0 }
     soloB formTlbinv f s 0 fun _ _ => usedLeaf w ⟨7, 0, 2, 0xF, .core 0⟩ && nextB (.tlbinv f) s fun t => t.ms.posted.isEmpty && memGet t.ms.mem 0x4000 == 9) = true ∧
    (let s := { stMem [(2, 0x80)] with ms := { (stMem).ms with
       l1 := [⟨0, 7, 0x400, 0x4000, 0xFFFF, 0x77, [(⟨0, 2⟩, 1)], 0, raceQuiet, false, 0, 0, 0⟩] } }
     soloB formCinv (good formCinv) s 0 (fun e _ => (getPart s e.cx.part).isSome && nextB (.cinv (good formCinv)) s fun t => t.ms.l1.isEmpty) &&
     soloB formCwb (good formCwb) s 0 fun e _ => (rangeSectors s e.cx 0x4000 0x80).length == 1 && Mem.wf s.ms.mem &&
       nextB (.cwb (good formCwb)) s fun t => memGet t.ms.mem 0x4000 == 0x77 && t.ms.l1.all fun b => b.dirty.isEmpty) = true ∧
    (let s := { stMem [(4, 8)] with mg := { (stMem).mg with ctxs := (stMem).mg.ctxs ++ [benchCtx 8] } }
     soloB formHalt (good formHalt) s 0 fun e _ => ((getCtx s 8).any fun c => c.part == e.cx.part && c.stop.isNone) &&
       nextB (.halt (good formHalt)) s fun t => (getCtx t 8).map (·.stop) == some (some 0) && (getSheet t 3).map (·.pc) == some 0x10004) = true ∧
    (let s := stMem [(4, 7)]
     soloB formHalt (good formHalt) s 0 fun e _ => e.cx.stop.isNone && nextB (.halt (good formHalt)) s fun t =>
       (getCtx t 7).map (·.stop) == some (some 0) && (getSheet t 3).map (·.pc) == some 0x10000) = true := by decide +kernel

/-- Another pallet, key 9 in admission slot 1, halted, with thread 5 whose g3 is 77; g4:g5 names that register in the window. -/
def stDbg : State :=
  let s := stMem [(4, 5), (5, 0x8030)]
  { s with cs := { s.cs with
      pallets := s.cs.pallets ++ [{ benchPallet 9 2 with psl := 1, dbg := { DbgWords.admitted with halt := true } }]
      sheets := s.cs.sheets ++ [benchSheet 8 9 { setRegs (benchThread 7) [(3, 77)] [] [] with tid := 5 } 0x10000] } }

/-- The bench with the page race-checked. -/
def stRace (x : Word) : State :=
  let s := stMem [(2, x)]
  { s with ms := { s.ms with mem := memWrite s.ms.mem 0x2000 (leBytes 8 0x1F) } }

theorem witness_raceAndDebug :
    (let s := stMem [(2, 128)]
     let go := fun (c : Fld → Instr) o (f : Fld) => soloB o f s 0 fun e v =>
       (match translate s e.cx accRecord 0x4000 128 with
        | .ok (ps, _) => ps.length == 1
        | _ => false) && nextB (c f) s fun t => threadAt t 3 0 == some v.t && t.ms.mem == s.ms.mem
     go .racectlClean formRacectlClean (good formRacectlClean) && go .racectlQuiet formRacectlQuiet (good formRacectlQuiet)) = true ∧
    (let s := stMem [(2, 7)]
     ends s .racectlCount formRacectlCount (good formRacectlCount) (fun _ v => putG 8 2 0 v.t) fun e _ =>
       (getCtx s 7).any fun c => c.part == e.cx.part) = true ∧
    (let s := stMem
     does s .rclk formRclk { good formRclk with c := 0 } fun _ v =>
       match v.check s accLoad (v.addr true) 1 true with
       | .ok (.glob (q :: _), s1) => some (s1, putG 8 4 (if pteRc q.leaf.pte then raceGet s1.ms.race (q.pa / 128) else raceQuiet).toNat)
       | _ => none) = true ∧
    (let s := stDbg
     ends s .dbgld formDbgld (good formDbgld) (fun _ v => putG 8 1 77 v.t) (fun e _ =>
       match winReg s e.cx (2 ^ 47 + 3 * 2 ^ 36 + 5) 4 none with
       | .value x => x == 77
       | _ => false) &&
     does s .dbgst formDbgst (good formDbgst) fun e _ =>
       match winReg s e.cx (2 ^ 47 + 3 * 2 ^ 36 + 5) 4 (some 5) with
       | .moved s1 => some (s1, id)
       | _ => none) = true ∧
    (let s := stMem
     soloB formExpo (good formExpo) s 0 fun _ v => nextB (.expo (good formExpo)) s fun t =>
       (getPallet t 1).map (fun p => (p.expo, p.rwc)) == some (1, 0) && (threadAt t 3 0).map (·.g) == some v.t.g) = true := by decide +kernel

/-! ## Command cores -/

def putX (s : State) (l : List (Nat × Dword)) : State :=
  { s with mg := { s.mg with fw := s.mg.fw.set 0 { FwCore.zero with x := l.foldl (fun r x => r.set x.1 x.2) (List.replicate 32 0) } } }

/-- rd := v, or an exception of a cause, at command core 0. -/
def fwGives (i : Instr) (s : State) (v : Dword) : Bool :=
  nextB i s fun t => let c := fwCore t 0; nthD c.x 5 0 == v && c.pc == 4 && !c.wait
def fwTraps (i : Instr) (s : State) (cause : Dword) : Bool :=
  nextB i s fun t => let c := fwCore t 0; c.mcause == cause && c.mepc == 0 && c.x == (fwCore s 0).x

/-- A queue of context 7 with one packet of a kind in host memory at its slot 0. -/
def aPacket (kind : Nat) (fields : List (Nat × Nat × Nat)) : List Byte :=
  let b := layout 64 (fields ++ [(0x38, 2, benchQueue 7 |>.lap 0), (0x3A, 1, 1), (0x3B, 1, kind)])
  putB b 0x3C 4 (crc32c (b.take 0x38)).toNat

def stQueue (q : Queue) (b : List Byte) : State :=
  let s := stMem
  { s with
    ms := { s.ms with hostMem := memWrite [] 0x9000 b }
    qs := { s.qs with queues := [q] } }

/-- The bytes of a launch record that the checks of R417 accept. -/
def aLaunch : List Byte :=
  layout 256 [(0, 2, 0x100), (2, 1, 1), (5, 1, 1), (6, 1, 1), (8, 4, 1), (0xC, 2, 16), (0xE, 1, 8), (0x14, 4, 1), (0x18, 8, 0x10000),
    (0x28, 4, 1), (0x2C, 4, 1), (0x30, 4, 1), (0x34, 2, 1), (0x36, 2, 1), (0x38, 2, 1)]

theorem witness_commandCores :
    (let x : XFld := ⟨5, 6, 7⟩
     let q := benchQueue 7
     fwTraps (.qfetch x) (putX stMem [(6, 1)]) 24 &&
     fwGives (.qfetch x) (putX (stQueue q []) [(7, 0x40)]) 1 &&
     nextB (.qfetch x) (putX (stQueue { q with widx := 1 } (aPacket 8 [])) [(7, 0x40)]) (fun t => nthD (fwCore t 0).x 5 9 == 0 &&
       (getQueue t 0).map (·.acc) == some 1 && memRead t.mg.fwMem 0x40 64 == aPacket 8 []) &&
     fwGives (.qfetch x) (putX (stQueue { q with widx := 1 } (aPacket 0 [])) [(7, 0x40)]) 3 &&
     fwGives (.qfetch x) (putX (stQueue { q with widx := 1, tries := 16 } []) [(7, 0x40)]) 2 &&
     nextB (.qfetch x) (putX (stQueue { q with widx := 1, tries := 15 } []) [(7, 0x40)]) fun t => (getQueue t 0).map (·.tries) == some 16) = true ∧
    (let x : XFld := ⟨5, 6, 7⟩
     fwGives (.bfx x) (putX stMem [(6, 0x123456789), (7, 0x804)]) 0x78 && fwGives (.bfx x) (putX stMem [(6, 2 ^ 63), (7, 0x13F)]) 1 &&
     fwTraps (.bfx x) (putX stMem [(7, 4)]) 25 && fwTraps (.bfx x) (putX stMem [(7, 0x23F)]) 25 &&
     fwTraps (.swait x) (putX stMem [(6, 4)]) 26 && fwGives (.swait x) (putX stMem [(6, 8), (7, 1)]) 0 &&
     nextB (.swait x) (putX stMem [(6, 8)]) fun t => (fwCore t 0).wait && (fwCore t 0).pc == 0) = true ∧
    (let x : XFld := ⟨5, 6, 7⟩
     let s := fun b => let s := putX (stQueue { benchQueue 7 with acc := 1 } []) [(6, 0x40)]; { s with mg := { s.mg with fwMem := memWrite [] 0x40 b } }
     fwTraps (.disp x) (putX (stQueue (benchQueue 7) []) [(6, 4)]) 27 &&
     fwGives (.disp x) (s (List.replicate 256 0)) (2 ^ 63 + 1) &&
     nextB (.disp x) (s aLaunch) fun t => nthD (fwCore t 0).x 5 9 == 1 && t.qs.launches.length == 2 && (getQueue t 0).map (·.strt) == some 1) = true := by
  decide +kernel

/-! ## Scheduling and launches -/

/-- The bench at cycle 5,000, its launch with room for two sheets of 32 threads, thread 9 waiting in the store since cycle 0. -/
def stStore : State :=
  let s := withLa (st0 []) fun la => { la with r := { la.r with thr := 64 } }
  { s with cs := { s.cs with
      cyc := 5000
      store := [⟨1, 0x10040, { benchThread 9 with tid := 1 }, zeroK, 0, .ready, false⟩] } }

def formedB (s t : State) (slot : Nat) : Bool :=
  t.cs.store.isEmpty && match t.cs.sheets.drop s.cs.sheets.length with
  | [sh] => sh.pal == 1 && sh.pc == 0x10040 && sh.slot == slot && (sh.lanes.map fun x => (x.1, x.2.uid)) == [(0, 9)]
  | _ => false

/-- Two pallets of a core, 1 active and 6 parked. -/
def stParked : State :=
  let s := st0 []
  { s with cs := { s.cs with
      cyc := 2 ^ 18
      pallets := [benchPallet 1 2, { benchPallet 6 2 with psl := 1, st := .parked }] } }

theorem witness_sheetScheduling :
    (let s := stStore
     chooseSlot s 0 == some 8 && (s.cs.sheets.countP fun sh => sh.pal = 1) == 1 && (getLaunch s 2).any (fun la => sheetSlots la == 2) &&
     (waiting s 1 0x10040).length == 1 && (oldestReady s 1).isSome && nextB (.sheetFormation 1 0x10040) s (fun t => formedB s t 8) &&
     nextB (.spawnWaitLimit 1) s fun t => formedB s t 8) = true ∧
    (let s := let s := stStore
       { s with cs := { s.cs with sheets := s.cs.sheets ++ (List.range 31).map fun i =>
           { benchSheet (20 + i) 1 (benchThread (30 + i)) 0x10000 with slot := i + 1, lastIssue := 3 } } }
     (chooseSlot s 0).isNone && ((oldestIssued s 1).map (·.key)) == some 3 && nextB (.spawnWaitLimit 1) s fun t =>
       (t.cs.sheets.any fun sh => sh.pal == 1 && sh.pc == 0x10040 && sh.slot == 0) && (getSheet t 3).any (·.evicted)) = true ∧
    (let s := { st0 [] with cs := { (st0 []).cs with
       pallets := [{ benchPallet 1 2 with mdone := true }]
       sheets := [{ benchSheet 3 1 (benchThread 4) 0x10000 with stalled := true }] } }
     s.en.relq.isEmpty && nextB (.spawnStoreSpaceFreed 1) s fun t => t.cs.sheets.all fun sh => !sh.stalled) = true ∧
    (let s := { st0 [] with cs := { (st0 []).cs with
       cyc := 77
       sheets := [{ benchSheet 3 1 (benchThread 4) 0x10000 with evicted := true }] } }
     (oldestEvicted s 1).isSome && nextB (.evictedSheetRestore 1) s fun t => (getSheet t 3).map (fun x => (x.evicted, x.slot, x.lastIssue)) ==
       some (false, 0, 77)) = true ∧
    (let s := stParked
     (getPallet s 6).any (waitsForCore s) && atBoundary s 1 && (replacement s 1).map (·.key) == some 6 &&
     ((getPallet s 6).any fun q => fitsNow (parkPallet s 1) q) &&
     [Instr.palletSwap 1 6, .palletQuantumExpiry 1].all fun i => nextB i s fun t =>
       (getPallet t 1).map (·.st) == some .parked && (getPallet t 6).map (·.st) == some .active) = true ∧
    (let s := { stParked with mg := { stParked.mg with ctxs := [{ benchCtx 7 with savs := 0x100000000 }] } }
     ((getCtx s 7).any fun cx => maySwitch s cx 0) && nextB (.contextSwitch 0 7) s fun t =>
       (t.cs.pallets.map (·.st)) == [.switched, .switched] && ((getCtx t 7).any fun c => c.slots.isEmpty && (c.out.map (·.core)) == [0]) &&
       nextB (.contextRestore 0 7) t fun u => (u.cs.pallets.map (·.st)) == [.parked, .parked] &&
         ((getCtx u 7).any fun c => c.slots == [(0, 0)] && c.out.isEmpty)) = true := by decide +kernel

/-! ## A launch from its submission to its end -/

/-- A submission of context 7: packet 0 of queue 0. -/
def aSub (unit : List Byte) : Submit := ⟨9, 7, 0x4000, false, some (0, 0), some 5, 0, true, unit⟩

def stSub (unit : List Byte) : State :=
  let s := stMem
  { s with
    en := { s.en with futs := [⟨5, 0, .pending, 0, true⟩] }
    qs := { s.qs with
      queues := [{ benchQueue 7 with acc := 1, strt := 1 }]
      subs := [aSub unit] } }

/-- A matcher at the one cell of both sets, whose one record each holds 3.0 and 1.0; the test is a difference of at most 10. -/
def stMatcher : State :=
  let p := { aPRec with
    acnt := 1
    bcnt := 1
    apos := 8
    bbase := 0x400C
    acell := 0x4000
    bcell := 0x4000
    test := 3
    cut := 0x41200000 }
  let s := withLa (st0 []) fun la => { la with p := some p }
  { s with
    ms := { s.ms with l1 := [⟨0, 7, 0x400, 0x4000, 0xFFFF, 0x3F800000404000000000000100000000, [], 0, raceQuiet, false, 0, 0, 0⟩] }
    cs := { s.cs with pallets := [{ benchPallet 1 2 with mpos := [0] }] } }

theorem witness_launchLifecycle :
    (let s := stSub aLaunch
     let la := draftLaunch (aSub aLaunch) (benchCtx 7)
     (getCtx s 7).any (fun cx => wasCancelled s (aSub aLaunch) == false && cx.stop.isNone &&
       (match admitCheck s cx (draftLaunch (aSub aLaunch) cx) false with
        | .ok c => c == [0] && coreTakes s cx 0
        | _ => false)) && freeTag s la 0 == some 0 && nextB (.launchAdmission 9) s fun t =>
       t.qs.subs.isEmpty && (t.qs.launches.drop 1).map (fun la => (la.key, la.cid, la.pals, la.tag, la.r == parseLaunch aLaunch)) ==
         [(9, 7, 1, 0, true)] && (t.cs.pallets.drop 1).map (fun p => (p.launch, p.core, p.num)) == [(9, 0, 0)]) = true ∧
    (let s := stSub (List.replicate 256 0)
     (getCtx s 7).any (fun cx => match admitCheck s cx (draftLaunch (aSub (List.replicate 256 0)) cx) false with
       | .error c => c == 1
       | _ => false) && nextB (.launchAdmission 9) s fun t =>
       t.qs.subs.isEmpty && t.qs.launches == s.qs.launches && (getQueue t 0).any (fun q => sGet q.ended 0 == some (3, 1, s.mg.ns)) &&
         futSt t 5 == some .error) = true ∧
    (let s := stMatcher
     s.en.relq.isEmpty && (match matcherEnv s 1 with
       | none => false
       | some m => decide (0 < m.rangeLo 1) && match (cellRecords m false 0).run s with
         | .ok ((0, 1), s1) => match (lookCand m 0 0 0).run s1 with
           | .ok (.yes 0 0 v none, s2) => v == ⟨0x40000000, 0, 0, 0x40800000⟩ && entryRoom s2 1 &&
               match pairIdent s2 m.la m.pl m.p.isOrd (2 ^ 63) (palletAgent s2 m.pl) 0xFFFFFFFF 0 with
               | .ok (some _) => true
               | _ => false
           | _ => false
         | _ => false) && (walkOne s 1).2 &&
       (walkOne s 1).1.cs.store.map (fun e => (e.pc, e.thr.g.take 3, e.thr.pair.map (·.vals))) ==
         [(0x10000, [0, 0, 0], some [0x40000000, 0, 0, 0x40800000, 0x3F800000])]) = true ∧
    (let s := { st0 [] with
       ms := { (st0 []).ms with mem := memWrite (benchTables []) 0x4000 (leBytes 4 0x40000000) }
       en := { (st0 []).en with parts := [⟨2, 1, 0x4000, false, [3], [(0, 0x3F800000)], true, false⟩] } }
     (match translate s (benchCtx 7) accOther 0x4000 4 with
      | .ok ([ph], s1) => ph.pa == 0x4000 && ph.len == 4 && (poisonCheck s1 ph).isNone
      | _ => false) && Mem.wf s.ms.mem && nextB (.sequencerPartialArrival 0) s fun t =>
       t.en.parts.isEmpty && t.en.papp == [(2, 0x4000, false, 3)] && memRead t.ms.mem 0x4000 4 == leBytes 4 0x40400000) = true ∧
    (let s := let s := stSub []
       { s with
         cs := { s.cs with
           pallets := [{ benchPallet 1 2 with st := .ended }]
           sheets := [] }
         qs := { s.qs with
           subs := []
           launches := [{ benchLaunch 2 7 with queue := some (0, 0), fut := some 5 }] } }
     (getLaunch s 2).any (fun la => launchOver s la && !replaying la && raceMode la == 0 && (getCtx s la.cid).isSome) &&
       nextB (.launchEnd 2) s fun t => (getLaunch t 2).map (·.fin) == some (some 0) && t.cs.pallets.isEmpty &&
         (getQueue t 0).any (fun q => (sGet q.ended 0).map (·.1) == some 0) && futSt t 5 == some .clean) = true ∧
    (let s := st0 []
     nextB (.coreRetirement 0) s fun t => t.cs.retired == [0] && (getLaunch t 2).map (·.fin) == some (some 5)) = true := by decide +kernel

/-! ## Memory and engine events -/

def sleeper (sl : Sleep) : Entry := ⟨1, 0x10040, { benchThread 9 with tid := 1 }, zeroK, 0, sl, false⟩

def stSleep (sl : Sleep) : State := { stMem with cs := { (stMem).cs with
  cyc := 100
  store := [sleeper sl] } }

theorem witness_memoryEvents_homes :
    (let s := { stMem with ms := { (stMem).ms with l1 := [⟨0, 7, 0x400, 0x4000, 0xFFFF, 0x7700, [(⟨0, 2⟩, 2)], 0, raceQuiet, false, 0, 0, 0⟩] } }
     Mem.wf s.ms.mem && nextB (.l1Eviction 0 0x400) s fun t => t.ms.l1.isEmpty && memGet t.ms.mem 0x4001 == 0x77 &&
       memGet t.ms.mem 0x4000 == memGet s.ms.mem 0x4000) = true ∧
    (let s := { stMem with ms := { (stMem).ms with posted := [⟨⟨0, 2⟩, none, 0x4001, [7, 8], 0, 0, 0⟩, ⟨⟨0, 2⟩, some 1, 0x40, [9], 0, 0, 0⟩] } }
     nextB (.storePerformedAtHome 0) s (fun t => t.ms.posted == s.ms.posted.drop 1 && memRead t.ms.mem 0x4001 2 == [7, 8]) &&
     nextB (.storePerformedAtHome 1) s fun t => t.ms.posted == s.ms.posted.take 1 && trayByte t 1 0x40 == some 9 && t.ms.mem == s.ms.mem) = true ∧
    (let s := { stMem with qs := { (stMem).qs with
       queues := [{ benchQueue 7 with wake := 1 }]
       swis := [⟨⟨0, 2⟩, 0, 6⟩, ⟨⟨0, 2⟩, 0x1001, 6⟩] } }
     nextB (.swiWakeOr 0) s (fun t => (getQueue t 0).map (·.wake) == some 7 && t.qs.swis.length == 1) && (s.qs.mwake[1]?).isSome &&
     nextB (.swiWakeOr 1) s fun t => t.qs.mwake == s.qs.mwake.set 1 6 && t.qs.swis.length == 1) = true ∧
    (let s := stMem
     (match translate s (benchCtx 7) (accHost true) 0x4000 2 with
      | .ok ([ph], _) => ph.pa == 0x4000 && ph.len == 2
      | _ => false) && benchPart.vf == 0 &&
     nextB (.hostMemoryAccess 0 7 0x4000 true [1, 2]) s (fun t => memRead t.ms.mem 0x4000 2 == [1, 2]) &&
     nextB (.hostMemoryAccess 1 7 0x4000 true [1, 2]) s fun t => t.ms.mem == s.ms.mem) = true := by decide +kernel

theorem witness_memoryEvents_wakes :
    (let s := stSleep (.mwait 8 5 0)
     (storedAny s 9).isSome &&
     nextB (.mwaitLimitExpiry 9) s (fun t => t.cs.store.map (fun e => (e.sleep, nthD e.thr.g 8 0)) == [(.ready, 1)]) &&
     nextB (.mwaitUnexplainedWake 9) s fun t => t.cs.store.map (fun e => (e.sleep, e.pc)) == [(.ready, 0x10040)]) = true ∧
    (let sh := { crsSheet with sleep := crsSheet.lanes.map fun x => (x.1, Sleep.mwait 8 5 0) }
     let s := { stCrs with cs := { stCrs.cs with
       cyc := 100
       sheets := [sh] } }
     (storedAny s 4).isNone && sheetOf s 4 == some sh && sheetMwait sh == some (8, 5) &&
     [Instr.mwaitLimitExpiry 4, .mwaitUnexplainedWake 4].all fun i => nextB i s fun t => (getSheet t 3).any fun n => (sheetMwait n).isNone &&
       n.pc == sh.pc) = true ∧
    (let s := { stMem with cs := { (stMem).cs with pallets := [{ benchPallet 1 2 with st := .paused }] } }
     nextB (.trapQueueResume 7 0x20000 1) s fun t => (getPallet t 1).map (·.st) == some .eligible) = true ∧
    ([(true, Sleep.ready), (false, .brk)].all fun (x : Bool × Sleep) =>
     let r := layout 64 [(0, 1, 3)]
     let s := { stSleep (.trapSlot r x.1) with cs := { (stSleep (.trapSlot r x.1)).cs with sheets := [] } }
     (match deviceWrite s (benchCtx 7) (hubAgent s) 0x20008 (leBytes 8 0) .plain with
      | some s1 => s1.cs.store.length == 1 && s1.en.qheld.isEmpty && (palletEnv s1 1).any fun x => (placeRecord s1 x.1 x.2 3 r).isSome
      | none => false) && nextB (.trapQueueSpaceFreed 7 0x20000 0) s fun t => t.cs.store.map (·.sleep) == [x.2]) = true ∧
    (let s := { stMem with mg := { (stMem).mg with ctxs := [{ benchCtx 7 with wdog := 2 ^ 32 }] } }
     nextB (.watchdogExpiry 7) s fun t => (getCtx t 7).map (·.stop) == some (some 0x28)) = true := by decide +kernel

/-- Copy 20 of sixteen bytes between tray offsets 0x40 and 0x80. -/
def aCopy : Copy := ⟨20, 5, 0, 7, 2, 1, .lin, 1, 1, 0x80, 0x40, 16, [(0, 16)], none, 0, 0x10000, 0, false, 0, [], []⟩

def stFlight (c : Copy) : State := { stMem with en := { (stMem).en with
  copies := [c]
  futs := [⟨5, 1, .pending, 0, true⟩] } }

/-- One step of an f32 accumulation: row 0 of A and of B are sixteen bytes of the tray. -/
def aMma : Mma := ⟨30, 0, 7, 2, 1, 0, 3, 0, 2, 2, 1, 1, 0x40, 0x40, 256, 256, 0, 0, 0, 0, 1, [0], 0, none, 0x10000, 0, 0, false, false, false, 0⟩

theorem witness_engineEvents :
    (let s := stFlight aCopy
     (copyEnv s aCopy).any (fun e => decide (0x90 ≤ e.la.r.tray)) && copyRuns s aCopy && nextB (.copyLanding 20 0 16) s fun t =>
       trayBytes t 1 0x80 16 == someBytes && (getCopy t 20).isNone && futSt t 5 == some .clean) = true ∧
    (let c := { aCopy with src := 0x1000 }
     let s := stFlight c
     (copyEnv s c).any (fun e => decide (e.la.r.tray ≤ c.src)) && copyRuns s c && nextB (.copyEngineFault 20 0x0C) s fun t =>
       (getCopy t 20).isNone && futSt t 5 == some .error) = true ∧
    (let s := { stTile [] with en := { (stTile []).en with mmas := [aMma] } }
     mmaRuns s aMma && (match pipeEnv s 1 with
       | some e => match pipeFetch (mmaStart s e aMma) e { aMma with started := true } with
         | .ok (_, s1) => s1.en.mmas == (mmaStart s e aMma).en.mmas && nextB (.mmaAccumulationStep 30) s fun t =>
             t.en.mmas.isEmpty && (getTile t 0 3).steps == 1 && !(getTile t 0 3).act
         | _ => false
       | none => false)) = true := by decide +kernel

/-! ## Fabric -/

/-- A request on its way from the bench's pallet to a node. -/
def aReq (node : Nat) (kind : ReqKind) : Req :=
  ⟨40, kind, ⟨0, 2⟩, 0, 1, 4, 0, 0x10000, node, 9, 0x4000, 0, none, 0, 0, 0, 0, false, 7, [4], false, [], none, 0, 0, []⟩

def stReq (r : Req) : State := { stRem with fb := { (stRem).fb with reqs := [r] } }

def acked (t : State) (r : Req) : Bool := t.fb.reqs == [{ r with kind := .ack, held := false, bad := [] }]

theorem witness_fabricEvents :
    (let r := aReq 1 (.write [1, 2])
     let s := stReq r
     (r.node != s.fb.node) && nextB (.remoteRequestArrival (.own 40)) s fun t => acked t r && peerMem t 1 9 == memWrite [] 0x4000 [1, 2] && t.ms == s.ms) = true ∧
    (let r := { aReq 0 (.write [1, 2]) with dcid := 7 }
     let s := stReq r
     (match reqWrite s r 0 7 9 [1, 2] (reqEff r .plain) true with
      | .ok (s1, hits) => hits.isEmpty && memRead s1.ms.mem 0x4000 2 == [1, 2]
      | _ => false) && nextB (.remoteRequestArrival (.own 40)) s fun t => acked t r && memRead t.ms.mem 0x4000 2 == [1, 2]) = true ∧
    (let r := aReq 1 (.flag [3] true [(0, 0)])
     let s := stReq r
     flagReady s r [(0, 0)] && nextB (.remoteFlagArrival (.own 40)) s fun t => acked t r && peerMem t 1 9 == [(0x4000, 3)]) = true ∧
    (let r := aReq 1 (.flag [3] true [(0, 1)])
     let s := stReq r
     !flagReady s r [(0, 1)] && nextB (.remoteFlagArrival (.own 40)) s fun t => t.fb.reqs == [{ r with held := true }]) = true ∧
    (let r := aReq 1 .ack
     nextB (.remoteAckArrival 40) (stReq r) (fun t => t.fb.reqs.isEmpty) &&
     nextB (.remoteAckArrival 40) (stReq { r with bad := [(3, 0x4000, List.replicate 24 0)], fatal := true }) fun t => t.fb.reqs.isEmpty &&
       (getCtx t 7).map (·.stop) == some (some 3)) = true ∧
    (nextB (.fenceMarkerArrival 40) (stReq (aReq 1 .marker)) fun t => t.fb.reqs.isEmpty) = true ∧
    (let r := { aReq 1 (.flag [3] true [(2, 1)]) with held := true }
     nextB (.mortarPlaneFailure 2) (stReq r) fun t => t.fb.reqs.isEmpty && !t.fb.planes.getLsbD 2) = true ∧
    (nextB (.linkTraining 3 [0x0100, 0x0200]) stRem (fun t => nthD t.fb.vers 3 0 == 0x0100 && t.fb.planes.getLsbD 3) &&
     nextB (.linkTraining 3 [0x0200]) stRem (fun t => nthD t.fb.vers 3 1 == 0 && !t.fb.planes.getLsbD 3) &&
     nextB .hostLinkRetraining stRem fun t => t.fb == (stRem).fb) = true := by decide +kernel

/-! ## Queues and packets -/

/-- A packet without its check value, which is not looked at again after it has been accepted. -/
def rawPacket (kind : Nat) (fields : List (Nat × Nat × Nat)) : List Byte := layout 64 (fields ++ [(0x3A, 1, 1), (0x3B, 1, kind)])

/-- Queue 0 of context 7 with one accepted packet of a kind, the next to start. -/
def stPacket (kind : Nat) (fields : List (Nat × Nat × Nat)) : State :=
  let q := { benchQueue 7 with
    acc := 1
    pkts := [(0, rawPacket kind fields)] }
  let s := stMem
  { s with
    qs := { s.qs with queues := [q] }
    mg := { s.mg with ns := 1000 } }

def turnB (s : State) (kind : Nat) : Bool :=
  (getQueue s 0).any fun q => q.strt == 0 && decide (0 < q.acc) && (sGet q.ended 0).isNone && (sGet q.pkts 0).any (fun b => pkKind b == kind) &&
    s.qs.deps.isEmpty && q.pkts.length == 1

/-- The packet starts and ends at once without error. -/
def packetB (i : Instr) (s : State) (kind : Nat) (p : State → Bool) : Bool :=
  turnB s kind && nextB i s fun t => p t && (getQueue t 0).any fun q => q.strt == 1 && sGet q.ended 0 == some (0, 0, 1000)

theorem witness_queueRegisters :
    (let s := stQueue { benchQueue 7 with widx := 3, stat := 0x80000001, tries := 2, wake := 7 } []
     nextB (.queueDoorbell ⟨0, 0⟩ 5) s (fun t => (getQueue t 0).map (·.widx) == some 5) &&
     nextB (.queueDoorbell ⟨0, 0⟩ 2) s (fun t => (getQueue t 0).map (·.widx) == some 3) &&
     nextB (.queueRestart ⟨0, 0⟩ 0x80000000) s (fun t => (getQueue t 0).map (fun q => (q.stat, q.tries)) == some (0, 0)) &&
     nextB (.queueRestart ⟨0, 0⟩ 1) s (fun t => (getQueue t 0).map (fun q => (q.stat, q.tries)) == some (0x80000001, 2)) &&
     nextB (.queueWakeClear ⟨0, 0⟩ 5) s fun t => (getQueue t 0).map (·.wake) == some 2) = true ∧
    (let q := { benchQueue 7 with widx := 1 }
     nextB (.packetFetch 0) (stQueue q (aPacket 8 [])) (fun t => (getQueue t 0).any fun u => u.acc == 1 && sGet u.pkts 0 == some (aPacket 8 [])) &&
     nextB (.packetRefetchTimer 0) (stQueue { q with tries := 1 } (aPacket 8 [])) (fun t => t.mg.ns == 250 && (getQueue t 0).map (·.acc) == some 1) &&
     nextB (.packetFetch 0) (stQueue q []) (fun t => (getQueue t 0).map (·.tries) == some 1) &&
     nextB (.packetRefetchTimer 0) (stQueue { q with tries := 1 } []) (fun t => (getQueue t 0).map (·.tries) == some 2) &&
     nextB (.packetRefetchTimer 0) (stQueue { q with tries := 16 } []) fun t =>
       (getQueue t 0).any fun u => u.stat.getLsbD 31 && u.stat.toNat / 2 ^ 16 % 256 == 1) = true := by decide +kernel

theorem witness_packets :
    (let s := stPacket 1 [(0x18, 8, 0x4000)]
     turnB s 1 && (getQueue s 0).any (fun q => (deviceRead (startedAt s q 0) (benchCtx 7) 0x4000 256).isSome) &&
       nextB (.launchPacket 0 0) s fun t => t.qs.subs.map (fun y => (y.cid, y.pair, y.queue, y.readable, y.unit.take 16 == someBytes)) ==
         [(7, false, some (0, 0), true, true)]) = true ∧
    (let s := stPacket 2 [(0x18, 8, 0x4000)]
     turnB s 2 && nextB (.pairLaunchPacket 0 0) s fun t => t.qs.subs.map (fun y => (y.cid, y.pair, y.queue, y.readable, y.unit.length)) ==
         [(7, true, some (0, 0), true, 512)]) = true ∧
    (packetB (.copyPacket 0 0) (stPacket 3 [(0x18, 8, 0x4000), (0x20, 8, 0x4400), (0x28, 8, 16)]) 3 fun t =>
       memRead t.ms.mem 0x4400 16 == someBytes) = true ∧
    (packetB (.signalPacket 0 0) (stPacket 4 [(0x18, 8, 0x4800), (0x20, 8, 5), (0x28, 1, 1)]) 4 (fun t => memRead t.ms.mem 0x4800 8 == leBytes 8 5) &&
     packetB (.signalPacket 0 0) (stPacket 4 [(0x18, 8, 0x4800), (0x20, 8, 5)]) 4 (fun t => memRead t.ms.mem 0x4800 8 == leBytes 8 0) &&
     packetB (.signalPacket 0 0) (stPacket 4 [(0x18, 8, 0x4000), (0x20, 8, 5)]) 4 fun t =>
       memRead t.ms.mem 0x4000 8 == leBytes 8 (ofLe (someBytes.take 8) - 5)) = true ∧
    (let s := stPacket 5 [(0x18, 8, 0x4800), (0x20, 8, 5), (0x28, 1, 3)]
     turnB s 5 && nextB (.waitPacket 0 0) s (fun t => (getQueue t 0).map (fun q => (q.strt, q.ended.length)) == some (1, 0)) &&
     (let s := { s with qs := { s.qs with queues := s.qs.queues.map fun q => { q with strt := 1 } } }
      nextB (.waitPacketConditionMet 0 0) s fun t => (getQueue t 0).map (fun q => sGet q.ended 0) == some (some (0, 0, 1000)))) = true ∧
    ([(0, 0, true), (0, 1, false), (1, 1, true), (1, 0, false), (2, 0, true), (2, 1, false), (3, 0, false)].all fun (c, x, met) =>
      let s := stPacket 5 [(0x18, 8, 0x4800), (0x20, 8, x), (0x28, 1, c), (0x29, 1, 1)]
      let s := { s with qs := { s.qs with queues := s.qs.queues.map fun q => { q with strt := 1 } } }
      nextB (.waitPacketConditionMet 0 0) s fun t => (getQueue t 0).map (fun q => q.ended.isEmpty) == some !met) = true ∧
    (let image := rawPacket 8 []
     let s := stPacket 6 [(0x18, 8, 0x4800), (0x20, 8, 0x5800)]
     let s := { s with ms := { s.ms with mem := memWrite s.ms.mem 0x5800 image } }
     turnB s 6 && nextB (.dependencyPacket 0 0) s fun t => (getQueue t 0).map (·.strt) == some 1 && t.qs.deps == [⟨0, 0, 0x4800, image, true, 1, false⟩]) = true ∧
    (packetB (.timestampPacket 0 0) (stPacket 7 [(0x18, 8, 0x4800)]) 7 (fun t => memRead t.ms.mem 0x4800 8 == leBytes 8 1000) &&
     packetB (.markerPacket 0 0) (stPacket 8 []) 8 fun t => t.ms == (stPacket 8 []).ms) = true := by decide +kernel

/-- A partition's event ring of 64 slots at 0x100 of the host's memory; packet 0 of queue 0, a marker, has ended. -/
def stEnded (signals : Nat) (stat : Word) (done : List Nat) (ended : Bool) : State :=
  let s := stMem
  let q := { benchQueue 7 with
    acc := 1
    strt := 1
    stat := stat
    signed := done
    pkts := [(0, layout 64 [(0, 1, signals), (8, 8, 0x4800), (0x10, 8, 6), (4, 4, 0x77), (0x3B, 1, 8)])]
    ended := if ended then [(0, 0, 5, 900)] else [] }
  { s with qs := { s.qs with
      queues := [q]
      rings := [⟨0, 0x100, 64, 0⟩] } }

theorem witness_packetEvents :
    (let s := stEnded 0 0 [] true
     (queuePart s 0).isSome && (getRing s 0).any (ringRoom s) && nextB (.packetEnd 0 0) s fun t => (getQueue t 0).map (·.done) == some 1 &&
       memRead t.ms.hostMem 0x140 32 == eventBytes 4 0 0 0x77 0 5 900 && hostField t 0x100 == 1 && t.qs.msix == [(0, 1)]) = true ∧
    (let s := { stEnded 2 0 [] true with qs := { (stEnded 2 0 [] true).qs with queues := (stEnded 2 0 [] true).qs.queues.map fun q => { q with
       pkts := q.pkts ++ [(1, layout 64 [(0, 1, 2), (8, 8, 0x4800), (0x10, 8, 6), (0x3B, 1, 8)])]
       acc := 2
       strt := 2
       ended := [(1, 0, 0, 900)] } } }
     nextB (.packetEnd 0 1) s fun t => memRead t.ms.mem 0x4800 8 == leBytes 8 6 && (getQueue t 0).map (fun q => (q.signed, q.done)) == some ([1], 0)) = true ∧
    (let s := stEnded 0 0 [0] true
     (getRing s 0).any (ringRoom (hostPut s 0x108 (leBytes 8 0))) && nextB (.eventRingSpaceFreed 0 0) s fun t =>
       (getQueue t 0).map (·.done) == some 1 && memRead t.ms.hostMem 0x140 32 == eventBytes 4 0 0 0x77 0 5 900) = true ∧
    (let s := stEnded 0 0x40000000 [] false
     nextB (.eventRingSpaceFreed 0 0) s fun t => (getQueue t 0).map (·.stat) == some 0 &&
       memRead t.ms.hostMem 0x140 32 == eventBytes 3 0 0 0 0 1 s.mg.ns) = true ∧
    (nextB .firmwareComplexReset (stEnded 0 0 [] true) fun t => t.qs.queues.map (·.epoch) == [1] && t.mg.fw.length == 16) = true := by decide +kernel

/-! ## Management commands -/

def aCmd (payload : List Byte) : Cmd := ⟨0x01000000, false, 0x100, payload.length, 0, 0x99, 0, 3, payload⟩

/-- The bench owned by the master that sends the commands. -/
def stOwned : State := { stMem with mg := { (stMem).mg with
  owner := some 0x01000000
  ns := 500 } }

/-- A command is answered with a status and a payload, and p holds. -/
def mgB (i : Instr) (s : State) (c : Cmd) (sts : Nat) (reply : List Byte) (p : State → Bool := fun _ => true) : Bool :=
  nextB i s fun t => t.mg.rsp == [(c.src, c.tag, sts, reply)] && t.qs.msix == [(0, 0)] && (pageOf t c.src).dseq == c.seq && !(pageOf t c.src).busy && p t

def gives (r : Except Nat (List Byte)) (d : List Byte) : Bool :=
  match r with
  | .ok x => x == d
  | .error _ => false

/-- A command with data d that its master may give succeeds; another master's, who is no owner, is refused. -/
def actB (i : Cmd → Instr) (s : State) (who : Issuer) (d reply : List Byte) (p : State → Bool) : Bool :=
  let c := aCmd d
  let e := { c with src := 0x01000005 }
  gives (cmdData s c) d && allowed s c who && mgB (i c) s c 0 reply p &&
  (allowed s e who || nextB (i e) s fun t => t.mg.rsp == [(e.src, e.tag, 1, [])] && t.ms == s.ms && t.mg.parts == s.mg.parts && t.fb == s.fb)

noncomputable def allCmds : List (Cmd → Instr) := [.getverCmd, .nonceCmd, .claimCmd, .releaseCmd, .beatCmd, .partsetCmd, .partdelCmd, .partgetCmd, .ctxnewCmd,
  .ctxdelCmd, .queueSetCmd, .qresetCmd, .evsetCmd, .apopenCmd, .apcloseCmd, .mcsetCmd, .mcdelCmd, .healthCmd, .retgetCmd, .retclrCmd, .calgetCmd,
  .portgetCmd, .readyCmd, .fwloadCmd]

theorem witness_commandForm :
    (let c := aCmd []
     let s := stOwned
     allCmds.all fun i => mgB (i { c with ver := 0x200 }) s c 2 [] && mgB (i { c with len := 1 }) s c 4 [] &&
       nextB (i { c with ver := 0x200 }) s fun t => t.mg.beat == 500) = true ∧
    (let c := aCmd []
     let s := { stOwned with mg := { stOwned.mg with recovery := true } }
     (allCmds.drop 2).dropLast.all fun i => mgB (i c) s c 11 []) = true ∧
    (let s := stOwned
     let c := aCmd []
     mgB (.undefinedCommand 0x77 c) s c 3 [] && mgB (.undefinedCommand 0x77 { c with ver := 1 }) s c 2 [] &&
     nextB .ownerHeartbeatLapse { s with mg := { s.mg with ns := 2000000000 } } (fun t => t.mg.owner == none) &&
     nextB .ownerHeartbeatLapse s fun t => t.mg.owner == some 0x01000000) = true := by decide +kernel

theorem witness_readingCommands :
    (let s := stOwned
     let c := aCmd []
     mgB (.getverCmd c) s c 0 (leBytes 2 1 ++ leBytes 2 1 ++ leBytes 2 2 ++ leBytes 2 0x100 ++ leBytes 2 3 ++ leBytes 2 0x100 ++
       leBytes 2 4 ++ leBytes 2 0x100 ++ leBytes 2 5 ++ leBytes 2 0x100) &&
     mgB (.healthCmd c) s c 0 (leBytes 4 1100 ++ List.replicate 40 0) &&
     nextB (.portgetCmd c) s (fun t => (t.mg.rsp.map fun r => (r.2.2.1, r.2.2.2.length)) == [(0, 64)]) &&
     nextB (.readyCmd c) s fun t => (t.mg.rsp.map fun r => (r.2.2.1, r.2.2.2.length)) == [(0, 16)]) = true ∧
    (let s := stOwned
     let d := List.replicate 8 (0 : Byte)
     let c := aCmd d
     (getPart s 0).isSome && zeroBytes d 1 7 && mgB (.partgetCmd c) s c 0 (partBytes benchPart) &&
     mgB (.retgetCmd c) s c 0 (mapBytes s benchPart) &&
     mgB (.calgetCmd c) s c 0 (List.replicate 32 0)) = true := by decide +kernel

theorem witness_nonce :
    (gives (cmdData stOwned (aCmd [])) [] && (freshNonce stOwned).length == 32 && nextB (.nonceCmd (aCmd [])) stOwned fun t =>
      t.mg.nonces.length == 1 && (t.mg.rsp.map fun r => r.2.2.1) == [0]) = true := by decide +kernel

theorem witness_ownerCommands :
    (actB .releaseCmd stOwned .ownerOnly (leBytes 8 0x02000000) [] fun t => t.mg.owner == some 0x02000000 && t.mg.beat == 500) = true ∧
    (actB .beatCmd stOwned .ownerOnly [] [] fun t => t.mg.beat == 500 && t.mg.owner == stOwned.mg.owner) = true ∧
    (let d := layout 72 [(0, 1, 3), (8, 4, 8), (12, 1, 2), (0x10, 8, 0x40000000), (0x18, 8, 0x40000000)]
     let p := parsePart 3 (d.drop 8) stOwned.mg.mhz
     partForm (d.drop 8) p && !partHeld stOwned 3 && !partsMeet p benchPart &&
     actB .partsetCmd stOwned .ownerOnly d [] fun t => getPart t 3 == some p && getPart t 0 == some benchPart) = true ∧
    (let s := { stOwned with mg := { stOwned.mg with ctxs := [] } }
     !partHeld s 0 && actB .partdelCmd s .ownerOnly (List.replicate 8 0) [] fun t => (getPart t 0).isNone && t.ms.mem.isEmpty) = true ∧
    (let s := stOwned
     actB .queueSetCmd s .ownerOnly (layout 40 [(8, 8, 0x9000), (0x10, 1, 3), (0x12, 2, 1), (0x14, 4, 7)]) [] fun t =>
       (getQueue t 0).map (fun q => (q.rbase, q.logn, q.rspc, q.group, q.cid, q.widx, q.stat)) == some (0x9000, 3, 0, 1, 7, 0, 0)) = true ∧
    (let s := { stOwned with qs := { stOwned.qs with queues := [{ benchQueue 7 with
       stat := 0x80000000
       acc := 3
       widx := 3
       epoch := 4 }] } }
     actB .qresetCmd s (.partition (queuePart s 0)) (List.replicate 8 0) [] fun t =>
       (getQueue t 0).map (fun u => (u.widx, u.acc, u.strt, u.done, u.stat, u.epoch)) == some (0, 0, 0, 0, 0, 4)) = true ∧
    (actB .mcsetCmd stOwned .ownerOnly (layout 20 [(0, 2, 5), (2, 2, 1), (4, 2, 1), (8, 2, 2), (12, 4, 9), (16, 2, 1)]) [] fun t =>
       (t.fb.groups.map fun g => (g.num, g.members, g.senders)) == (stOwned.fb.groups.map fun g => (g.num, g.members, g.senders)) ++ [(5, [(2, 9)], [(1, 0)])]) =
       true ∧
    (let s := { stOwned with fb := { stOwned.fb with groups := [⟨1, [(1, 9)], [(0, 0)]⟩] } }
     actB .mcdelCmd s .ownerOnly (leBytes 8 1) [] fun t => t.fb.groups.isEmpty) = true ∧
    (let s := { stOwned with cs := { stOwned.cs with retired := [3, 4] } }
     actB .retclrCmd s .ownerOnly (leBytes 8 3) [] (fun t => t.cs.retired == [4]) &&
     actB .retclrCmd s .ownerOnly (leBytes 8 0xFFFF) [] fun t => t.cs.retired.isEmpty) = true := by decide +kernel

theorem witness_contextCommands :
    (let d := layout 128 [(0, 2, 0x100), (4, 4, 8), (8, 8, 0x3000), (0x11, 1, 0xFF)]
     ctxForm d && (getCtx stOwned 8).isNone && (newKeySlot stOwned benchPart 0xFF).isSome &&
     actB .ctxnewCmd stOwned (.partition (some benchPart)) d (leBytes 4 8 ++ leBytes 4 0xFF) fun t =>
       (getCtx t 8).map (·.root) == some 0x3000) = true ∧
    (let s := { stOwned with ms := { stOwned.ms with
       l1 := [⟨0, 7, 0x400, 0x4000, 0xFFFF, 0, [], 0, raceQuiet, false, 0, 0, 0⟩]
       tlb := [⟨7, 0, 2, 0xF, .core 0⟩] } }
     actB .ctxdelCmd s (.partition (getPart s 0)) (leBytes 8 7) [] fun t => (getCtx t 7).isNone && t.ms.l1.isEmpty && t.ms.tlb.isEmpty) = true ∧
    (actB .evsetCmd stOwned (.partition (some benchPart)) (layout 24 [(8, 8, 0x100), (16, 4, 64)]) [] fun t =>
       (getRing t 0).map (fun r => (r.base, r.n)) == some (0x100, 64)) = true ∧
    (let d := layout 40 [(8, 8, 0x100000), (0x10, 8, 0x10000), (0x18, 4, 7), (0x20, 2, 1)]
     let s := stOwned
     apertureForm (d.drop 8) && lowestFree ((s.fb.aps.filter fun a => a.node == s.fb.node && a.part == 0).map (·.idx)) 64 == some 0 &&
     actB .apopenCmd s (.partition (some benchPart)) d (leBytes 4 0) fun t => t.fb.aps == s.fb.aps ++ [parseAperture s 0 0 (d.drop 8)]) = true ∧
    (let s := { stOwned with fb := { stOwned.fb with aps := [⟨0, 2, stOwned.fb.node, 0, 0x100000, 9, 7, 0, 0, 0xFF⟩] } }
     actB .apcloseCmd s (.partition (getPart s 0)) (layout 8 [(4, 4, 2)]) [] fun t => t.fb.aps.isEmpty) = true := by decide +kernel

/-- Claiming and loading firmware rest on what the signature check answers, which is a free choice (log 4). -/
theorem witness_fwload (h : ∀ k m x, Config.mldsaVerify k m x = true) : imageGood (List.replicate 3309 0) = true ∧
    ((cmdData { stOwned with mg := { stOwned.mg with recovery := true } } { aCmd (List.replicate 3309 0) with mctp := true }).isOk &&
      taken stOwned { aCmd (List.replicate 3309 0) with mctp := true }) = true :=
  ⟨by simp [imageGood, h], by decide +kernel⟩

theorem witness_claim (h : ∀ k m x, Config.mldsaVerify k m x = true) :
    let d := putB (List.replicate 3345 (0 : Byte)) 32 4 0x01000000
    let s := { stOwned with mg := { stOwned.mg with
      owner := none
      bringUp := 5
      nonces := [(0x01000000, List.replicate 32 0, 400)]
      ownKeys := [[]] } }
    (ownerNow s = none ∧ s.mg.bringUp = 5 ∧ ((0x01000000 : Word), d.take 32, 400) ∈ s.mg.nonces ∧ s.mg.ns ≤ 400 + 10000000000 ∧ fieldB d 32 4 = 0x01000000 ∧
      d.length = 3345) ∧ ∃ k ∈ s.mg.ownKeys, Config.mldsaVerify (Config.keyOf k) (d.take 36) (d.drop 36) = true := by
  refine ⟨by decide +kernel, [], List.mem_singleton.2 rfl, h _ _ _⟩

/-! ## Health and debugging -/

/-- The bench with its page race-checked or not, its pallet halted with a snapshot of exposure 2. -/
def stSnap : State :=
  let s := stMem
  let p := { benchPallet 1 2 with
    expo := 4
    rbok := true
    dbg := { DbgWords.admitted with
      halt := true
      texp := 4 } }
  { s with cs := { s.cs with
      pallets := [p]
      snaps := [(1, ⟨{ p with expo := 2 }, s.cs.sheets, [sleeper .ready], [], [], [], [], [], [], [], [], [], [], []⟩)] } }

/-- A launch that records its negative at 0x8000, after two recorded operations of thread 0 on one unit (R362). -/
def stRecorded : State :=
  let la := { benchLaunch 2 7 with r := { (benchLaunch 2 7).r with lfl := 8, negb := 0x8000, negs := 0x400 } }
  let s := { stMem with qs := { (stMem).qs with launches := [la] } }
  let go := fun (s : State) (n : Nat) => match negTurn s 2 ⟨1, 0x100, 0x4000⟩ ⟨0, 2⟩ 0 n 0 with
    | .go t _ => t
    | _ => s
  go (go s 0) 1

/-- R364, R458: what a rolled-back exposure had recorded is made again in its order and recorded once. -/
theorem test_rollback_replays :
    (let s := stRecorded
     let n := snapOf stMem (benchPallet 1 2)
     let s := { s with cs := { s.cs with
       pallets := [{ benchPallet 1 2 with redone := some [] }]
       snaps := [(1, n)] } }
     (s.qs.launches.map (·.negN)) == [2] &&
     (match negTurn s 2 ⟨1, 0x100, 0x4000⟩ ⟨0, 2⟩ 0 1 0 with | .wait => true | _ => false) &&
     (match negTurn s 2 ⟨1, 0x100, 0x4000⟩ ⟨0, 2⟩ 0 0 0 with
       | .go t _ => t.qs.launches.map (·.negN) == [2] &&
         (match negTurn t 2 ⟨1, 0x100, 0x4000⟩ ⟨0, 2⟩ 0 1 0 with | .go u _ => u.qs.launches.map (·.negN) == [2] | _ => false) &&
         (match negTurn t 2 ⟨1, 0x100, 0x4000⟩ ⟨0, 2⟩ 0 2 0 with | .go u _ => u.qs.launches.map (·.negN) == [3] | _ => false)
       | _ => false)) = true := by decide +kernel

theorem witness_health :
    (nextB .deviceReset stMem fun t => t.ms.mem.isEmpty && t.cs.pallets.isEmpty && t.mg.ctxs.isEmpty && t.mg.mhz == 1100 && t.mg.throttle == 100) =
      true ∧
    (let s := { stMem with mg := { (stMem).mg with
       ns := 5000000
       mhz := 900
       parts := [{ benchPart with
         pcap := 5
         mhz := 900 }] } }
     (getPart s 0).isSome &&
     (let u := powerDown { s with mg := { s.mg with temps := [0, 920, 0, 0, 0] } }
      u.mg.off && (getCtx u 7).any fun c => c.stop.isSome) && !(powerDown { s with mg := { s.mg with temps := [0, 919, 0, 0, 0] } }).mg.off &&
     nextB (.eccError 9 0 true) s (fun t => t.mg.eccc == 1 && sGet t.mg.eccU 9 == some 1) &&
     nextB (.eccError 3 0x4080 false) s (fun t => sGet t.ms.poison 0x81 == some (BitVec.allOnes 128) && t.ms.mem == s.ms.mem) &&
     nextB (.eccError 1 0x102 false) s (fun t => t.ms.marks == [(1, 2)] && t.mg == s.mg) &&
     [1, 2, 3, 4].all (fun n => (bringUpStep { s with mg := { s.mg with bringUp := n } }).mg.bringUp == n + 1) &&
     nextB (.backgroundScrub 5) s fun t => t.ms == s.ms && t.mg == s.mg) = true := by decide +kernel

theorem witness_debug :
    (let s := stMem
     nextB (.debugHalt 1) s (fun t => (getPallet t 1).map (fun x => (x.dbg.halt, x.dbg.att)) == some (true, true)) &&
     nextB (.debugResume 1) stSnap (fun t => (getPallet t 1).map (fun x => (x.dbg.halt, x.dbg.att)) == some (false, true)) &&
     nextB (.debugRollback 1) s (fun t => (getPallet t 1).map (·.dbg.att) == some true && t.ms == s.ms) &&
     nextB (.registerWrite 1 1 9) s (fun t => (getPallet t 1).map (·.expo) == some 9) &&
     nextB (.registerWrite 1 5 15) s (fun t => (getPallet t 1).map (·.dbg.expx) == some 24) &&
     nextB (.registerWrite 1 5 16) s (fun t => (getPallet t 1).map (·.dbg.expx) == some 16) &&
     nextB (.registerWrite 1 5 31) s (fun t => (getPallet t 1).map (·.dbg.expx) == some 24) &&
     nextB (.registerWrite 1 7 0xFFFFFFFF) s (fun t => (getPallet t 1).map (·.dbg.trc) == some 0xFFFFFF1F) &&
     nextB (.registerWrite 1 8 0xFFFFFFFF) s fun t => (getPallet t 1).map (·.dbg.trbh) == some 0x01FFFFFF) = true ∧
    (let s := stSnap
     (getPallet s 1).any (fun p => p.dbg.halt && p.rbok && p.dbg.texp == p.expo) && nextB (.debugRollback 1) s fun t =>
       (getPallet t 1).map (fun x => (x.dbg.roll, x.dbg.halt, x.expo)) == some (true, false, 2) && t.cs.store == [sleeper .ready]) = true ∧
    (let s := { stMem with cs := { (stMem).cs with pallets := [{ benchPallet 1 2 with
       rwc := 0x1000000
       dbg := { DbgWords.admitted with
         roll := true
         trwc := 0x1000000 } }] } }
     nextB (.rollbackTargetReached 1) s (fun t => (getPallet t 1).map (fun x => (x.dbg.roll, x.dbg.halt)) == some (false, true)) &&
     nextB (.exposureEnd 1) s fun t => (getPallet t 1).map (fun x => (x.expo, x.rwc, x.rbok)) == some (1, 0, true) && (sGet t.cs.snaps 1).isSome) = true ∧
    (let s := { stMem with cs := { (stMem).cs with pallets := [{ benchPallet 1 2 with dbg := { DbgWords.admitted with
       trb := 0x4000
       trc := 0x401 } }] } }
     (getPallet s 1).any (fun p => traceRing p == some (0x4000, 4) && (translate s (benchCtx 7) accStore 0x4000 32).toOption.isSome) &&
     nextB (.traceSample 1) s fun t => (getPallet t 1).map (·.trn) == some 1) = true ∧
    (let s := stMem
     (envOf s 3).any (fun e => e.la.r.handler == 0 && e.cx.stop.isNone && e.sh.course.isNone && (laneThread e.sh (fetchLane e.sh)).any (·.trap.isNone)) &&
     nextB (.illegalInstruction 0 0 0 0) s fun t => (getCtx t 7).map (·.stop) == some (some 1)) = true := by decide +kernel

/-! ## Whole machine -/

theorem witness_stepRunsDecoded :
    (let s := State.reset.withFetchWord 32 0x04041808
     s.mg.off == false && (inRun (ticked s)).isNone && (match s.agenda with
       | [.issue key] =>
         let u := { ticked s with agenda := [] }
         (getSheet s key).any (issuesNext (ticked s)) && match envOf u key with
           | some e => (match fetchWords u e.pl.core e.la.key e.cx e.sh.pc.toNat 1 with
             | .ok (ws, _) => ws == [0x04041808] && decodeWords ws == .ok (.iadd { plainFld with d := 3, a := 1, b := 2 }) 1
             | _ => false)
           | none => false
       | _ => false)) = true := by decide +kernel

theorem witness_stepKeepsCanonical : Canonical (State.reset.withFetchWord 32 0x04041808) ∧
    (match step (State.reset.withFetchWord 32 0x04041808) with
     | .next _ => true
     | _ => false) = true :=
  ⟨⟨by decide +kernel, by decide +kernel, by decide +kernel, by decide +kernel, by decide +kernel, by decide +kernel, by decide +kernel⟩, by decide +kernel⟩

theorem witness_canonicalReset : Canonical State.reset :=
  ⟨by decide +kernel, by decide +kernel, by decide +kernel, by decide +kernel, by decide +kernel, by decide +kernel, by decide +kernel⟩

theorem witness_encodeDecode :
    (let i : Instr := .iadd { plainFld with d := 3, a := 1, b := 2 }
     (opFormOf i).isSome && i.wf && encode i == [0x04041808] && decodeWords [0x04041808, 7] == .ok i 1) = true := by decide +kernel

/-! ## More clauses -/

/-- A member of the pinned course in its handler: sheet 3 is the course's, with lane 0 asleep; sheet 8 runs the handler in lane 0. -/
def stLaneHandler : State :=
  let h := { crsThread 0 with trap := some ⟨leBytes 64 0, 0x10000, 0x10004, some (3, 0), true⟩ }
  { stCrs with
    cs := { stCrs.cs with sheets := [{ crsSheet with sleep := [(0, .handled)] }, benchSheet 8 1 h 0x20000] }
    iss := { stCrs.iss with sheet := 8, pc := 0x20000, ipc := 0x20000, next := 0x20004 } }

theorem witness_trapReturn_others :
    ([0, 1].all fun re =>
      let s := stLaneHandler
      let f := { good formTret with md := re }
      soloB formTret f s 0 fun e v => (v.t.trap.map (·.crs)) == some (some (3, 0)) && e.sh.key == 8 && nextB (.tret f) s fun t =>
        threadAt t 8 0 == none && (getSheet t 3).any fun sh => sh.pc == 0x10000 && sh.done == (if re = 1 then 0 else 1) &&
          laneThread sh 0 == some { v.t with trap := none, skip := re == 1 }) = true ∧
    (let s := st0 []
     let f := good formTret
     (match envOf s 3 with
      | none => false
      | some e => (decodeCheck formTret f f s.iss).isNone && actLanes formTret f s e == [0] && e.la.r.handler == 0 && e.cx.stop.isNone &&
          (viewOf s e f (issueAt s e.sh) [0]).any fun v => v.unitGuard.isNone && ((usesOf formTret v.f v.iss.run).all fun r => !classBad v.env r) &&
            (v.earlyFault formTret).isNone && v.t.trap.isNone) &&
     nextB (.tret f) s fun t => (getCtx t 7).map (·.stop) == some (some 1)) = true := by decide +kernel

theorem witness_interruptsToManagement :
    ([0x1000, 0x1001].all fun q =>
      let s := st0 [(4, 9), (2, q)]
      soloB formSwi (good formSwi) s 0 fun e v => e.cx.cfl.getLsbD 0 && (v.release s 6).isOk && nextB (.swi (good formSwi)) s fun t =>
        (t.qs.swis.map fun x => (x.target, x.value)) == [(q.toNat, 9)]) = true := by decide +kernel

/-- The context switched out of slot 1 of core 0, where its mailbox 4 holds k messages. -/
def stOut (k : Nat) : State :=
  let s := st0 [(8, 0xAA), (2, 4)]
  { s with mg := { s.mg with ctxs := [{ benchCtx 7 with slots := [(1, 0)], out := [⟨0, 1, if k = 0 then [] else
    [(4, (List.range k).map fun i => ⟨leBytes 32 (i + 1), []⟩)], [], []⟩] }] } }

theorem witness_mailboxes_others :
    ([0, 8].all fun k =>
      let s := stOut k
      let f := { good formMbsend with d := 1, a := 8, scope := 4 }
      does s .mbsend formMbsend f fun _ v =>
        match v.release s 4 with
        | .ok (c, s1) =>
          let r := sendBox s1 ((getCtx s1 7).getD (benchCtx 7)) 4 ⟨leBytes 32 0xAA, [v.mark s1 4 c]⟩
          given ((v.boxCheck s 4).isNone && r.2 == (k == 0) && r.1.cs.boxes.isEmpty) (r.1, putQ 1 (if k = 8 then qF else qT))
        | _ => none) = true ∧
    (let s := { st0 [(2, 0x1000)] with qs := { (st0 []).qs with
       launches := [{ benchLaunch 2 7 with queue := some (0, 0) }]
       queues := [{ benchQueue 7 with group := 1 }] } }
     let f := { good formMbsend with d := 1, a := 8, scope := 5 }
     soloB formMbsend f s 0 fun _ v => (v.boxCheck s 0x1000).isNone && (v.release s 5).isOk && bitsN 0x1000 12 9 != s.fb.node) = true := by
  decide +kernel

theorem witness_barrierObjects_others :
    (let s := stBar 1 0
     let f := { good formXarrive with c := 0, md := 1 }
     soloB formXarrive f s 0 fun _ v => ownTrayB v s (v.addr true) 16 false && (v.release s v.f.scope.toNat).isOk && nextB (.xarrive f) s fun t =>
       getBar t 1 0x40 == ⟨3, 1, 0, 0, 5, 1, false, false, 0⟩ && threadAt t 3 0 == some v.t) = true ∧
    ([133, 3].all fun (g : Word) =>
      let s := stBar 1 g
      let f := { good formXwait with d := 1, c := 0 }
      does s .xwait formXwait f fun e v => given (ownTrayB v s (v.addr true) 16 false) (acquire s (whoOf s e) v.f.scope.toNat [], putQ 1 qU)) =
      true := by decide +kernel

theorem witness_cpin_tiles :
    (let s := stCourse (some (freeCourse [4]))
     let s := withLa s fun la => { la with r := { la.r with tiles := 2 } }
     let f := { good formCpin with md := 2 }
     soloB formCpin f s 0 fun e v =>
       onCourse s e v (fun c => !c.c.clus && c.c.members == [(1, 4)] && c.c.pinAt.isEmpty && !c.c.pinned && c.c.tiles.isEmpty) &&
       tilesFree e.la e.pl == 2 && decide (2 ≤ ((List.range 128).filter fun i => !(seatedTiles s e.pl.core).contains i).length) &&
       nextB (.cpin f) s fun t => threadAt t 3 0 == none &&
         (((getPallet t 1).bind fun p => sGet p.table 0).map fun x => (x.pinned, x.tiles.length)) == some (true, 2)) = true := by
  decide +kernel

theorem witness_sequenceWindows_others :
    (let s := stMem [(2, 0x100), (6, 3)]
     let f := { good formSqopen with c := 6, md := 2 }
     does s .sqopen formSqopen f fun e v => do
       let (p, s1) ← (v.sqRegion s (v.addr false) 0x100).toOption
       let s2 ← (v.releaseRegion s1 (trayOf p) 0x4000 0x100).toOption
       given (e.la.p.isNone && decide ((openWins s1 2).length < 64)) (withWins s2 [⟨2, trayOf p, 7, 0x4000, 0x100, 3, [], [], [], 0, 0, false⟩], id)) = true ∧
    ([2, 3].all fun md =>
      let s := stWin 0
      let f := { good formSqclose with c := 0, md := md }
      does s .sqclose formSqclose f fun e v => do
        let (p, s1) ← (v.sqPlace s (v.addr true)).toOption
        let w ← (openWins s1 2).find? fun w => w.tray == trayOf p && w.base == regionAddr p (v.addr true)
        let s2 ← if md = 2 then (v.releaseRegion s1 w.tray w.base w.size).toOption else some s1
        let s3 := closeWin s2 e.la e.cx ⟨some e.pl, s.iss.pc.toNat, v.t.tid⟩ v.t.uid w
        let s4 ← if md = 3 then (v.releaseRegion (v.acquire s3 v.f.scope.toNat (w.stamp ++ itemMarks w.launch w.buf)) w.tray w.base w.size).toOption
          else some s3
        given ((closingBy s e.la.key v.t.uid).isNone && (closingBy s3 e.la.key v.t.uid).isNone) (s4, id)) = true := by decide +kernel

theorem witness_launchWithoutQueue :
    (let s := { stLaunch with qs := { stLaunch.qs with queues := [] } }
     does s .launch formLaunch (good formLaunch) fun e v => do
       let s1 ← (← (v.readUnit s (((getQueue s 0).map (·.cid)) == some e.cx.cid) 0x4000).toOption)
       let (_, s2) ← (v.release (newFuture s1 5 0 1).2 4).toOption
       given (queueOfPart s e.cx 0 && (getQueue s 0).isNone && (getQueue s2 0).isNone) (completeFuture s2 (newFuture s1 5 0 1).1 .error 0,
         fun t => markG 8 (putG 8 1 (newFuture s1 5 0 1).1.toNat t))) = true := by decide +kernel

theorem witness_orderedFlag :
    (let s := { stRem with fb := { stRem.fb with wrote := [(⟨0, 2⟩, [1])] } }
     let f := { good formRflag with c := 0 }
     soloB formRflag f s 0 fun e v => (v.remoteCheck s 4 9 1 false).isNone && decide (entriesUsed s e.pl.core < 1024) &&
       (match v.fence (checkedIn s e 0) with
        | some s1 => (v.releaseDom s1).isOk
        | none => false) && nextB (.rflag f) s fun t => ((t.fb.reqs.filter fun r => r.kind != .marker).map fun r => (r.node, r.addr, r.rel.isSome)) ==
         [(1, 0x4000, true)] && (t.fb.reqs.any fun r => r.kind == .marker)) = true := by decide +kernel

theorem witness_commandCores_others :
    (let x : XFld := ⟨5, 6, 7⟩
     fwTraps (.qfetch x) (putX (stQueue { benchQueue 99 with rspc := 1, widx := 1 } []) [(7, 0x40)]) 24) = true ∧
    (let x : XFld := ⟨5, 6, 7⟩
     let s := putX (stQueue { benchQueue 7 with acc := 1 } []) [(6, 0x40)]
     let s := { s with mg := { s.mg with
       fwMem := memWrite [] 0x40 aLaunch
       ctxs := [{ benchCtx 7 with slots := [], out := (List.range 8).map fun c => ⟨c, 0, [], [], []⟩ }] } }
     match exec (.disp x) s with
     | .next t => t == s && (servesQueue s 0 0 && (getQueue s 0).any fun q =>
         let k := freshKey s
         let sub := dispSubmit s q 0x40 k.1
         let u := setQueue k.2 { q with strt := q.strt + 1 }
         let u := admitSub (withSubs u (u.qs.subs ++ [sub])) sub
         (getLaunch u k.1).isNone && u.qs.subs.any fun y => y.key == k.1)
     | _ => false) = true := by decide +kernel

theorem witness_sheetScheduling_others :
    (let s := { st0 [] with cs := { (st0 []).cs with
       cyc := 5000
       sheets := [{ benchSheet 3 1 (benchThread 4) 0x10000 with lastIssue := 4000 },
         { benchSheet 8 1 (benchThread 7) 0x10000 with evicted := true, lastIssue := 904 }] } }
     ((oldestEvicted s 1).map (·.key)) == some 8 && (oldestReady s 1).isNone && ((oldestIssued s 1).map (·.key)) == some 3 &&
     (getSheet s 3).any (fun o => (getSheet s 8).any fun b => (getPallet s 1).any fun p => (getLaunch s 2).any fun la =>
       ((coreUse (evictSheet s o) 0).add (sheetRoom la p b)).inCore) && nextB (.spawnWaitLimit 1) s fun t =>
       (getSheet t 3).map (·.evicted) == some true && (getSheet t 8).map (fun x => (x.evicted, x.slot, x.lastIssue)) == some (false, 0, 5000)) = true ∧
    (let s := st0 []
     let s := { s with
       cs := { s.cs with
         cyc := 2 ^ 18
         pallets := [{ benchPallet 1 2 with st := .switched }, { benchPallet 6 5 with psl := 1 }] }
       qs := { s.qs with launches := [benchLaunch 2 7, benchLaunch 5 8] }
       mg := { s.mg with ctxs := [{ benchCtx 7 with slots := [], out := [⟨0, 0, [], [], []⟩] }, { benchCtx 8 with savs := 0x100000000 }] } }
     ((slotsUsed s 0).contains 0) && (((switchable s 0).find? fun c => c.slots.contains (0, 0) && slotDue s c.cid 0).map (·.cid)) == some 8 &&
     nextB (.contextRestore 0 7) s fun t => (t.cs.pallets.map (·.st)) == [.parked, .switched] &&
       (getCtx t 7).any (fun c => c.slots == [(0, 0)] && c.out.isEmpty) && (getCtx t 8).any fun c => c.slots.isEmpty && outOf c 0) = true := by
  decide +kernel

theorem witness_memoryEvents_others :
    (let s := { stMem with qs := { (stMem).qs with
       owake := [(5, 1)]
       swis := [⟨⟨0, 2⟩, 5, 6⟩] } }
     (getQueue s 5).isNone && nextB (.swiWakeOr 0) s fun t => sGetD t.qs.owake 5 0 == 7 && t.qs.swis.isEmpty) = true ∧
    (let s := stMem
     nextB (.hostMemoryAccess 0 7 0x4000 false [1, 2]) s fun t => t.ms.mem == s.ms.mem && t.cs == s.cs && t.qs == s.qs) = true := by decide +kernel

/-- A write of two bytes at 0x4000 by an agent of node 1, with or without an aperture here. -/
def aWrite : RemoteIn := ⟨agentId 1 0 0 0, 0, 5, 0, 9, 7, 0x4000, 0, 0, 0, 1, 0, none, .write [1, 2]⟩

theorem witness_fabricEvents_others :
    (let s := stRem
     (openTo s aWrite == false) && nextB (.remoteRequestArrival (.foreign aWrite)) s fun t => t == s) = true ∧
    (let s := { stRem with fb := { stRem.fb with aps := [⟨0, 0, 0, 0, 0x100000, 7, 9, 1, 0, 2⟩] } }
     let r := foreignReq s.fb.node s.cs.fresh aWrite (.write [1, 2])
     openTo s aWrite && (match reqWrite (withReqs (freshKey s).2 [r]) r 0 7 9 [1, 2] (reqEff r .plain) true with
       | .ok _ => true
       | _ => false) &&
       nextB (.remoteRequestArrival (.foreign aWrite)) s fun t => t.fb.reqs.isEmpty && memRead t.ms.mem 0x4000 2 == [1, 2]) = true ∧
    (nextB (.mortarPlaneFailure 0) (stReq (aReq 1 (.write [1, 2]))) fun t => (getCtx t 7).map (·.stop) == some (some 0x24)) = true := by decide +kernel

theorem witness_queues_others :
    (let s := stQueue { benchQueue 7 with wake := 7 } []
     (seesQueue s 1 0 == false) && [Instr.queueDoorbell ⟨1, 0⟩ 5, .queueRestart ⟨1, 0⟩ 0x80000000, .queueWakeClear ⟨1, 0⟩ 5].all fun i => nextB i s fun t => t == s) =
      true ∧
    (let s := { stMem with qs := { (stMem).qs with owake := [(5, 7)] } }
     seesQueue s 0 5 && nextB (.queueWakeClear ⟨0, 5⟩ 6) s fun t => sGetD t.qs.owake 5 0 == 1) = true ∧
    (let image := rawPacket 8 []
     let s := stPacket 6 [(0x18, 8, 0x4000), (0x20, 8, 0x5800)]
     let s := { s with ms := { s.ms with mem := memWrite s.ms.mem 0x5800 image } }
     turnB s 6 && nextB (.dependencyPacket 0 0) s fun t => (getQueue t 0).map (·.strt) == some 1 && t.qs.deps == [⟨0, 0, 0x4000, image, false, 0, false⟩]) = true ∧
    (let s := stPacket 6 []
     let s := { s with qs := { s.qs with
       queues := s.qs.queues.map fun q => { q with strt := 1 }
       deps := [⟨0, 0, 0x4800, rawPacket 8 [], true, 1, false⟩] } }
     (readyHead s).isSome && nextB (.markerPacket 0 0) s fun t => (getQueue t 0).any (fun q => sGet q.ended 0 == some (0, 0, 1000)) && t.ms == s.ms) = true := by
  decide +kernel

theorem witness_stepRunsDecoded_others :
    (let s := { st0 [] with ms := { (st0 []).ms with mem := memWrite (benchTables []) 0x10000 (leBytes 4 0x04041808) } }
     let s := { s with cs := { s.cs with sheets := s.cs.sheets.map fun sh => { sh with run := [⟨1, 0, none⟩], runPc := 0xFFFC } } }
     s.mg.off == false && s.agenda.isEmpty && (inRun (ticked s)).any (fun sh => sh.key == 3) && (match envOf (ticked s) 3 with
       | some e => (match fetchWords (ticked s) e.pl.core e.la.key e.cx e.sh.pc.toNat 1 with
         | .ok (ws, _) => decodeWords ws == .ok (.iadd { plainFld with d := 3, a := 1, b := 2 }) 1
         | _ => false)
       | none => false)) = true ∧
    (let s := { st0 [] with agenda := [.event .hostLinkRetraining] }
     s.mg.off == false && (inRun (ticked s)).isNone &&
     (match translate s (benchCtx 7) accFetch 0x10000 4 with
      | .ok ([p], s1) => (poisonCheck s1 p).isNone && s.ms.oldText.isEmpty
      | _ => false)) = true := by decide +kernel

/-! ## Forms and events beside those above -/

/-- The tree of R256, level by level, worked out apart from the model. -/
def treeLevelOf (c : α → α → α) : List α → List α
  | a :: b :: l => c a b :: treeLevelOf c l
  | l => l

/-- Pack2 with error feedback keeps element 0's error in the low half and element 1's in the high half: 1 + 2^-10 and 1 + 3 · 2^-10 into
bf16 leave 2^-10 and 3 · 2^-10 (R146's own steps 1 and 3). -/
theorem witness_packFeedback :
    (let s := st0 [] [(4, 0x3F802000, 2), (2, 0x3F806000, 2)]
     let f := { good formPack2 with fmt := 6, rnd := 5, e := 3 }
     soloB formPack2 f s 0 fun e v => efNarrows ff32 (ffOf 6) && (v.fr 1 4).2 == 2 && (v.fr 2 2).2 == 2 && v.e 3 == 0 &&
       endsB (.pack2 f) s s e 0 (putE 3 0 0x3A800000 (putE 3 1 0x3B400000 (putF 8 0x3F803F80 4 (putFlags 16 v.t))))) = true := by decide +kernel

/-- Three lanes: 10, 11 and 12 as integers; 1.0, 2^-24 and 2^-24 as f32, which only the tree's order keeps apart. -/
def stThree : State :=
  let th := fun (i : Nat) (x : Dword) => { setRegs (benchThread (4 + i)) [(2, BitVec.ofNat 32 i), (4, BitVec.ofNat 32 (10 + i))] [(4, x, 2)] [] with tid := BitVec.ofNat 32 i }
  { stCrs with cs := { stCrs.cs with
      pallets := [{ crsPallet with table := [(0, ⟨false, [(1, 4), (1, 5), (1, 6)], true, [3], 0, [], [], [], [], [], [], false⟩)] }]
      sheets := [{ crsSheet with
        lanes := [(0, th 0 0x3F800000), (1, th 1 0x33800000), (2, th 2 0x33800000)]
        em := 7
        m := [0, 1, 0, 0, 0, 1, 7, 2] }] } }

theorem witness_collectives_others :
    (let s := stThree
     treeLevelOf (joinInt 0 false) (treeLevelOf (joinInt (w := 32) 0 false) [10, 11, 12]) == [33] &&
     crsEnds s .redux formRedux { good formRedux with fmt := 1 } 6 (fun _ v => putG 8 1 33 v.t) &&
     [(1, 10), (2, 12), (3, 8), (4, 15), (5, 13)].all (fun (x : Nat × Nat) =>
       crsEnds s .redux formRedux { good formRedux with md := BitVec.ofNat 8 x.1 } 6 fun _ v => putG 8 1 x.2 v.t) &&
     crsEnds s .scan formScan { good formScan with md := 8 } 6 (fun k v => putG 8 1 (nthD [0, 10, 21] k 0) v.t) &&
     crsEnds s .scan formScan { good formScan with md := 9 } 6 (fun k v => putG 8 1 (nthD [0x7FFFFFFF, 10, 10] k 0) v.t) &&
     crsEnds s .elect formElect { good formElect with d := 1, b := 4 } 6 (fun k v => putQ 1 (if k = 10 % 3 then qT else qF) v.t)) = true ∧
    (let s := stThree
     let f := { good formRedux with md := 16 }
     let F := ffOf 0
     let xs : List (Nat × Exc) := [(0x3F800000, 0), (0x33800000, 0), (0x33800000, 0)]
     treeLevelOf (joinFloat 0 F false) (treeLevelOf (joinFloat 0 F false) xs) == [(0x3F800000, 16)] &&
     runningOf (joinFloat 0 F false) xs == [(0x3F800000, 0), (0x3F800000, 16), (0x3F800000, 16)] &&
     crsEnds s .redux formRedux f 6 (fun _ v => putF 8 0x3F800000 2 (putFlags 16 v.t)) &&
     crsEnds s .scan formScan f 6 (fun _ v => putF 8 0x3F800000 2 (putFlags 16 v.t)) &&
     crsEnds s .scan formScan { f with md := 25 } 6 (fun k v => putF 8 (nthD [0x7F800000, 0x3F800000, 0x33800000] k 0) 2 v.t)) = true := by decide +kernel

/-- fcancel names copy 20, of sixteen bytes, which may have begun and may be bound to the barrier object at 0x60. -/
def stCancel (begun : Bool) (bar : Option Nat) (b : Bar) : State :=
  let s := stFut .pending begun
  { s with
    en := { s.en with copies := [{ aCopy with handle := 0x10000000, bar := bar }] }
    cs := { s.cs with pallets := [{ benchPallet 1 2 with tray := memWrite [] 0x60 (leBytes 16 (packBar b)) }] } }

def waitsB (gen : BitVec 8) : Entry := { sleeper (.xwait 0x60 gen 3 1) with thr := { benchThread 9 with tid := 1 } }

theorem witness_cancelling :
    (let s := { stFut .pending false with qs := { (stFut .pending false).qs with
       subs := [⟨9, 7, 0x4000, false, none, some 0x10000000, 0, true, []⟩] } }
     soloB formFcancel { good formFcancel with d := 1 } s 0 fun e v => (v.future s (v.g 1 4)).isOk && s.en.copies.isEmpty &&
       nextB (.fcancel { good formFcancel with d := 1 }) s fun t => futSt t 0x10000000 == some .cancelledWhole && t.qs.subs.isEmpty &&
         t.ms == s.ms && threadAt t e.sh.key 0 == some (putQ 1 qT v.t)) = true ∧
    ([false, true].all fun begun =>
      let s := stCancel begun none ⟨0, 0, 0, 0, 0, 0, false, false, 0⟩
      soloB formFcancel { good formFcancel with d := 1 } s 0 fun e v => (v.future s (v.g 1 4)).isOk &&
        (s.en.copies.all fun c => c.handle == 0x10000000 && (copyEnv s c).isSome) &&
        nextB (.fcancel { good formFcancel with d := 1 }) s fun t =>
          futSt t 0x10000000 == some (if begun then .cancelledPart else .cancelledWhole) && (getCopy t 20).isNone && t.ms.mem == s.ms.mem &&
          trayBytes t 1 0 256 == trayBytes s 1 0 256 && threadAt t e.sh.key 0 == some (putQ 1 (if begun then qU else qT) v.t)) = true ∧
    (let f := { good formFcancel with d := 1 }
     let s := stCancel true (some 0x60) ⟨3, 1, 20, 0, 5, 0, false, false, 0⟩
     nextB (.fcancel f) s (fun t => getBar t 1 0x60 == ⟨3, 1, 4, 0, 5, 0, true, false, 0⟩) &&
     (let s := stCancel true (some 0x60) ⟨3, 3, 20, 4, 5, 0, false, false, 0⟩
      let s := { s with cs := { s.cs with store := [waitsB 5] } }
      decide ((s.cs.store.map (·.thr.uid)).Nodup ∧ (s.cs.sheets.map (·.key)).Nodup) && nextB (.fcancel f) s fun t =>
        getBar t 1 0x60 == ⟨3, 0, 0, 0, 6, 0, false, true, 0⟩ &&
        (t.cs.store.map fun x => (x.sleep, nthD x.thr.q 3 0)) == [(.ready, qU)])) = true := by decide +kernel

theorem witness_lastArrival :
    (let s := stBar 2 0
     let s := { s with cs := { s.cs with store := [{ waitsB 5 with sleep := .xwait 0x40 5 3 1 }] } }
     let f := { good formXarrive with c := 0 }
     soloB formXarrive f s 0 fun _ v => ownTrayB v s (v.addr true) 16 false && (v.release s v.f.scope.toNat).isOk &&
       getBar s 1 0x40 == ⟨3, 2, 0, 0, 5, 0, false, false, 0⟩ && nextB (.xarrive f) s fun t =>
         getBar t 1 0x40 == ⟨3, 0, 0, 0, 6, 0, false, false, 0⟩ && threadAt t 3 0 == some v.t &&
         (t.cs.store.map fun x => (x.sleep, nthD x.thr.q 3 0)) == [(.ready, qT)]) = true := by decide +kernel

/-- o and n of copy c can land: it runs, has begun, and has one range left that holds them; p holds. -/
def landsB (c : Copy) (o n : Nat) (p : CopyEnv → State → Bool) (st : State → State := id) : Bool :=
  let s := st (stFlight c)
  copyRuns s c && (getFuture s 5).any (·.begun) && (barBad s c).isNone && (match c.left with
    | [(a, m)] => decide (a ≤ o ∧ o + n ≤ a + m ∧ o + n ≤ c.total ∧ 0 < n ∧ n % 4 = 0)
    | _ => false) && (copyEnv s c).any fun e => p e s

/-- Four s32 elements, of which the first two lie in the tensor at 0x4000; the others are 7. -/
def aLay : Lay := BitVec.ofNat 768 (0x4000 + 11 * 2 ^ 64 + 2 ^ 71 + 7 * 2 ^ 80 + 2 * 2 ^ 96 + 2 ^ 128 + 2 ^ 160 + 2 ^ 192 + 2 ^ 224 +
  4 * 2 ^ 416 + 2 ^ 428 + 2 ^ 440 + 2 ^ 452 + 2 ^ 464)

/-- Bytes 4 to 11 of the copy land; the index values 1 and 3 stand at 0x4010. -/
theorem witness_landings :
    (landsB aCopy 4 8 fun e s => (copyRead s e aCopy 1 0x44 8).isOk && nextB (.copyLanding 20 4 8) s fun t =>
       trayBytes t 1 0x84 8 == (someBytes.drop 4).take 8 && trayBytes t 1 0x80 4 == [0, 0, 0, 0] && futSt t 5 == some .pending &&
         (getCopy t 20).map (·.left) == some [(0, 4), (12, 4)]) = true ∧
    (let c := { aCopy with shape := .gather 4 0x4010, total := 8, left := [(0, 8)] }
     landsB c 4 4 (fun e s => (copyRead s e c 0 0x4014 4).isOk && nextB (.copyLanding 20 4 4) s fun t =>
       trayBytes t 1 0x84 4 == (someBytes.drop 12).take 4 && (getCopy t 20).map (·.cur) == some [(1, 3)])
       fun s => { s with ms := { s.ms with mem := memWrite s.ms.mem 0x4010 (leBytes 4 1 ++ leBytes 4 3) } }) = true ∧
    (let c := { aCopy with shape := .scatter 4 0x4010, total := 8, left := [(0, 8)] }
     landsB c 4 4 (fun e s => (copyRead s e c 0 0x4014 4).isOk && nextB (.copyLanding 20 4 4) s fun t =>
       trayBytes t 1 0x8C 4 == (someBytes.drop 4).take 4)
       fun s => { s with ms := { s.ms with mem := memWrite s.ms.mem 0x4010 (leBytes 4 1 ++ leBytes 4 3) } }) = true ∧
    (let c := { aCopy with shape := .window aLay, src := 0, sspc := 0 }
     (match Lay.source aLay 4, Lay.source aLay 8 with
      | (.mem a, k), (.bytes l, m) => a == 0x4004 && k == 4 && l == [7, 0, 0, 0] && m == 4
      | _, _ => false) && (Lay.place aLay 8) == (8, 8) &&
     landsB c 4 4 (fun e s => (copyRead s e c 0 0x4004 4).isOk && nextB (.copyLanding 20 4 4) s fun t =>
       trayBytes t 1 0x84 4 == (someBytes.drop 4).take 4) &&
     landsB c 8 4 fun _ s => nextB (.copyLanding 20 8 4) s fun t => trayBytes t 1 0x88 4 == [7, 0, 0, 0]) = true ∧
    (let c := { aCopy with dspc := 0, dst := 0x4800 }
     landsB c 0 16 fun e s => (match translate s e.cx (accCopyWr.at c.core 0) 0x4800 16 with
         | .ok ([ph], s2) => ph.pa == 0x4800 && ownKey s2 (pteKey ph.leaf.pte) ph.pa 16 && s2.ms.l1.isEmpty && s2.ms.posted.isEmpty && Mem.wf s2.ms.mem
         | _ => false) &&
       nextB (.copyLanding 20 0 16) s fun t => memRead t.ms.mem 0x4800 16 == someBytes && (getCopy t 20).isNone && futSt t 5 == some .clean) = true ∧
    (let c := { aCopy with bar := some 0xC0 }
     let bar := fun (b : Bar) (s : State) => { s with cs := { s.cs with
       pallets := s.cs.pallets.map fun p => { p with tray := memWrite p.tray 0xC0 (leBytes 16 (packBar b)) }
       store := [{ waitsB 5 with sleep := .xwait 0xC0 5 3 1 }] } }
     landsB c 0 16 (fun _ s => nextB (.copyLanding 20 0 16) s fun t => trayBytes t 1 0x80 16 == someBytes &&
       getBar t 1 0xC0 == ⟨3, 1, 16, 16, 5, 0, false, false, 0⟩) (bar ⟨3, 1, 16, 0, 5, 0, false, false, 0⟩) &&
     landsB c 0 16 (fun _ s => nextB (.copyLanding 20 0 16) s fun t => trayBytes t 1 0x80 16 == someBytes &&
       getBar t 1 0xC0 == ⟨3, 0, 0, 0, 6, 0, false, true, 0⟩ &&
         (t.cs.store.map fun x => (x.sleep, nthD x.thr.q 3 0)) == [(.ready, qU)]) (bar ⟨3, 3, 16, 0, 5, 0, true, false, 0⟩)) = true := by decide +kernel

theorem witness_fabricEvents_results :
    (let r := { aReq 0 (.read 4 8 false) with dcid := 7 }
     let s := stReq r
     foreign s r == false && (match reqRead s r 8 4 true false with
       | .ok (b, _, _, hits) => b == [0x11, 0x22, 0x33, 0x44] && hits.isEmpty
       | _ => false) && nextB (.remoteRequestArrival (.own 40)) s fun t => acked t r &&
         (threadAt t 3 0).map (·.g) == (threadAt s 3 0).map fun th => (putG 8 1 0x44332211 th).g) = true ∧
    (let r := aReq 1 (.read 4 8 false)
     let s := { stReq r with fb := { (stReq r).fb with peers := [(1, 9, memWrite [] 0x4000 [5, 6, 7, 8])] } }
     peerMem s 1 9 == memWrite [] 0x4000 [5, 6, 7, 8] && nextB (.remoteRequestArrival (.own 40)) s fun t => acked t r &&
         (threadAt t 3 0).map (·.g) == (threadAt s 3 0).map fun th => (putG 8 1 0x08070605 th).g) = true ∧
    ([(0, 3, 0x44332214), (1, 0x11, 0x44332200), (3, 0x55555555, 0x55555555), (7, 9, 9), (8, 9, 0x44332211)].all fun (x : Nat × Nat × Nat) =>
      let r := { aReq 0 (.fop x.1 false 1 4 (BitVec.ofNat 128 x.2.1) 0 8 false none) with dcid := 7 }
      let s := stReq r
      (match reqTurn s r with | .go _ _ => true | _ => false) &&
      ((fopInt x.1 false (w := 32) 0x44332211 (BitVec.ofNat 32 x.2.1) 0).map (·.toNat)).getD 0x44332211 == x.2.2 &&
      nextB (.remoteRequestArrival (.own 40)) s fun t => acked t r && memRead t.ms.mem 0x4000 4 == leBytes 4 x.2.2 &&
         (threadAt t 3 0).map (·.g) == (threadAt s 3 0).map fun th => (putG 8 1 0x44332211 th).g) = true ∧
    (let r := { aReq 0 (.red 0 false 1 4 3 none) with dcid := 7 }
     nextB (.remoteRequestArrival (.own 40)) (stReq r) fun t => acked t r && memRead t.ms.mem 0x4000 4 == [0x14, 0x22, 0x33, 0x44]) = true ∧
    (let r := { aReq 0 (.mcast [(0, 7)] [1, 2]) with dcid := 7 }
     nextB (.remoteRequestArrival (.own 40)) (stReq r) fun t => acked t r && memRead t.ms.mem 0x4000 3 == [1, 2, 0x33]) = true ∧
    (let r := aReq 1 (.mcast [(1, 9), (2, 5)] [1, 2])
     nextB (.remoteRequestArrival (.own 40)) (stReq r) fun t => acked t r && [(1, 9), (2, 5)].all (fun (m : Nat × Word) =>
       peerMem t m.1 m.2 == memWrite [] 0x4000 [1, 2]) && (peerMem t 3 9).isEmpty && t.ms == (stReq r).ms) = true ∧
    (let r := aReq 2 (.red 0 false 1 4 3 (some 6))
     let s := { stReq r with fb := { (stReq r).fb with pwins := [⟨2, 9, 0x4000, 64, 5, []⟩] } }
     (peerWinAt s r).any (fun w => w.buf.isEmpty) && nextB (.remoteRequestArrival (.own 40)) s fun t => acked t r && t.fb.peers == s.fb.peers &&
       (t.fb.pwins.flatMap fun w => w.buf.map fun x => (x.addr, x.idx, x.val)) == [(0x4000, 6, 3)]) = true := by decide +kernel

/-- A sheet with threads in lanes 0, 1 and 32, whose g4 are 10, 11 and 42, and f4 are 1.0 and 2.0. -/
def stLanes : State :=
  let th := fun (i : Nat) => { setRegs (benchThread (4 + i)) [(2, 5), (4, BitVec.ofNat 32 (10 + i))]
    [(4, if i = 0 then 0x3F800000 else 0x40000000, 2), (2, 0x3F800000, 2)] [] with tid := BitVec.ofNat 32 i }
  { stTwo with cs := { stTwo.cs with sheets := [{ crsSheet with
      course := none
      m := List.replicate 8 0
      lanes := [(0, th 0), (1, th 1), (32, th 32)]
      em := 0x100000003 }] } }

/-- (o, f) acts in the lanes ls of stLanes, nothing stops it there, and every lane becomes what its unit's first lane gives it. -/
def severalB (c : Fld → Instr) (o : OpForm) (f : Fld) (ls : List Nat) (w : LV → Thread → Thread) : Bool :=
  let s := stLanes
  match envOf s s.iss.sheet with
  | none => false
  | some e => (decodeCheck o f (effFld f s.iss.run) s.iss).isNone && actLanes o f s e == ls &&
      ((unitsOf (execFld o f s.iss.run).u ls).all fun u => match viewOf s e (execFld o f s.iss.run) (issueAt s e.sh) u with
        | some v => clearB o s v && nextB (c f) s fun t => onlyB s t 3 && (getSheet t 3).map (·.pc) == some s.iss.next &&
            u.all fun l => threadAt t 3 l == (laneThread e.sh l).map (w v)
        | none => false)

theorem witness_several :
    (severalB .iadd formIadd (good formIadd) [0, 1, 32] (fun v => putG 8 1 (v.lane + 15)) &&
     severalB .iadd formIadd { good formIadd with u := true } [0, 1, 32] (fun v => putG 8 1 (if v.lane = 1 then 16 else 15)) &&
     (unitsOf true [0, 1, 32]) == [[0, 32], [1]] &&
     severalB .fadd formFadd (good formFadd) [0, 1, 32] (fun v => putF 8 (if v.lane = 0 then 0x40000000 else 0x40400000) 2)) = true := by
  decide +kernel

theorem witness_cpin_last :
    (let s := stCourse (some { freeCourse [5, 4] with pinAt := [(5, 0x10000, 0)] })
     let s := { s with cs := { s.cs with store := [{ sleeper (.pin 0) with thr := { benchThread 5 with tid := 1 } }] } }
     soloB formCpin (good formCpin) s 0 fun e v =>
       onCourse s e v (fun c => !c.c.clus && c.c.members.contains (1, 4) && !c.c.pinned && c.c.tiles.isEmpty &&
         c.c.pinAt == [(5, s.iss.pc, 0)]) && (storedOf s 1 5).any (fun n => n.k == kImage e.sh 0) && (storedOf s 1 4).isNone &&
       decide (2 ≤ 32 * e.la.r.depth) &&
       nextB (.cpin (good formCpin)) s fun t => threadAt t 3 0 == none &&
         (((getPallet t 1).bind fun p => sGet p.table 0).map fun x => (x.pinned, x.members, x.pinAt.map (·.1))) ==
           some (true, [(1, 5), (1, 4)], [5, 4])) = true := by decide +kernel

/-- A command whose own checks fail ends with status k and changes nothing. -/
def failB (i : Cmd → Instr) (s : State) (d : List Byte) (k : Nat) : Bool :=
  gives (cmdData s (aCmd d)) d && mgB (i (aCmd d)) s (aCmd d) k [] fun t =>
    t.ms == s.ms && t.cs == s.cs && t.fb == s.fb && t.mg.parts == s.mg.parts && t.mg.ctxs == s.mg.ctxs && t.mg.owner == s.mg.owner

theorem witness_failingCommands :
    (let s := stOwned
     failB .partdelCmd s (leBytes 8 5) 9 && failB .partdelCmd s (leBytes 8 0) 5 && failB .partgetCmd s (leBytes 8 5) 9 &&
     failB .retgetCmd s (leBytes 8 5) 9 && failB .calgetCmd s (leBytes 8 5) 9 && failB .ctxdelCmd s (leBytes 8 99) 9 &&
     failB .qresetCmd s (leBytes 8 3) 9 && failB .apcloseCmd s (leBytes 8 0) 9 && failB .mcdelCmd s (leBytes 8 0x33) 9 && failB .fwloadCmd s [] 7 &&
     failB .queueSetCmd s (layout 40 [(8, 8, 0x9000), (0x10, 1, 3), (0x14, 4, 99)]) 9 &&
     failB .qresetCmd { s with qs := { s.qs with queues := [benchQueue 7] } } (leBytes 8 0) 5) = true ∧
    (let s := { stOwned with mg := { stOwned.mg with bringUp := 5 } }
     let c := { aCmd (List.replicate 3345 (0 : Byte)) with mctp := true, src := 9 }
     let none' := { s with mg := { s.mg with owner := none } }
     (ownerNow s).isSome && nextB (.claimCmd c) s (fun t => t.mg.rsp == [(9, c.tag, 8, [])] && t.mg.owner == s.mg.owner) &&
     (ownerNow none').isNone && nextB (.claimCmd c) none' (fun t => t.mg.rsp == [(9, c.tag, 7, [])] && t.mg.owner == none)) = true ∧
    (let c := aCmd []
     let busy := { stOwned with mg := { stOwned.mg with pages := [{ pageOf stOwned c.src with busy := true }] } }
     allCmds.all fun i => !taken busy c && nextB (i c) busy fun t => t.mg.rsp == busy.mg.rsp && t.mg.beat == busy.mg.beat) = true := by decide +kernel

/-! ## Words written out from the encoding tables -/

/-- The decoder reads the words as i and nothing else, and they are i's words. -/
def reads (ws : List Word) (i : Instr) : Bool := decodeWords ws == .ok i ws.length && encode i == ws

/-- An extended form whose fields are zero. -/
def xf : Fld := { plainFld with
  len := 2
  scope := 0
  w := 0 }

/-- Words that the spec prints: norace; iadd g6, g6, g7 with STL 2; ld g5, [g4 + 0x40]; ld g6, [g4 + g8]; fma.f32.rz f4, f5, f6, f7;
the same under ?q2.nf; fma.f32.rz f4, f5, f6, 1.5f32; isqr f2, f1 with STL 6; cvt.bf16.ef.e=3 f2, f1 ~4; ibis.ord g6, f1 under .live
6, 6; brq of R111; ld.pkg.acq g13, [g4]. -/
theorem test_spec_words_1 : (
    reads [0x00000804] (.norace { plainFld with d := 1 }) &&
    reads [0x0E183208] (.iadd { plainFld with d := 6, a := 6, b := 7, stl := 2 }) &&
    reads [0x00102881, 0x00000040, 0x00000000] (.ld { plainFld with d := 5, a := 4, len := 1, lit := 4, imm := 0x40 }) &&
    reads [0x00103082, 0x00082000, 0x00400000] (.ld { xf with d := 6, a := 4, c := 8, scope := 1, w := 2 }) &&
    reads [0x0C14204A, 0x04001C00, 0x00000000] (.fma { xf with d := 4, a := 5, b := 6, c := 7, rnd := 1 }) &&
    reads [0x0C14204A, 0x04001C00, 0x00002E00] (.fma { xf with d := 4, a := 5, b := 6, c := 7, rnd := 1, gq := 2, gs := 3, ge := true }) &&
    reads [0x0C14204B, 0x64000000, 0x00000000, 0x3FC00000, 0x00000000] (.fma { xf with d := 4, a := 5, b := 6, rnd := 1, len := 3, lit := 3, imm := 0x3FC00000 }) &&
    reads [0x0E041658] (.isqr { plainFld with d := 2, a := 1, stl := 6 }) &&
    reads [0x00041456, 0x14C00000, 0x00060000] (.cvt { xf with d := 2, a := 1, stl := 4, rnd := 5, fmt := 3, e := 3 }) &&
    reads [0x0004305A, 0x0004180F, 0x000C0080] (.ibis { xf with d := 6, a := 1, ord := true, c := 6, e := 6, md := 128 }) &&
    reads [0x00003067, 0x80001800, 0x000C0080, 0x00000006, 0x00000000] (.brq { xf with d := 6, lit := 4, len := 3, imm := 0x6, c := 6, e := 6, md := 128 }) &&
    reads [0x00106882, 0x00200000, 0x00400001] (.ld { xf with d := 13, a := 4, scope := 4, w := 2, md := 1 })) = true := by decide +kernel

/-- Words that the spec prints: aadd.pkg.acq g13, [g4], g0; aexch.pkg.rel g13, [g4], g12; stf.ctray [g17 + 0x40], f0; redux.f32.add
f2, f1, m3; cpy.tray.bar g16, [g18], [g2], g14; cpyw of part four under ?q2; fwait q1, g16; dxpack.dx8.ef f4, f16, g7;
mma.bf16.bf16.tray a0, [g38, g39], [g40, g41], 16, m1; mbatch g34, m1; fdiv f5, f4, f3; ldp.dom.acq g5, [g2 + g4]. -/
theorem test_spec_words_2 : (
    reads [0x00106892, 0x00200000, 0x00000001] (.aadd { xf with d := 13, a := 4, scope := 4, md := 1 }) &&
    reads [0x18106892, 0x00200007, 0x00000002] (.aexch { xf with d := 13, a := 4, b := 12, scope := 4, md := 2 }) &&
    reads [0x0044008F, 0x80080000, 0x08000000, 0x00000040, 0x00000000] (.stf { xf with a := 17, len := 3, lit := 4, scope := 1, spc := 2, imm := 0x40 }) &&
    reads [0x0004107E, 0x00000C00, 0x00000010] (.redux { xf with d := 2, a := 1, c := 3, md := 16 }) &&
    reads [0x044880A2, 0x00083800, 0x04000008] (.cpy { xf with d := 16, a := 18, b := 2, c := 14, scope := 1, spc := 1, md := 8 }) &&
    reads [0x109908A2, 0x00080001, 0x04002200] (.cpyw { xf with d := 33, a := 38, b := 8, scope := 1, spc := 1, gq := 2, ge := true }) &&
    reads [0x004008A4] (.fwait { plainFld with d := 1, a := 16 }) &&
    reads [0x0E4020BE, 0x16C00000, 0x00000000] (.dxpack { xf with d := 4, a := 16, b := 7, rnd := 5, fmt := 11 }) &&
    reads [0x509800B3, 0x60CC0000, 0x04000001, 0x00000010, 0x00000000] (.mma { xf with a := 38, b := 40, len := 3, lit := 3, fmt := 3, scope := 1, ord := true, spc := 1, md := 1, imm := 0x10 }) &&
    reads [0x000510B8] (.mbatch { plainFld with d := 34, a := 1 }) &&
    reads [0x06102852, 0x00000005, 0x00000000] (.fdiv { xf with d := 5, a := 4, b := 3 }) &&
    reads [0x00082882, 0x00281001, 0x00400001] (.ldp { xf with d := 5, a := 2, c := 4, scope := 5, w := 2, md := 1 })) = true := by decide +kernel

/-- Words that the spec prints: mwait.dom g6, g0; prelaunch of R354; rst.b256 [g2 + g6], g8; rflag.of [g2 + g7], g16; hod.ord; launch
g20, g6, g9; tlbinv [g4], g6; dbgld g8, [g4]; dbgst.b64 [g4], g10. -/
theorem test_spec_words_3 : (
    reads [0x0000309A, 0x00280005, 0x00000000] (.mwait { xf with d := 6, scope := 5 }) &&
    reads [0x0200A0C3, 0x60000003, 0x00000000, 0xFFFFFFD8, 0xFFFFFFFF] (.prelaunch { xf with d := 20, b := 1, len := 3, lit := 3, imm := 0xFFFFFFFFFFFFFFD8 }) &&
    reads [0x100800CA, 0x00081801, 0x00A00000] (.rst { xf with a := 2, b := 8, c := 6, scope := 1, w := 5 }) &&
    reads [0x200800CE, 0x00081C01, 0x00400004] (.rflag { xf with a := 2, b := 16, c := 7, scope := 1, w := 2, md := 4 }) &&
    reads [0x000000AE, 0x00040000, 0x00000000] (.hod { xf with ord := true }) &&
    reads [0x1218A0AE, 0x00000001, 0x00000000] (.launch { xf with d := 20, a := 6, b := 9 }) &&
    reads [0x0C1000D2, 0x00000002, 0x00000000] (.tlbinv { xf with a := 4, b := 6 }) &&
    reads [0x001040D4] (.dbgld { plainFld with d := 8, a := 4 }) &&
    reads [0x141000D6, 0x00000001, 0x00600000] (.dbgst { xf with a := 4, b := 10, w := 3 })) = true := by decide +kernel

/-- Words of the 32-bit form: B or the sub-operation [31:25], A [24:18], D [17:11], STL [10:8], MAJ [7:2], LEN [1:0] (R39, R49, R66). -/
theorem test_short_words_1 : (
    reads [0x0410400C] (.isub { plainFld with d := 8, a := 4, b := 2 }) &&
    reads [0x04104010] (.imul { plainFld with d := 8, a := 4, b := 2 }) &&
    reads [0x04104014] (.iand { plainFld with d := 8, a := 4, b := 2 }) &&
    reads [0x04104018] (.ior { plainFld with d := 8, a := 4, b := 2 }) &&
    reads [0x0410401C] (.ixor { plainFld with d := 8, a := 4, b := 2 }) &&
    reads [0x04104020] (.shl { plainFld with d := 8, a := 4, b := 2 }) &&
    reads [0x04104024] (.shr { plainFld with d := 8, a := 4, b := 2 }) &&
    reads [0xFBFBFF28] (.sar { plainFld with d := 127, a := 126, b := 125, stl := 7 }) &&
    reads [0x0010402C] (.mov { plainFld with d := 8, a := 4 }) &&
    reads [0x04103830] (.icmp { plainFld with d := 7, a := 4, b := 2 }) &&
    reads [0x00104034] (.lea { plainFld with d := 8, a := 4 }) &&
    reads [0x10104038] (.inot { plainFld with d := 8, a := 4 }) &&
    reads [0x0010403C] (.srd { plainFld with d := 8, a := 4 }) &&
    reads [0x0210983C] (.swr { plainFld with d := 19, a := 4 }) &&
    reads [0x04104040] (.fadd { plainFld with d := 8, a := 4, b := 2 }) &&
    reads [0x04104044] (.fmul { plainFld with d := 8, a := 4, b := 2 })) = true := by decide +kernel

/-- Words of the 32-bit form: B or the sub-operation [31:25], A [24:18], D [17:11], STL [10:8], MAJ [7:2], LEN [1:0] (R39, R49, R66). -/
theorem test_short_words_2 : (
    reads [0x0410384C] (.fcmp { plainFld with d := 7, a := 4, b := 2 }) &&
    reads [0x04104050] (.fabs { plainFld with d := 8, a := 4 }) &&
    reads [0x02104054] (.cvti { plainFld with d := 8, a := 4 }) &&
    reads [0x0410385C] (.qnot { plainFld with d := 7, a := 4 }) &&
    reads [0x00AAA860] (.bra { plainFld with d := 85, a := 42 }) &&
    reads [0x06000860] (.call { plainFld with d := 1, a := 0 }) &&
    reads [0x0A000060] (.ret plainFld) &&
    reads [0x00000068] (.exit plainFld) &&
    reads [0x02000068] (.yield plainFld) &&
    reads [0x0000006C] (.brk plainFld) &&
    reads [0x0000016C] (.brk { plainFld with stl := 1 }) &&
    reads [0x02100070] (.cfree { plainFld with a := 4 }) &&
    reads [0x00000074] (.cbar plainFld) &&
    reads [0x04100084] (.st { plainFld with a := 4, b := 2 }) &&
    reads [0x00104088] (.ldf { plainFld with d := 8, a := 4 }) &&
    reads [0x0410008C] (.stf { plainFld with a := 4, b := 2 })) = true := by decide +kernel

/-- Words of the 32-bit form: B or the sub-operation [31:25], A [24:18], D [17:11], STL [10:8], MAJ [7:2], LEN [1:0] (R39, R49, R66). -/
theorem test_short_words_3 : (
    reads [0x12104090] (.ainc { plainFld with d := 8, a := 4 }) &&
    reads [0x0C000098] (.drain plainFld) &&
    reads [0x0410409C] (.mbpoll { plainFld with d := 8, a := 4 }) &&
    reads [0x000040C0] (.pget { plainFld with d := 8 }) &&
    reads [0x021000C0] (.pret { plainFld with a := 4 }) &&
    reads [0x041040C0] (.plaunch { plainFld with d := 8, a := 4 }) &&
    reads [0x001040C8] (.rld { plainFld with d := 8, a := 4 }) &&
    reads [0x000000CC] (.rfence plainFld) &&
    reads [0x041040CC] (.rpath { plainFld with d := 8, a := 4 }) &&
    reads [0x000840D0] (.csrr { plainFld with d := 8, a := 2 }) &&
    reads [0x021028D0] (.csrw { plainFld with d := 5, a := 4 }) &&
    reads [0x0A1000D0] (.halt { plainFld with a := 4 }) &&
    reads [0x0E1040D0] (.rclk { plainFld with d := 8, a := 4 }) &&
    reads [0x040000D4] (.expo plainFld) &&
    reads [0x040040BC] (.resclr { plainFld with d := 8 })) = true := by decide +kernel

/-- Words of the extended form, by R39, R42, R43 and R66. -/
theorem test_extended_words : (
    reads [0x0410403A, 0x00001800, 0x00000000] (.imad { xf with d := 8, a := 4, b := 2, c := 6 }) &&
    reads [0x0410405A, 0x00000000, 0x00000000] (.imake { xf with d := 8, a := 4, b := 2 }) &&
    reads [0x0410405A, 0x00000003, 0x00000000] (.iaddInterval { xf with d := 8, a := 4, b := 2 }) &&
    reads [0x0410385E, 0x00000000, 0x00000000] (.qand { xf with d := 7, a := 4, b := 2 }) &&
    reads [0x0410385E, 0x0000000F, 0x00000000] (.vote { xf with d := 7, a := 4, b := 2 }) &&
    reads [0x0410006E, 0x00000002, 0x00000000] (.swi { xf with a := 4, b := 2 }) &&
    reads [0x0410407A, 0x00001801, 0x00000000] (.shup { xf with d := 8, a := 4, b := 2, c := 6 }) &&
    reads [0x04104092, 0x00480002, 0x00000000] (.amin { xf with d := 8, a := 4, b := 2, fmt := 1, scope := 1 }) &&
    reads [0x04100096, 0x00080000, 0x00000000] (.redadd { xf with a := 4, b := 2, scope := 1 }) &&
    reads [0x0410389E, 0x00080000, 0x00000000] (.mbsend { xf with d := 7, a := 4, b := 2, scope := 1 }) &&
    reads [0x041000AA, 0x00080000, 0x04000000] (.xinit { xf with a := 4, b := 2, scope := 1, spc := 1 }) &&
    reads [0x000040B6, 0x00001800, 0x00000000] (.tzero { xf with d := 8, c := 6 }) &&
    reads [0x041040B6, 0x00001803, 0x0000001F] (.trow { xf with d := 8, a := 4, b := 2, c := 6, md := 31 }) &&
    reads [0x041040CA, 0x00080002, 0x00000000] (.rfop { xf with d := 8, a := 4, b := 2, scope := 1 }) &&
    reads [0x041000D2, 0x00000006, 0x00000001] (.racectlQuiet { xf with a := 4, b := 2, md := 1 }) &&
    reads [0x041000D2, 0x00000003, 0x00000000] (.cinv { xf with a := 4, b := 2 })) = true := by decide +kernel
/-- R427: custom-0 words: rd [11:7], funct3 [14:12], rs1 [19:15], rs2 [24:20]. -/
theorem test_xkw_words : (decodeXkw 0x0073028B == some (.qfetch ⟨5, 6, 7⟩) && decodeXkw 0x0073128B == some (.bfx ⟨5, 6, 7⟩) &&
    decodeXkw 0x0073228B == some (.swait ⟨5, 6, 7⟩) && decodeXkw 0x0073328B == some (.disp ⟨5, 6, 7⟩)) = true := by decide +kernel

/-- R67: illegal majors, a sub-operation beyond the group, an XOP on a single, LEN 1 and 3 where the entry has none. -/
theorem test_illegal_words : ([[0x000000C4], [0x000000D8], [0x000000DC], [0xFE000038], [0x0000000A, 1, 0], [0x000000B0], [0x00000069, 0, 0],
    [0x0000000B, 0, 0, 0, 0]].all fun (ws : List Word) => decodeWords ws == .illegal) = true := by decide +kernel

/-! ## Ill-formed terms -/

/-- R37, R45, R46: a form that is not listed; R41: an unused operand field, a literal in the short form; R44: a field's value, a reserved
bit, an extended field in the short form; R58: a guard's fields without GE; R61: a prefix's operand; R440: a header field too wide. -/
theorem wf_refuses : ([
    .mma plainFld, .iadd { plainFld with len := 1, lit := 1 }, .iadd { xf with c := 1 }, .exit { plainFld with d := 1 },
    .iadd { plainFld with imm := 1 }, .iadd { xf with fmt := 15 }, .iadd { xf with rsvA := 1 }, .iadd { xf with rsvB := true },
    .iadd { plainFld with md := 1 }, .iadd { xf with gq := 1 }, .atom { plainFld with d := 2, a := 3 }, .nop { plainFld with d := 1 },
    .swr { plainFld with d := 8, a := 4 }, .brq { xf with len := 3 },
    .readyCmd { aCmd [] with ver := 65536 }].all fun (i : Instr) => !i.wf) = true := by decide +kernel

/-- The fields next to those are accepted. -/
theorem wf_accepts : ([
    .iadd xf, .iadd { plainFld with len := 1, lit := 2 }, .iadd { xf with ge := true, gq := 1 }, .atom { plainFld with d := 2, a := 2 },
    .nop { plainFld with d := 0 }, .readyCmd (aCmd [])].all fun (i : Instr) => i.wf) = true := by decide +kernel

/-- CRC-32C of the digits 1 to 9, the check value that its definition gives (R411). -/
theorem test_crc : crc32c ((List.range 9).map fun i => BitVec.ofNat 8 (0x31 + i)) = 0xE3069283 := by decide +kernel

/-! ## Results that the spec works out -/

/-- R139: fex2.f32 of 0.5 gives 0x3FB5_04F3 and raises inx. -/
theorem test_fex2 : ends (st0 [] [(4, 0x3F000000, 2)]) .fex2 formFex2 (good formFex2) (fun _ v => putFlags 16 (putF 8 0x3FB504F3 2 v.t)) = true := by
  decide +kernel

/-- R148, R151: [1, 1] divided by [3, 3]. -/
theorem test_idivInterval : ends (st0 [] [(4, 0x3F8000003F800000, 7), (2, 0x4040000040400000, 7)]) .idivInterval formIdivInterval
    (good formIdivInterval) (fun _ v => putF 8 0x3EAAAAAB3EAAAAAA 7 v.t) = true := by decide +kernel

/-- The block of the narrow-formats chapter, packed with error feedback. -/
def stDx : State := st0 [(7, 0)] ([(16, 0x3DD0000041A00000, 14), (17, 0x40080000BF400000, 14)] ++ (List.range 14).map fun i => (18 + i, 0, 14))

/-- R303: f4, its tag dx8, g7, e1 and fpf after the first dxpack. -/
theorem test_dxpack :
    (let f := { xf with
       d := 4
       a := 16
       b := 7
       rnd := 5
       fmt := 11 }
     soloB formDxpack f stDx 0 fun _ _ => nextB (.dxpack f) stDx fun t => (threadAt t 3 0).any fun th => nthD th.f 4 0 == 0x20549D3A &&
       nthD th.f 5 1 == 0 && nthD th.ft 4 0 == 10 && nthD th.g 7 0 == 0x7B7F && nthD th.e 1 0 == 0x3E00000000000000 && th.fpf == 16) = true := by
  decide +kernel

end Sys2Proof.Tests
end

/-! Integer comparison and address formation (R96, R97). -/

namespace Sys2Proof.Machine

/-- An instruction whose results are a function of its operands, none of them a k register, ends with those results in its lane. -/
theorem ends_of_pureOp {i : Instr} {o : OpForm} {f : Fld} {s : State} {e : Env} {l : Nat} {v : LV} {g : LV → List Wr}
    (hi : exec i s = pureOp o f s g) (h : Solo o f s e l v) (hk : ∀ t, onKs (l % 32) (g v) t = t) :
    Ends i s s e l (onThread (g v) v.t) := by
  obtain ⟨t, hnext, hwent, honly⟩ := pure_completes h hk
  exact ⟨t, hi.trans hnext, hwent, honly⟩

theorem onThread_q (n : Nat) (x : BitVec 2) (t : Thread) : onThread [.q n x] t = putQ n x t := rfl
theorem onKs_q (c n : Nat) (x : BitVec 2) (t : Sparse (List Word)) : onKs c [.q n x] t = t := rfl

/-- The conditions from less and equal are the six order relations (R96). -/
theorem condHolds_lt_eq (c : Nat) (a b : Int) : condHolds c (decide (a < b)) (decide (a = b)) = condOf c a b := by
  unfold condHolds condOf
  split
  case h_1 => rfl
  case h_2 => simp
  case h_3 => rfl
  case h_4 => simp [le_iff_lt_or_eq]
  case h_5 =>
    rw [Bool.eq_iff_iff]
    simp only [Bool.and_eq_true, Bool.not_eq_true', decide_eq_true_eq, decide_eq_false_iff_not]
    omega
  case h_6 => rw [Bool.eq_iff_iff]; simp

/-- R96: icmp writes the condition of the elements' values to qD. -/
theorem ends_icmp {f : Fld} {s : State} {e : Env} {l : Nat} {v : LV} (h : Solo formIcmp f s e l v) :
    Ends (.icmp f) s s e l (putQ f.d.toNat (qOf (condOf f.md.toNat (elemInt (intSigned v.f.fmt) (srcElem v 1 0))
      (elemInt (intSigned v.f.fmt) (srcElem v 2 0)))) v.t) := by
  rw [← condHolds_lt_eq, ← valAt_eq, ← valAt_eq, ← onThread_q]
  exact ends_of_pureOp (exec_icmp f s) h (onKs_q _ _ _)

/-- R97: lea writes base, offset and index, summed modulo 2^64, to the pair gD. -/
theorem ends_lea {f : Fld} {s : State} {e : Env} {l : Nat} {v : LV} (h : Solo formLea f s e l v) :
    Ends (.lea f) s s e l (putG f.d.toNat 2 ((v.gs 1 f.a.toNat 2 + v.off + leaIndex v) % 2 ^ 64) v.t) := by
  rw [← onThread_wrG]
  exact ends_of_pureOp (exec_lea f s) h (onKs_wrG _ _ _ _)

/-- Settles O3: neither operation takes a prefix that changes a field, so the fields in effect are the word's; icmp's condition is then
that of the elements' values, and lea's offset and index are those of its operand. -/
theorem compareAndAddress : Obligations.CompareAndAddress := by
  unfold Obligations.CompareAndAddress
  constructor
  · intro f s e l v h
    obtain rfl : v.f = f := solo_fld h rfl
    simpa only [qOf] using ends_icmp h
  · intro f s e l v h
    obtain rfl : v.f = f := solo_fld h rfl
    simpa only [LV.off, leaIndex] using ends_lea h

end Sys2Proof.Machine

/-! Collectives (R256 to R258): a sheet that lists one lane twice, of which the statement asks two results in one register. -/

namespace Sys2Proof.Machine

/-- The sheet of a pinned course that lists lane 0 twice, with the same thread; every membership mask holds lane 0 alone. Sheet.lanes is
a plain list, and Joined does not ask that it rises. -/
def twiceSheet : Sheet := { benchSheet 3 1 (benchThread 4) 0x10000 with
  lanes := [(0, benchThread 4), (0, benchThread 4)]
  m := List.replicate 8 1
  course := some 0 }

/-- That sheet, its pallet, its launch and its context. -/
def twiceEnv : Env := ⟨twiceSheet, benchPallet 1 2, benchLaunch 2 7, benchCtx 7⟩

/-- A machine whose issuing sheet it is. -/
def twiceState : State := { State.reset with
  cs := { State.reset.cs with pallets := [twiceEnv.pl], sheets := [twiceSheet] }
  qs := { State.reset.qs with launches := [twiceEnv.la] }
  mg := { State.reset.mg with ctxs := [twiceEnv.cx] }
  iss := ⟨3, 0x10000, 0x10000, 0x1000C, [], 0, 0, 0, 0⟩ }

/-- The fields of elect q1, g2, m0 in the extended form (R256). -/
def electFld : Fld := { plainFld with len := 2, d := 1, b := 2, scope := 0, w := 0 }

/-- What lane 0 reads, each time that the sheet lists it. -/
def twiceView : LV := ⟨twiceEnv, twiceState.iss, electFld, 0, [0], benchThread 4, issueAt twiceState twiceSheet, twiceState.tick⟩

/-- No check of the unit fails in lane 0, and no operand is awaited. -/
theorem twiceView_clear : Clear formElect twiceState twiceView where
  guard := rfl
  ops := by decide +kernel
  tiles := by decide +kernel
  preds := by decide +kernel
  block := rfl

/-- The mask holds lane 0 alone; as the sheet lists it twice, it takes part with ranks 0 and 1. -/
theorem twiceState_joined :
    Joined formElect electFld twiceState twiceEnv (maskNamed twiceEnv electFld.c.toNat) [twiceView, twiceView] where
  env := rfl
  dec := by decide +kernel
  fresh := rfl
  views := by
    refine ⟨[0, 0], [twiceView, twiceView], rfl, rfl, by simp, by simpa using twiceView_clear, ?_, rfl⟩
    intro k hk
    have hm : maskNamed twiceEnv electFld.c.toNat = 1#128 := rfl
    simp only [hm, BitVec.getLsbD_one, Bool.and_eq_true, decide_eq_true_eq] at hk
    simp [hk.2]

/-- q1 of lane 0 after an outcome, none when there is no next state. -/
def electedAfter : Out → Option (BitVec 2)
  | .next t => (threadAt t twiceSheet.key 0).map fun th => nthD th.q 1 qU
  | _ => none

/-- elect leaves F in q1: it chooses rank 0, and what it writes for rank 1 comes last. -/
theorem electedAfter_twiceState : electedAfter (exec (.elect electFld) twiceState) = some qF := by decide +kernel

/-- Refutes O16: its clause of elect fails on a sheet that lists lane 0 twice, as Joined does not ask that a sheet's lanes be distinct.
Elect chooses rank 0, so the clause asks T of lane 0 for that rank, and F of the same lane for rank 1; the model leaves F. -/
theorem not_collectives : ¬ Obligations.Collectives := by
  unfold Obligations.Collectives
  rintro ⟨-, -, -, -, -, elect⟩
  obtain ⟨t, hnext, -, -, hranks, -⟩ := elect _ _ _ _ twiceState_joined
  have hrank : threadAt t twiceSheet.key 0 = some (endSkip (putQ 1 qT (benchThread 4))) := hranks 0 twiceView rfl
  have hT : electedAfter (.next t) = some qT := by
    rw [electedAfter, hrank]
    rfl
  rw [← hnext, electedAfter_twiceState] at hT
  exact absurd hT (by decide)

end Sys2Proof.Machine
